-- ==== Sys2Proof/Word.lean ====
section
/-! DEFINITION. The words of the block: the widths that the spec gives its values. Bit 0 is the least significant bit
of every word (rule R7). -/

namespace Sys2Proof

/-- One byte of the input stream, of a frame or of a call sign (an ASCII code). -/
abbrev Byte := BitVec 8

/-- The 64-bit word that the bit-field extractor takes (R90). -/
abbrev Word := BitVec 64

/-- One centred sample, 12 bits, two's complement: -2048 to 2047 (R14, R112). -/
abbrev Sample := BitVec 12

/-- One power value, an `i32` (R21, R22). -/
abbrev Power := BitVec 32

/-- The 14 bytes of a frame as the one number `frame[0] ++ ... ++ frame[13]` (R66). -/
abbrev Frame := BitVec 112

/-- The 56-bit ME payload (R66, R173). -/
abbrev Me := BitVec 56

/-- An ICAO address, 24 bits (R26). -/
abbrev Icao := BitVec 24

/-- A memory or a map: pairs of an address and the entry that stands there. -/
abbrev Mem (α : Type) := List (Nat × α)

end Sys2Proof
end

