-- ==== Sys2Proof/Config.lean ====
section
/-! DEFINITION. The constants of rule R5, the open parameters of the spec (92_eei_decisions.md D6, D8, D15, D21, D22),
and the free values: opaque constants without a body for what no rule fixes. -/

namespace Sys2Proof

namespace Config

/-- `GENERATOR`: the default low 24 coefficients of the CRC generator (R5, R100). -/
def generator : BitVec 24 := 0xFFF409#24

/-- `BLOCK_SIZE`: power values in one block buffer (R5, R21). -/
def blockSize : Nat := 65536

/-- The largest legal `window_size` (R5, R125). -/
def maxWindow : Nat := 65536

/-- The `window_size` of the demodulator's own window, and `FRAME_ADVANCE` (R5, R145, R155). -/
def demodWindow : Nat := 1200

/-- `PC_BATCH_MULTIPLE` (R5, R114). -/
def batchMultiple : Nat := 8

/-- `DF_ADSB`: the one downlink format that the demodulator accepts (R5, R154). -/
def dfAdsb : BitVec 5 := 17#5

/-- `NS_PER_SAMPLE`: nanoseconds in one power sample (R5, R62). -/
def nsPerSample : Nat := 100

/-- `PAIR_WINDOW_NS`: the age, exclusive, below which an even and an odd position message pair (R5, R273). -/
def pairWindowNs : Int := 1000000000

/-- Free value: the power entry that `PW.GET i` reads in the window number `serial` at `position` when the entry lies
beyond the end of the stream, or was never written (R21, R130). -/
opaque unspecifiedPower (serial position i : Nat) : Power

/-- Free value: an entry of `crc_table` that no `CRC.BUILD` has written (R20, R303). -/
opaque unbuiltCrcEntry (index : Nat) : BitVec 24

/-- Free value: the category that `ID.DECODE` computes for a type code outside 1 to 4, which R189 leaves undefined. -/
opaque undefinedCategory (typeCode : BitVec 5) (ca : BitVec 3) : BitVec 8

/-- Free value: whether the constructor of an ICAO address accepts lower-case digits, which R257 says is not stated. -/
opaque acceptsLowerCaseHex : Bool

end Config

/-- `SP_PREV_AFTER_ACCEPT` (R148, D8): the preceding score at the first position after an accepted frame. -/
inductive SpPrevAfterAccept where
  | trueSequence
  | zero
  deriving DecidableEq, Repr

/-- `ROUND_TIES` (R237, D21). -/
inductive RoundTies where
  | halfUp
  | halfEven
  | halfAway
  deriving DecidableEq, Repr

/-- `CALLSIGN_TRIM` (R188, D15). -/
inductive CallSignTrim where
  | trailing
  | none
  deriving DecidableEq, Repr

/-- The open parameters of the model (R5), fixed for a machine: no instruction changes them, and a statement about
every state holds for every setting. `Numerics` is not among them: every real result is held exactly. -/
structure Params where
  /-- `PPM_ONE_IS_LATE` (R152, D6): the polarity of the bit slicer. -/
  ppmOneIsLate : Bool
  /-- `SP_PREV_AFTER_ACCEPT` (R148, D8). -/
  spPrevAfterAccept : SpPrevAfterAccept
  /-- `ROUND_TIES` (R237, D21). -/
  roundTies : RoundTies
  /-- The tie point (a) of `NL` (R238, D22): `NL(0)` is 59, else 60. -/
  nlAtEquatorIs59 : Bool
  /-- The tie point (b) of `NL` (R238, D22): `NL` at exactly 87 degrees is 2, else 1. -/
  nlAt87DegreesIs2 : Bool
  /-- `CALLSIGN_TRIM` (R188, D15). -/
  callSignTrim : CallSignTrim
  /-- `PURGE_NS` (R5, R275), the host's inactivity threshold. -/
  purgeNs : Nat
  deriving DecidableEq, Repr

/-- Every open parameter at the default that R5 gives. -/
def Params.default : Params where
  ppmOneIsLate := true
  spPrevAfterAccept := .trueSequence
  roundTies := .halfUp
  nlAtEquatorIs59 := true
  nlAt87DegreesIs2 := true
  callSignTrim := .trailing
  purgeNs := 60000000000

end Sys2Proof
end

