-- ==== Sys2Proof/Machine/Cosine.lean ====
section
/-! DEFINITION. Integer bounds on the cosine of a rational angle, as fine as they are asked for: what the threshold form of
`CPR.NL` (R238) compares. The half-angle formula takes the cosine of an angle from that of twice the angle. -/

namespace Sys2Proof.Machine

/-- Newton's iteration for the square root of `n`, from `x` above it. It ends where it no longer falls; each turn before
that makes `x` smaller, so `x` turns are enough. -/
def sqrtFrom (n : Nat) : Nat → Nat → Nat
  | 0, x => x
  | fuel + 1, x =>
    let next := (x + n / x) / 2
    if next < x then sqrtFrom n fuel next else x

/-- The square root of `n`, rounded down. -/
def sqrtFloor (n : Nat) : Nat :=
  if n ≤ 1 then n else sqrtFrom n (2 ^ (n.log2 / 2 + 1)) (2 ^ (n.log2 / 2 + 1))

/-- A lower and an upper bound on `scale * (1 + cos (π num / den))`, for `0 ≤ num ≤ den`, by `k` half-angle steps. -/
def cosBounds (scale : Nat) : Nat → Nat → Nat → Nat × Nat
  | 0, _, _ => (0, 2 * scale)
  | k + 1, num, den =>
    if 2 * num ≤ den then
      let b := cosBounds scale k (2 * num) den
      (scale + sqrtFloor (scale * b.1 / 2), min (2 * scale) (scale + sqrtFloor (scale * b.2 / 2) + 1))
    else
      let b := cosBounds scale k (2 * den - 2 * num) den
      (scale - (sqrtFloor (scale * b.2 / 2) + 1), scale - sqrtFloor (scale * b.1 / 2))

/-- Whether `(1 + cos (π num / den)) * (1 - cos (2π / n)) ≥ 2 * (1 - cos (π / 30))`, where `k` half-angle steps decide it. -/
def belowWithin (k n num den : Nat) : Option Bool :=
  let scale := 4 ^ (k + 4)
  let a := cosBounds scale k num den
  let b := cosBounds scale k 2 n
  let c := cosBounds scale k 1 30
  if 2 * scale * (2 * scale - c.1) ≤ a.1 * (2 * scale - b.2) then some true
  else if a.2 * (2 * scale - b.1) < 2 * scale * (2 * scale - c.2) then some false
  else none

/-- The same with twice the steps until they decide it. Where no number of steps decides it, the two sides are equal. -/
def belowFrom (n num den : Nat) : Nat → Nat → Bool
  | 0, _ => true
  | fuel + 1, k =>
    match belowWithin k n num den with
    | some b => b
    | none => belowFrom n num den fuel (2 * k)

/-- Whether `(1 + cos (π num / den)) * (1 - cos (2π / n)) ≥ 2 * (1 - cos (π / 30))`, decided exactly. Both sides lie in the
field of the roots of unity of order `60 n den`, where a difference that is not zero is at least `2^(-300 n den)`: the last
number of steps tried is more than enough to see it. -/
def cosAtLeast (n num den : Nat) : Bool := belowFrom n num den ((n * den).log2 + 10) 64

end Sys2Proof.Machine
end

