-- ==== Sys2Proof/Syntax.lean ====
section
/-! DEFINITION. The operands of the block's operations, the operations themselves (`Instr`: one constructor for each row
of spec/opcode_table.json), and the requests by which the host asks for them. -/

namespace Sys2Proof

/-- A validated frame with its timestamp (R24). -/
structure RawMessage where
  timestampNs : BitVec 64
  bytes : Frame
  deriving DecidableEq, Repr

/-- An exact angle or coordinate in turns: the rational `num / den` (R230: all arithmetic is on exact rationals). -/
structure Turns where
  num : Int
  den : Nat
  deriving DecidableEq, Repr

/-- A Gray code of any number of bits, `N` in R201. The altitude fields hold codes of 3 and of 9 bits. -/
structure GrayCode where
  width : Nat
  code : Nat
  deriving DecidableEq, Repr

/-- What `ID.DECODE` reads from an identification payload (R185). The call sign is a list of ASCII codes (R26). -/
structure IdentPayload where
  category : BitVec 8
  callSign : List Byte
  deriving DecidableEq, Repr

/-- What `AP.DECODE` reads from a position payload (R195). The altitude in metres is a function of `altitudeFt` (R205). -/
structure PositionPayload where
  altitudeFt : Int
  parity : BitVec 1
  x : BitVec 17
  y : BitVec 17
  deriving DecidableEq, Repr

/-- What `AV.DECODE` reads from a velocity payload: the integers from which R215 defines its real results. -/
inductive VelocityPayload where
  /-- Subtypes 1 and 2: the signed components in knots (R216). -/
  | ground (vEast vNorth : Int)
  /-- Subtypes 3 and 4: the speed in knots, the heading-status bit and the heading (R217). -/
  | air (vKt : Nat) (sh : BitVec 1) (hdg : BitVec 10)
  deriving DecidableEq, Repr

/-- The three kinds of decoded payload (R25). -/
inductive Payload where
  | identification (p : IdentPayload)
  | position (p : PositionPayload)
  | velocity (p : VelocityPayload)
  deriving DecidableEq, Repr

/-- A decoded message: every kind carries the timestamp and the ICAO address of its frame (R25, R176). -/
structure Message where
  timestampNs : BitVec 64
  icao : Icao
  payload : Payload
  deriving DecidableEq, Repr

/-- The operations and formats of the block: one constructor for each row of spec/opcode_table.json, in its order. The
first 35 are the port operations of 00_scope.md section 5, the others the data formats of 30_encoding.md: a word of a
format, presented at the unit that decodes it. A field named `unread…` is carried and never read (R80). -/
inductive Instr where
  /-- `BF.EXTRACT`: R90: `extractUnsigned(value, start, size)`. -/
  | bfExtract (value : Word) (start size : Int)
  /-- `BF.TEST`: R92: `testBit(value, index)`. -/
  | bfTest (value : Word) (index : Int)
  /-- `CRC.BUILD`: R101: fill `crc_table` for a generator. -/
  | crcBuild (generator : BitVec 24)
  /-- `CRC.CRC`: R102: the CRC of a byte string. -/
  | crcCrc (bytes : List Byte)
  /-- `SD.NEW`: R110: construct a sample decoder on a byte source. -/
  | sdNew (source : Nat) (batchSize : Int)
  /-- `SD.READBATCH`: R111: up to `sd_batch` centred samples. -/
  | sdReadbatch
  /-- `PC.NEW`: R114: construct a power computer on a byte source. -/
  | pcNew (source : Nat) (batchSize : Int)
  /-- `PC.READBATCH`: R115: up to `pc_batch` power values. -/
  | pcReadbatch
  /-- `PW.NEW`: R125: construct a window on a byte source. -/
  | pwNew (source : Nat) (windowSize : Int)
  /-- `PW.SIZE`: R127. -/
  | pwSize
  /-- `PW.POSITION`: R128. -/
  | pwPosition
  /-- `PW.ISFULL`: R129. -/
  | pwIsfull
  /-- `PW.GET`: R130: the entry `i` of the window. -/
  | pwGet (i : Int)
  /-- `PW.ADVANCE`: R131. -/
  | pwAdvance
  /-- `PW.ADVANCEBY`: R132: `PW.ADVANCE` n times. -/
  | pwAdvanceby (n : Nat)
  /-- `DM.NEW`: R145: construct a demodulator on a byte source. -/
  | dmNew (source : Nat)
  /-- `DM.SP`: R146: the preamble score at the position. -/
  | dmSp
  /-- `DM.SV`: R147: the void score at the position. -/
  | dmSv
  /-- `DM.DETECT`: R149: the preamble decision at the position. -/
  | dmDetect
  /-- `DM.SLICE`: R152, R153: slice the 112 bits at the position. -/
  | dmSlice
  /-- `DM.NEXT`: R155: scan for the next accepted frame. -/
  | dmNext
  /-- `RM.OF`: R170. -/
  | rmOf (timestampNs : BitVec 64) (bytes : Frame)
  /-- `RM.DF`: R171. -/
  | rmDf (raw : RawMessage)
  /-- `RM.ICAO`: R172. -/
  | rmIcao (raw : RawMessage)
  /-- `RM.ME`: R173. -/
  | rmMe (raw : RawMessage)
  /-- `RM.TC`: R174. -/
  | rmTc (raw : RawMessage)
  /-- `MP.PARSE`: R176. -/
  | mpParse (raw : RawMessage)
  /-- `ID.DECODE`: R185. -/
  | idDecode (raw : RawMessage)
  /-- `AP.DECODE`: R195. -/
  | apDecode (raw : RawMessage)
  /-- `ALT.DECODE`: R198. -/
  | altDecode (alt : BitVec 12)
  /-- `GRAY.DECODE`: R201. -/
  | grayDecode (g : GrayCode)
  /-- `AV.DECODE`: R215. -/
  | avDecode (raw : RawMessage)
  /-- `CPR.NL`: R238: the longitude zone count at a latitude in turns. -/
  | cprNl (phi : Turns)
  /-- `CPR.DECODE`: R230. -/
  | cprDecode (x0 y0 x1 y1 : BitVec 17) (mostRecent : BitVec 1)
  /-- `ACC.UPDATE`: R272: fold a message into the state of its aircraft. -/
  | accUpdate (msg : Message)
  /-- `SAMPLE`: R61, R112: a raw sample word at the sample decoder. -/
  | sample (ignored : BitVec 4) (u : BitVec 12)
  /-- `REPLAY.RECORD`: R84: a replay record, which feeds `RM.OF`. -/
  | replayRecord (timestampNs : BitVec 64) (frame : Frame)
  /-- `FRAME.DF17`: R66, R154: a candidate frame with `DF` 17 at the acceptor. -/
  | frameDf17 (unread : BitVec 3) (icao : Icao) (me : Me) (check : BitVec 24)
  /-- `FRAME.OTHER`: R66, R154: a candidate frame with another `DF`. -/
  | frameOther (df : BitVec 5) (unread : BitVec 3) (icao : Icao) (me : Me) (check : BitVec 24)
  /-- `ME.IDENT.TC1`: R70, R185. -/
  | meIdentTc1 (ca : BitVec 3) (c0 c1 c2 c3 c4 c5 c6 c7 : BitVec 6)
  /-- `ME.IDENT.TC2`: R70, R185. -/
  | meIdentTc2 (ca : BitVec 3) (c0 c1 c2 c3 c4 c5 c6 c7 : BitVec 6)
  /-- `ME.IDENT.TC3`: R70, R185. -/
  | meIdentTc3 (ca : BitVec 3) (c0 c1 c2 c3 c4 c5 c6 c7 : BitVec 6)
  /-- `ME.IDENT.TC4`: R70, R185. -/
  | meIdentTc4 (ca : BitVec 3) (c0 c1 c2 c3 c4 c5 c6 c7 : BitVec 6)
  /-- `ME.POSITION.TC9`: R72, R195. -/
  | mePositionTc9 (unread50 : BitVec 3) (alt : BitVec 12) (unread35 f : BitVec 1) (y x : BitVec 17)
  /-- `ME.POSITION.TC10`: R72, R195. -/
  | mePositionTc10 (unread50 : BitVec 3) (alt : BitVec 12) (unread35 f : BitVec 1) (y x : BitVec 17)
  /-- `ME.POSITION.TC11`: R72, R195. -/
  | mePositionTc11 (unread50 : BitVec 3) (alt : BitVec 12) (unread35 f : BitVec 1) (y x : BitVec 17)
  /-- `ME.POSITION.TC12`: R72, R195. -/
  | mePositionTc12 (unread50 : BitVec 3) (alt : BitVec 12) (unread35 f : BitVec 1) (y x : BitVec 17)
  /-- `ME.POSITION.TC13`: R72, R195. -/
  | mePositionTc13 (unread50 : BitVec 3) (alt : BitVec 12) (unread35 f : BitVec 1) (y x : BitVec 17)
  /-- `ME.POSITION.TC14`: R72, R195. -/
  | mePositionTc14 (unread50 : BitVec 3) (alt : BitVec 12) (unread35 f : BitVec 1) (y x : BitVec 17)
  /-- `ME.POSITION.TC15`: R72, R195. -/
  | mePositionTc15 (unread50 : BitVec 3) (alt : BitVec 12) (unread35 f : BitVec 1) (y x : BitVec 17)
  /-- `ME.POSITION.TC16`: R72, R195. -/
  | mePositionTc16 (unread50 : BitVec 3) (alt : BitVec 12) (unread35 f : BitVec 1) (y x : BitVec 17)
  /-- `ME.POSITION.TC17`: R72, R195. -/
  | mePositionTc17 (unread50 : BitVec 3) (alt : BitVec 12) (unread35 f : BitVec 1) (y x : BitVec 17)
  /-- `ME.POSITION.TC18`: R72, R195. -/
  | mePositionTc18 (unread50 : BitVec 3) (alt : BitVec 12) (unread35 f : BitVec 1) (y x : BitVec 17)
  /-- `ME.POSITION.TC20`: R72, R195. -/
  | mePositionTc20 (unread50 : BitVec 3) (alt : BitVec 12) (unread35 f : BitVec 1) (y x : BitVec 17)
  /-- `ME.POSITION.TC21`: R72, R195. -/
  | mePositionTc21 (unread50 : BitVec 3) (alt : BitVec 12) (unread35 f : BitVec 1) (y x : BitVec 17)
  /-- `ME.POSITION.TC22`: R72, R195. -/
  | mePositionTc22 (unread50 : BitVec 3) (alt : BitVec 12) (unread35 f : BitVec 1) (y x : BitVec 17)
  /-- `ME.VELOCITY.ST1`: R75, R216. -/
  | meVelocitySt1 (unread47 : BitVec 5) (dew : BitVec 1) (vew : BitVec 10) (dns : BitVec 1) (vns : BitVec 10) (unread20 : BitVec 21)
  /-- `ME.VELOCITY.ST2`: R75, R216. -/
  | meVelocitySt2 (unread47 : BitVec 5) (dew : BitVec 1) (vew : BitVec 10) (dns : BitVec 1) (vns : BitVec 10) (unread20 : BitVec 21)
  /-- `ME.VELOCITY.ST3`: R75, R217. -/
  | meVelocitySt3 (unread47 : BitVec 5) (sh : BitVec 1) (hdg : BitVec 10) (unread31 : BitVec 1) (airspeed : BitVec 10) (unread20 : BitVec 21)
  /-- `ME.VELOCITY.ST4`: R75, R217. -/
  | meVelocitySt4 (unread47 : BitVec 5) (sh : BitVec 1) (hdg : BitVec 10) (unread31 : BitVec 1) (airspeed : BitVec 10) (unread20 : BitVec 21)
  /-- `ME.VELOCITY.ST0`: R215: a subtype that decodes to absent. -/
  | meVelocitySt0 (unread : BitVec 48)
  /-- `ME.VELOCITY.ST5`: R215: a subtype that decodes to absent. -/
  | meVelocitySt5 (unread : BitVec 48)
  /-- `ME.VELOCITY.ST6`: R215: a subtype that decodes to absent. -/
  | meVelocitySt6 (unread : BitVec 48)
  /-- `ME.VELOCITY.ST7`: R215: a subtype that decodes to absent. -/
  | meVelocitySt7 (unread : BitVec 48)
  /-- `ME.TC0`: R176: a type code that decodes to absent. -/
  | meTc0 (unread : BitVec 51)
  /-- `ME.TC5`: R176: a type code that decodes to absent. -/
  | meTc5 (unread : BitVec 51)
  /-- `ME.TC6`: R176: a type code that decodes to absent. -/
  | meTc6 (unread : BitVec 51)
  /-- `ME.TC7`: R176: a type code that decodes to absent. -/
  | meTc7 (unread : BitVec 51)
  /-- `ME.TC8`: R176: a type code that decodes to absent. -/
  | meTc8 (unread : BitVec 51)
  /-- `ME.TC23`: R176: a type code that decodes to absent. -/
  | meTc23 (unread : BitVec 51)
  /-- `ME.TC24`: R176: a type code that decodes to absent. -/
  | meTc24 (unread : BitVec 51)
  /-- `ME.TC25`: R176: a type code that decodes to absent. -/
  | meTc25 (unread : BitVec 51)
  /-- `ME.TC26`: R176: a type code that decodes to absent. -/
  | meTc26 (unread : BitVec 51)
  /-- `ME.TC27`: R176: a type code that decodes to absent. -/
  | meTc27 (unread : BitVec 51)
  /-- `ME.TC28`: R176: a type code that decodes to absent. -/
  | meTc28 (unread : BitVec 51)
  /-- `ME.TC29`: R176: a type code that decodes to absent. -/
  | meTc29 (unread : BitVec 51)
  /-- `ME.TC30`: R176: a type code that decodes to absent. -/
  | meTc30 (unread : BitVec 51)
  /-- `ME.TC31`: R176: a type code that decodes to absent. -/
  | meTc31 (unread : BitVec 51)
  /-- `ALT.Q1`: R73, R199. -/
  | altQ1 (nHi : BitVec 7) (nLo : BitVec 4)
  /-- `ALT.Q0`: R74, R200. -/
  | altQ0 (c1 a1 c2 a2 c4 a4 b1 b2 d2 b4 d4 : BitVec 1)
  | char0
  | char1
  | char2
  | char3
  | char4
  | char5
  | char6
  | char7
  | char8
  | char9
  | char10
  | char11
  | char12
  | char13
  | char14
  | char15
  | char16
  | char17
  | char18
  | char19
  | char20
  | char21
  | char22
  | char23
  | char24
  | char25
  | char26
  | char27
  | char28
  | char29
  | char30
  | char31
  | char32
  | char33
  | char34
  | char35
  | char36
  | char37
  | char38
  | char39
  | char40
  | char41
  | char42
  | char43
  | char44
  | char45
  | char46
  | char47
  | char48
  | char49
  | char50
  | char51
  | char52
  | char53
  | char54
  | char55
  | char56
  | char57
  | char58
  | char59
  | char60
  | char61
  | char62
  | char63
  deriving DecidableEq, Repr

/-- The name that selects a port operation (R7, 00_scope.md section 5); the spec gives a port operation no bit encoding. -/
inductive PortOp where
  | bfExtract
  | bfTest
  | crcBuild
  | crcCrc
  | sdNew
  | sdReadbatch
  | pcNew
  | pcReadbatch
  | pwNew
  | pwSize
  | pwPosition
  | pwIsfull
  | pwGet
  | pwAdvance
  | pwAdvanceby
  | dmNew
  | dmSp
  | dmSv
  | dmDetect
  | dmSlice
  | dmNext
  | rmOf
  | rmDf
  | rmIcao
  | rmMe
  | rmTc
  | mpParse
  | idDecode
  | apDecode
  | altDecode
  | grayDecode
  | avDecode
  | cprNl
  | cprDecode
  | accUpdate
  deriving DecidableEq, Repr

/-- The formats of 30_encoding.md that reach a unit as a word of bits. -/
inductive Format where
  | sample16
  | replay176
  | frame112
  | me56
  | alt12
  | char6
  deriving DecidableEq, Repr

/-- A read of the byte source that will fail (R41 (iii)): the how-manieth `SrcRead` on the source it is, what the source
reports, and how many bytes the failing read consumes, which the block does not know (R258). -/
structure IoFailure where
  atCall : Nat
  info : Int
  consumed : Nat
  deriving DecidableEq, Repr

/-- A byte source of the host (R41): its whole stream, the cursor of R12, how many `SrcRead`s it has served, and which
of them fail. `ended` says that a read has delivered fewer bytes than it was asked for: the stream is exhausted, and every
later read returns the empty string (R41 (ii)). -/
structure ByteSource where
  bytes : List Byte
  cursor : Nat
  calls : Nat
  failures : List IoFailure
  ended : Bool
  deriving DecidableEq, Repr

/-- What the host hands to the block, one item at a time (R270). The last four items are acts of the host and no
operation of the opcode table. -/
inductive Request where
  /-- A port operation, selected by name, with the values of its operands. -/
  | call (op : PortOp) (args : List Int)
  /-- A word of a data format as the bytes in which it is stored. -/
  | word (format : Format) (bytes : List Byte)
  /-- The host opens a byte source (R292 step 2); its handle is the number of sources opened before it. -/
  | openSource (bytes : List Byte) (failures : List IoFailure)
  /-- The host evicts the aircraft that have been silent too long at its time `now` (R275). -/
  | purge (now : Nat)
  /-- The host constructs a `CallSign` value from a text (R257). -/
  | newCallSign (text : List Byte)
  /-- The host constructs an `IcaoAddress` value from a text (R257). -/
  | newIcaoAddress (text : List Byte)
  deriving DecidableEq, Repr

end Sys2Proof
end

