-- ==== Sys2Proof/WellFormed.lean ====
section
/-! DEFINITION. Which terms of `Instr` are operations that a port or a format can express. -/

namespace Sys2Proof

/-- A character of `[A-Z0-9 ]`, by its ASCII code (R26). -/
def callSignChar (c : Byte) : Bool :=
  (65 ≤ c.toNat && c.toNat ≤ 90) || (48 ≤ c.toNat && c.toNat ≤ 57) || c.toNat == 32

/-- The pattern `[A-Z0-9 ]{0,8}` of a `CallSign` (R26, R82, R257). -/
def callSignOk (text : List Byte) : Bool :=
  text.length ≤ 8 && text.all callSignChar

/-- A message is a value of R25 only if its call sign is one of R26. -/
def Payload.wellFormed : Payload → Bool
  | .identification p => callSignOk p.callSign
  | .position _ => true
  | .velocity _ => true

/-- The checks on an operation: `FRAME.OTHER` is the row of every `DF` other than 17 (R154); a latitude is a rational
number, so its denominator is not zero (R230); a Gray code has at least one bit and fits its width (R201); the message that `ACC.UPDATE` takes is a message (R25, R26). -/
def Instr.wellFormed : Instr → Bool
  | .frameOther df _ _ _ _ => df != Config.dfAdsb
  | .cprNl phi => phi.den != 0
  | .grayDecode g => 0 < g.width && g.code < 2 ^ g.width
  | .accUpdate msg => msg.payload.wellFormed
  | _ => true

end Sys2Proof
end

