-- ==== Sys2Proof/Decode.lean ====
section
/-! DEFINITION. The decoder: from a request of the host to an operation, or a rejection by name; after it the encoder, and
the opcode table's own numbering of words. A data format is decoded from its bytes (30_encoding.md). A port operation has
no bit encoding: it is selected by name, and its operands arrive as values (00_scope.md section 5, D1). -/

namespace Sys2Proof

/-- Why a request expresses no operation. -/
inductive Reject where
  /-- The format has another number of bytes, or a bit outside its width is set. -/
  | notAWordOf (format : Format)
  /-- The operation takes other operands, or one of them does not fit its port. -/
  | badOperands (op : PortOp)
  /-- The request is an act of the host and no operation. -/
  | notAnOperation
  deriving DecidableEq, Repr

/-! ## Bytes and words -/

/-- The number that bytes spell, the first byte most significant (R43, R44). -/
def natOfBytes : List Byte → Nat
  | [] => 0
  | b :: rest => b.toNat * 256 ^ rest.length + natOfBytes rest

/-- The `n` bytes of a number, the most significant byte first. -/
def bytesOfNat : Nat → Nat → List Byte
  | 0, _ => []
  | n + 1, w => BitVec.ofNat 8 (w / 256 ^ n) :: bytesOfNat n w

/-- How many bits a word of the format has (R61, R66, R67, R73, R84, R187). -/
def Format.width : Format → Nat
  | .sample16 => 16
  | .replay176 => 176
  | .frame112 => 112
  | .me56 => 56
  | .alt12 => 12
  | .char6 => 6

/-- In how many bytes a word of the format is stored. -/
def Format.bytes : Format → Nat
  | .sample16 => 2
  | .replay176 => 22
  | .frame112 => 14
  | .me56 => 7
  | .alt12 => 2
  | .char6 => 1

/-- The bytes of a word as the format stores them: a raw sample has its low byte first (R42), every other format its most
significant byte (R43, R44). -/
def Format.layout (format : Format) (w : Nat) : List Byte :=
  match format with
  | .sample16 => (bytesOfNat 2 w).reverse
  | _ => bytesOfNat format.bytes w

/-- The word that the bytes of a format spell. -/
def Format.wordOf (format : Format) (bytes : List Byte) : Nat :=
  match format with
  | .sample16 => natOfBytes bytes.reverse
  | _ => natOfBytes bytes

/-! ## The data formats -/

/-- The raw sample word (R61). -/
def decodeSample (w : BitVec 16) : Instr :=
  .sample (w.extractLsb' 12 4) (w.extractLsb' 0 12)

/-- The replay record (R84). -/
def decodeReplay (w : BitVec 176) : Instr :=
  .replayRecord (w.extractLsb' 112 64) (w.extractLsb' 0 112)

/-- The frame, by its downlink format (R60, R66). -/
def decodeFrame (w : BitVec 112) : Instr :=
  if w.extractLsb' 107 5 = Config.dfAdsb then
    .frameDf17 (w.extractLsb' 104 3) (w.extractLsb' 80 24) (w.extractLsb' 24 56) (w.extractLsb' 0 24)
  else
    .frameOther (w.extractLsb' 107 5) (w.extractLsb' 104 3) (w.extractLsb' 80 24) (w.extractLsb' 24 56)
      (w.extractLsb' 0 24)

/-- The ME payload, by its type code and, for type code 19, its subtype (R60, R70, R72, R75). -/
def decodeMe (w : BitVec 56) : Instr :=
  match (w.extractLsb' 51 5).toNat with
  | 0 => .meTc0 (w.extractLsb' 0 51)
  | 1 => .meIdentTc1 (w.extractLsb' 48 3) (w.extractLsb' 42 6) (w.extractLsb' 36 6) (w.extractLsb' 30 6) (w.extractLsb' 24 6)
      (w.extractLsb' 18 6) (w.extractLsb' 12 6) (w.extractLsb' 6 6) (w.extractLsb' 0 6)
  | 2 => .meIdentTc2 (w.extractLsb' 48 3) (w.extractLsb' 42 6) (w.extractLsb' 36 6) (w.extractLsb' 30 6) (w.extractLsb' 24 6)
      (w.extractLsb' 18 6) (w.extractLsb' 12 6) (w.extractLsb' 6 6) (w.extractLsb' 0 6)
  | 3 => .meIdentTc3 (w.extractLsb' 48 3) (w.extractLsb' 42 6) (w.extractLsb' 36 6) (w.extractLsb' 30 6) (w.extractLsb' 24 6)
      (w.extractLsb' 18 6) (w.extractLsb' 12 6) (w.extractLsb' 6 6) (w.extractLsb' 0 6)
  | 4 => .meIdentTc4 (w.extractLsb' 48 3) (w.extractLsb' 42 6) (w.extractLsb' 36 6) (w.extractLsb' 30 6) (w.extractLsb' 24 6)
      (w.extractLsb' 18 6) (w.extractLsb' 12 6) (w.extractLsb' 6 6) (w.extractLsb' 0 6)
  | 5 => .meTc5 (w.extractLsb' 0 51)
  | 6 => .meTc6 (w.extractLsb' 0 51)
  | 7 => .meTc7 (w.extractLsb' 0 51)
  | 8 => .meTc8 (w.extractLsb' 0 51)
  | 9 => .mePositionTc9 (w.extractLsb' 48 3) (w.extractLsb' 36 12) (w.extractLsb' 35 1) (w.extractLsb' 34 1)
      (w.extractLsb' 17 17) (w.extractLsb' 0 17)
  | 10 => .mePositionTc10 (w.extractLsb' 48 3) (w.extractLsb' 36 12) (w.extractLsb' 35 1) (w.extractLsb' 34 1)
      (w.extractLsb' 17 17) (w.extractLsb' 0 17)
  | 11 => .mePositionTc11 (w.extractLsb' 48 3) (w.extractLsb' 36 12) (w.extractLsb' 35 1) (w.extractLsb' 34 1)
      (w.extractLsb' 17 17) (w.extractLsb' 0 17)
  | 12 => .mePositionTc12 (w.extractLsb' 48 3) (w.extractLsb' 36 12) (w.extractLsb' 35 1) (w.extractLsb' 34 1)
      (w.extractLsb' 17 17) (w.extractLsb' 0 17)
  | 13 => .mePositionTc13 (w.extractLsb' 48 3) (w.extractLsb' 36 12) (w.extractLsb' 35 1) (w.extractLsb' 34 1)
      (w.extractLsb' 17 17) (w.extractLsb' 0 17)
  | 14 => .mePositionTc14 (w.extractLsb' 48 3) (w.extractLsb' 36 12) (w.extractLsb' 35 1) (w.extractLsb' 34 1)
      (w.extractLsb' 17 17) (w.extractLsb' 0 17)
  | 15 => .mePositionTc15 (w.extractLsb' 48 3) (w.extractLsb' 36 12) (w.extractLsb' 35 1) (w.extractLsb' 34 1)
      (w.extractLsb' 17 17) (w.extractLsb' 0 17)
  | 16 => .mePositionTc16 (w.extractLsb' 48 3) (w.extractLsb' 36 12) (w.extractLsb' 35 1) (w.extractLsb' 34 1)
      (w.extractLsb' 17 17) (w.extractLsb' 0 17)
  | 17 => .mePositionTc17 (w.extractLsb' 48 3) (w.extractLsb' 36 12) (w.extractLsb' 35 1) (w.extractLsb' 34 1)
      (w.extractLsb' 17 17) (w.extractLsb' 0 17)
  | 18 => .mePositionTc18 (w.extractLsb' 48 3) (w.extractLsb' 36 12) (w.extractLsb' 35 1) (w.extractLsb' 34 1)
      (w.extractLsb' 17 17) (w.extractLsb' 0 17)
  | 19 =>
    match (w.extractLsb' 48 3).toNat with
    | 0 => .meVelocitySt0 (w.extractLsb' 0 48)
    | 1 => .meVelocitySt1 (w.extractLsb' 43 5) (w.extractLsb' 42 1) (w.extractLsb' 32 10) (w.extractLsb' 31 1)
        (w.extractLsb' 21 10) (w.extractLsb' 0 21)
    | 2 => .meVelocitySt2 (w.extractLsb' 43 5) (w.extractLsb' 42 1) (w.extractLsb' 32 10) (w.extractLsb' 31 1)
        (w.extractLsb' 21 10) (w.extractLsb' 0 21)
    | 3 => .meVelocitySt3 (w.extractLsb' 43 5) (w.extractLsb' 42 1) (w.extractLsb' 32 10) (w.extractLsb' 31 1)
        (w.extractLsb' 21 10) (w.extractLsb' 0 21)
    | 4 => .meVelocitySt4 (w.extractLsb' 43 5) (w.extractLsb' 42 1) (w.extractLsb' 32 10) (w.extractLsb' 31 1)
        (w.extractLsb' 21 10) (w.extractLsb' 0 21)
    | 5 => .meVelocitySt5 (w.extractLsb' 0 48)
    | 6 => .meVelocitySt6 (w.extractLsb' 0 48)
    | _ => .meVelocitySt7 (w.extractLsb' 0 48)
  | 20 => .mePositionTc20 (w.extractLsb' 48 3) (w.extractLsb' 36 12) (w.extractLsb' 35 1) (w.extractLsb' 34 1)
      (w.extractLsb' 17 17) (w.extractLsb' 0 17)
  | 21 => .mePositionTc21 (w.extractLsb' 48 3) (w.extractLsb' 36 12) (w.extractLsb' 35 1) (w.extractLsb' 34 1)
      (w.extractLsb' 17 17) (w.extractLsb' 0 17)
  | 22 => .mePositionTc22 (w.extractLsb' 48 3) (w.extractLsb' 36 12) (w.extractLsb' 35 1) (w.extractLsb' 34 1)
      (w.extractLsb' 17 17) (w.extractLsb' 0 17)
  | 23 => .meTc23 (w.extractLsb' 0 51)
  | 24 => .meTc24 (w.extractLsb' 0 51)
  | 25 => .meTc25 (w.extractLsb' 0 51)
  | 26 => .meTc26 (w.extractLsb' 0 51)
  | 27 => .meTc27 (w.extractLsb' 0 51)
  | 28 => .meTc28 (w.extractLsb' 0 51)
  | 29 => .meTc29 (w.extractLsb' 0 51)
  | 30 => .meTc30 (w.extractLsb' 0 51)
  | _ => .meTc31 (w.extractLsb' 0 51)

/-- The altitude field, by its Q bit (R73, R74). -/
def decodeAlt (w : BitVec 12) : Instr :=
  if w.extractLsb' 4 1 = 1#1 then
    .altQ1 (w.extractLsb' 5 7) (w.extractLsb' 0 4)
  else
    .altQ0 (w.extractLsb' 11 1) (w.extractLsb' 10 1) (w.extractLsb' 9 1) (w.extractLsb' 8 1) (w.extractLsb' 7 1)
      (w.extractLsb' 6 1) (w.extractLsb' 5 1) (w.extractLsb' 3 1) (w.extractLsb' 2 1) (w.extractLsb' 1 1)
      (w.extractLsb' 0 1)

/-- The character code (R187): every code is a row of its own. -/
def decodeChar (w : BitVec 6) : Instr :=
  match w.toNat with
  | 0 => .char0 | 1 => .char1 | 2 => .char2 | 3 => .char3
  | 4 => .char4 | 5 => .char5 | 6 => .char6 | 7 => .char7
  | 8 => .char8 | 9 => .char9 | 10 => .char10 | 11 => .char11
  | 12 => .char12 | 13 => .char13 | 14 => .char14 | 15 => .char15
  | 16 => .char16 | 17 => .char17 | 18 => .char18 | 19 => .char19
  | 20 => .char20 | 21 => .char21 | 22 => .char22 | 23 => .char23
  | 24 => .char24 | 25 => .char25 | 26 => .char26 | 27 => .char27
  | 28 => .char28 | 29 => .char29 | 30 => .char30 | 31 => .char31
  | 32 => .char32 | 33 => .char33 | 34 => .char34 | 35 => .char35
  | 36 => .char36 | 37 => .char37 | 38 => .char38 | 39 => .char39
  | 40 => .char40 | 41 => .char41 | 42 => .char42 | 43 => .char43
  | 44 => .char44 | 45 => .char45 | 46 => .char46 | 47 => .char47
  | 48 => .char48 | 49 => .char49 | 50 => .char50 | 51 => .char51
  | 52 => .char52 | 53 => .char53 | 54 => .char54 | 55 => .char55
  | 56 => .char56 | 57 => .char57 | 58 => .char58 | 59 => .char59
  | 60 => .char60 | 61 => .char61 | 62 => .char62 | _ => .char63

/-- A word of a format as the number it is. -/
def decodeFormat (format : Format) (w : Nat) : Instr :=
  match format with
  | .sample16 => decodeSample (BitVec.ofNat 16 w)
  | .replay176 => decodeReplay (BitVec.ofNat 176 w)
  | .frame112 => decodeFrame (BitVec.ofNat 112 w)
  | .me56 => decodeMe (BitVec.ofNat 56 w)
  | .alt12 => decodeAlt (BitVec.ofNat 12 w)
  | .char6 => decodeChar (BitVec.ofNat 6 w)

/-- A word of a format, from the bytes that store it: the right number of bytes, and no bit above the format's width. -/
def decodeWord (format : Format) (bytes : List Byte) : Except Reject Instr :=
  let w := format.wordOf bytes
  if bytes.length ≠ format.bytes ∨ 2 ^ format.width ≤ w then .error (.notAWordOf format)
  else .ok (decodeFormat format w)

/-! ## The port operations -/

/-- An operand of `n` bits. -/
def asBits (n : Nat) (z : Int) : Option (BitVec n) :=
  if 0 ≤ z ∧ z < 2 ^ n then some (BitVec.ofNat n z.toNat) else none

/-- An unsigned operand. -/
def asNat (z : Int) : Option Nat :=
  if 0 ≤ z then some z.toNat else none

/-- A byte string. -/
def asBytes : List Int → Option (List Byte)
  | [] => some []
  | z :: rest => (asBits 8 z).bind fun b => (asBytes rest).map fun bs => b :: bs

/-- A `RawMessage` operand: its timestamp and its 14 bytes as one number (R24, R66). -/
def asRaw : List Int → Option RawMessage
  | [t, f] => (asBits 64 t).bind fun t => (asBits 112 f).map fun f => ⟨t, f⟩
  | _ => none

/-- A Gray code operand: its width and the code, which fits it (R201). -/
def asGray : List Int → Option GrayCode
  | [n, g] => if 0 < n ∧ 0 ≤ g ∧ g < 2 ^ n.toNat then some ⟨n.toNat, g.toNat⟩ else none
  | _ => none

/-- A latitude operand: numerator and denominator (R230). -/
def asTurns : List Int → Option Turns
  | [num, den] => if 0 < den then some ⟨num, den.toNat⟩ else none
  | _ => none

/-- A payload operand of `ACC.UPDATE`: the kind, then its fields (R25). -/
def asPayload : List Int → Option Payload
  | 0 :: category :: text =>
    (asBits 8 category).bind fun category => (asBytes text).bind fun text =>
      if callSignOk text then some (.identification ⟨category, text⟩) else none
  | [1, ft, parity, x, y] =>
    (asBits 1 parity).bind fun parity => (asBits 17 x).bind fun x => (asBits 17 y).map fun y =>
      .position ⟨ft, parity, x, y⟩
  | [2, e, n] => some (.velocity (.ground e n))
  | [3, v, sh, hdg] =>
    (asNat v).bind fun v => (asBits 1 sh).bind fun sh => (asBits 10 hdg).map fun hdg =>
      .velocity (.air v sh hdg)
  | _ => none

/-- A message operand of `ACC.UPDATE` (R25). -/
def asMessage : List Int → Option Message
  | t :: icao :: rest =>
    (asBits 64 t).bind fun t => (asBits 24 icao).bind fun icao => (asPayload rest).map fun p => ⟨t, icao, p⟩
  | _ => none

/-- An operation without operands. -/
def asNone (i : Instr) : List Int → Option Instr
  | [] => some i
  | _ => none

/-- A constructor's operands: the handle of a byte source and a size. -/
def asSourceAndSize (i : Nat → Int → Instr) : List Int → Option Instr
  | [source, size] => (asNat source).map fun source => i source size
  | _ => none

/-- The operation that a port operation's name and operands express. -/
def decodeCall (op : PortOp) (args : List Int) : Option Instr :=
  match op with
  | .bfExtract =>
    match args with
    | [v, start, size] => (asBits 64 v).map fun v => .bfExtract v start size
    | _ => none
  | .bfTest =>
    match args with
    | [v, index] => (asBits 64 v).map fun v => .bfTest v index
    | _ => none
  | .crcBuild =>
    match args with
    | [g] => (asBits 24 g).map .crcBuild
    | _ => none
  | .crcCrc => (asBytes args).map .crcCrc
  | .sdNew => asSourceAndSize .sdNew args
  | .sdReadbatch => asNone .sdReadbatch args
  | .pcNew => asSourceAndSize .pcNew args
  | .pcReadbatch => asNone .pcReadbatch args
  | .pwNew => asSourceAndSize .pwNew args
  | .pwSize => asNone .pwSize args
  | .pwPosition => asNone .pwPosition args
  | .pwIsfull => asNone .pwIsfull args
  | .pwGet =>
    match args with
    | [i] => some (.pwGet i)
    | _ => none
  | .pwAdvance => asNone .pwAdvance args
  | .pwAdvanceby =>
    match args with
    | [n] => (asNat n).map .pwAdvanceby
    | _ => none
  | .dmNew =>
    match args with
    | [source] => (asNat source).map .dmNew
    | _ => none
  | .dmSp => asNone .dmSp args
  | .dmSv => asNone .dmSv args
  | .dmDetect => asNone .dmDetect args
  | .dmSlice => asNone .dmSlice args
  | .dmNext => asNone .dmNext args
  | .rmOf => (asRaw args).map fun raw => .rmOf raw.timestampNs raw.bytes
  | .rmDf => (asRaw args).map .rmDf
  | .rmIcao => (asRaw args).map .rmIcao
  | .rmMe => (asRaw args).map .rmMe
  | .rmTc => (asRaw args).map .rmTc
  | .mpParse => (asRaw args).map .mpParse
  | .idDecode => (asRaw args).map .idDecode
  | .apDecode => (asRaw args).map .apDecode
  | .altDecode =>
    match args with
    | [alt] => (asBits 12 alt).map .altDecode
    | _ => none
  | .grayDecode => (asGray args).map .grayDecode
  | .avDecode => (asRaw args).map .avDecode
  | .cprNl => (asTurns args).map .cprNl
  | .cprDecode =>
    match args with
    | [x0, y0, x1, y1, m] =>
      (asBits 17 x0).bind fun x0 => (asBits 17 y0).bind fun y0 => (asBits 17 x1).bind fun x1 =>
        (asBits 17 y1).bind fun y1 => (asBits 1 m).map fun m => .cprDecode x0 y0 x1 y1 m
    | _ => none
  | .accUpdate => (asMessage args).map .accUpdate

/-- The decoder: total on every request. -/
def decode : Request → Except Reject Instr
  | .call op args =>
    match decodeCall op args with
    | some i => .ok i
    | none => .error (.badOperands op)
  | .word format bytes => decodeWord format bytes
  | .openSource _ _ => .error .notAnOperation
  | .purge _ => .error .notAnOperation
  | .newCallSign _ => .error .notAnOperation
  | .newIcaoAddress _ => .error .notAnOperation

/-! ## The encoder -/

/-- A word of `n` bits in its format's bytes. -/
def encodeWord (format : Format) (w : BitVec n) : Request := .word format (format.layout w.toNat)

/-- A byte string as operands. -/
def bytesAsInts (bs : List Byte) : List Int := bs.map fun b => (b.toNat : Int)

/-- A `RawMessage` as operands. -/
def rawAsInts (raw : RawMessage) : List Int := [(raw.timestampNs.toNat : Int), (raw.bytes.toNat : Int)]

/-- A payload as operands. -/
def payloadAsInts : Payload → List Int
  | .identification p => 0 :: (p.category.toNat : Int) :: bytesAsInts p.callSign
  | .position p => [1, p.altitudeFt, (p.parity.toNat : Int), (p.x.toNat : Int), (p.y.toNat : Int)]
  | .velocity (.ground e n) => [2, e, n]
  | .velocity (.air v sh hdg) => [3, (v : Int), (sh.toNat : Int), (hdg.toNat : Int)]

/-- A message as operands. -/
def messageAsInts (m : Message) : List Int :=
  (m.timestampNs.toNat : Int) :: (m.icao.toNat : Int) :: payloadAsInts m.payload

/-- The identification payload word (R70). -/
def identWord (tc : BitVec 5) (ca : BitVec 3) (c0 c1 c2 c3 c4 c5 c6 c7 : BitVec 6) : Me :=
  tc ++ ca ++ c0 ++ c1 ++ c2 ++ c3 ++ c4 ++ c5 ++ c6 ++ c7

/-- The position payload word (R72). -/
def positionWord (tc : BitVec 5) (unread50 : BitVec 3) (alt : BitVec 12) (unread35 f : BitVec 1) (y x : BitVec 17) : Me :=
  tc ++ unread50 ++ alt ++ unread35 ++ f ++ y ++ x

/-- The velocity payload word (R75): the six fields below the subtype have the same places in every decoded subtype. -/
def velocityWord (st : BitVec 3) (unread47 : BitVec 5) (b42 : BitVec 1) (f41 : BitVec 10) (b31 : BitVec 1)
    (f30 : BitVec 10) (unread20 : BitVec 21) : Me :=
  19#5 ++ st ++ unread47 ++ b42 ++ f41 ++ b31 ++ f30 ++ unread20

/-- A payload word of a velocity subtype that is not decoded (R75, R80). -/
def velocityRestWord (st : BitVec 3) (unread : BitVec 48) : Me := 19#5 ++ st ++ unread

/-- A payload word of a type code that is not decoded (R67, R80). -/
def restWord (tc : BitVec 5) (unread : BitVec 51) : Me := tc ++ unread

/-- The frame word (R66). -/
def frameWord (df : BitVec 5) (unread : BitVec 3) (icao : Icao) (me : Me) (check : BitVec 24) : Frame :=
  df ++ unread ++ icao ++ me ++ check

/-- The altitude field with `Q` = 1 (R73). -/
def altQ1Word (nHi : BitVec 7) (nLo : BitVec 4) : BitVec 12 := nHi ++ 1#1 ++ nLo

/-- The altitude field with `Q` = 0 (R74). -/
def altQ0Word (c1 a1 c2 a2 c4 a4 b1 b2 d2 b4 d4 : BitVec 1) : BitVec 12 :=
  c1 ++ a1 ++ c2 ++ a2 ++ c4 ++ a4 ++ b1 ++ 0#1 ++ b2 ++ d2 ++ b4 ++ d4

/-- The request that expresses an operation. -/
def encode : Instr → Request
  | .bfExtract value start size => .call .bfExtract [(value.toNat : Int), start, size]
  | .bfTest value index => .call .bfTest [(value.toNat : Int), index]
  | .crcBuild generator => .call .crcBuild [(generator.toNat : Int)]
  | .crcCrc bytes => .call .crcCrc (bytesAsInts bytes)
  | .sdNew source batchSize => .call .sdNew [(source : Int), batchSize]
  | .sdReadbatch => .call .sdReadbatch []
  | .pcNew source batchSize => .call .pcNew [(source : Int), batchSize]
  | .pcReadbatch => .call .pcReadbatch []
  | .pwNew source windowSize => .call .pwNew [(source : Int), windowSize]
  | .pwSize => .call .pwSize []
  | .pwPosition => .call .pwPosition []
  | .pwIsfull => .call .pwIsfull []
  | .pwGet i => .call .pwGet [i]
  | .pwAdvance => .call .pwAdvance []
  | .pwAdvanceby n => .call .pwAdvanceby [(n : Int)]
  | .dmNew source => .call .dmNew [(source : Int)]
  | .dmSp => .call .dmSp []
  | .dmSv => .call .dmSv []
  | .dmDetect => .call .dmDetect []
  | .dmSlice => .call .dmSlice []
  | .dmNext => .call .dmNext []
  | .rmOf timestampNs bytes => .call .rmOf (rawAsInts ⟨timestampNs, bytes⟩)
  | .rmDf raw => .call .rmDf (rawAsInts raw)
  | .rmIcao raw => .call .rmIcao (rawAsInts raw)
  | .rmMe raw => .call .rmMe (rawAsInts raw)
  | .rmTc raw => .call .rmTc (rawAsInts raw)
  | .mpParse raw => .call .mpParse (rawAsInts raw)
  | .idDecode raw => .call .idDecode (rawAsInts raw)
  | .apDecode raw => .call .apDecode (rawAsInts raw)
  | .altDecode alt => .call .altDecode [(alt.toNat : Int)]
  | .grayDecode g => .call .grayDecode [(g.width : Int), (g.code : Int)]
  | .avDecode raw => .call .avDecode (rawAsInts raw)
  | .cprNl phi => .call .cprNl [phi.num, (phi.den : Int)]
  | .cprDecode x0 y0 x1 y1 mostRecent => .call .cprDecode
      [(x0.toNat : Int), (y0.toNat : Int), (x1.toNat : Int), (y1.toNat : Int), (mostRecent.toNat : Int)]
  | .accUpdate msg => .call .accUpdate (messageAsInts msg)
  | .sample ignored u => encodeWord .sample16 (ignored ++ u)
  | .replayRecord timestampNs frame => encodeWord .replay176 (timestampNs ++ frame)
  | .frameDf17 unread icao me check => encodeWord .frame112 (frameWord 17#5 unread icao me check)
  | .frameOther df unread icao me check => encodeWord .frame112 (frameWord df unread icao me check)
  | .meIdentTc1 ca c0 c1 c2 c3 c4 c5 c6 c7 => encodeWord .me56 (identWord 1#5 ca c0 c1 c2 c3 c4 c5 c6 c7)
  | .meIdentTc2 ca c0 c1 c2 c3 c4 c5 c6 c7 => encodeWord .me56 (identWord 2#5 ca c0 c1 c2 c3 c4 c5 c6 c7)
  | .meIdentTc3 ca c0 c1 c2 c3 c4 c5 c6 c7 => encodeWord .me56 (identWord 3#5 ca c0 c1 c2 c3 c4 c5 c6 c7)
  | .meIdentTc4 ca c0 c1 c2 c3 c4 c5 c6 c7 => encodeWord .me56 (identWord 4#5 ca c0 c1 c2 c3 c4 c5 c6 c7)
  | .mePositionTc9 unread50 alt unread35 f y x => encodeWord .me56 (positionWord 9#5 unread50 alt unread35 f y x)
  | .mePositionTc10 unread50 alt unread35 f y x => encodeWord .me56 (positionWord 10#5 unread50 alt unread35 f y x)
  | .mePositionTc11 unread50 alt unread35 f y x => encodeWord .me56 (positionWord 11#5 unread50 alt unread35 f y x)
  | .mePositionTc12 unread50 alt unread35 f y x => encodeWord .me56 (positionWord 12#5 unread50 alt unread35 f y x)
  | .mePositionTc13 unread50 alt unread35 f y x => encodeWord .me56 (positionWord 13#5 unread50 alt unread35 f y x)
  | .mePositionTc14 unread50 alt unread35 f y x => encodeWord .me56 (positionWord 14#5 unread50 alt unread35 f y x)
  | .mePositionTc15 unread50 alt unread35 f y x => encodeWord .me56 (positionWord 15#5 unread50 alt unread35 f y x)
  | .mePositionTc16 unread50 alt unread35 f y x => encodeWord .me56 (positionWord 16#5 unread50 alt unread35 f y x)
  | .mePositionTc17 unread50 alt unread35 f y x => encodeWord .me56 (positionWord 17#5 unread50 alt unread35 f y x)
  | .mePositionTc18 unread50 alt unread35 f y x => encodeWord .me56 (positionWord 18#5 unread50 alt unread35 f y x)
  | .mePositionTc20 unread50 alt unread35 f y x => encodeWord .me56 (positionWord 20#5 unread50 alt unread35 f y x)
  | .mePositionTc21 unread50 alt unread35 f y x => encodeWord .me56 (positionWord 21#5 unread50 alt unread35 f y x)
  | .mePositionTc22 unread50 alt unread35 f y x => encodeWord .me56 (positionWord 22#5 unread50 alt unread35 f y x)
  | .meVelocitySt1 unread47 dew vew dns vns unread20 =>
    encodeWord .me56 (velocityWord 1#3 unread47 dew vew dns vns unread20)
  | .meVelocitySt2 unread47 dew vew dns vns unread20 =>
    encodeWord .me56 (velocityWord 2#3 unread47 dew vew dns vns unread20)
  | .meVelocitySt3 unread47 sh hdg unread31 airspeed unread20 =>
    encodeWord .me56 (velocityWord 3#3 unread47 sh hdg unread31 airspeed unread20)
  | .meVelocitySt4 unread47 sh hdg unread31 airspeed unread20 =>
    encodeWord .me56 (velocityWord 4#3 unread47 sh hdg unread31 airspeed unread20)
  | .meVelocitySt0 unread => encodeWord .me56 (velocityRestWord 0#3 unread)
  | .meVelocitySt5 unread => encodeWord .me56 (velocityRestWord 5#3 unread)
  | .meVelocitySt6 unread => encodeWord .me56 (velocityRestWord 6#3 unread)
  | .meVelocitySt7 unread => encodeWord .me56 (velocityRestWord 7#3 unread)
  | .meTc0 unread => encodeWord .me56 (restWord 0#5 unread)
  | .meTc5 unread => encodeWord .me56 (restWord 5#5 unread)
  | .meTc6 unread => encodeWord .me56 (restWord 6#5 unread)
  | .meTc7 unread => encodeWord .me56 (restWord 7#5 unread)
  | .meTc8 unread => encodeWord .me56 (restWord 8#5 unread)
  | .meTc23 unread => encodeWord .me56 (restWord 23#5 unread)
  | .meTc24 unread => encodeWord .me56 (restWord 24#5 unread)
  | .meTc25 unread => encodeWord .me56 (restWord 25#5 unread)
  | .meTc26 unread => encodeWord .me56 (restWord 26#5 unread)
  | .meTc27 unread => encodeWord .me56 (restWord 27#5 unread)
  | .meTc28 unread => encodeWord .me56 (restWord 28#5 unread)
  | .meTc29 unread => encodeWord .me56 (restWord 29#5 unread)
  | .meTc30 unread => encodeWord .me56 (restWord 30#5 unread)
  | .meTc31 unread => encodeWord .me56 (restWord 31#5 unread)
  | .altQ1 nHi nLo => encodeWord .alt12 (altQ1Word nHi nLo)
  | .altQ0 c1 a1 c2 a2 c4 a4 b1 b2 d2 b4 d4 => encodeWord .alt12 (altQ0Word c1 a1 c2 a2 c4 a4 b1 b2 d2 b4 d4)
  | .char0 => encodeWord .char6 0#6
  | .char1 => encodeWord .char6 1#6
  | .char2 => encodeWord .char6 2#6
  | .char3 => encodeWord .char6 3#6
  | .char4 => encodeWord .char6 4#6
  | .char5 => encodeWord .char6 5#6
  | .char6 => encodeWord .char6 6#6
  | .char7 => encodeWord .char6 7#6
  | .char8 => encodeWord .char6 8#6
  | .char9 => encodeWord .char6 9#6
  | .char10 => encodeWord .char6 10#6
  | .char11 => encodeWord .char6 11#6
  | .char12 => encodeWord .char6 12#6
  | .char13 => encodeWord .char6 13#6
  | .char14 => encodeWord .char6 14#6
  | .char15 => encodeWord .char6 15#6
  | .char16 => encodeWord .char6 16#6
  | .char17 => encodeWord .char6 17#6
  | .char18 => encodeWord .char6 18#6
  | .char19 => encodeWord .char6 19#6
  | .char20 => encodeWord .char6 20#6
  | .char21 => encodeWord .char6 21#6
  | .char22 => encodeWord .char6 22#6
  | .char23 => encodeWord .char6 23#6
  | .char24 => encodeWord .char6 24#6
  | .char25 => encodeWord .char6 25#6
  | .char26 => encodeWord .char6 26#6
  | .char27 => encodeWord .char6 27#6
  | .char28 => encodeWord .char6 28#6
  | .char29 => encodeWord .char6 29#6
  | .char30 => encodeWord .char6 30#6
  | .char31 => encodeWord .char6 31#6
  | .char32 => encodeWord .char6 32#6
  | .char33 => encodeWord .char6 33#6
  | .char34 => encodeWord .char6 34#6
  | .char35 => encodeWord .char6 35#6
  | .char36 => encodeWord .char6 36#6
  | .char37 => encodeWord .char6 37#6
  | .char38 => encodeWord .char6 38#6
  | .char39 => encodeWord .char6 39#6
  | .char40 => encodeWord .char6 40#6
  | .char41 => encodeWord .char6 41#6
  | .char42 => encodeWord .char6 42#6
  | .char43 => encodeWord .char6 43#6
  | .char44 => encodeWord .char6 44#6
  | .char45 => encodeWord .char6 45#6
  | .char46 => encodeWord .char6 46#6
  | .char47 => encodeWord .char6 47#6
  | .char48 => encodeWord .char6 48#6
  | .char49 => encodeWord .char6 49#6
  | .char50 => encodeWord .char6 50#6
  | .char51 => encodeWord .char6 51#6
  | .char52 => encodeWord .char6 52#6
  | .char53 => encodeWord .char6 53#6
  | .char54 => encodeWord .char6 54#6
  | .char55 => encodeWord .char6 55#6
  | .char56 => encodeWord .char6 56#6
  | .char57 => encodeWord .char6 57#6
  | .char58 => encodeWord .char6 58#6
  | .char59 => encodeWord .char6 59#6
  | .char60 => encodeWord .char6 60#6
  | .char61 => encodeWord .char6 61#6
  | .char62 => encodeWord .char6 62#6
  | .char63 => encodeWord .char6 63#6

/-! ## The opcode table's own numbering -/

/-- The format whose rows the opcode table gives `nbits` bits, in whole bytes. A raw sample and an altitude field both take
16: a word below 2^12 is read as an altitude field, any other as a raw sample. -/
def formatOfTable (nbits w : Nat) : Option Format :=
  match nbits with
  | 6 | 8 => some .char6
  | 12 => some .alt12
  | 16 => if w < 4096 then some .alt12 else some .sample16
  | 56 => some .me56
  | 112 => some .frame112
  | 176 => some .replay176
  | _ => none

/-- The request that stores a word of the opcode table. A port operation has no bits there, so no word stands for one. -/
def requestOfTable (nbits w : Nat) : Request :=
  match formatOfTable nbits w with
  | some format => .word format (format.layout w)
  | none => .word .sample16 []

/-- The operation that the decoder reads from a word, numbered as the opcode table numbers it. -/
def decodeTableWord (nbits w : Nat) : Option Instr := (decode (requestOfTable nbits w)).toOption

end Sys2Proof
end

