-- ==== Sys2Proof/Machine/Memory.lean ====
section
/-! DEFINITION. The memories of the block (R22, R40) and the host's map of aircraft (R271), held alike: a list of addresses
and entries in one canonical form, the addresses strictly rising. An address that is not listed has never been written. -/

namespace Sys2Proof.Machine

/-- The canonical form: the addresses rise strictly. -/
abbrev Mem.Wf {α : Type} (m : Mem α) : Prop := (m.map Prod.fst).Pairwise (· < ·)

/-- Every listed address is below `n`. -/
abbrev Mem.Below {α : Type} (n : Nat) (m : Mem α) : Prop := ∀ p ∈ m, p.1 < n

/-- `MemRead` (R8, R47): the entry at an address, or none if nothing has been written there. -/
def Mem.read? {α : Type} (m : Mem α) (a : Nat) : Option α :=
  match m with
  | [] => none
  | p :: rest => if p.1 = a then some p.2 else Mem.read? rest a

/-- `MemWrite` (R8, R47): one entry. -/
def Mem.write {α : Type} (m : Mem α) (a : Nat) (v : α) : Mem α :=
  match m with
  | [] => [(a, v)]
  | p :: rest =>
    if p.1 < a then p :: Mem.write rest a v
    else if p.1 = a then (a, v) :: rest
    else (a, v) :: p :: rest

/-- The entries `vs` at consecutive addresses from `base` on. -/
def Mem.number {α : Type} (base : Nat) : List α → Mem α
  | [] => []
  | v :: rest => (base, v) :: Mem.number (base + 1) rest

/-- Write `vs` at the addresses `0, 1, ...`, and keep every entry above them (R135). -/
def Mem.load {α : Type} (vs : List α) (m : Mem α) : Mem α :=
  Mem.number 0 vs ++ m.filter fun p => decide (vs.length ≤ p.1)

/-- Keep the entries that satisfy a test. -/
def Mem.keep {α : Type} (test : α → Bool) (m : Mem α) : Mem α := m.filter fun p => test p.2

end Sys2Proof.Machine
end

