-- ==== Sys2Proof/Machine/CrcTable.lean ====
section
/-! DEFINITION. The bitwise CRC of R101 and the table that `CRC.BUILD` fills from it. -/

namespace Sys2Proof.Machine

/-- One bit of the bitwise CRC: shift the bit in at the bottom, and subtract the generator when a one leaves at the top
(R101). -/
def crcBit (generator r : BitVec 24) (b : Bool) : BitVec 24 :=
  let shifted := (r <<< 1) ||| (BitVec.ofBool b).setWidth 24
  if r.msb then shifted ^^^ generator else shifted

/-- The bits of a byte, bit 7 first (R100, R101). -/
def byteBits (b : Byte) : List Bool :=
  [b.getLsbD 7, b.getLsbD 6, b.getLsbD 5, b.getLsbD 4, b.getLsbD 3, b.getLsbD 2, b.getLsbD 1, b.getLsbD 0]

/-- One byte of the bitwise CRC. -/
def crcBitByte (generator r : BitVec 24) (b : Byte) : BitVec 24 := (byteBits b).foldl (crcBit generator) r

/-- `crc_bitwise` (R101): the reference from which the table is built, the 24 check bits flushed with three zero bytes. -/
def crcBitwise (generator : BitVec 24) (bytes : List Byte) : BitVec 24 :=
  (bytes ++ [0#8, 0#8, 0#8]).foldl (crcBitByte generator) 0#24

/-- The entries of `crc_table` for a generator, in the order of their index (R101). -/
def crcEntries (generator : BitVec 24) : List (BitVec 24) :=
  (List.range 256).map fun i => crcBitwise generator [BitVec.ofNat 8 i]

/-- `crc_table` as `CRC.BUILD` leaves it (R101). -/
def crcTableOf (generator : BitVec 24) : Mem (BitVec 24) := Mem.load (crcEntries generator) []

end Sys2Proof.Machine
end

