-- ==== Sys2Proof/Machine/State.lean ====
section
/-! DEFINITION. The state of the machine as plain data: one instance of every unit (10_state.md), the host's byte sources
and its per-aircraft state (R27, R271), the open parameters, the result of the last operation, and the host's requests. -/

namespace Sys2Proof.Machine

/-- The errors of R255. -/
inductive ErrorCode where
  /-- Code 1. -/
  | rangeError
  /-- Code 2. -/
  | configError
  /-- Code 3. -/
  | ioError
  deriving DecidableEq, Repr

/-- An error with the `info` that R255 records: the offending arguments, or what the byte source reports. -/
structure Error where
  code : ErrorCode
  info : List Int
  deriving DecidableEq, Repr

/-- An exact length: the real number `feet * 381 / 1250` metres (R205). -/
structure Length where
  feet : Int
  deriving DecidableEq, Repr

/-- An exact speed: the real number `sqrt(knotsSq) * 463 / 900` metres a second (R216, R217, R220). -/
structure Speed where
  knotsSq : Nat
  deriving DecidableEq, Repr

/-- An exact angle in radians, clockwise from north, in `[0, 2π)`. -/
inductive Angle where
  /-- The direction of a vector (R219). -/
  | ofVector (east north : Int)
  /-- `units / 1024` of a turn (R217). -/
  | ofHeading (units : Nat)
  deriving DecidableEq, Repr

/-- A position in T32 units, one turn = 2^32 units, each coordinate an `i32` (R26, R79). -/
structure GeoPos where
  longitudeT32 : BitVec 32
  latitudeT32 : BitVec 32
  deriving DecidableEq, Repr

/-- U2: the generator and the table built from it, and the CRC working register (R11, R18, R20). -/
structure Crc24 where
  generator : BitVec 24
  table : Mem (BitVec 24)
  crcReg : BitVec 24
  deriving DecidableEq, Repr

/-- U3: the handle of its byte source, and `sd_batch` (R11). -/
structure SampleDecoder where
  source : Nat
  batch : Nat
  deriving DecidableEq, Repr

/-- The FIR history `h[0..7]` and the index `t` of the most recent sample (R14). -/
structure History where
  h : Vector Sample 8
  t : Fin 8
  deriving DecidableEq, Repr

/-- U4: its sample decoder, `pc_batch` and the FIR history (R11, R14). -/
structure PowerComputer where
  decoder : SampleDecoder
  batch : Nat
  history : History
  deriving DecidableEq, Repr

/-- U5 (R11, R13, R15, R16, R19, R21). `cur` is false when block buffer 0 is the current one. `fault` holds the recorded
error, whose code is the 2-bit register of R19. `serial` is the model's own: it numbers the windows constructed, so that
the free values of one window say nothing of another's. -/
structure PowerWindow where
  computer : PowerComputer
  windowSize : Nat
  position : BitVec 64
  avail : Nat
  eos : Bool
  cur : Bool
  blk0 : Mem Power
  blk1 : Mem Power
  fault : Option Error
  serial : Nat
  deriving DecidableEq, Repr

/-- U6: its own window, the correlator registers (R17) and the frame register (R18). -/
structure Demodulator where
  window : PowerWindow
  spPrev : Int
  spCur : Int
  spNext : Int
  frame : Frame
  deriving DecidableEq, Repr

/-- The units that read a byte source (R41, R300): U3, U4, U5 and U6, each through the units it contains. -/
inductive StreamUnit where
  | sd
  | pc
  | pw
  | dm
  deriving DecidableEq, Repr

/-- A position message in the parity slot of its aircraft (R271, R272). -/
structure StoredPosition where
  timestampNs : BitVec 64
  position : PositionPayload
  deriving DecidableEq, Repr

/-- `AircraftRunningState` (R27, R271): each field may be absent. -/
structure AircraftState where
  category : Option (BitVec 8)
  callSign : Option (List Byte)
  position : Option GeoPos
  altitude : Option Length
  speed : Option Speed
  trackOrHeading : Option Angle
  lastSeenNs : Option (BitVec 64)
  slotEven : Option StoredPosition
  slotOdd : Option StoredPosition
  deriving DecidableEq, Repr

/-- What an operation returns at its port: a result, `absent` (R260), or an error in place of the result (R264). -/
inductive Response where
  /-- No operation has returned yet. -/
  | idle
  /-- The operation has no result, or its result is state: the new instance, the CRC table, the frame register. -/
  | done
  | error (e : Error)
  | absent
  | bool (b : Bool)
  | nat (n : Nat)
  | int (z : Int)
  | u32 (v : BitVec 32)
  | i32 (v : BitVec 32)
  | u64 (v : BitVec 64)
  | samples (s : List Sample)
  | powers (p : List Power)
  | raw (r : RawMessage)
  | icao (a : Icao)
  | me (m : Me)
  | message (m : Message)
  | payload (p : Payload)
  | geo (g : GeoPos)
  | char (c : Byte)
  | text (t : List Byte)
  deriving DecidableEq, Repr

/-- The machine. -/
structure State where
  /-- The open parameters (R5), which no step changes. -/
  params : Params
  /-- U2. -/
  crc : Crc24
  /-- The sample decoder that the `SD` port addresses. -/
  sd : SampleDecoder
  /-- The power computer that the `PC` port addresses, with its own sample decoder. -/
  pc : PowerComputer
  /-- The window that the `PW` port addresses, with its own power computer. -/
  pw : PowerWindow
  /-- The demodulator, with its own window: the full chain of R292. -/
  dm : Demodulator
  /-- The host's byte sources, by handle (R41). -/
  sources : List ByteSource
  /-- How many windows have been constructed: the model's own counter. -/
  windowsBuilt : Nat
  /-- The host's map from ICAO address to per-aircraft state (R271). -/
  aircraft : Mem AircraftState
  /-- What the last operation returned. -/
  response : Response
  /-- The host's requests, the next one first. -/
  queue : List Request
  deriving DecidableEq, Repr

/-- What stops the machine. -/
inductive Fault where
  /-- Raised by `DM.NEXT` when its scan cannot end: the window is full at every one of the 2^64 positions, so the loop of
  R155 runs for ever. Only a window whose `avail` does not fit the `u64` of R15 does so. Safe. -/
  | scanNeverEnds
  deriving DecidableEq, Repr

/-- Why the machine gives no meaning to what it was asked. -/
inductive Refusal where
  /-- Raised by `exec` for an instruction that has no meaning yet. Safe. -/
  | notModelled (mnemonic : String)
  /-- Raised by `step` for a request that expresses no operation, which the spec calls not expressible at the port
  (R132, R170, R230). Safe. -/
  | notExpressible (reason : Reject)
  /-- Raised by `SD.NEW`, `PC.NEW`, `PW.NEW` and `DM.NEW` on a byte source that another unit still reads: a byte source has
  one reader, and R300 and row 16 of 93_implementation_defined.md give a second one no behaviour. Safe. -/
  | sourceInUse (handle : Nat)
  deriving DecidableEq, Repr

/-- The FIR history of a new power computer (R14, R114). -/
def History.zero : History := ⟨Vector.replicate 8 0#12, 7⟩

/-- A window of the demodulator's size constructed on a source that delivers no byte (R28 with an empty stream). -/
def PowerWindow.onEmptySource (source serial : Nat) : PowerWindow where
  computer := ⟨⟨source, 131072⟩, 65536, History.zero⟩
  windowSize := 1200
  position := 0#64
  avail := 0
  eos := true
  cur := false
  blk0 := []
  blk1 := []
  fault := none
  serial := serial

/-- The machine right after reset (R28, R290 to R292): every unit constructed, each on a byte source of its own that holds
no byte. The two windows have each made the one `SrcRead` of their construction. -/
def State.reset : State where
  params := Params.default
  crc := ⟨Config.generator, crcTableOf Config.generator, 0#24⟩
  sd := ⟨3, 131072⟩
  pc := ⟨⟨2, 131072⟩, 65536, History.zero⟩
  pw := PowerWindow.onEmptySource 1 1
  dm := ⟨PowerWindow.onEmptySource 0 0, 0, 0, 0, 0#112⟩
  sources := [⟨[], 0, 1, [], true⟩, ⟨[], 0, 1, [], true⟩, ⟨[], 0, 0, [], false⟩, ⟨[], 0, 0, [], false⟩]
  windowsBuilt := 2
  aircraft := []
  response := .idle
  queue := []

end Sys2Proof.Machine
end

