-- ==== Sys2Proof/Machine/Ops.lean ====
section
/-! DEFINITION. The shared operations over the state: returning a result, raising an error (this hardware's exception,
R255, R264), reading the byte source (R41), and reading and writing the units' memories. -/

namespace Sys2Proof.Machine

/-- What an operation answers. -/
abbrev Answer := Host.Outcome State Fault Refusal

/-- Put a result at the port. -/
def State.respond (r : Response) (s : State) : State := { s with response := r }

/-- The operation returns `r` and changes nothing else. -/
def answer (r : Response) (s : State) : Answer := .next (s.respond r)

/-- An optional result: a value, or `absent` (R260). -/
def answerOption {α : Type} (some? : α → Response) (o : Option α) (s : State) : Answer :=
  answer (match o with | some v => some? v | none => .absent) s

/-- Taking an exception: the error is returned in place of the result. Nothing is saved, no mode changes and nothing
jumps; the state is as it was (R258 (a), (b), R264). There is no return operation: the caller issues its next one (R265). -/
def raise (e : Error) (s : State) : Answer := answer (.error e) s

/-- A `RangeError` with the offending arguments (R255). -/
def Error.range (info : List Int) : Error := ⟨.rangeError, info⟩

/-- A `ConfigError` with the offending value (R255). -/
def Error.config (value : Int) : Error := ⟨.configError, [value]⟩

/-- An `IoError` with what the byte source reports (R255). -/
def Error.io (info : Int) : Error := ⟨.ioError, [info]⟩

/-! ## The byte source -/

/-- The source of a handle. R292 has the host open a source before it constructs on it, and says nothing of the other order: a handle
that names no opened source reads as one without a byte, and a reader that still reads gets the bytes of the source opened under
that number later (DESIGN CHOICE, log entry 16). -/
def sourceAt (sources : List ByteSource) (handle : Nat) : ByteSource := sources.getD handle ⟨[], 0, 0, [], false⟩

/-- `SrcRead(n)` on one source (R41), and the source afterwards: the empty string once a read has been short; else an
`IoError`; else the next `n` bytes, or as many as are left. -/
def readSource (n : Nat) (src : ByteSource) : Except Error (List Byte) × ByteSource :=
  if src.ended then (.ok [], { src with calls := src.calls + 1 })
  else
    match src.failures.find? fun f => f.atCall == src.calls with
    | some f =>
      (.error (Error.io f.info),
        { src with calls := src.calls + 1, cursor := min (src.cursor + min f.consumed n) src.bytes.length })
    | none =>
      let got := (src.bytes.drop src.cursor).take n
      (.ok got, { src with
        calls := src.calls + 1, cursor := src.cursor + got.length, ended := decide (got.length < n) })

/-- `SrcRead(n)` on the source of a handle. A source has one reader (R300): `withOwnSource` keeps it so. -/
def srcRead (n handle : Nat) (sources : List ByteSource) : Except Error (List Byte) × List ByteSource :=
  let r := readSource n (sourceAt sources handle)
  (r.1, sources.set handle r.2)

/-- The handle that a unit reads. -/
def State.sourceOf (s : State) : StreamUnit → Nat
  | .sd => s.sd.source
  | .pc => s.pc.decoder.source
  | .pw => s.pw.computer.decoder.source
  | .dm => s.dm.window.computer.decoder.source

/-- Whether a window may still read its source: at the end of the stream (R135) and with an error recorded (R258 (c)) it
reads no more. -/
def PowerWindow.mayRead (w : PowerWindow) : Bool := !w.eos && w.fault.isNone

/-- Whether a unit may still read its source. -/
def State.mayRead (s : State) : StreamUnit → Bool
  | .sd => true
  | .pc => true
  | .pw => s.pw.mayRead
  | .dm => s.dm.window.mayRead

/-- Whether another unit than `u` still reads the source of a handle. The instance that a construction of `u` replaces is
no reader any more. -/
def State.sourceInUse (s : State) (u : StreamUnit) (handle : Nat) : Bool :=
  [StreamUnit.sd, .pc, .pw, .dm].any fun v => v != u && s.mayRead v && s.sourceOf v == handle

/-- A construction on a byte source. A source has one reader, and no rule says what two readers of one source get; they are to
be unrepresentable (R300, row 16 of 93_implementation_defined.md), so the construction is refused (DESIGN CHOICE, log entry 34:
at the construction, and only where the other unit may still read). -/
def withOwnSource (u : StreamUnit) (handle : Nat) (construct : State → Answer) (s : State) : Answer :=
  if s.sourceInUse u handle then .refused (.sourceInUse handle) else construct s

/-! ## The CRC table -/

/-- `MemRead(CRCTAB, index)` (R20, R102). An entry that was never built is unspecified (R303). -/
def Crc24.entry (crc : Crc24) (index : BitVec 8) : BitVec 24 :=
  (Mem.read? crc.table index.toNat).getD (Config.unbuiltCrcEntry index.toNat)

/-! ## The block buffers -/

/-- The block buffer `b`: buffer 1 for true, buffer 0 for false (R21). -/
def PowerWindow.block (w : PowerWindow) (b : Bool) : Mem Power := if b then w.blk1 else w.blk0

/-- The window with the block buffer `b` replaced. -/
def PowerWindow.withBlock (w : PowerWindow) (b : Bool) (m : Mem Power) : PowerWindow :=
  if b then { w with blk1 := m } else { w with blk0 := m }

/-- The buffer and the index in it of the window entry `i` (R136). -/
def PowerWindow.address (w : PowerWindow) (i : Nat) : Bool × Nat :=
  let a := w.position.toNat % Config.blockSize + i
  if a < Config.blockSize then (w.cur, a) else (!w.cur, a - Config.blockSize)

/-- The window entry `i` (R126, R130, R136): real data below `avail`, an unspecified value beyond it. -/
def PowerWindow.entry (w : PowerWindow) (i : Nat) : Power :=
  let free := Config.unspecifiedPower w.serial w.position.toNat i
  if w.position.toNat + i < w.avail then
    (Mem.read? (w.block (w.address i).1) (w.address i).2).getD free
  else free

end Sys2Proof.Machine
end

