-- ==== Sys2Proof/Machine/Operands.lean ====
section
/-! DEFINITION. Operand assembly: the bit-field extractor and every field tap (R93), the raw sample (R61, R112), the frame
taps (R66, R171 to R174), the altitude field (R73, R74) and the packing of sliced bits (R65, R153). -/

namespace Sys2Proof.Machine

/-- The bits `[start, start + size)` of a 64-bit word, zero-extended to 32 bits (R90). -/
def bitField (value : Word) (start size : Nat) : BitVec 32 := (value.extractLsb' start size).setWidth 32

/-- One bit of a 64-bit word (R92). -/
def bitTest (value : Word) (index : Nat) : Bool := value.getLsbD index

/-- `decode_sample` (R61, R112): the low 12 bits of the little-endian word, minus 2048. -/
def decodeSampleBytes (b0 b1 : Byte) : Sample := (b1 ++ b0).extractLsb' 0 12 - 2048#12

/-- The whole samples of a byte string; an odd trailing byte is dropped (R111). -/
def samplesOf : List Byte → List Sample
  | b0 :: b1 :: rest => decodeSampleBytes b0 b1 :: samplesOf rest
  | _ => []

/-- Byte `k` of a frame, byte 0 most significant (R66). -/
def frameByte (f : Frame) (k : Nat) : Byte := f.extractLsb' (8 * (13 - k)) 8

/-- The 14 bytes of a frame in order (R43, R66). -/
def frameBytes (f : Frame) : List Byte := (List.range 14).map (frameByte f)

/-- The downlink format: `frame[0][7:3]` (R66, R171). -/
def frameDf (f : Frame) : BitVec 5 := (frameByte f 0).extractLsb' 3 5

/-- The ICAO address: `frame[1] ++ frame[2] ++ frame[3]` (R66, R172). -/
def frameIcao (f : Frame) : Icao := frameByte f 1 ++ frameByte f 2 ++ frameByte f 3

/-- The ME payload: `frame[4] ++ ... ++ frame[10]` (R66, R173). -/
def frameMe (f : Frame) : Me :=
  frameByte f 4 ++ frameByte f 5 ++ frameByte f 6 ++ frameByte f 7 ++ frameByte f 8 ++ frameByte f 9 ++ frameByte f 10

/-- The type code: `ME[55:51]` (R67, R174). -/
def meTypeCode (me : Me) : BitVec 5 := me.extractLsb' 51 5

/-- `CA` of an identification payload and `ST` of a velocity payload: `ME[50:48]` (R70, R75). -/
def meLow3 (me : Me) : BitVec 3 := me.extractLsb' 48 3

/-- The character code `C_k`: `ME[47 - 6k : 42 - 6k]` (R70). -/
def meCharCode (me : Me) (k : Nat) : BitVec 6 := me.extractLsb' (42 - 6 * k) 6

/-- The altitude field `ALT`: `ME[47:36]` (R72). -/
def meAlt (me : Me) : BitVec 12 := me.extractLsb' 36 12

/-- The parity `F`: `ME[34]` (R72). -/
def meParity (me : Me) : BitVec 1 := me.extractLsb' 34 1

/-- The raw CPR latitude `Y`: `ME[33:17]` (R72). -/
def meY (me : Me) : BitVec 17 := me.extractLsb' 17 17

/-- The raw CPR longitude `X`: `ME[16:0]` (R72). -/
def meX (me : Me) : BitVec 17 := me.extractLsb' 0 17

/-- `DEW` or `SH`: `ME[42]` (R75). -/
def meBit42 (me : Me) : BitVec 1 := me.extractLsb' 42 1

/-- `VEW` or `HDG`: `ME[41:32]` (R75). -/
def meField41 (me : Me) : BitVec 10 := me.extractLsb' 32 10

/-- `DNS`: `ME[31]` (R75). -/
def meBit31 (me : Me) : BitVec 1 := me.extractLsb' 31 1

/-- `VNS` or `AS`: `ME[30:21]` (R75). -/
def meField30 (me : Me) : BitVec 10 := me.extractLsb' 21 10

/-- The 11-bit number of an altitude field with `Q` = 1: `ALT[11:5] ++ ALT[3:0]` (R73). -/
def altN (alt : BitVec 12) : BitVec 11 := alt.extractLsb' 5 7 ++ alt.extractLsb' 0 4

/-- The 9-bit Gray code of the 500-ft group: `ALT` bits 4, 2, 0, 10, 8, 6, 5, 3, 1 (R74). -/
def altG500 (alt : BitVec 12) : BitVec 9 :=
  alt.extractLsb' 4 1 ++ alt.extractLsb' 2 1 ++ alt.extractLsb' 0 1 ++ alt.extractLsb' 10 1 ++ alt.extractLsb' 8 1 ++
    alt.extractLsb' 6 1 ++ alt.extractLsb' 5 1 ++ alt.extractLsb' 3 1 ++ alt.extractLsb' 1 1

/-- The 3-bit Gray code of the 100-ft group: `ALT` bits 11, 9, 7 (R74). -/
def altG100 (alt : BitVec 12) : BitVec 3 := alt.extractLsb' 11 1 ++ alt.extractLsb' 9 1 ++ alt.extractLsb' 7 1

/-- The first `n` sliced bits, shifted in one by one: the first bit sliced ends most significant (R65, R153). -/
def packBits (bit : Nat → Bool) : Nat → Frame
  | 0 => 0#112
  | n + 1 => (packBits bit n <<< 1) ||| (BitVec.ofBool (bit n)).setWidth 112

end Sys2Proof.Machine
end

