-- ==== Sys2Proof/Machine/Cpr.lean ====
section
/-! DEFINITION. U11, the CPR lattice solver (49_cpr.md). All arithmetic is on exact rationals, each a numerator over a
positive denominator. -/

namespace Sys2Proof.Machine

/-- `round` of the rational `num / den` (R8, R237), with `ROUND_TIES` for the halves. -/
def roundQuotient (ties : RoundTies) (num : Int) (den : Nat) : Int :=
  let up := fun n : Int => (2 * n + den) / (2 * den)
  match ties with
  | .halfUp => up num
  | .halfEven => if (2 * num + den) % (2 * den) = 0 ∧ up num % 2 = 1 then up num - 1 else up num
  | .halfAway => if 0 ≤ num then up num else -(up (-num))

/-- `norm` (R232): subtract one turn from a half turn on. -/
def Turns.norm (num : Int) (den : Nat) : Turns :=
  if den ≤ 2 * num then ⟨num - den, den⟩ else ⟨num, den⟩

/-! ## The zone count -/

/-- The thresholds `L_59 .. L_3` of `NLTAB` as R239 prints them, in units of 10^-11 degree, each with its zone count. -/
def nlThresholds : List (Nat × Nat) :=
  [(59, 1047047129997), (58, 1482817436869), (57, 1818626357071), (56, 2102939492603), (55, 2354504486557)] ++
  [(54, 2582924707059), (53, 2793898710122), (52, 2991135685732), (51, 3177209707681), (50, 3353993436299)] ++
  [(49, 3522899597796), (48, 3685025107594), (47, 3841241892412), (46, 3992256684334), (45, 4138651832260)] ++
  [(44, 4280914012244), (43, 4419454951419), (42, 4554626722660), (41, 4686733252499), (40, 4816039128097)] ++
  [(39, 4942776439256), (38, 5067150165554), (37, 5189342469169), (36, 5309516152796), (35, 5427817472273)] ++
  [(34, 5544378444495), (33, 5659318756206), (32, 5772747353866), (31, 5884763776148), (30, 5995459276694)] ++
  [(29, 6104917774246), (28, 6213216659210), (27, 6320427479382), (26, 6426616522567), (25, 6531845309682)] ++
  [(24, 6636171008383), (23, 6739646774085), (22, 6842322022083), (21, 6944242631144), (20, 7045451074988)] ++
  [(19, 7145986473029), (18, 7245884544729), (17, 7345177441668), (16, 7443893415725), (15, 7542056256653)] ++
  [(14, 7639684390794), (13, 7736789461328), (12, 7833374082923), (11, 7929428225457), (10, 8024923213281)] ++
  [(9, 8119801349272), (8, 8213956980511), (7, 8307199444720), (6, 8399173562981), (5, 8489166190702)] ++
  [(4, 8575541620944), (3, 8653536997512)]

/-- Whether a latitude lies at or below the threshold `L_n` (R238). The printed value (R239) decides it where the latitude is
more than one unit of the last digit away; within that unit the formula of R238 does: `|phi| ≤ L_n` is
`cos²(2π phi) ≥ (1 - cos(π/30)) / (1 - cos(2π/n))`, and `2 cos²(2π phi)` is `1 + cos(4π phi)`. -/
def atOrBelow (n printed : Nat) (phi : Turns) : Bool :=
  let x := phi.num.natAbs * 36000000000000
  if x ≤ (printed - 1) * phi.den then true
  else if (printed + 1) * phi.den ≤ x then false
  else cosAtLeast n (4 * phi.num.natAbs) phi.den

/-- `CPR.NL` (R238): 59 in the band around the equator, the largest `n` with `|phi| ≤ L_n`, and 1 beyond 87 degrees, which is
29/120 of a turn. The two tie points are parameters. -/
def zoneCount (params : Params) (phi : Turns) : Nat :=
  if phi.num = 0 then (if params.nlAtEquatorIs59 then 59 else 60)
  else
    match nlThresholds.find? fun p => atOrBelow p.1 p.2 phi with
    | some p => p.1
    | none =>
      if phi.num.natAbs * 120 < 29 * phi.den then 2
      else if phi.num.natAbs * 120 = 29 * phi.den then (if params.nlAt87DegreesIs2 then 2 else 1)
      else 1

/-! ## The solver -/

/-- A pair of candidate coordinates, of the even and of the odd message. -/
structure Candidates where
  even : Turns
  odd : Turns
  deriving DecidableEq, Repr

/-- The zone index of the pair `v0, v1` for the zone counts `n` and `n - 1` (R231, R234). -/
def zoneIndex (ties : RoundTies) (n : Nat) (v0 v1 : BitVec 17) : Int :=
  roundQuotient ties ((v0.toNat : Int) * ((n : Int) - 1) - (v1.toNat : Int) * n) 131072

/-- The zone index made non-negative for `count` zones. -/
def zoneFrom (z : Int) (count : Int) : Int := if z < 0 then z + count else z

/-- The candidates of one coordinate with `n` even and `n - 1` odd zones (R231, R234), normalised (R232). -/
def candidates (ties : RoundTies) (n : Nat) (v0 v1 : BitVec 17) : Candidates :=
  let z := zoneIndex ties n v0 v1
  ⟨Turns.norm (zoneFrom z n * 131072 + v0.toNat) (n * 131072),
    Turns.norm (zoneFrom z ((n : Int) - 1) * 131072 + v1.toNat) ((n - 1) * 131072)⟩

/-- The longitude candidates for an agreed zone count (R234): with one zone the raw fractions are used directly. -/
def longitudes (ties : RoundTies) (nl : Nat) (x0 x1 : BitVec 17) : Candidates :=
  if nl = 1 then ⟨Turns.norm x0.toNat 131072, Turns.norm x1.toNat 131072⟩ else candidates ties nl x0 x1

/-- The coordinate of the wanted parity (R235). -/
def Candidates.select (c : Candidates) (mostRecent : BitVec 1) : Turns := if mostRecent = 0#1 then c.even else c.odd

/-- A coordinate in T32 units (R79, R236). -/
def toT32 (ties : RoundTies) (t : Turns) : Int := roundQuotient ties (t.num * 4294967296) t.den

/-- `CPR.DECODE` (R230). -/
def cprPosition (params : Params) (x0 y0 x1 y1 : BitVec 17) (mostRecent : BitVec 1) : Option GeoPos :=
  let phi := candidates params.roundTies 60 y0 y1
  let nl := zoneCount params phi.even
  if nl ≠ zoneCount params phi.odd then none
  else
    let lam := longitudes params.roundTies nl x0 x1
    let lat := toT32 params.roundTies (phi.select mostRecent)
    let lon := toT32 params.roundTies (lam.select mostRecent)
    if lat ≥ 1073741824 ∨ lat ≤ -1073741824 then none
    else some ⟨BitVec.ofInt 32 lon, BitVec.ofInt 32 lat⟩

/-- `CPR.NL` (R238). -/
def execCprNl (phi : Turns) (s : State) : Answer := answer (.nat (zoneCount s.params phi)) s

/-- `CPR.DECODE` (R230). -/
def execCprDecode (x0 y0 x1 y1 : BitVec 17) (mostRecent : BitVec 1) (s : State) : Answer :=
  answerOption .geo (cprPosition s.params x0 y0 x1 y1 mostRecent) s

end Sys2Proof.Machine
end

