-- ==== Sys2Proof/Machine/Position.lean ====
section
/-! DEFINITION. U9, the position decoder with the altitude and Gray decoders (47_position_altitude.md), and the payload
words and altitude fields that it decodes. -/

namespace Sys2Proof.Machine

/-- `gray_to_bin_N` (R201): the XOR of all right shifts. -/
def grayToBin {n : Nat} (g : BitVec n) : BitVec n :=
  (List.range n).foldl (fun b k => b ^^^ (g >>> k)) 0#n

/-- The altitude in feet of a field with `Q` = 1 (R199). -/
def altQ1Feet (n : BitVec 11) : Int := 25 * (n.toNat : Int) - 1000

/-- The altitude in feet of a field with `Q` = 0 (R200), from the 500-ft and the 100-ft Gray codes: reject, then map, then
mirror. -/
def altQ0Feet (g500 : BitVec 9) (g100 : BitVec 3) : Option Int :=
  let msb := (grayToBin g500).toNat
  let lsb := (grayToBin g100).toNat
  if lsb = 0 ∨ lsb = 5 ∨ lsb = 6 then none
  else
    let lsb := if lsb = 7 then 5 else lsb
    let lsb := if msb % 2 = 1 then 6 - lsb else lsb
    some (500 * (msb : Int) + 100 * (lsb : Int) - 1300)

/-- `ALT.DECODE` on a field (R198): the Q bit is bit 4. -/
def altFeet (alt : BitVec 12) : Option Int :=
  if alt.getLsbD 4 then some (altQ1Feet (altN alt)) else altQ0Feet (altG500 alt) (altG100 alt)

/-- The altitude of a position in metres, exactly (R205). -/
def metresOf (feet : Int) : Length := ⟨feet⟩

/-- The position decode on its fields (R195): an invalid altitude makes the whole message absent. -/
def positionOf (alt : BitVec 12) (f : BitVec 1) (y x : BitVec 17) : Option PositionPayload :=
  (altFeet alt).map fun feet => ⟨feet, f, x, y⟩

/-- The position decode of a payload (R195). -/
def decodePosition (me : Me) : Option PositionPayload := positionOf (meAlt me) (meParity me) (meY me) (meX me)

/-- `AP.DECODE` (R195). -/
def execApDecode (raw : RawMessage) (s : State) : Answer :=
  answerOption (fun p => .message ⟨raw.timestampNs, frameIcao raw.bytes, .position p⟩)
    (decodePosition (frameMe raw.bytes)) s

/-- `ALT.DECODE` (R198). -/
def execAltDecode (alt : BitVec 12) (s : State) : Answer := answerOption .int (altFeet alt) s

/-- `GRAY.DECODE` (R201). -/
def execGrayDecode (g : GrayCode) (s : State) : Answer :=
  answer (.nat (grayToBin (BitVec.ofNat g.width g.code)).toNat) s

/-- `ALT.Q1` (R73, R199). -/
def execAltQ1 (nHi : BitVec 7) (nLo : BitVec 4) (s : State) : Answer := answer (.int (altQ1Feet (nHi ++ nLo))) s

/-- `ALT.Q0` (R74, R200). The top bit of the 500-ft code is the Q bit, which is 0 here. -/
def execAltQ0 (c1 a1 c2 a2 c4 a4 b1 b2 d2 b4 d4 : BitVec 1) (s : State) : Answer :=
  answerOption .int (altQ0Feet (0#1 ++ d2 ++ d4 ++ a1 ++ a2 ++ a4 ++ b1 ++ b2 ++ b4) (c1 ++ c2 ++ c4)) s

/-- A position payload word at the decoder. -/
def positionWordAnswer (alt : BitVec 12) (f : BitVec 1) (y x : BitVec 17) (s : State) : Answer :=
  answerOption (fun p => .payload (.position p)) (positionOf alt f y x) s

/-- `ME.POSITION.TC9` (R72, R195). -/
def execMePositionTc9 (_unread50 : BitVec 3) (alt : BitVec 12) (_unread35 f : BitVec 1) (y x : BitVec 17) (s : State) :
    Answer :=
  positionWordAnswer alt f y x s

/-- `ME.POSITION.TC10` (R72, R195). -/
def execMePositionTc10 (_unread50 : BitVec 3) (alt : BitVec 12) (_unread35 f : BitVec 1) (y x : BitVec 17) (s : State) :
    Answer :=
  positionWordAnswer alt f y x s

/-- `ME.POSITION.TC11` (R72, R195). -/
def execMePositionTc11 (_unread50 : BitVec 3) (alt : BitVec 12) (_unread35 f : BitVec 1) (y x : BitVec 17) (s : State) :
    Answer :=
  positionWordAnswer alt f y x s

/-- `ME.POSITION.TC12` (R72, R195). -/
def execMePositionTc12 (_unread50 : BitVec 3) (alt : BitVec 12) (_unread35 f : BitVec 1) (y x : BitVec 17) (s : State) :
    Answer :=
  positionWordAnswer alt f y x s

/-- `ME.POSITION.TC13` (R72, R195). -/
def execMePositionTc13 (_unread50 : BitVec 3) (alt : BitVec 12) (_unread35 f : BitVec 1) (y x : BitVec 17) (s : State) :
    Answer :=
  positionWordAnswer alt f y x s

/-- `ME.POSITION.TC14` (R72, R195). -/
def execMePositionTc14 (_unread50 : BitVec 3) (alt : BitVec 12) (_unread35 f : BitVec 1) (y x : BitVec 17) (s : State) :
    Answer :=
  positionWordAnswer alt f y x s

/-- `ME.POSITION.TC15` (R72, R195). -/
def execMePositionTc15 (_unread50 : BitVec 3) (alt : BitVec 12) (_unread35 f : BitVec 1) (y x : BitVec 17) (s : State) :
    Answer :=
  positionWordAnswer alt f y x s

/-- `ME.POSITION.TC16` (R72, R195). -/
def execMePositionTc16 (_unread50 : BitVec 3) (alt : BitVec 12) (_unread35 f : BitVec 1) (y x : BitVec 17) (s : State) :
    Answer :=
  positionWordAnswer alt f y x s

/-- `ME.POSITION.TC17` (R72, R195). -/
def execMePositionTc17 (_unread50 : BitVec 3) (alt : BitVec 12) (_unread35 f : BitVec 1) (y x : BitVec 17) (s : State) :
    Answer :=
  positionWordAnswer alt f y x s

/-- `ME.POSITION.TC18` (R72, R195). -/
def execMePositionTc18 (_unread50 : BitVec 3) (alt : BitVec 12) (_unread35 f : BitVec 1) (y x : BitVec 17) (s : State) :
    Answer :=
  positionWordAnswer alt f y x s

/-- `ME.POSITION.TC20` (R72, R195). -/
def execMePositionTc20 (_unread50 : BitVec 3) (alt : BitVec 12) (_unread35 f : BitVec 1) (y x : BitVec 17) (s : State) :
    Answer :=
  positionWordAnswer alt f y x s

/-- `ME.POSITION.TC21` (R72, R195). -/
def execMePositionTc21 (_unread50 : BitVec 3) (alt : BitVec 12) (_unread35 f : BitVec 1) (y x : BitVec 17) (s : State) :
    Answer :=
  positionWordAnswer alt f y x s

/-- `ME.POSITION.TC22` (R72, R195). -/
def execMePositionTc22 (_unread50 : BitVec 3) (alt : BitVec 12) (_unread35 f : BitVec 1) (y x : BitVec 17) (s : State) :
    Answer :=
  positionWordAnswer alt f y x s

end Sys2Proof.Machine
end

