-- ==== Sys2Proof/Machine/Velocity.lean ====
section
/-! DEFINITION. U10, the velocity decoder (48_velocity.md), and the payload words of type code 19. -/

namespace Sys2Proof.Machine

/-- The scale of the speed fields: 4 for the supersonic subtypes 2 and 4, else 1 (R76). -/
def speedScale (st : BitVec 3) : Int := if st = 2#3 ∨ st = 4#3 then 4 else 1

/-- A signed component in knots: the field is biased by one; the direction bit 1 is west or south (R216, R218). -/
def component (st : BitVec 3) (direction : BitVec 1) (field : BitVec 10) : Int :=
  speedScale st * ((field.toNat : Int) - 1) * (if direction = 1#1 then -1 else 1)

/-- `av_ground` on its fields (R216): a speed field of 0 is "no data". -/
def groundOf (st : BitVec 3) (dew : BitVec 1) (vew : BitVec 10) (dns : BitVec 1) (vns : BitVec 10) :
    Option VelocityPayload :=
  if vew = 0#10 ∨ vns = 0#10 then none else some (.ground (component st dew vew) (component st dns vns))

/-- `av_air` on its fields (R217). -/
def airOf (st : BitVec 3) (sh : BitVec 1) (hdg airspeed : BitVec 10) : Option VelocityPayload :=
  if airspeed = 0#10 then none
  else some (.air (speedScale st * ((airspeed.toNat : Int) - 1)).toNat sh hdg)

/-- The velocity decode of a payload, by its subtype (R215). -/
def decodeVelocity (me : Me) : Option VelocityPayload :=
  let st := meLow3 me
  if st = 1#3 ∨ st = 2#3 then groundOf st (meBit42 me) (meField41 me) (meBit31 me) (meField30 me)
  else if st = 3#3 ∨ st = 4#3 then airOf st (meBit42 me) (meField41 me) (meField30 me)
  else none

/-- The speed of a velocity, exactly (R216, R217, R220). -/
def speedOf : VelocityPayload → Speed
  | .ground e n => ⟨(e * e + n * n).toNat⟩
  | .air v _ _ => ⟨v * v⟩

/-- The track or heading of a velocity, exactly (R216, R217, R219); with the status bit clear the heading is 0. -/
def angleOf : VelocityPayload → Angle
  | .ground e n => .ofVector e n
  | .air _ sh hdg => .ofHeading (if sh = 1#1 then hdg.toNat else 0)

/-- `AV.DECODE` (R215). -/
def execAvDecode (raw : RawMessage) (s : State) : Answer :=
  answerOption (fun p => .message ⟨raw.timestampNs, frameIcao raw.bytes, .velocity p⟩)
    (decodeVelocity (frameMe raw.bytes)) s

/-- A velocity payload word at the decoder. -/
def velocityWordAnswer (p : Option VelocityPayload) (s : State) : Answer :=
  answerOption (fun p => .payload (.velocity p)) p s

/-- `ME.VELOCITY.ST1` (R75, R216). -/
def execMeVelocitySt1 (_unread47 : BitVec 5) (dew : BitVec 1) (vew : BitVec 10) (dns : BitVec 1) (vns : BitVec 10)
    (_unread20 : BitVec 21) (s : State) : Answer :=
  velocityWordAnswer (groundOf 1#3 dew vew dns vns) s

/-- `ME.VELOCITY.ST2` (R75, R216). -/
def execMeVelocitySt2 (_unread47 : BitVec 5) (dew : BitVec 1) (vew : BitVec 10) (dns : BitVec 1) (vns : BitVec 10)
    (_unread20 : BitVec 21) (s : State) : Answer :=
  velocityWordAnswer (groundOf 2#3 dew vew dns vns) s

/-- `ME.VELOCITY.ST3` (R75, R217). -/
def execMeVelocitySt3 (_unread47 : BitVec 5) (sh : BitVec 1) (hdg : BitVec 10) (_unread31 : BitVec 1) (airspeed : BitVec 10)
    (_unread20 : BitVec 21) (s : State) : Answer :=
  velocityWordAnswer (airOf 3#3 sh hdg airspeed) s

/-- `ME.VELOCITY.ST4` (R75, R217). -/
def execMeVelocitySt4 (_unread47 : BitVec 5) (sh : BitVec 1) (hdg : BitVec 10) (_unread31 : BitVec 1) (airspeed : BitVec 10)
    (_unread20 : BitVec 21) (s : State) : Answer :=
  velocityWordAnswer (airOf 4#3 sh hdg airspeed) s

/-- `ME.VELOCITY.ST0`: a reserved subtype decodes to absent (R80, R215). -/
def execMeVelocitySt0 (_unread : BitVec 48) (s : State) : Answer := velocityWordAnswer none s

/-- `ME.VELOCITY.ST5`: a reserved subtype decodes to absent (R80, R215). -/
def execMeVelocitySt5 (_unread : BitVec 48) (s : State) : Answer := velocityWordAnswer none s

/-- `ME.VELOCITY.ST6`: a reserved subtype decodes to absent (R80, R215). -/
def execMeVelocitySt6 (_unread : BitVec 48) (s : State) : Answer := velocityWordAnswer none s

/-- `ME.VELOCITY.ST7`: a reserved subtype decodes to absent (R80, R215). -/
def execMeVelocitySt7 (_unread : BitVec 48) (s : State) : Answer := velocityWordAnswer none s

end Sys2Proof.Machine
end

