-- ==== Sys2Proof/Machine/Accumulator.lean ====
section
/-! DEFINITION. The host contract (60_exceptions.md R271 to R275): the per-aircraft accumulator and the purge. -/

namespace Sys2Proof.Machine

/-- The state of an aircraft on its first message: every field absent (R271). -/
def AircraftState.created : AircraftState where
  category := none
  callSign := none
  position := none
  altitude := none
  speed := none
  trackOrHeading := none
  lastSeenNs := none
  slotEven := none
  slotOdd := none

/-- The slot of a parity (R271). -/
def AircraftState.slot (a : AircraftState) (parity : BitVec 1) : Option StoredPosition :=
  if parity = 0#1 then a.slotEven else a.slotOdd

/-- Store a position message in the slot of its parity (R272). -/
def AircraftState.store (a : AircraftState) (p : StoredPosition) : AircraftState :=
  if p.position.parity = 0#1 then { a with slotEven := some p } else { a with slotOdd := some p }

/-- The pairing window (R273), on mathematical integers: a negative age pairs. -/
def paired (cur other : BitVec 64) : Bool := decide ((cur.toNat : Int) - (other.toNat : Int) < Config.pairWindowNs)

/-- The position that the two slots give for the message of parity `parity` at time `cur` (R272): the other slot must hold
a message that pairs. -/
def resolve (params : Params) (a : AircraftState) (cur : BitVec 64) (parity : BitVec 1) : Option GeoPos :=
  match a.slot (~~~parity), a.slotEven, a.slotOdd with
  | some other, some even, some odd =>
    if paired cur other.timestampNs then
      cprPosition params even.position.x even.position.y odd.position.x odd.position.y parity
    else none
  | _, _, _ => none

/-- Fold one payload into the state of its aircraft (R272). A position that is not resolved stays as it was (R274). -/
def AircraftState.fold (params : Params) (a : AircraftState) (cur : BitVec 64) : Payload → AircraftState
  | .identification p => { a with category := some p.category, callSign := some p.callSign }
  | .velocity p => { a with speed := some (speedOf p), trackOrHeading := some (angleOf p) }
  | .position p =>
    let a := { a with altitude := some (metresOf p.altitudeFt) }.store ⟨cur, p⟩
    match resolve params a cur p.parity with
    | some g => { a with position := some g }
    | none => a

/-- `ACC.UPDATE` on the state of one aircraft (R272): the last-seen time is recorded for every kind of message. -/
def AircraftState.update (params : Params) (a : AircraftState) (m : Message) : AircraftState :=
  { a.fold params m.timestampNs m.payload with lastSeenNs := some m.timestampNs }

/-- The state of an aircraft, created on its first message (R271). -/
def aircraftAt (aircraft : Mem AircraftState) (icao : Icao) : AircraftState :=
  (Mem.read? aircraft icao.toNat).getD AircraftState.created

/-- `ACC.UPDATE` (R272): the state of the message's aircraft is updated in the map. -/
def execAccUpdate (msg : Message) (s : State) : Answer :=
  answer .done { s with
    aircraft := Mem.write s.aircraft msg.icao.toNat ((aircraftAt s.aircraft msg.icao).update s.params msg) }

/-- Whether an aircraft has been silent for longer than the threshold at the host's time `now` (R275). -/
def silent (purgeNs now : Nat) (a : AircraftState) : Bool :=
  match a.lastSeenNs with
  | some t => decide ((purgeNs : Int) < (now : Int) - (t.toNat : Int))
  | none => false

/-- The host's purge (R275). -/
def purge (now : Nat) (s : State) : State :=
  { s with aircraft := Mem.keep (fun a => !silent s.params.purgeNs now a) s.aircraft }

end Sys2Proof.Machine
end

