-- ==== Sys2Proof/Machine/BitField.lean ====
section
/-! DEFINITION. U1, the bit-field extractor (40_bitfield.md). -/

namespace Sys2Proof.Machine

/-- `BF.EXTRACT` (R90): the size is checked first, then the place. -/
def execBfExtract (value : Word) (start size : Int) (s : State) : Answer :=
  if size < 1 ∨ size > 32 then raise (.range [size]) s
  else if start < 0 ∨ start + size > 64 then raise (.range [start, size]) s
  else answer (.u32 (bitField value start.toNat size.toNat)) s

/-- `BF.TEST` (R92). -/
def execBfTest (value : Word) (index : Int) (s : State) : Answer :=
  if index < 0 ∨ index ≥ 64 then raise (.range [index]) s
  else answer (.bool (bitTest value index.toNat)) s

end Sys2Proof.Machine
end

