-- ==== Sys2Proof/Machine/Identification.lean ====
section
/-! DEFINITION. U8, the call-sign and category decoder (46_identification.md), and the payload words of type codes 1 to 4. -/

namespace Sys2Proof.Machine

/-- The call-sign table `CSLUT` (R187): an ASCII code, or none for an invalid code. -/
def cslut (code : BitVec 6) : Option Byte :=
  let c := code.toNat
  if 1 ≤ c ∧ c ≤ 26 then some (BitVec.ofNat 8 (64 + c))
  else if c = 32 ∨ (48 ≤ c ∧ c ≤ 57) then some (BitVec.ofNat 8 c)
  else none

/-- The characters of the codes, or none if one of them is invalid (R185). -/
def charsOf : List (BitVec 6) → Option (List Byte)
  | [] => some []
  | c :: rest => (cslut c).bind fun ch => (charsOf rest).map fun chs => ch :: chs

/-- A text without its trailing spaces (R188). -/
def dropTrailingSpaces (text : List Byte) : List Byte := (text.reverse.dropWhile fun c => c == 32#8).reverse

/-- The call sign of the eight characters, by `CALLSIGN_TRIM` (R188). -/
def trimCallSign (trim : CallSignTrim) (text : List Byte) : List Byte :=
  match trim with
  | .trailing => dropTrailingSpaces text
  | .none => text

/-- The category (R186): `((14 - TC) << 4) | CA`. For a type code outside 1 to 4 the spec does not define it (R189). -/
def categoryOf (tc : BitVec 5) (ca : BitVec 3) : BitVec 8 :=
  if 1 ≤ tc.toNat ∧ tc.toNat ≤ 4 then ((14#8 - tc.setWidth 8) <<< 4) ||| ca.setWidth 8
  else Config.undefinedCategory tc ca

/-- The identification decode on its fields (R185). -/
def identOf (params : Params) (tc : BitVec 5) (ca : BitVec 3) (codes : List (BitVec 6)) : Option IdentPayload :=
  (charsOf codes).map fun text => ⟨categoryOf tc ca, trimCallSign params.callSignTrim text⟩

/-- The identification decode of a payload (R185). -/
def decodeIdent (params : Params) (me : Me) : Option IdentPayload :=
  identOf params (meTypeCode me) (meLow3 me) ((List.range 8).map (meCharCode me))

/-- `ID.DECODE` (R185). -/
def execIdDecode (raw : RawMessage) (s : State) : Answer :=
  answerOption (fun p => .message ⟨raw.timestampNs, frameIcao raw.bytes, .identification p⟩)
    (decodeIdent s.params (frameMe raw.bytes)) s

/-- An identification payload word at the decoder. -/
def identWordAnswer (tc : BitVec 5) (ca : BitVec 3) (codes : List (BitVec 6)) (s : State) : Answer :=
  answerOption (fun p => .payload (.identification p)) (identOf s.params tc ca codes) s

/-- `ME.IDENT.TC1` (R70, R185). -/
def execMeIdentTc1 (ca : BitVec 3) (c0 c1 c2 c3 c4 c5 c6 c7 : BitVec 6) (s : State) : Answer :=
  identWordAnswer 1#5 ca [c0, c1, c2, c3, c4, c5, c6, c7] s

/-- `ME.IDENT.TC2` (R70, R185). -/
def execMeIdentTc2 (ca : BitVec 3) (c0 c1 c2 c3 c4 c5 c6 c7 : BitVec 6) (s : State) : Answer :=
  identWordAnswer 2#5 ca [c0, c1, c2, c3, c4, c5, c6, c7] s

/-- `ME.IDENT.TC3` (R70, R185). -/
def execMeIdentTc3 (ca : BitVec 3) (c0 c1 c2 c3 c4 c5 c6 c7 : BitVec 6) (s : State) : Answer :=
  identWordAnswer 3#5 ca [c0, c1, c2, c3, c4, c5, c6, c7] s

/-- `ME.IDENT.TC4` (R70, R185). -/
def execMeIdentTc4 (ca : BitVec 3) (c0 c1 c2 c3 c4 c5 c6 c7 : BitVec 6) (s : State) : Answer :=
  identWordAnswer 4#5 ca [c0, c1, c2, c3, c4, c5, c6, c7] s

end Sys2Proof.Machine
end

