-- ==== Sys2Proof/Machine/Characters.lean ====
section
/-! DEFINITION. The 64 rows of the call-sign table as operations: a character code at `CSLUT` (R187). -/

namespace Sys2Proof.Machine

/-- The table's entry for a character code: its ASCII code, or absent. -/
def charAnswer (code : BitVec 6) (s : State) : Answer := answerOption .char (cslut code) s

/-- `CHAR.0` (R187). -/
def execChar0 (s : State) : Answer := charAnswer 0#6 s

/-- `CHAR.1` (R187). -/
def execChar1 (s : State) : Answer := charAnswer 1#6 s

/-- `CHAR.2` (R187). -/
def execChar2 (s : State) : Answer := charAnswer 2#6 s

/-- `CHAR.3` (R187). -/
def execChar3 (s : State) : Answer := charAnswer 3#6 s

/-- `CHAR.4` (R187). -/
def execChar4 (s : State) : Answer := charAnswer 4#6 s

/-- `CHAR.5` (R187). -/
def execChar5 (s : State) : Answer := charAnswer 5#6 s

/-- `CHAR.6` (R187). -/
def execChar6 (s : State) : Answer := charAnswer 6#6 s

/-- `CHAR.7` (R187). -/
def execChar7 (s : State) : Answer := charAnswer 7#6 s

/-- `CHAR.8` (R187). -/
def execChar8 (s : State) : Answer := charAnswer 8#6 s

/-- `CHAR.9` (R187). -/
def execChar9 (s : State) : Answer := charAnswer 9#6 s

/-- `CHAR.10` (R187). -/
def execChar10 (s : State) : Answer := charAnswer 10#6 s

/-- `CHAR.11` (R187). -/
def execChar11 (s : State) : Answer := charAnswer 11#6 s

/-- `CHAR.12` (R187). -/
def execChar12 (s : State) : Answer := charAnswer 12#6 s

/-- `CHAR.13` (R187). -/
def execChar13 (s : State) : Answer := charAnswer 13#6 s

/-- `CHAR.14` (R187). -/
def execChar14 (s : State) : Answer := charAnswer 14#6 s

/-- `CHAR.15` (R187). -/
def execChar15 (s : State) : Answer := charAnswer 15#6 s

/-- `CHAR.16` (R187). -/
def execChar16 (s : State) : Answer := charAnswer 16#6 s

/-- `CHAR.17` (R187). -/
def execChar17 (s : State) : Answer := charAnswer 17#6 s

/-- `CHAR.18` (R187). -/
def execChar18 (s : State) : Answer := charAnswer 18#6 s

/-- `CHAR.19` (R187). -/
def execChar19 (s : State) : Answer := charAnswer 19#6 s

/-- `CHAR.20` (R187). -/
def execChar20 (s : State) : Answer := charAnswer 20#6 s

/-- `CHAR.21` (R187). -/
def execChar21 (s : State) : Answer := charAnswer 21#6 s

/-- `CHAR.22` (R187). -/
def execChar22 (s : State) : Answer := charAnswer 22#6 s

/-- `CHAR.23` (R187). -/
def execChar23 (s : State) : Answer := charAnswer 23#6 s

/-- `CHAR.24` (R187). -/
def execChar24 (s : State) : Answer := charAnswer 24#6 s

/-- `CHAR.25` (R187). -/
def execChar25 (s : State) : Answer := charAnswer 25#6 s

/-- `CHAR.26` (R187). -/
def execChar26 (s : State) : Answer := charAnswer 26#6 s

/-- `CHAR.27` (R187). -/
def execChar27 (s : State) : Answer := charAnswer 27#6 s

/-- `CHAR.28` (R187). -/
def execChar28 (s : State) : Answer := charAnswer 28#6 s

/-- `CHAR.29` (R187). -/
def execChar29 (s : State) : Answer := charAnswer 29#6 s

/-- `CHAR.30` (R187). -/
def execChar30 (s : State) : Answer := charAnswer 30#6 s

/-- `CHAR.31` (R187). -/
def execChar31 (s : State) : Answer := charAnswer 31#6 s

/-- `CHAR.32` (R187). -/
def execChar32 (s : State) : Answer := charAnswer 32#6 s

/-- `CHAR.33` (R187). -/
def execChar33 (s : State) : Answer := charAnswer 33#6 s

/-- `CHAR.34` (R187). -/
def execChar34 (s : State) : Answer := charAnswer 34#6 s

/-- `CHAR.35` (R187). -/
def execChar35 (s : State) : Answer := charAnswer 35#6 s

/-- `CHAR.36` (R187). -/
def execChar36 (s : State) : Answer := charAnswer 36#6 s

/-- `CHAR.37` (R187). -/
def execChar37 (s : State) : Answer := charAnswer 37#6 s

/-- `CHAR.38` (R187). -/
def execChar38 (s : State) : Answer := charAnswer 38#6 s

/-- `CHAR.39` (R187). -/
def execChar39 (s : State) : Answer := charAnswer 39#6 s

/-- `CHAR.40` (R187). -/
def execChar40 (s : State) : Answer := charAnswer 40#6 s

/-- `CHAR.41` (R187). -/
def execChar41 (s : State) : Answer := charAnswer 41#6 s

/-- `CHAR.42` (R187). -/
def execChar42 (s : State) : Answer := charAnswer 42#6 s

/-- `CHAR.43` (R187). -/
def execChar43 (s : State) : Answer := charAnswer 43#6 s

/-- `CHAR.44` (R187). -/
def execChar44 (s : State) : Answer := charAnswer 44#6 s

/-- `CHAR.45` (R187). -/
def execChar45 (s : State) : Answer := charAnswer 45#6 s

/-- `CHAR.46` (R187). -/
def execChar46 (s : State) : Answer := charAnswer 46#6 s

/-- `CHAR.47` (R187). -/
def execChar47 (s : State) : Answer := charAnswer 47#6 s

/-- `CHAR.48` (R187). -/
def execChar48 (s : State) : Answer := charAnswer 48#6 s

/-- `CHAR.49` (R187). -/
def execChar49 (s : State) : Answer := charAnswer 49#6 s

/-- `CHAR.50` (R187). -/
def execChar50 (s : State) : Answer := charAnswer 50#6 s

/-- `CHAR.51` (R187). -/
def execChar51 (s : State) : Answer := charAnswer 51#6 s

/-- `CHAR.52` (R187). -/
def execChar52 (s : State) : Answer := charAnswer 52#6 s

/-- `CHAR.53` (R187). -/
def execChar53 (s : State) : Answer := charAnswer 53#6 s

/-- `CHAR.54` (R187). -/
def execChar54 (s : State) : Answer := charAnswer 54#6 s

/-- `CHAR.55` (R187). -/
def execChar55 (s : State) : Answer := charAnswer 55#6 s

/-- `CHAR.56` (R187). -/
def execChar56 (s : State) : Answer := charAnswer 56#6 s

/-- `CHAR.57` (R187). -/
def execChar57 (s : State) : Answer := charAnswer 57#6 s

/-- `CHAR.58` (R187). -/
def execChar58 (s : State) : Answer := charAnswer 58#6 s

/-- `CHAR.59` (R187). -/
def execChar59 (s : State) : Answer := charAnswer 59#6 s

/-- `CHAR.60` (R187). -/
def execChar60 (s : State) : Answer := charAnswer 60#6 s

/-- `CHAR.61` (R187). -/
def execChar61 (s : State) : Answer := charAnswer 61#6 s

/-- `CHAR.62` (R187). -/
def execChar62 (s : State) : Answer := charAnswer 62#6 s

/-- `CHAR.63` (R187). -/
def execChar63 (s : State) : Answer := charAnswer 63#6 s

end Sys2Proof.Machine
end

