-- ==== Sys2Proof/Machine/Crc.lean ====
section
/-! DEFINITION. U2, the CRC-24 unit (41_crc24.md). -/

namespace Sys2Proof.Machine

/-- One step of the table-driven CRC (R102): the index is the top byte of the register before the shift. -/
def Crc24.stepByte (crc : Crc24) (r : BitVec 24) (b : Byte) : BitVec 24 :=
  ((r <<< 8) ||| b.setWidth 24) ^^^ crc.entry (r.extractLsb' 16 8)

/-- `CRC.CRC` (R102): every byte through the table, then three zero bytes to flush the 24 check bits. -/
def Crc24.run (crc : Crc24) (bytes : List Byte) : BitVec 24 :=
  (bytes ++ [0#8, 0#8, 0#8]).foldl crc.stepByte 0#24

/-- The unit after a `CRC.CRC`: the working register holds the last remainder, which no operation reads (R18). -/
def Crc24.after (crc : Crc24) (bytes : List Byte) : Crc24 := { crc with crcReg := crc.run bytes }

/-- `CRC.BUILD` (R101): the generator, and the table of all 256 entries. -/
def execCrcBuild (generator : BitVec 24) (s : State) : Answer :=
  answer .done { s with crc := { s.crc with generator := generator, table := crcTableOf generator } }

/-- `CRC.CRC` (R102). -/
def execCrcCrc (bytes : List Byte) (s : State) : Answer :=
  answer (.u32 ((s.crc.run bytes).setWidth 32)) { s with crc := s.crc.after bytes }

end Sys2Proof.Machine
end

