-- ==== Sys2Proof/Machine/Flags.lean ====
section
/-! DEFINITION. The status bits of R19. The block has no condition codes: `full` is computed, `eos` and `fault` are stored
in the window, and `valid` is part of each optional result. -/

namespace Sys2Proof.Machine

/-- `full` (R19, R129): every entry of the window is real data. -/
def PowerWindow.isFull (w : PowerWindow) : Bool := decide (w.position.toNat + w.windowSize ≤ w.avail)

/-- The numeric code of an error (R255). -/
def ErrorCode.toBits : ErrorCode → BitVec 2
  | .rangeError => 1#2
  | .configError => 2#2
  | .ioError => 3#2

/-- The 2-bit `fault` register (R19): 0, or the code of the recorded error. -/
def PowerWindow.faultBits (w : PowerWindow) : BitVec 2 :=
  match w.fault with
  | some e => e.code.toBits
  | none => 0#2

/-- The `eos` bit of a refill that found it clear (R16, R135): set by a batch shorter than a block. -/
def eosAfter (count : Nat) : Bool := decide (count < Config.blockSize)

/-- The `valid` bit of an optional result (R19): 0 for `absent`. -/
def Response.valid : Response → Bool
  | .absent => false
  | _ => true

/-- An operation on a window runs only while no error is recorded; else it raises the recorded one again (R256, R258 (c),
R263). -/
def unlessFaulted (w : PowerWindow) (operation : State → Answer) (s : State) : Answer :=
  match w.fault with
  | some e => raise e s
  | none => operation s

end Sys2Proof.Machine
end

