-- ==== Sys2Proof/Machine/FrontEnd.lean ====
section
/-! DEFINITION. U3 and U4, the sample decoder and the power computer with its FIR (42_sample_power.md). -/

namespace Sys2Proof.Machine

/-- `SD.READBATCH` on a decoder (R111): one `SrcRead` of two bytes a sample. -/
def SampleDecoder.readBatch (d : SampleDecoder) (sources : List ByteSource) :
    Except Error (List Sample) × List ByteSource :=
  let r := srcRead (2 * d.batch) d.source sources
  (r.1.map samplesOf, r.2)

/-- Write one sample into the history (R115): the index moves on, and the sample lands there. -/
def History.push (f : History) (x : Sample) : History :=
  let t := f.t + 1
  ⟨f.h.set t.val x t.isLt, t⟩

/-- The sample `h[t - k]`, the index taken mod 8 (R116). -/
def History.tap (f : History) (k : Fin 8) : Int := (f.h.get (f.t - k)).toInt

/-- `fir_power` (R116). -/
def History.power (f : History) : Power :=
  let i := f.tap 7 - f.tap 5 + f.tap 3 - f.tap 1
  let q := f.tap 6 - f.tap 4 + f.tap 2 - f.tap 0
  BitVec.ofInt 32 (i * i + q * q)

/-- The loop of `PC.READBATCH` (R115): one power value for each I/Q pair, and the history afterwards. An odd last sample is
dropped. -/
def History.run (f : History) : List Sample → List Power × History
  | i :: q :: rest =>
    let g := (f.push i).push q
    let r := g.run rest
    (g.power :: r.1, r.2)
  | _ => ([], f)

/-- `PC.READBATCH` on a computer (R115). An error leaves the history as it was. -/
def PowerComputer.readBatch (c : PowerComputer) (sources : List ByteSource) :
    Except Error (List Power × PowerComputer) × List ByteSource :=
  let r := c.decoder.readBatch sources
  (r.1.map fun samples =>
    ((c.history.run samples).1, { c with history := (c.history.run samples).2 }), r.2)

/-- A new power computer with its sample decoder (R114). -/
def PowerComputer.fresh (source batch : Nat) : PowerComputer := ⟨⟨source, 2 * batch⟩, batch, History.zero⟩

/-- `SD.NEW` (R110): no byte is read. Refused on a source that another unit reads (R300). -/
def execSdNew (source : Nat) (batchSize : Int) (s : State) : Answer :=
  if batchSize ≤ 0 then raise (.config batchSize) s
  else withOwnSource .sd source (fun s => answer .done { s with sd := ⟨source, batchSize.toNat⟩ }) s

/-- `SD.READBATCH` (R111). -/
def execSdReadbatch (s : State) : Answer :=
  let r := s.sd.readBatch s.sources
  answer (match r.1 with | .ok samples => .samples samples | .error e => .error e) { s with sources := r.2 }

/-- `PC.NEW` (R114): no byte is read. Refused on a source that another unit reads (R300). -/
def execPcNew (source : Nat) (batchSize : Int) (s : State) : Answer :=
  if batchSize ≤ 0 ∨ batchSize % 8 ≠ 0 then raise (.config batchSize) s
  else withOwnSource .pc source (fun s => answer .done { s with pc := PowerComputer.fresh source batchSize.toNat }) s

/-- `PC.READBATCH` (R115). -/
def execPcReadbatch (s : State) : Answer :=
  match s.pc.readBatch s.sources with
  | (.ok (powers, pc), sources) => answer (.powers powers) { s with pc := pc, sources := sources }
  | (.error e, sources) => raise e { s with sources := sources }

/-- A raw sample word at the decoder (`SAMPLE`, R61, R112): the 12 low bits minus 2048; the 4 high bits are ignored. -/
def execSample (_ignored : BitVec 4) (u : BitVec 12) (s : State) : Answer :=
  answer (.int (u - 2048#12).toInt) s

end Sys2Proof.Machine
end

