-- ==== Sys2Proof/Machine/Window.lean ====
section
/-! DEFINITION. U5, the power window (43_power_window.md): the two-block implementation of R133 to R137. -/

namespace Sys2Proof.Machine

/-- What a window operation that may refill leaves: the window, the byte sources, and the error it raised, if any. -/
structure WindowStep where
  window : PowerWindow
  sources : List ByteSource
  error : Option Error
  deriving DecidableEq, Repr

/-- `refill(b)` (R135). An `IoError` writes no entry and is recorded in `fault` (R258 (c)). -/
def PowerWindow.refill (b : Bool) (w : PowerWindow) (sources : List ByteSource) : WindowStep :=
  if w.eos then ⟨w, sources, none⟩
  else
    match w.computer.readBatch sources with
    | (.error e, sources) => ⟨{ w with fault := some e }, sources, some e⟩
    | (.ok (powers, computer), sources) =>
      ⟨{ w.withBlock b (Mem.load powers (w.block b)) with
          computer := computer, avail := w.avail + powers.length, eos := eosAfter powers.length },
        sources, none⟩

/-- Rotation (R137): when the position reaches a multiple of the block size, the next block becomes current. -/
def PowerWindow.rotate (w : PowerWindow) : PowerWindow :=
  if w.position.toNat % Config.blockSize = 0 then { w with cur := !w.cur } else w

/-- Whether the right edge of a window at `position` has just entered the next block (R134). -/
def entersNextBlock (position : BitVec 64) (windowSize : Nat) : Bool :=
  decide ((position.toNat + windowSize - 1) % Config.blockSize = 0)

/-- `PW.ADVANCE` on a window (R131): the refill, if the right edge enters the next block, then the new position and the
rotation. A refill that fails leaves the position as it was (R258 (c), C11). -/
def PowerWindow.advance (w : PowerWindow) (sources : List ByteSource) : WindowStep :=
  let position := w.position + 1#64
  if entersNextBlock position w.windowSize then
    let r := w.refill (!w.cur) sources
    match r.error with
    | some _ => r
    | none => { r with window := PowerWindow.rotate { r.window with position := position } }
  else ⟨PowerWindow.rotate { w with position := position }, sources, none⟩

/-- `PW.ADVANCEBY` on a window (R132): single steps, up to the first that fails. -/
def PowerWindow.advanceBy (w : PowerWindow) (sources : List ByteSource) : Nat → WindowStep
  | 0 => ⟨w, sources, none⟩
  | n + 1 =>
    let r := w.advance sources
    match r.error with
    | some _ => r
    | none => r.window.advanceBy r.sources n

/-- A window before its first fill (R125); no block entry has been written (R21). -/
def PowerWindow.fresh (source windowSize serial : Nat) : PowerWindow where
  computer := PowerComputer.fresh source Config.blockSize
  windowSize := windowSize
  position := 0#64
  avail := 0
  eos := false
  cur := false
  blk0 := []
  blk1 := []
  fault := none
  serial := serial

/-- The construction of a window of a legal size (R125): the first block is filled. -/
def PowerWindow.construct (source windowSize serial : Nat) (sources : List ByteSource) : WindowStep :=
  (PowerWindow.fresh source windowSize serial).refill false sources

/-- What an operation without a result returns: nothing, or the error it raised. -/
def doneOr (error : Option Error) : Response :=
  match error with
  | some e => .error e
  | none => .done

/-- `PW.NEW` (R125): the size is checked before anything is read. Refused on a source that another unit reads (R300). -/
def execPwNew (source : Nat) (windowSize : Int) (s : State) : Answer :=
  if windowSize < 1 ∨ windowSize > 65536 then raise (.config windowSize) s
  else
    withOwnSource .pw source (fun s =>
      let r := PowerWindow.construct source windowSize.toNat s.windowsBuilt s.sources
      answer (doneOr r.error) { s with pw := r.window, sources := r.sources, windowsBuilt := s.windowsBuilt + 1 }) s

/-- `PW.SIZE` (R127). -/
def execPwSize (s : State) : Answer := unlessFaulted s.pw (fun s => answer (.nat s.pw.windowSize) s) s

/-- `PW.POSITION` (R128). -/
def execPwPosition (s : State) : Answer := unlessFaulted s.pw (fun s => answer (.u64 s.pw.position) s) s

/-- `PW.ISFULL` (R129). -/
def execPwIsfull (s : State) : Answer := unlessFaulted s.pw (fun s => answer (.bool s.pw.isFull) s) s

/-- `PW.GET` (R130). -/
def execPwGet (i : Int) (s : State) : Answer :=
  unlessFaulted s.pw (fun s =>
    if i < 0 ∨ i ≥ s.pw.windowSize then raise (.range [i]) s
    else answer (.i32 (s.pw.entry i.toNat)) s) s

/-- Put what a window operation left back into the state of the `PW` port. -/
def answerWindowStep (r : WindowStep) (s : State) : Answer :=
  answer (doneOr r.error) { s with pw := r.window, sources := r.sources }

/-- `PW.ADVANCE` (R131). -/
def execPwAdvance (s : State) : Answer :=
  unlessFaulted s.pw (fun s => answerWindowStep (s.pw.advance s.sources) s) s

/-- `PW.ADVANCEBY` (R132). -/
def execPwAdvanceby (n : Nat) (s : State) : Answer :=
  unlessFaulted s.pw (fun s => answerWindowStep (s.pw.advanceBy s.sources n) s) s

end Sys2Proof.Machine
end

