-- ==== Sys2Proof/Machine/Demod.lean ====
section
/-! DEFINITION. U6, the demodulator (44_demodulator.md): the preamble scores, the decision, the bit slicer, the acceptor,
and the scan of `DM.NEXT` with the register implementation of R150. -/

namespace Sys2Proof.Machine

/-- A window entry as the integer that the scores add up. -/
def PowerWindow.value (w : PowerWindow) (i : Nat) : Int := (w.entry i).toInt

/-- The preamble score at `position + k` (R146). -/
def PowerWindow.sp (w : PowerWindow) (k : Nat) : Int :=
  w.value k + w.value (k + 10) + w.value (k + 35) + w.value (k + 45)

/-- The void score at the position (R147). -/
def PowerWindow.sv (w : PowerWindow) : Int :=
  w.value 5 + w.value 15 + w.value 20 + w.value 25 + w.value 30 + w.value 40

/-- The preamble decision on its four scores (R149). -/
def detect (spp sp spn sv : Int) : Bool := decide (spp < sp ∧ sp > spn ∧ sp ≥ 2 * sv)

/-- The preamble decision at the demodulator's position; the preceding score is the register's (R148 to R150). -/
def Demodulator.detects (d : Demodulator) : Bool := detect d.spPrev (d.window.sp 0) (d.window.sp 1) d.window.sv

/-- Data bit `i` at the position (R64, R152): the polarity is the parameter `PPM_ONE_IS_LATE`. -/
def sliceBit (oneIsLate : Bool) (w : PowerWindow) (i : Nat) : Bool :=
  let late := decide (w.value (80 + 10 * i) < w.value (85 + 10 * i))
  if oneIsLate then late else !late

/-- The 112 bits at the position as a frame (R152, R153). -/
def slice (oneIsLate : Bool) (w : PowerWindow) : Frame := packBits (sliceBit oneIsLate w) 112

/-- Acceptance of a candidate frame (R154). -/
def accepts (crc : Crc24) (f : Frame) : Bool := crc.run (frameBytes f) == 0#24 && frameDf f == Config.dfAdsb

/-- The timestamp of a position (R85, R154). -/
def timestampOf (position : BitVec 64) : BitVec 64 := position * BitVec.ofNat 64 Config.nsPerSample

/-- The registers that the scan of `DM.NEXT` works on. -/
structure Scan where
  dm : Demodulator
  crc : Crc24
  sources : List ByteSource
  deriving DecidableEq, Repr

/-- One turn of the loop of R155 ends the operation with a result, or goes round again. -/
inductive ScanTurn where
  | stop (scan : Scan) (r : Response)
  | again (scan : Scan)
  deriving DecidableEq, Repr

/-- "Resume scanning from the next sample" (R155): one `PW.ADVANCE`, then the score registers move on (R150). -/
def Scan.next (c : Scan) : ScanTurn :=
  let r := c.dm.window.advance c.sources
  match r.error with
  | some e => .stop { c with dm := { c.dm with window := r.window }, sources := r.sources } (.error e)
  | none =>
    .again { c with
      dm := { c.dm with window := r.window, spPrev := c.dm.spCur, spCur := c.dm.spNext }, sources := r.sources }

/-- The jump after an accepted frame (R150, R155). With `SP_PREV_AFTER_ACCEPT = true_sequence` it is made as 1199 steps, the
preceding score, and one step more; with `zero` as 1200 steps, and the preceding score is cleared. -/
def Scan.jump (after : SpPrevAfterAccept) (c : Scan) (accepted : RawMessage) : Scan × Response :=
  let steps := match after with | .trueSequence => 1199 | .zero => 1200
  let r := c.dm.window.advanceBy c.sources steps
  match r.error with
  | some e => ({ c with dm := { c.dm with window := r.window }, sources := r.sources }, .error e)
  | none =>
    match after with
    | .zero =>
      ({ c with
          dm := { c.dm with window := r.window, spPrev := 0, spCur := r.window.sp 0 }
          sources := r.sources }, .raw accepted)
    | .trueSequence =>
      let spPrev := r.window.sp 0
      let r := r.window.advance r.sources
      match r.error with
      | some e => ({ c with dm := { c.dm with window := r.window, spPrev := spPrev }, sources := r.sources }, .error e)
      | none =>
        ({ c with
            dm := { c.dm with window := r.window, spPrev := spPrev, spCur := r.window.sp 0 }
            sources := r.sources }, .raw accepted)

/-- One turn of the loop of R155. -/
def Scan.turn (params : Params) (c : Scan) : ScanTurn :=
  match c.dm.window.fault with
  | some e => .stop c (.error e)
  | none =>
    if !c.dm.window.isFull then .stop c .absent
    else
      let c := { c with dm := { c.dm with spCur := c.dm.window.sp 0, spNext := c.dm.window.sp 1 } }
      if c.dm.detects then
        let f := slice params.ppmOneIsLate c.dm.window
        let timestampNs := timestampOf c.dm.window.position
        let ok := accepts c.crc f
        let c := { c with dm := { c.dm with frame := f }, crc := c.crc.after (frameBytes f) }
        if ok then
          let r := c.jump params.spPrevAfterAccept ⟨timestampNs, f⟩
          .stop r.1 r.2
        else c.next
      else c.next

/-- The loop of R155, for at most `fuel` turns. -/
def Scan.loop (params : Params) : Nat → Scan → Option (Scan × Response)
  | 0, _ => none
  | fuel + 1, c =>
    match c.turn params with
    | .stop c r => some (c, r)
    | .again c => Scan.loop params fuel c

/-- More turns than the scan can take (R155): every turn that goes round again leaves one power value behind, and there are
no more of them than those loaded and those that the stream still holds. -/
def scanFuel (w : PowerWindow) (sources : List ByteSource) : Nat :=
  w.avail + (sourceAt sources w.computer.decoder.source).bytes.length + 2

/-- `DM.NEW` (R145): a window of 1200 on the source, and `sp_prev` is cleared, also where the first fill fails (R28). Refused on a
source that another unit reads (R300). -/
def execDmNew (source : Nat) (s : State) : Answer :=
  withOwnSource .dm source (fun s =>
    let r := PowerWindow.construct source Config.demodWindow s.windowsBuilt s.sources
    answer (doneOr r.error) { s with
      dm := { s.dm with window := r.window, spPrev := 0 }
      sources := r.sources
      windowsBuilt := s.windowsBuilt + 1 }) s

/-- `DM.SP` (R146). -/
def execDmSp (s : State) : Answer := unlessFaulted s.dm.window (fun s => answer (.int (s.dm.window.sp 0)) s) s

/-- `DM.SV` (R147). -/
def execDmSv (s : State) : Answer := unlessFaulted s.dm.window (fun s => answer (.int s.dm.window.sv) s) s

/-- `DM.DETECT` (R149). -/
def execDmDetect (s : State) : Answer := unlessFaulted s.dm.window (fun s => answer (.bool s.dm.detects) s) s

/-- `DM.SLICE` (R152, R153): the frame register is written. It is not observable unless the candidate is accepted (R18), which
`DM.NEXT` does, so nothing is returned at the port (log entry 35). -/
def execDmSlice (s : State) : Answer :=
  unlessFaulted s.dm.window (fun s =>
    answer .done { s with dm := { s.dm with frame := slice s.params.ppmOneIsLate s.dm.window } }) s

/-- `DM.NEXT` (R155). -/
def execDmNext (s : State) : Answer :=
  match Scan.loop s.params (scanFuel s.dm.window s.sources) ⟨s.dm, s.crc, s.sources⟩ with
  | some (c, r) => answer r { s with dm := c.dm, crc := c.crc, sources := c.sources }
  | none => .fault .scanNeverEnds

/-- A candidate frame at the acceptor, at the demodulator's position (R154): the CRC is computed; the frame is returned with
its timestamp if it is accepted. -/
def candidate (f : Frame) (s : State) : Answer :=
  answer (if accepts s.crc f then .raw ⟨timestampOf s.dm.window.position, f⟩ else .absent)
    { s with crc := s.crc.after (frameBytes f) }

/-- `FRAME.DF17` (R66, R154). -/
def execFrameDf17 (unread : BitVec 3) (icao : Icao) (me : Me) (check : BitVec 24) (s : State) : Answer :=
  candidate (frameWord 17#5 unread icao me check) s

/-- `FRAME.OTHER` (R66, R154): discarded, also with a zero CRC. -/
def execFrameOther (df : BitVec 5) (unread : BitVec 3) (icao : Icao) (me : Me) (check : BitVec 24) (s : State) : Answer :=
  candidate (frameWord df unread icao me check) s

end Sys2Proof.Machine
end

