-- ==== Sys2Proof/Machine/RawMessages.lean ====
section
/-! DEFINITION. U7, the frame register's taps and the message parser (45_rawmessage_parser.md), the replay record (R84), and
the payload words of the type codes that are not decoded. -/

namespace Sys2Proof.Machine

/-- `RM.OF` on a unit's table (R170): a value exactly when the CRC is zero; nothing else is checked. -/
def rawOf (crc : Crc24) (timestampNs : BitVec 64) (bytes : Frame) : Option RawMessage :=
  if crc.run (frameBytes bytes) = 0#24 then some ⟨timestampNs, bytes⟩ else none

/-- The answer of `RM.OF`; the CRC unit has run. -/
def rawAnswer (timestampNs : BitVec 64) (bytes : Frame) (s : State) : Answer :=
  answerOption .raw (rawOf s.crc timestampNs bytes) { s with crc := s.crc.after (frameBytes bytes) }

/-- `RM.OF` (R170). -/
def execRmOf (timestampNs : BitVec 64) (bytes : Frame) (s : State) : Answer := rawAnswer timestampNs bytes s

/-- `REPLAY.RECORD` (R84, R276): the record feeds `RM.OF`, its timestamp unchanged. -/
def execReplayRecord (timestampNs : BitVec 64) (frame : Frame) (s : State) : Answer := rawAnswer timestampNs frame s

/-- `RM.DF` (R171). -/
def execRmDf (raw : RawMessage) (s : State) : Answer := answer (.nat (frameDf raw.bytes).toNat) s

/-- `RM.ICAO` (R172). -/
def execRmIcao (raw : RawMessage) (s : State) : Answer := answer (.icao (frameIcao raw.bytes)) s

/-- `RM.ME` (R173). -/
def execRmMe (raw : RawMessage) (s : State) : Answer := answer (.me (frameMe raw.bytes)) s

/-- `RM.TC` (R174). -/
def execRmTc (raw : RawMessage) (s : State) : Answer := answer (.nat (meTypeCode (frameMe raw.bytes)).toNat) s

/-- The dispatch on the type code alone (R60, R176). -/
def parseMe (params : Params) (me : Me) : Option Payload :=
  let tc := (meTypeCode me).toNat
  if 1 ≤ tc ∧ tc ≤ 4 then (decodeIdent params me).map .identification
  else if (9 ≤ tc ∧ tc ≤ 18) ∨ (20 ≤ tc ∧ tc ≤ 22) then (decodePosition me).map .position
  else if tc = 19 then (decodeVelocity me).map .velocity
  else none

/-- `MP.PARSE` (R176). -/
def execMpParse (raw : RawMessage) (s : State) : Answer :=
  answerOption (fun p => .message ⟨raw.timestampNs, frameIcao raw.bytes, p⟩) (parseMe s.params (frameMe raw.bytes)) s

/-- `ME.TC0`: the parser gives absent, no error (R80, R176). -/
def execMeTc0 (_unread : BitVec 51) (s : State) : Answer := answer .absent s

/-- `ME.TC5`: the parser gives absent, no error (R80, R176). -/
def execMeTc5 (_unread : BitVec 51) (s : State) : Answer := answer .absent s

/-- `ME.TC6`: the parser gives absent, no error (R80, R176). -/
def execMeTc6 (_unread : BitVec 51) (s : State) : Answer := answer .absent s

/-- `ME.TC7`: the parser gives absent, no error (R80, R176). -/
def execMeTc7 (_unread : BitVec 51) (s : State) : Answer := answer .absent s

/-- `ME.TC8`: the parser gives absent, no error (R80, R176). -/
def execMeTc8 (_unread : BitVec 51) (s : State) : Answer := answer .absent s

/-- `ME.TC23`: the parser gives absent, no error (R80, R176). -/
def execMeTc23 (_unread : BitVec 51) (s : State) : Answer := answer .absent s

/-- `ME.TC24`: the parser gives absent, no error (R80, R176). -/
def execMeTc24 (_unread : BitVec 51) (s : State) : Answer := answer .absent s

/-- `ME.TC25`: the parser gives absent, no error (R80, R176). -/
def execMeTc25 (_unread : BitVec 51) (s : State) : Answer := answer .absent s

/-- `ME.TC26`: the parser gives absent, no error (R80, R176). -/
def execMeTc26 (_unread : BitVec 51) (s : State) : Answer := answer .absent s

/-- `ME.TC27`: the parser gives absent, no error (R80, R176). -/
def execMeTc27 (_unread : BitVec 51) (s : State) : Answer := answer .absent s

/-- `ME.TC28`: the parser gives absent, no error (R80, R176). -/
def execMeTc28 (_unread : BitVec 51) (s : State) : Answer := answer .absent s

/-- `ME.TC29`: the parser gives absent, no error (R80, R176). -/
def execMeTc29 (_unread : BitVec 51) (s : State) : Answer := answer .absent s

/-- `ME.TC30`: the parser gives absent, no error (R80, R176). -/
def execMeTc30 (_unread : BitVec 51) (s : State) : Answer := answer .absent s

/-- `ME.TC31`: the parser gives absent, no error (R80, R176). -/
def execMeTc31 (_unread : BitVec 51) (s : State) : Answer := answer .absent s

end Sys2Proof.Machine
end

