-- ==== Sys2Proof/Machine/Dispatch.lean ====
section
/-! DEFINITION. The dispatch: one arm for each constructor of `Instr`. -/

namespace Sys2Proof.Machine

def exec (i : Instr) (s : State) : Host.Outcome State Fault Refusal :=
  match i with
  | .bfExtract value start size => Sys2Proof.Machine.execBfExtract value start size s
  | .bfTest value index => Sys2Proof.Machine.execBfTest value index s
  | .crcBuild generator => Sys2Proof.Machine.execCrcBuild generator s
  | .crcCrc bytes => Sys2Proof.Machine.execCrcCrc bytes s
  | .sdNew source batchSize => Sys2Proof.Machine.execSdNew source batchSize s
  | .sdReadbatch => Sys2Proof.Machine.execSdReadbatch s
  | .pcNew source batchSize => Sys2Proof.Machine.execPcNew source batchSize s
  | .pcReadbatch => Sys2Proof.Machine.execPcReadbatch s
  | .pwNew source windowSize => Sys2Proof.Machine.execPwNew source windowSize s
  | .pwSize => Sys2Proof.Machine.execPwSize s
  | .pwPosition => Sys2Proof.Machine.execPwPosition s
  | .pwIsfull => Sys2Proof.Machine.execPwIsfull s
  | .pwGet index => Sys2Proof.Machine.execPwGet index s
  | .pwAdvance => Sys2Proof.Machine.execPwAdvance s
  | .pwAdvanceby n => Sys2Proof.Machine.execPwAdvanceby n s
  | .dmNew source => Sys2Proof.Machine.execDmNew source s
  | .dmSp => Sys2Proof.Machine.execDmSp s
  | .dmSv => Sys2Proof.Machine.execDmSv s
  | .dmDetect => Sys2Proof.Machine.execDmDetect s
  | .dmSlice => Sys2Proof.Machine.execDmSlice s
  | .dmNext => Sys2Proof.Machine.execDmNext s
  | .rmOf timestampNs bytes => Sys2Proof.Machine.execRmOf timestampNs bytes s
  | .rmDf raw => Sys2Proof.Machine.execRmDf raw s
  | .rmIcao raw => Sys2Proof.Machine.execRmIcao raw s
  | .rmMe raw => Sys2Proof.Machine.execRmMe raw s
  | .rmTc raw => Sys2Proof.Machine.execRmTc raw s
  | .mpParse raw => Sys2Proof.Machine.execMpParse raw s
  | .idDecode raw => Sys2Proof.Machine.execIdDecode raw s
  | .apDecode raw => Sys2Proof.Machine.execApDecode raw s
  | .altDecode alt => Sys2Proof.Machine.execAltDecode alt s
  | .grayDecode g => Sys2Proof.Machine.execGrayDecode g s
  | .avDecode raw => Sys2Proof.Machine.execAvDecode raw s
  | .cprNl phi => Sys2Proof.Machine.execCprNl phi s
  | .cprDecode x0 y0 x1 y1 mostRecent => Sys2Proof.Machine.execCprDecode x0 y0 x1 y1 mostRecent s
  | .accUpdate msg => Sys2Proof.Machine.execAccUpdate msg s
  | .sample ignored u => Sys2Proof.Machine.execSample ignored u s
  | .replayRecord timestampNs frame => Sys2Proof.Machine.execReplayRecord timestampNs frame s
  | .frameDf17 unread icao me check => Sys2Proof.Machine.execFrameDf17 unread icao me check s
  | .frameOther df unread icao me check => Sys2Proof.Machine.execFrameOther df unread icao me check s
  | .meIdentTc1 ca c0 c1 c2 c3 c4 c5 c6 c7 => Sys2Proof.Machine.execMeIdentTc1 ca c0 c1 c2 c3 c4 c5 c6 c7 s
  | .meIdentTc2 ca c0 c1 c2 c3 c4 c5 c6 c7 => Sys2Proof.Machine.execMeIdentTc2 ca c0 c1 c2 c3 c4 c5 c6 c7 s
  | .meIdentTc3 ca c0 c1 c2 c3 c4 c5 c6 c7 => Sys2Proof.Machine.execMeIdentTc3 ca c0 c1 c2 c3 c4 c5 c6 c7 s
  | .meIdentTc4 ca c0 c1 c2 c3 c4 c5 c6 c7 => Sys2Proof.Machine.execMeIdentTc4 ca c0 c1 c2 c3 c4 c5 c6 c7 s
  | .mePositionTc9 unread50 alt unread35 f y x => Sys2Proof.Machine.execMePositionTc9 unread50 alt unread35 f y x s
  | .mePositionTc10 unread50 alt unread35 f y x => Sys2Proof.Machine.execMePositionTc10 unread50 alt unread35 f y x s
  | .mePositionTc11 unread50 alt unread35 f y x => Sys2Proof.Machine.execMePositionTc11 unread50 alt unread35 f y x s
  | .mePositionTc12 unread50 alt unread35 f y x => Sys2Proof.Machine.execMePositionTc12 unread50 alt unread35 f y x s
  | .mePositionTc13 unread50 alt unread35 f y x => Sys2Proof.Machine.execMePositionTc13 unread50 alt unread35 f y x s
  | .mePositionTc14 unread50 alt unread35 f y x => Sys2Proof.Machine.execMePositionTc14 unread50 alt unread35 f y x s
  | .mePositionTc15 unread50 alt unread35 f y x => Sys2Proof.Machine.execMePositionTc15 unread50 alt unread35 f y x s
  | .mePositionTc16 unread50 alt unread35 f y x => Sys2Proof.Machine.execMePositionTc16 unread50 alt unread35 f y x s
  | .mePositionTc17 unread50 alt unread35 f y x => Sys2Proof.Machine.execMePositionTc17 unread50 alt unread35 f y x s
  | .mePositionTc18 unread50 alt unread35 f y x => Sys2Proof.Machine.execMePositionTc18 unread50 alt unread35 f y x s
  | .mePositionTc20 unread50 alt unread35 f y x => Sys2Proof.Machine.execMePositionTc20 unread50 alt unread35 f y x s
  | .mePositionTc21 unread50 alt unread35 f y x => Sys2Proof.Machine.execMePositionTc21 unread50 alt unread35 f y x s
  | .mePositionTc22 unread50 alt unread35 f y x => Sys2Proof.Machine.execMePositionTc22 unread50 alt unread35 f y x s
  | .meVelocitySt1 unread47 dew vew dns vns unread20 => Sys2Proof.Machine.execMeVelocitySt1 unread47 dew vew dns vns unread20 s
  | .meVelocitySt2 unread47 dew vew dns vns unread20 => Sys2Proof.Machine.execMeVelocitySt2 unread47 dew vew dns vns unread20 s
  | .meVelocitySt3 unread47 sh hdg unread31 airspeed unread20 => Sys2Proof.Machine.execMeVelocitySt3 unread47 sh hdg unread31 airspeed unread20 s
  | .meVelocitySt4 unread47 sh hdg unread31 airspeed unread20 => Sys2Proof.Machine.execMeVelocitySt4 unread47 sh hdg unread31 airspeed unread20 s
  | .meVelocitySt0 unread => Sys2Proof.Machine.execMeVelocitySt0 unread s
  | .meVelocitySt5 unread => Sys2Proof.Machine.execMeVelocitySt5 unread s
  | .meVelocitySt6 unread => Sys2Proof.Machine.execMeVelocitySt6 unread s
  | .meVelocitySt7 unread => Sys2Proof.Machine.execMeVelocitySt7 unread s
  | .meTc0 unread => Sys2Proof.Machine.execMeTc0 unread s
  | .meTc5 unread => Sys2Proof.Machine.execMeTc5 unread s
  | .meTc6 unread => Sys2Proof.Machine.execMeTc6 unread s
  | .meTc7 unread => Sys2Proof.Machine.execMeTc7 unread s
  | .meTc8 unread => Sys2Proof.Machine.execMeTc8 unread s
  | .meTc23 unread => Sys2Proof.Machine.execMeTc23 unread s
  | .meTc24 unread => Sys2Proof.Machine.execMeTc24 unread s
  | .meTc25 unread => Sys2Proof.Machine.execMeTc25 unread s
  | .meTc26 unread => Sys2Proof.Machine.execMeTc26 unread s
  | .meTc27 unread => Sys2Proof.Machine.execMeTc27 unread s
  | .meTc28 unread => Sys2Proof.Machine.execMeTc28 unread s
  | .meTc29 unread => Sys2Proof.Machine.execMeTc29 unread s
  | .meTc30 unread => Sys2Proof.Machine.execMeTc30 unread s
  | .meTc31 unread => Sys2Proof.Machine.execMeTc31 unread s
  | .altQ1 nHi nLo => Sys2Proof.Machine.execAltQ1 nHi nLo s
  | .altQ0 c1 a1 c2 a2 c4 a4 b1 b2 d2 b4 d4 => Sys2Proof.Machine.execAltQ0 c1 a1 c2 a2 c4 a4 b1 b2 d2 b4 d4 s
  | .char0 => Sys2Proof.Machine.execChar0 s
  | .char1 => Sys2Proof.Machine.execChar1 s
  | .char2 => Sys2Proof.Machine.execChar2 s
  | .char3 => Sys2Proof.Machine.execChar3 s
  | .char4 => Sys2Proof.Machine.execChar4 s
  | .char5 => Sys2Proof.Machine.execChar5 s
  | .char6 => Sys2Proof.Machine.execChar6 s
  | .char7 => Sys2Proof.Machine.execChar7 s
  | .char8 => Sys2Proof.Machine.execChar8 s
  | .char9 => Sys2Proof.Machine.execChar9 s
  | .char10 => Sys2Proof.Machine.execChar10 s
  | .char11 => Sys2Proof.Machine.execChar11 s
  | .char12 => Sys2Proof.Machine.execChar12 s
  | .char13 => Sys2Proof.Machine.execChar13 s
  | .char14 => Sys2Proof.Machine.execChar14 s
  | .char15 => Sys2Proof.Machine.execChar15 s
  | .char16 => Sys2Proof.Machine.execChar16 s
  | .char17 => Sys2Proof.Machine.execChar17 s
  | .char18 => Sys2Proof.Machine.execChar18 s
  | .char19 => Sys2Proof.Machine.execChar19 s
  | .char20 => Sys2Proof.Machine.execChar20 s
  | .char21 => Sys2Proof.Machine.execChar21 s
  | .char22 => Sys2Proof.Machine.execChar22 s
  | .char23 => Sys2Proof.Machine.execChar23 s
  | .char24 => Sys2Proof.Machine.execChar24 s
  | .char25 => Sys2Proof.Machine.execChar25 s
  | .char26 => Sys2Proof.Machine.execChar26 s
  | .char27 => Sys2Proof.Machine.execChar27 s
  | .char28 => Sys2Proof.Machine.execChar28 s
  | .char29 => Sys2Proof.Machine.execChar29 s
  | .char30 => Sys2Proof.Machine.execChar30 s
  | .char31 => Sys2Proof.Machine.execChar31 s
  | .char32 => Sys2Proof.Machine.execChar32 s
  | .char33 => Sys2Proof.Machine.execChar33 s
  | .char34 => Sys2Proof.Machine.execChar34 s
  | .char35 => Sys2Proof.Machine.execChar35 s
  | .char36 => Sys2Proof.Machine.execChar36 s
  | .char37 => Sys2Proof.Machine.execChar37 s
  | .char38 => Sys2Proof.Machine.execChar38 s
  | .char39 => Sys2Proof.Machine.execChar39 s
  | .char40 => Sys2Proof.Machine.execChar40 s
  | .char41 => Sys2Proof.Machine.execChar41 s
  | .char42 => Sys2Proof.Machine.execChar42 s
  | .char43 => Sys2Proof.Machine.execChar43 s
  | .char44 => Sys2Proof.Machine.execChar44 s
  | .char45 => Sys2Proof.Machine.execChar45 s
  | .char46 => Sys2Proof.Machine.execChar46 s
  | .char47 => Sys2Proof.Machine.execChar47 s
  | .char48 => Sys2Proof.Machine.execChar48 s
  | .char49 => Sys2Proof.Machine.execChar49 s
  | .char50 => Sys2Proof.Machine.execChar50 s
  | .char51 => Sys2Proof.Machine.execChar51 s
  | .char52 => Sys2Proof.Machine.execChar52 s
  | .char53 => Sys2Proof.Machine.execChar53 s
  | .char54 => Sys2Proof.Machine.execChar54 s
  | .char55 => Sys2Proof.Machine.execChar55 s
  | .char56 => Sys2Proof.Machine.execChar56 s
  | .char57 => Sys2Proof.Machine.execChar57 s
  | .char58 => Sys2Proof.Machine.execChar58 s
  | .char59 => Sys2Proof.Machine.execChar59 s
  | .char60 => Sys2Proof.Machine.execChar60 s
  | .char61 => Sys2Proof.Machine.execChar61 s
  | .char62 => Sys2Proof.Machine.execChar62 s
  | .char63 => Sys2Proof.Machine.execChar63 s

end Sys2Proof.Machine
end

