-- ==== Sys2Proof/Machine/Text.lean ====
section
/-! DEFINITION. The textual forms of R82, and the host's construction of `CallSign` and `IcaoAddress` values (R257). -/

namespace Sys2Proof.Machine

/-- The upper-case hexadecimal digit of a nibble, as an ASCII code (R82). -/
def hexDigit (n : BitVec 4) : Byte := BitVec.ofNat 8 (if n.toNat < 10 then 48 + n.toNat else 55 + n.toNat)

/-- The text of an ICAO address: six upper-case digits, the most significant first (R82, R172). -/
def icaoText (a : Icao) : List Byte := (List.range 6).map fun k => hexDigit (a.extractLsb' (4 * (5 - k)) 4)

/-- The nibble of a hexadecimal digit. Whether a lower-case digit is one is not stated (R257). -/
def hexValue (c : Byte) : Option (BitVec 4) :=
  let n := c.toNat
  if 48 ≤ n ∧ n ≤ 57 then some (BitVec.ofNat 4 (n - 48))
  else if 65 ≤ n ∧ n ≤ 70 then some (BitVec.ofNat 4 (n - 55))
  else if 97 ≤ n ∧ n ≤ 102 ∧ Config.acceptsLowerCaseHex then some (BitVec.ofNat 4 (n - 87))
  else none

/-- The value of a text of hexadecimal digits, appended to `acc`. -/
def icaoDigits (acc : Icao) : List Byte → Option Icao
  | [] => some acc
  | c :: rest => (hexValue c).bind fun d => icaoDigits ((acc <<< 4) ||| d.setWidth 24) rest

/-- The ICAO address of a text: six hexadecimal digits (R26, R257). -/
def icaoOfText (text : List Byte) : Option Icao := if text.length = 6 then icaoDigits 0#24 text else none

/-- The text of a value that a constructor rejects, as the `info` of its error (R255). -/
def textInfo (text : List Byte) : List Int := text.map fun c => (c.toNat : Int)

/-- The host constructs a `CallSign` (R257): the text, or a `ConfigError`. -/
def newCallSign (text : List Byte) (s : State) : Answer :=
  if callSignOk text then answer (.text text) s else raise ⟨.configError, textInfo text⟩ s

/-- The host constructs an `IcaoAddress` (R257): the address, or a `ConfigError`. -/
def newIcaoAddress (text : List Byte) (s : State) : Answer :=
  match icaoOfText text with
  | some a => answer (.icao a) s
  | none => raise ⟨.configError, textInfo text⟩ s

end Sys2Proof.Machine
end

