-- ==== Sys2Proof/Machine/HostActs.lean ====
section
/-! DEFINITION. The port at which the block takes its next request, and the host's own acts (60_exceptions.md section 6). -/

namespace Sys2Proof.Machine

/-- Take the next request from the port: the request, and the state without it. None: the host asks for nothing. -/
def fetch (s : State) : Option (Request × State) :=
  match s.queue with
  | [] => none
  | r :: rest => some (r, { s with queue := rest })

/-- The host opens a byte source (R41, R292 step 2): nothing has been read from it. -/
def openSource (bytes : List Byte) (failures : List IoFailure) (s : State) : State :=
  { s with sources := s.sources ++ [⟨bytes, 0, 0, failures, false⟩] }

/-- An act of the host, if the request is one. -/
def hostAct : Request → Option (State → Answer)
  | .call _ _ => none
  | .word _ _ => none
  | .openSource bytes failures => some fun s => .next (openSource bytes failures s)
  | .purge now => some fun s => .next (purge now s)
  | .newCallSign text => some (newCallSign text)
  | .newIcaoAddress text => some (newIcaoAddress text)

/-- The state in which a word of the opcode table is the next request. -/
def placeWord (s : State) (nbits w : Nat) : State := { s with queue := requestOfTable nbits w :: s.queue }

end Sys2Proof.Machine
end

