-- ==== Sys2Proof/Machine/Step.lean ====
section
/-! DEFINITION. One step: the next request of the host is taken from the port, decoded and run. -/

namespace Sys2Proof.Machine

/-- Run a request on the state from which it has been taken: an act of the host, or the operation that it expresses. A
request that expresses no operation cannot be made at a port. -/
def runRequest (r : Request) (s : State) : Host.Outcome State Fault Refusal :=
  match hostAct r with
  | some act => act s
  | none =>
    match decode r with
    | .ok i => exec i s
    | .error reason => .refused (.notExpressible reason)

/-- One step. Without a request nothing happens in the block (R262). -/
def step (s : State) : Host.Outcome State Fault Refusal :=
  match fetch s with
  | none => .next s
  | some (r, s) => runRequest r s

/-- The state in which the next step runs a word of the opcode table. -/
def State.withFetchWord (s : State) (nbits w : Nat) : State := placeWord s nbits w

end Sys2Proof.Machine
end

