-- ==== Sys2Proof/Machine/CrcPolynomial.lean ====
section
/-! DEFINITION. The CRC as a remainder of polynomials over GF(2) (R100, R103). The machine computes with registers; nothing it
does depends on these definitions. -/

namespace Sys2Proof.Machine

/-- The polynomial of a word: bit `i` is the coefficient of `x^i` (R100). -/
noncomputable def wordPoly {n : Nat} (w : BitVec n) : Polynomial (ZMod 2) :=
  ∑ i ∈ Finset.range n, if w.getLsbD i then Polynomial.X ^ i else 0

/-- The generator polynomial `G(x)`: the term `x^24` is implicit in the 24-bit register (R100). -/
noncomputable def generatorPoly (generator : BitVec 24) : Polynomial (ZMod 2) := Polynomial.X ^ 24 + wordPoly generator

/-- The message polynomial `M(x)`: the first byte is the most significant (R100). -/
noncomputable def messagePoly : List Byte → Polynomial (ZMod 2)
  | [] => 0
  | b :: rest => wordPoly b * Polynomial.X ^ (8 * rest.length) + messagePoly rest

end Sys2Proof.Machine
end

