-- ==== Sys2Proof/Machine/RealValues.lean ====
section
/-! DEFINITION. The real numbers that the exact quantities of the state stand for (R205, R216, R217, R219, R220), and
`Numerics` (R5, D24): a machine number is such a real, rounded. The machine holds the exact quantity; nothing it does
depends on these definitions. -/

namespace Sys2Proof.Machine

/-- The metres of an exact length: feet times 0.3048 (R205). -/
noncomputable def Length.metres (l : Length) : ℝ := (l.feet : ℝ) * 381 / 1250

/-- The metres a second of an exact speed: knots times 1852/3600 (R216, R220). -/
noncomputable def Speed.mps (v : Speed) : ℝ := Real.sqrt (v.knotsSq : ℝ) * 463 / 900

/-- `angle(e, n)` (R219): the argument of the complex number with real part `n` and imaginary part `e`, into `[0, 2π)`. -/
noncomputable def trackRadians (east north : Int) : ℝ :=
  let a := Complex.arg ⟨(north : ℝ), (east : ℝ)⟩
  if a < 0 then a + 2 * Real.pi else a

/-- The radians of an exact angle (R217, R219). -/
noncomputable def Angle.radians : Angle → ℝ
  | .ofVector east north => trackRadians east north
  | .ofHeading units => (units : ℝ) * (2 * Real.pi) / 1024

/-- `Numerics`: how an implementation rounds its real results (R5, D24). The spec leaves open how `sqrt`, `atan2` and the two
products each round; that a machine number is one function of the finished exact real, one for each of the three results and the
same for tracks and headings, is the model's choice of form (DESIGN CHOICE, log entry 22). Nothing that the machine does and no
statement depends on it. -/
structure Numerics where
  metres : ℝ → ℝ
  speed : ℝ → ℝ
  angle : ℝ → ℝ

/-- The default: exact real arithmetic. -/
def Numerics.exact : Numerics := ⟨id, id, id⟩

/-- The machine number that an implementation reports for an exact length. -/
noncomputable def Numerics.altitudeMeters (n : Numerics) (l : Length) : ℝ := n.metres l.metres

/-- The machine number that an implementation reports for an exact speed. -/
noncomputable def Numerics.speedMps (n : Numerics) (v : Speed) : ℝ := n.speed v.mps

/-- The machine number that an implementation reports for an exact angle. -/
noncomputable def Numerics.trackOrHeadingRad (n : Numerics) (a : Angle) : ℝ := n.angle a.radians

end Sys2Proof.Machine
end

