-- ==== Sys2Proof/Machine/Rows.lean ====
section
/-! DEFINITION. The rows of the opcode table that share a shape, listed by their selector, and the operations grouped as the
rules of 60_exceptions.md group them; the statements about "every row" and "no other operation" speak through these. -/

namespace Sys2Proof.Machine

/-- The character rows, in the order of their code (R187). -/
def charRows : List Instr :=
  [Instr.char0, Instr.char1, Instr.char2, Instr.char3, Instr.char4, Instr.char5, Instr.char6, Instr.char7] ++
  [Instr.char8, Instr.char9, Instr.char10, Instr.char11, Instr.char12, Instr.char13, Instr.char14, Instr.char15] ++
  [Instr.char16, Instr.char17, Instr.char18, Instr.char19, Instr.char20, Instr.char21, Instr.char22, Instr.char23] ++
  [Instr.char24, Instr.char25, Instr.char26, Instr.char27, Instr.char28, Instr.char29, Instr.char30, Instr.char31] ++
  [Instr.char32, Instr.char33, Instr.char34, Instr.char35, Instr.char36, Instr.char37, Instr.char38, Instr.char39] ++
  [Instr.char40, Instr.char41, Instr.char42, Instr.char43, Instr.char44, Instr.char45, Instr.char46, Instr.char47] ++
  [Instr.char48, Instr.char49, Instr.char50, Instr.char51, Instr.char52, Instr.char53, Instr.char54, Instr.char55] ++
  [Instr.char56, Instr.char57, Instr.char58, Instr.char59, Instr.char60, Instr.char61, Instr.char62, Instr.char63]

/-- The identification rows with their type code (R70). -/
def identRows :
    List (BitVec 5 × (BitVec 3 → BitVec 6 → BitVec 6 → BitVec 6 → BitVec 6 → BitVec 6 → BitVec 6 → BitVec 6 → BitVec 6 →
      Instr)) :=
  [(1#5, Instr.meIdentTc1), (2#5, Instr.meIdentTc2), (3#5, Instr.meIdentTc3), (4#5, Instr.meIdentTc4)]

/-- The position rows with their type code (R72). -/
def positionRows :
    List (BitVec 5 × (BitVec 3 → BitVec 12 → BitVec 1 → BitVec 1 → BitVec 17 → BitVec 17 → Instr)) :=
  [(9#5, Instr.mePositionTc9), (10#5, Instr.mePositionTc10), (11#5, Instr.mePositionTc11), (12#5, Instr.mePositionTc12)] ++
  [(13#5, Instr.mePositionTc13), (14#5, Instr.mePositionTc14), (15#5, Instr.mePositionTc15), (16#5, Instr.mePositionTc16)] ++
  [(17#5, Instr.mePositionTc17), (18#5, Instr.mePositionTc18), (20#5, Instr.mePositionTc20), (21#5, Instr.mePositionTc21)] ++
  [(22#5, Instr.mePositionTc22)]

/-- The rows of the type codes that are not decoded (R176). -/
def restRows : List (BitVec 5 × (BitVec 51 → Instr)) :=
  [(0#5, Instr.meTc0), (5#5, Instr.meTc5), (6#5, Instr.meTc6), (7#5, Instr.meTc7), (8#5, Instr.meTc8)] ++
  [(23#5, Instr.meTc23), (24#5, Instr.meTc24), (25#5, Instr.meTc25), (26#5, Instr.meTc26), (27#5, Instr.meTc27)] ++
  [(28#5, Instr.meTc28), (29#5, Instr.meTc29), (30#5, Instr.meTc30), (31#5, Instr.meTc31)]

/-- The ground-speed rows with their subtype and scale (R75, R76). -/
def groundRows :
    List (BitVec 3 × Int × (BitVec 5 → BitVec 1 → BitVec 10 → BitVec 1 → BitVec 10 → BitVec 21 → Instr)) :=
  [(1#3, 1, Instr.meVelocitySt1), (2#3, 4, Instr.meVelocitySt2)]

/-- The air-speed rows with their subtype and scale (R75, R76). -/
def airRows :
    List (BitVec 3 × Int × (BitVec 5 → BitVec 1 → BitVec 10 → BitVec 1 → BitVec 10 → BitVec 21 → Instr)) :=
  [(3#3, 1, Instr.meVelocitySt3), (4#3, 4, Instr.meVelocitySt4)]

/-- The rows of the subtypes that are not decoded (R215). -/
def velocityRestRows : List (BitVec 3 × (BitVec 48 → Instr)) :=
  [(0#3, Instr.meVelocitySt0), (5#3, Instr.meVelocitySt5), (6#3, Instr.meVelocitySt6), (7#3, Instr.meVelocitySt7)]

/-- The integer columns of `NLTAB` (R239): the zone count `n`, and the largest numerators `K60_n` and `K59_n` of an even and of
an odd candidate latitude that lie at or below `L_n`. -/
def zoneTable : List (Nat × Nat × Nat) :=
  [(2, 1900544, 1868868), (3, 1890394, 1858887), (4, 1873355, 1842133), (5, 1854486, 1823578), (6, 1834827, 1804247)] ++
  [(7, 1814735, 1784489), (8, 1794366, 1764460), (9, 1773797, 1744234), (10, 1753071, 1723853), (11, 1732210, 1703339)] ++
  [(12, 1711226, 1682706), (13, 1690127, 1661958), (14, 1668914, 1641099), (15, 1647587, 1620127), (16, 1626143, 1599040)] ++
  [(17, 1604578, 1577835), (18, 1582887, 1556506), (19, 1561064, 1535046), (20, 1539102, 1513450), (21, 1516992, 1491709)] ++
  [(22, 1494728, 1469815), (23, 1472298, 1447759), (24, 1449693, 1425532), (25, 1426903, 1403121), (26, 1403915, 1380517)] ++
  [(27, 1380718, 1357706), (28, 1357297, 1334676), (29, 1333639, 1311412), (30, 1309728, 1287899), (31, 1285546, 1264120)] ++
  [(32, 1261075, 1240057), (33, 1236297, 1215692), (34, 1211187, 1191001), (35, 1185724, 1165962), (36, 1159881, 1140550)] ++
  [(37, 1133629, 1114735), (38, 1106935, 1088486), (39, 1079765, 1061769), (40, 1052079, 1034545), (41, 1023832, 1006768)] ++
  [(42, 994973, 978390), (43, 965444, 949353), (44, 935179, 919593), (45, 904102, 889033), (46, 872121, 857586)] ++
  [(47, 839132, 825146), (48, 805006, 791589), (49, 769589, 756762), (50, 732691, 720479), (51, 694072, 682504)] ++
  [(52, 653423, 642533), (53, 610336, 600164), (54, 564248, 554844), (55, 514349, 505776), (56, 459394, 451737)] ++
  [(57, 397284, 390663), (58, 323926, 318527), (59, 228730, 224918)]

/-- Which operation can raise which error: the table of R256. Every operation on a window and on a demodulator can raise the
recorded `IoError`. -/
inductive MayRaise : ErrorCode → Instr → Prop where
  | bfExtract value start size : MayRaise .rangeError (.bfExtract value start size)
  | bfTest value index : MayRaise .rangeError (.bfTest value index)
  | pwGet i : MayRaise .rangeError (.pwGet i)
  | sdNew source batchSize : MayRaise .configError (.sdNew source batchSize)
  | pcNew source batchSize : MayRaise .configError (.pcNew source batchSize)
  | pwNew source windowSize : MayRaise .configError (.pwNew source windowSize)
  | sdReadbatch : MayRaise .ioError .sdReadbatch
  | pcReadbatch : MayRaise .ioError .pcReadbatch
  | pwNewRead source windowSize : MayRaise .ioError (.pwNew source windowSize)
  | pwSize : MayRaise .ioError .pwSize
  | pwPosition : MayRaise .ioError .pwPosition
  | pwIsfull : MayRaise .ioError .pwIsfull
  | pwGetFaulted i : MayRaise .ioError (.pwGet i)
  | pwAdvance : MayRaise .ioError .pwAdvance
  | pwAdvanceby n : MayRaise .ioError (.pwAdvanceby n)
  | dmNew source : MayRaise .ioError (.dmNew source)
  | dmSp : MayRaise .ioError .dmSp
  | dmSv : MayRaise .ioError .dmSv
  | dmDetect : MayRaise .ioError .dmDetect
  | dmSlice : MayRaise .ioError .dmSlice
  | dmNext : MayRaise .ioError .dmNext

/-- The operations that read or write state: those of the CRC unit and of the units U3 to U6, the acceptance of a frame and
the host's accumulator. Every other unit is stateless (R10). -/
inductive UsesState : Instr → Prop where
  | crcBuild generator : UsesState (.crcBuild generator)
  | crcCrc bytes : UsesState (.crcCrc bytes)
  | sdNew source batchSize : UsesState (.sdNew source batchSize)
  | sdReadbatch : UsesState .sdReadbatch
  | pcNew source batchSize : UsesState (.pcNew source batchSize)
  | pcReadbatch : UsesState .pcReadbatch
  | pwNew source windowSize : UsesState (.pwNew source windowSize)
  | pwSize : UsesState .pwSize
  | pwPosition : UsesState .pwPosition
  | pwIsfull : UsesState .pwIsfull
  | pwGet i : UsesState (.pwGet i)
  | pwAdvance : UsesState .pwAdvance
  | pwAdvanceby n : UsesState (.pwAdvanceby n)
  | dmNew source : UsesState (.dmNew source)
  | dmSp : UsesState .dmSp
  | dmSv : UsesState .dmSv
  | dmDetect : UsesState .dmDetect
  | dmSlice : UsesState .dmSlice
  | dmNext : UsesState .dmNext
  | rmOf timestampNs bytes : UsesState (.rmOf timestampNs bytes)
  | replayRecord timestampNs frame : UsesState (.replayRecord timestampNs frame)
  | frameDf17 unread icao me check : UsesState (.frameDf17 unread icao me check)
  | frameOther df unread icao me check : UsesState (.frameOther df unread icao me check)
  | accUpdate msg : UsesState (.accUpdate msg)

/-- The operations that construct a unit on a byte source, with the unit and the handle (R110, R114, R125, R145). -/
inductive Constructs : StreamUnit → Nat → Instr → Prop where
  | sdNew source batchSize : Constructs .sd source (.sdNew source batchSize)
  | pcNew source batchSize : Constructs .pc source (.pcNew source batchSize)
  | pwNew source windowSize : Constructs .pw source (.pwNew source windowSize)
  | dmNew source : Constructs .dm source (.dmNew source)

/-- The operations that read the byte source (R41, R50). -/
inductive ReadsSource : Instr → Prop where
  | sdReadbatch : ReadsSource .sdReadbatch
  | pcReadbatch : ReadsSource .pcReadbatch
  | pwNew source windowSize : ReadsSource (.pwNew source windowSize)
  | pwAdvance : ReadsSource .pwAdvance
  | pwAdvanceby n : ReadsSource (.pwAdvanceby n)
  | dmNew source : ReadsSource (.dmNew source)
  | dmNext : ReadsSource .dmNext

end Sys2Proof.Machine
end

