-- ==== Sys2Proof/Machine/Stream.lean ====
section
/-! DEFINITION. The architectural view: the power sequence `P` of a byte stream (R117, R118) and, on it, the scores, the
decision and the frame at a position (R146 to R153). These are mathematical objects and no registers; the statements compare
the machine's registers and buffers with them. -/

namespace Sys2Proof.Machine

/-- Byte `k` of a stream. -/
def byteAt (bytes : List Byte) (k : Nat) : Int := ((bytes.getD k 0#8).toNat : Int)

/-- Sample `j` of a stream (R112, R117): before the stream began every sample is 0. -/
def sampleAt (bytes : List Byte) (j : Int) : Int :=
  if j < 0 then 0 else (byteAt bytes (2 * j.toNat + 1) * 256 + byteAt bytes (2 * j.toNat)) % 4096 - 2048

/-- `N`: how many power values a stream has (R113, R118). -/
def powerCount (bytes : List Byte) : Nat := bytes.length / 4

/-- `P[n]` (R117). -/
def powerAt (bytes : List Byte) (n : Nat) : Int :=
  let s := fun k : Int => sampleAt bytes (2 * (n : Int) + k)
  (s (-6) - s (-4) + s (-2) - s 0) ^ 2 + (s (-5) - s (-3) + s (-1) - s 1) ^ 2

/-- `sp(p)` (R146). -/
def spAt (bytes : List Byte) (p : Nat) : Int :=
  powerAt bytes p + powerAt bytes (p + 10) + powerAt bytes (p + 35) + powerAt bytes (p + 45)

/-- `sv(p)` (R147). -/
def svAt (bytes : List Byte) (p : Nat) : Int :=
  powerAt bytes (p + 5) + powerAt bytes (p + 15) + powerAt bytes (p + 20) + powerAt bytes (p + 25) +
    powerAt bytes (p + 30) + powerAt bytes (p + 40)

/-- `spp(p)`, the preceding score (R148, `SP_PREV_AFTER_ACCEPT = true_sequence`). -/
def sppAt (bytes : List Byte) (p : Nat) : Int := if p = 0 then 0 else spAt bytes (p - 1)

/-- `detect(p)` (R149). -/
def detectAt (bytes : List Byte) (p : Nat) : Bool :=
  detect (sppAt bytes p) (spAt bytes p) (spAt bytes (p + 1)) (svAt bytes p)

/-- `slice(p)` (R152, R153). -/
def sliceAt (oneIsLate : Bool) (bytes : List Byte) (p : Nat) : Frame :=
  packBits (fun i =>
    let late := decide (powerAt bytes (p + 80 + 10 * i) < powerAt bytes (p + 85 + 10 * i))
    if oneIsLate then late else !late) 112

/-- A frame is accepted at `p` (R149, R154): a preamble is declared there and the frame sliced there is acceptable. -/
def acceptedAt (oneIsLate : Bool) (crc : Crc24) (bytes : List Byte) (p : Nat) : Bool :=
  detectAt bytes p && accepts crc (sliceAt oneIsLate bytes p)

end Sys2Proof.Machine
end

