-- ==== Sys2Proof/Safety.lean ====
section
/-! DEFINITION. What a sound state is, and what a run of the block may rest on: the invariant that every step keeps, and the
byte sources and windows that the statements about streams start from. -/

namespace Sys2Proof.Machine

/-- The table agrees with the generator it was built for (R20, R53). -/
def Crc24.Built (crc : Crc24) : Prop := crc.table = crcTableOf crc.generator

/-- A power computer that `PC.NEW` could have made (R11, R46, R114). -/
def PowerComputer.Legal (c : PowerComputer) : Prop :=
  0 < c.batch ∧ c.batch % 8 = 0 ∧ c.decoder.batch = 2 * c.batch

/-- A sound window: a legal size (R11, R125) and batch sizes (R28); both block buffers in canonical form with addresses
below 65536 (R21, R22); the current buffer is the one of the position's block (R46 (e), R137); only whole blocks loaded
while the stream goes on (R135, R138 (c)); and no error recorded but an `IoError` (R19). -/
structure PowerWindow.Sound (w : PowerWindow) : Prop where
  size : 1 ≤ w.windowSize ∧ w.windowSize ≤ 65536
  batches : w.computer.batch = 65536 ∧ w.computer.decoder.batch = 131072
  wf0 : Mem.Wf w.blk0
  wf1 : Mem.Wf w.blk1
  below0 : Mem.Below 65536 w.blk0
  below1 : Mem.Below 65536 w.blk1
  current : w.cur = decide (w.position.toNat / 65536 % 2 = 1)
  blocks : w.eos = false → w.avail % 65536 = 0
  faults : ∀ e, w.fault = some e → e.code = .ioError

/-- A sound per-aircraft state: it has been seen, and each slot holds a message of its parity (R271, R272). -/
def AircraftState.Sound (a : AircraftState) : Prop :=
  a.lastSeenNs ≠ none ∧ (∀ p, a.slotEven = some p → p.position.parity = 0#1) ∧
    (∀ p, a.slotOdd = some p → p.position.parity = 1#1)

/-- A sound map of aircraft: canonical, keyed by 24-bit addresses (R26, R271). -/
structure AircraftMapSound (m : Mem AircraftState) : Prop where
  wf : Mem.Wf m
  below : Mem.Below (2 ^ 24) m
  entries : ∀ p ∈ m, p.2.Sound

/-- The invariant of the machine. No two units that may still read have the same byte source (R300). The last clause is the
invariant of `RawMessage` (R24): a raw message at the port has CRC zero. -/
structure State.Sound (s : State) : Prop where
  crc : s.crc.Built
  decoder : 0 < s.sd.batch
  computer : s.pc.Legal
  window : s.pw.Sound
  demodulator : s.dm.window.Sound
  demodulatorSize : s.dm.window.windowSize = 1200
  aircraft : AircraftMapSound s.aircraft
  oneReader : ∀ u v, u ≠ v → s.mayRead u = true → s.mayRead v = true → s.sourceOf u ≠ s.sourceOf v
  rawMessage : ∀ r, s.response = .raw r → s.crc.run (frameBytes r.bytes) = 0#24

/-- The window's counters cannot wrap (R13, R15): all that is loaded, and all that its stream still holds, fits a `u64`. -/
def PowerWindow.Fits (w : PowerWindow) (sources : List ByteSource) : Prop :=
  w.avail + (sourceAt sources w.computer.decoder.source).bytes.length + 131072 < 2 ^ 64

/-- The handle names a byte source of the host that delivers the stream `bytes` from its first byte and never fails, and that
nothing has read (R41, R279). -/
def FreshSource (sources : List ByteSource) (handle : Nat) (bytes : List Byte) : Prop :=
  sources[handle]? = some ⟨bytes, 0, 0, [], false⟩

/-- A power computer that has produced the first `n` values of the power sequence of `bytes` (all of them, if the stream has
fewer): its source never fails and stands behind their bytes, a read having been short if there were fewer, and the history holds the last eight samples (R14, R115). -/
def PowerComputer.AtIndex (bytes : List Byte) (n : Nat) (c : PowerComputer) (sources : List ByteSource) : Prop :=
  (∃ calls, sources[c.decoder.source]? = some
      ⟨bytes, min (4 * n) bytes.length, calls, [], decide (bytes.length < 4 * n)⟩) ∧
    ∀ k : Fin 8, c.history.tap k = sampleAt bytes (2 * (min n (powerCount bytes) : Nat) - 1 - (k.val : Int))

/-- The end of the block that holds the window's right edge (R15, R134). -/
def PowerWindow.loadedEnd (w : PowerWindow) : Nat := ((w.position.toNat + w.windowSize - 1) / 65536 + 1) * 65536

/-- The two views of the window agree on the stream `bytes` (R138): no error is recorded; the window has loaded the power
sequence up to the end of the block of its right edge, or all of it; the stream has ended for it exactly when that is more
than there is; and the power values from the current block on are stored where R136 looks for them. -/
structure PowerWindow.Shows (bytes : List Byte) (w : PowerWindow) (sources : List ByteSource) : Prop where
  size : 1 ≤ w.windowSize ∧ w.windowSize ≤ 65536
  batches : w.computer.batch = 65536 ∧ w.computer.decoder.batch = 131072
  unfaulted : w.fault = none
  loaded : w.avail = min (powerCount bytes) w.loadedEnd
  ended : w.eos = decide (powerCount bytes < w.loadedEnd)
  entries : ∀ k, w.position.toNat / 65536 * 65536 ≤ k → k < w.avail →
    Mem.read? (w.block (if k / 65536 = w.position.toNat / 65536 then w.cur else !w.cur)) (k % 65536) =
      some (BitVec.ofInt 32 (powerAt bytes k))
  source : w.computer.AtIndex bytes w.loadedEnd sources

end Sys2Proof.Machine
end

