-- ==== Sys2Proof/Certificates/Slice0/Obligations.lean ====
section
/-! DEFINITION. The statements about the machine, from the numbered rules of spec/. -/

section

open Sys2Proof Sys2Proof.Machine

/-! ## Requests and words -/

/-- The decoder reads every well-formed instruction back from the request that the encoder writes for it (30_encoding.md;
the requests are the model's form of the ports, log entry 1). -/
def Obligations.DecodeOfEncode : Prop :=
  ∀ i : Instr, i.wellFormed = true → decode (encode i) = .ok i

/-- What the decoder accepts is well formed, and every bit of a word of a format is carried by the instruction it stands for:
the encoder gives the very bytes back (30_encoding.md; R80: bits that no unit reads are carried). -/
def Obligations.DecodedWordsAreCarriedWhole : Prop :=
  (∀ (r : Request) (i : Instr), decode r = .ok i → i.wellFormed = true) ∧
    (∀ (format : Format) (bytes : List Byte) (i : Instr),
      decode (.word format bytes) = .ok i → encode i = .word format bytes)

/-- R80: no encoding traps. Every word of every format that fits its width is decoded to an operation, and the operation
returns without an error in every state. That a data word is run as an operation at all is log entry 25 for the frames and log
entry 26 for the others (both DESIGN CHOICE). -/
def Obligations.NoWordTraps : Prop :=
  ∀ (format : Format) (w : Nat) (s : State), w < 2 ^ format.width →
    ∃ (i : Instr) (t : State), decode (.word format (format.layout w)) = .ok i ∧ exec i s = .next t ∧
      ∀ e, t.response ≠ .error e

/-- A word of each format, and one of each kind of payload, written out from its layout (R61, R66, R70, R72, R73, R74, R75, R84,
R187; the frames of R190, R208 and R221). That 16 bits stand for an altitude field below `2^12` and else for a raw sample, and 8
bits for a character code, is the model's choice (log entry 2). -/
def Obligations.WordsOfTheSpecDecode : Prop :=
  decodeTableWord 16 0xF234 = some (.sample 0xF#4 0x234#12) ∧
  decodeTableWord 176 0x000000003B9ACA008D4B17E5202CC371C32CE02156E5 =
    some (.replayRecord 1000000000#64 0x8D4B17E5202CC371C32CE02156E5#112) ∧
  decodeTableWord 112 0x8DA05F219B06B6AF189400CBC33F =
    some (.frameDf17 5#3 0xA05F21#24 0x9B06B6AF189400#56 0xCBC33F#24) ∧
  decodeTableWord 56 0x202CC371C32CE0 =
    some (.meIdentTc4 0#3 11#6 12#6 13#6 49#6 48#6 50#6 51#6 32#6) ∧
  decodeTableWord 56 0x59B225F07550AD =
    some (.mePositionTc11 1#3 0xB22#12 0#1 1#1 63546#17 86189#17) ∧
  decodeTableWord 56 0x9B06B6AF189400 =
    some (.meVelocitySt3 0#5 1#1 694#10 1#1 376#10 0x189400#21) ∧
  decodeTableWord 56 0xF8210002004BB8 = some (.meTc31 0x210002004BB8#51) ∧
  decodeTableWord 16 0xC38 = some (.altQ1 0b1100001#7 0b1000#4) ∧
  decodeTableWord 16 0xB22 = some (.altQ0 1#1 0#1 1#1 1#1 0#1 0#1 1#1 0#1 0#1 1#1 0#1) ∧
  decodeTableWord 8 11 = some .char11

/-- When the request at the port expresses an instruction, a step takes the request from the port and runs the instruction on
the state without it; without a request a step changes nothing (R262, R270; the port is the model's, log entry 1). A word placed
at the port is what the very next step runs, on the state as it was (log entry 3). -/
def Obligations.StepRunsDecodedRequest : Prop :=
  (∀ (s : State) (r : Request) (rest : List Request) (i : Instr), s.queue = r :: rest → decode r = .ok i →
    step s = exec i { s with queue := rest }) ∧
  (∀ s : State, s.queue = [] → step s = .next s) ∧
  (∀ (s : State) (nbits w : Nat) (i : Instr), decodeTableWord nbits w = some i →
    step (s.withFetchWord nbits w) = exec i s)

/-! ## Invariants and whole-machine rules -/

/-- After reset the machine is sound, and its registers hold the values of R28 for a chain constructed on a source without a
byte (log entry 4: the model's choice of stream). -/
def Obligations.ResetIsSound : Prop :=
  State.reset.Sound ∧
  State.reset.crc.generator = 0xFFF409#24 ∧
  (∀ w ∈ [State.reset.pw, State.reset.dm.window], w.windowSize = 1200 ∧ w.position = 0#64 ∧ w.avail = 0 ∧ w.eos = true ∧
    w.cur = false ∧ w.fault = none ∧ w.computer.batch = 65536 ∧ w.computer.decoder.batch = 131072 ∧
    ∀ k, w.computer.history.tap k = 0) ∧
  State.reset.dm.spPrev = 0 ∧ State.reset.aircraft = [] ∧ State.reset.queue = []

/-- Every step keeps the machine sound: the CRC table agrees with the generator, the configuration registers are legal, both
block buffers stay canonical and within 65536 entries, the current buffer is that of the position's block, whole blocks are
loaded until the stream ends, the map of aircraft is canonical with each position message in the slot of its parity, no two
units that may still read have one byte source, and a raw message at the port has CRC zero (R11, R19, R21, R22, R24, R53, R135,
R137, R271, R272, R300; that a construction on a source in use is refused is log entry 34). -/
def Obligations.StepKeepsSound : Prop :=
  ∀ s t : State, s.Sound → step s = .next t → t.Sound

/-- Every operation returns in every state, but for a construction on a byte source that another unit still reads, which R300
gives no behaviour and the model refuses (log entry 34); such a construction that returns has raised its `ConfigError`. `DM.NEXT`
returns while the window's counters fit their width: the scan ends (R155: on a finite stream `DM.NEXT` always returns). -/
def Obligations.OperationsReturn : Prop :=
  (∀ (i : Instr) (s : State), i ≠ .dmNext → (∀ u h, Constructs u h i → s.sourceInUse u h = false) →
    ∃ t, exec i s = .next t) ∧
  (∀ s : State, s.dm.window.Fits s.sources → ∃ t, exec .dmNext s = .next t) ∧
  (∀ (u : StreamUnit) (h : Nat) (i : Instr) (s : State), Constructs u h i →
    (s.sourceInUse u h = true ↔ ∃ v, v ≠ u ∧ s.mayRead v = true ∧ s.sourceOf v = h) ∧
    (s.sourceInUse u h = true → exec i s = .refused (.sourceInUse h) ∨
      ∃ e, exec i s = .next (s.respond (.error e)) ∧ e.code = .configError))

/-- R256: which operation can raise which error. In a sound state an operation that the table does not name for an error does
not return that error. -/
def Obligations.ErrorsOnlyWhereNamed : Prop :=
  ∀ (i : Instr) (s t : State) (e : Error), s.Sound → exec i s = .next t → t.response = .error e → MayRaise e.code i

/-- R10: the units U1, U8, U9, U10, U11 and the taps and the dispatcher of U7 are stateless. Their operations change nothing but
the result at the port, and the result depends on the operands and the open parameters alone. So do the data words of the
model: that a SAMPLE, an ME, an ALT or a CHAR word is run as an operation that changes only the result is log entry 26 (DESIGN
CHOICE). -/
def Obligations.StatelessUnitsReadNoState : Prop :=
  ∀ (i : Instr) (s : State), ¬UsesState i →
    ∃ r : Response, exec i s = .next (s.respond r) ∧
      ∀ s' : State, s'.params = s.params → exec i s' = .next (s'.respond r)

/-- Every register and memory is written by the operations named for it here and by no other. The spec names them for the
generator and the table, which `CRC.BUILD` writes (R11, R20), for the CRC register, which the operations that compute a CRC write
(R18), for each unit's registers and buffers, which its own operations write (R13 to R18, R21, R40), for the map of aircraft, which
`ACC.UPDATE` writes (R271), and for the byte sources, which the operations that read them move (R12, R47). The model's own are: that
no operation writes the open parameters or the requests (log entries 10 and 1), that the count of windows is written by the
constructors of windows (log entry 9, DESIGN CHOICE), and that `CRC.BUILD` leaves the CRC register (log entry 31, DEDUCED). -/
def Obligations.UnitsKeepToThemselves : Prop :=
  ∀ (i : Instr) (s t : State), exec i s = .next t →
    t.params = s.params ∧ t.queue = s.queue ∧
    (t.crc.generator ≠ s.crc.generator ∨ t.crc.table ≠ s.crc.table → ∃ g, i = .crcBuild g) ∧
    (t.crc.crcReg ≠ s.crc.crcReg → (∃ b, i = .crcCrc b) ∨ i = .dmNext ∨ (∃ n f, i = .rmOf n f) ∨
      (∃ n f, i = .replayRecord n f) ∨ (∃ u a m c, i = .frameDf17 u a m c) ∨ ∃ d u a m c, i = .frameOther d u a m c) ∧
    (t.windowsBuilt ≠ s.windowsBuilt → (∃ h n, i = .pwNew h n) ∨ ∃ h, i = .dmNew h) ∧
    (t.sd ≠ s.sd → ∃ h n, i = .sdNew h n) ∧
    (t.pc ≠ s.pc → (∃ h n, i = .pcNew h n) ∨ i = .pcReadbatch) ∧
    (t.pw ≠ s.pw → (∃ h n, i = .pwNew h n) ∨ i = .pwAdvance ∨ ∃ n, i = .pwAdvanceby n) ∧
    (t.dm ≠ s.dm → (∃ h, i = .dmNew h) ∨ i = .dmSlice ∨ i = .dmNext) ∧
    (t.aircraft ≠ s.aircraft → ∃ m, i = .accUpdate m) ∧
    (t.sources ≠ s.sources → ReadsSource i)

/-- R12, R41: a byte source is read in order and each byte once. A `SrcRead` that succeeds delivers the bytes at the cursor, at
most as many as it asks for, and moves the cursor past exactly those; one that delivers fewer ends the source, and every later one
returns the empty string. A `SrcRead` touches no other source. No step changes a stream or goes back in it, none reads beyond its
end, and none moves in a source that has ended. -/
def Obligations.SourcesAreReadOnce : Prop :=
  (∀ (n h : Nat) (sources sources' : List ByteSource) (src : ByteSource) (got : List Byte), sources[h]? = some src →
    srcRead n h sources = (.ok got, sources') →
    got = (src.bytes.drop src.cursor).take got.length ∧ got.length ≤ n ∧
    ∃ src' : ByteSource, sources'[h]? = some src' ∧ src'.bytes = src.bytes ∧ src'.cursor = src.cursor + got.length ∧
      (got.length < n → src'.ended = true) ∧ ∀ k, k ≠ h → sources'[k]? = sources[k]?) ∧
  (∀ (n h : Nat) (sources : List ByteSource) (src : ByteSource), sources[h]? = some src → src.ended = true →
    srcRead n h sources = (.ok [], sources.set h { src with calls := src.calls + 1 })) ∧
  (∀ (s t : State) (h : Nat) (src : ByteSource), step s = .next t → s.sources[h]? = some src →
    src.cursor ≤ src.bytes.length →
    ∃ src' : ByteSource, t.sources[h]? = some src' ∧ src'.bytes = src.bytes ∧ src.cursor ≤ src'.cursor ∧
      src'.cursor ≤ src'.bytes.length ∧ (src.ended = true → src'.ended = true ∧ src'.cursor = src.cursor))

/-! ## U1, the bit-field extractor -/

/-- R90: `BF.EXTRACT`, its result, its errors with their order, and no other effect. -/
def Obligations.BfExtractResult : Prop :=
  ∀ (value : Word) (start size : Int) (s : State),
    (1 ≤ size → size ≤ 32 → 0 ≤ start → start + size ≤ 64 →
      exec (.bfExtract value start size) s =
        .next (s.respond (.u32 (BitVec.ofNat 32 (value.toNat / 2 ^ start.toNat % 2 ^ size.toNat))))) ∧
    (size < 1 ∨ 32 < size →
      exec (.bfExtract value start size) s = .next (s.respond (.error ⟨.rangeError, [size]⟩))) ∧
    (1 ≤ size → size ≤ 32 → start < 0 ∨ 64 < start + size →
      exec (.bfExtract value start size) s = .next (s.respond (.error ⟨.rangeError, [start, size]⟩)))

/-- R91 and the last of R92, properties that the spec derives: a result fits its size, a field splits into its upper and its
lower part, an extraction of 64 bits is an error, and `BF.TEST` is `BF.EXTRACT` of one bit. -/
def Obligations.BfProperties : Prop :=
  (∀ (value : Word) (start size : Int) (s t : State) (x : BitVec 32),
    exec (.bfExtract value start size) s = .next t → t.response = .u32 x → x.toNat < 2 ^ size.toNat) ∧
  (∀ (value : Word) (start a b : Nat) (s : State), 1 ≤ a → 1 ≤ b → a + b ≤ 32 → start + a + b ≤ 64 →
    ∃ x y z : BitVec 32,
      exec (.bfExtract value start (a + b : Nat)) s = .next (s.respond (.u32 x)) ∧
      exec (.bfExtract value (start + a : Nat) b) s = .next (s.respond (.u32 y)) ∧
      exec (.bfExtract value start a) s = .next (s.respond (.u32 z)) ∧
      x.toNat = y.toNat * 2 ^ a + z.toNat) ∧
  (∀ (value : Word) (s : State),
    exec (.bfExtract value 0 64) s = .next (s.respond (.error ⟨.rangeError, [64]⟩))) ∧
  (∀ (value : Word) (index : Int) (s : State), 0 ≤ index → index < 64 →
    ∃ x : BitVec 32, exec (.bfExtract value index 1) s = .next (s.respond (.u32 x)) ∧
      exec (.bfTest value index) s = .next (s.respond (.bool (x == 1#32))))

/-- R92: `BF.TEST`, its result, its error, and no other effect. -/
def Obligations.BfTestResult : Prop :=
  ∀ (value : Word) (index : Int) (s : State),
    (0 ≤ index → index < 64 →
      exec (.bfTest value index) s = .next (s.respond (.bool (decide (value.toNat / 2 ^ index.toNat % 2 = 1))))) ∧
    (index < 0 ∨ 64 ≤ index →
      exec (.bfTest value index) s = .next (s.respond (.error ⟨.rangeError, [index]⟩)))

/-- R93: every field tap of the decoders is the `BF.EXTRACT` or `BF.TEST` that the rule lists for it. That none of them raises an
error is the spec's inference (marked derived in R93). -/
def Obligations.FieldTapsAreExtracts : Prop :=
  (∀ (me : Me) (s : State),
    let tap := fun start size : Int => exec (.bfExtract (me.setWidth 64) start size) s
    tap 51 5 = .next (s.respond (.u32 ((meTypeCode me).setWidth 32))) ∧
    tap 48 3 = .next (s.respond (.u32 ((meLow3 me).setWidth 32))) ∧
    (∀ k : Nat, k < 8 → tap (42 - 6 * k) 6 = .next (s.respond (.u32 ((meCharCode me k).setWidth 32)))) ∧
    tap 36 12 = .next (s.respond (.u32 ((meAlt me).setWidth 32))) ∧
    tap 34 1 = .next (s.respond (.u32 ((meParity me).setWidth 32))) ∧
    tap 17 17 = .next (s.respond (.u32 ((meY me).setWidth 32))) ∧
    tap 0 17 = .next (s.respond (.u32 ((meX me).setWidth 32))) ∧
    tap 42 1 = .next (s.respond (.u32 ((meBit42 me).setWidth 32))) ∧
    tap 32 10 = .next (s.respond (.u32 ((meField41 me).setWidth 32))) ∧
    tap 31 1 = .next (s.respond (.u32 ((meBit31 me).setWidth 32))) ∧
    tap 21 10 = .next (s.respond (.u32 ((meField30 me).setWidth 32)))) ∧
  (∀ (alt : BitVec 12) (s : State),
    exec (.bfTest (alt.setWidth 64) 4) s = .next (s.respond (.bool (alt.getLsbD 4)))) ∧
  (∀ (f : Frame) (s : State),
    exec (.bfExtract ((frameByte f 0).setWidth 64) 3 5) s = .next (s.respond (.u32 ((frameDf f).setWidth 32)))) ∧
  (∀ (r : BitVec 24) (s : State),
    exec (.bfExtract (r.setWidth 64) 16 8) s = .next (s.respond (.u32 ((r.extractLsb' 16 8).setWidth 32))))

/-! ## U2, the CRC unit -/

/-- R101: `CRC.BUILD` fills the table with the bitwise CRC of every byte and changes nothing else but the generator; the table
is linear, with the generator at index 1. That the working register keeps its value is log entry 31 (DEDUCED). -/
def Obligations.CrcBuildFillsTable : Prop :=
  ∀ (g : BitVec 24) (s : State), ∃ t : State, exec (.crcBuild g) s = .next t ∧
    t = { s with crc := t.crc, response := .done } ∧ t.crc.generator = g ∧ t.crc.crcReg = s.crc.crcReg ∧
    (∀ i : BitVec 8, t.crc.entry i = crcBitwise g [i]) ∧
    t.crc.entry 0#8 = 0#24 ∧ t.crc.entry 1#8 = g ∧
    (∀ a b : BitVec 8, t.crc.entry (a ^^^ b) = t.crc.entry a ^^^ t.crc.entry b) ∧
    (g = 0xFFF409#24 →
      t.crc.entry 2#8 = 0x001C1B#24 ∧ t.crc.entry 128#8 = 0x0706C0#24 ∧ t.crc.entry 255#8 = 0xFA0480#24)

/-- R102: `CRC.CRC` returns the remainder of the table-driven loop, zero-extended, and leaves everything but the working
register; with a built table zero bytes give 0 and leading zero bytes change nothing. That the register holds the CRC after the
call is the model's choice (log entry 19). -/
def Obligations.CrcCrcResult : Prop :=
  ∀ (bytes : List Byte) (s : State),
    exec (.crcCrc bytes) s = .next { s with
      crc := { s.crc with crcReg := s.crc.run bytes }
      response := .u32 ((s.crc.run bytes).setWidth 32) } ∧
    (s.crc.Built →
      s.crc.run [] = 0#24 ∧
      (∀ n, s.crc.run (List.replicate n 0#8) = 0#24) ∧
      (∀ n, s.crc.run (List.replicate n 0#8 ++ bytes) = s.crc.run bytes)) ∧
    (s.crc.Built → s.crc.generator = 0xFFF409#24 →
      s.crc.run [0x8D#8, 0x4B#8, 0x17#8, 0xE5#8, 0xF8#8, 0x21#8, 0x00#8, 0x02#8, 0x00#8, 0x4B#8, 0xB8#8] = 0xB1F1AC#24)

/-- R103: with a built table `CRC.CRC` is the bitwise CRC, and its result is the remainder of `M(x) * x^24` by the generator
polynomial. -/
def Obligations.CrcIsPolynomialRemainder : Prop :=
  ∀ (crc : Crc24) (bytes : List Byte), crc.Built →
    crc.run bytes = crcBitwise crc.generator bytes ∧
    wordPoly (crc.run bytes) = (messagePoly bytes * Polynomial.X ^ 24).modByMonic (generatorPoly crc.generator)

/-- R104, R105: a message with its CRC appended has CRC 0; `RM.OF` returns a value exactly for a frame with CRC 0; with an
odd generator such a frame ends in the CRC of its first eleven bytes; and, for the default generator, no single bit of it can be
flipped unnoticed. The frame of fourteen zero bytes passes the CRC test of `RM.OF`; the acceptor drops it because its `DF` is 0, and
the parser because its `TC` is 0. That `crc_reg` holds the CRC after the call is log entry 19, and that a FRAME word is put to the
acceptor is log entry 25 (both DESIGN CHOICE). -/
def Obligations.CrcValidFrames : Prop :=
  ∀ s : State, s.crc.Built →
    (∀ bytes : List Byte, s.crc.run (bytes ++ bytesOfNat 3 (s.crc.run bytes).toNat) = 0#24) ∧
    (∀ (timestampNs : BitVec 64) (f : Frame),
      (∃ t, exec (.rmOf timestampNs f) s = .next t ∧ t.response = .raw ⟨timestampNs, f⟩) ↔
        s.crc.run (frameBytes f) = 0#24) ∧
    (s.crc.generator.getLsbD 0 = true → ∀ f : Frame, s.crc.run (frameBytes f) = 0#24 →
      s.crc.run ((frameBytes f).take 11) = f.extractLsb' 0 24) ∧
    (s.crc.generator = 0xFFF409#24 → ∀ (f : Frame) (k : Nat), k < 112 → s.crc.run (frameBytes f) = 0#24 →
      s.crc.run (frameBytes (f ^^^ (1#112 <<< k))) ≠ 0#24) ∧
    (∀ (bytes : List Byte) (t : State) (x : BitVec 32),
      exec (.crcCrc bytes) s = .next t → t.response = .u32 x → x.toNat < 2 ^ 24) ∧
    (∀ timestampNs : BitVec 64,
      exec (.rmOf timestampNs 0#112) s =
        .next { s with crc := { s.crc with crcReg := 0#24 }, response := .raw ⟨timestampNs, 0#112⟩ } ∧
      exec (.frameOther 0#5 0#3 0#24 0#56 0#24) s =
        .next { s with crc := { s.crc with crcReg := 0#24 }, response := .absent } ∧
      exec (.mpParse ⟨timestampNs, 0#112⟩) s = .next (s.respond .absent))

/-! ## U3 and U4, the front end -/

/-- R112: a sample is the low 12 bits of its little-endian word minus 2048; a raw sample word at the decoder gives it and
changes nothing else (that a SAMPLE word is run as an operation is log entry 26, DESIGN CHOICE). -/
def Obligations.SampleIsCentred : Prop :=
  (∀ b0 b1 : Byte,
    (decodeSampleBytes b0 b1).toInt = ((b1.toNat : Int) * 256 + b0.toNat) % 4096 - 2048 ∧
    -2048 ≤ (decodeSampleBytes b0 b1).toInt ∧ (decodeSampleBytes b0 b1).toInt ≤ 2047) ∧
  (∀ (ignored : BitVec 4) (u : BitVec 12) (s : State),
    exec (.sample ignored u) s = .next (s.respond (.int ((u.toNat : Int) - 2048))))

/-- R110, R114: the constructors of the front end check their size, read no byte, and set their registers; the power computer's
history is zero. A failing constructor changes nothing (R258 (b); that the previous instance stays is log entry 6). On a byte source
that another unit still reads the construction is refused (R300; log entry 34). -/
def Obligations.FrontEndConstructors : Prop :=
  ∀ (source : Nat) (batchSize : Int) (s : State),
    (batchSize ≤ 0 →
      exec (.sdNew source batchSize) s = .next (s.respond (.error ⟨.configError, [batchSize]⟩))) ∧
    (0 < batchSize → s.sourceInUse .sd source = false →
      exec (.sdNew source batchSize) s = .next { s with sd := ⟨source, batchSize.toNat⟩, response := .done }) ∧
    (0 < batchSize → s.sourceInUse .sd source = true →
      exec (.sdNew source batchSize) s = .refused (.sourceInUse source)) ∧
    (batchSize ≤ 0 ∨ batchSize % 8 ≠ 0 →
      exec (.pcNew source batchSize) s = .next (s.respond (.error ⟨.configError, [batchSize]⟩))) ∧
    (0 < batchSize → batchSize % 8 = 0 → s.sourceInUse .pc source = false →
      ∃ f : History, (∀ k : Fin 8, f.h.get k = 0#12) ∧ f.t = 7 ∧
        exec (.pcNew source batchSize) s = .next { s with
          pc := ⟨⟨source, 2 * batchSize.toNat⟩, batchSize.toNat, f⟩
          response := .done }) ∧
    (0 < batchSize → batchSize % 8 = 0 → s.sourceInUse .pc source = true →
      exec (.pcNew source batchSize) s = .refused (.sourceInUse source))

/-- R111, R41: `SD.READBATCH` makes one read, and returns the samples of the bytes it got in order, an odd trailing byte consumed
and dropped; a failing read is passed on; after a short read every later one gives no sample. Nothing but the source changes. How
many bytes a failing read consumes is data of the host (log entry 17, DESIGN CHOICE); a handle without a source is log entry 16. -/
def Obligations.SdReadbatchResult : Prop :=
  ∀ (s : State) (src : ByteSource), s.sources[s.sd.source]? = some src →
    (src.ended = true → exec .sdReadbatch s = .next { s with
      sources := s.sources.set s.sd.source { src with calls := src.calls + 1 }
      response := .samples [] }) ∧
    (src.ended = false → (src.failures.find? fun f => f.atCall == src.calls) = none →
      ∃ samples : List Sample,
        exec .sdReadbatch s = .next { s with
          sources := s.sources.set s.sd.source { src with
            calls := src.calls + 1
            cursor := src.cursor + min (2 * s.sd.batch) (src.bytes.length - src.cursor)
            ended := decide (src.bytes.length - src.cursor < 2 * s.sd.batch) }
          response := .samples samples } ∧
        samples.length = min (2 * s.sd.batch) (src.bytes.length - src.cursor) / 2 ∧
        ∀ (k : Nat) (h : k < samples.length), samples[k].toInt = sampleAt (src.bytes.drop src.cursor) k) ∧
    (∀ f : IoFailure, src.ended = false → (src.failures.find? fun f => f.atCall == src.calls) = some f →
      exec .sdReadbatch s = .next { s with
        sources := s.sources.set s.sd.source { src with
          calls := src.calls + 1
          cursor := min (src.cursor + min f.consumed (2 * s.sd.batch)) src.bytes.length }
        response := .error ⟨.ioError, [f.info]⟩ })

/-- R115 to R118: successive `PC.READBATCH` calls return consecutive slices of the power sequence of the stream, whatever the
batch sizes; a failing read leaves the history as it was (R258 (c)). Nothing but the history and the source changes. How many bytes
a failing read consumes is data of the host (log entry 17, DESIGN CHOICE). -/
def Obligations.PcReadbatchSlicesPower : Prop :=
  (∀ (s : State) (bytes : List Byte) (n : Nat), s.pc.Legal → s.pc.AtIndex bytes n s.sources →
    ∃ t : State, exec .pcReadbatch s = .next t ∧
      t = { s with
        pc := { s.pc with history := t.pc.history }
        sources := t.sources
        response := .powers ((List.range' n (min (n + s.pc.batch) (powerCount bytes) - n)).map fun k =>
          BitVec.ofInt 32 (powerAt bytes k)) } ∧
      t.pc.AtIndex bytes (n + s.pc.batch) t.sources ∧
      ∀ h, h ≠ s.pc.decoder.source → t.sources[h]? = s.sources[h]?) ∧
  (∀ (s : State) (src : ByteSource) (f : IoFailure), s.sources[s.pc.decoder.source]? = some src → src.ended = false →
    (src.failures.find? fun f => f.atCall == src.calls) = some f →
    exec .pcReadbatch s = .next { s with
      sources := s.sources.set s.pc.decoder.source { src with
        calls := src.calls + 1
        cursor := min (src.cursor + min f.consumed (2 * s.pc.decoder.batch)) src.bytes.length }
      response := .error ⟨.ioError, [f.info]⟩ })

/-- R6, R112, R116, R146, R147: the FIR and squarer is exact, in terms of the history and its index; and the value ranges of the
datapath, over every history and every stream (the bounds of R6 are the spec's own derivation). -/
def Obligations.DatapathRanges : Prop :=
  (∀ f : History,
    let h := fun k : Fin 8 => (f.h.get (f.t - k)).toInt
    let ipp := h 7 - h 5 + h 3 - h 1
    let qpp := h 6 - h 4 + h 2 - h 0
    f.power.toInt = ipp ^ 2 + qpp ^ 2 ∧ -8190 ≤ ipp ∧ ipp ≤ 8190 ∧ -8190 ≤ qpp ∧ qpp ≤ 8190 ∧
      0 ≤ f.power.toInt ∧ f.power.toInt ≤ 134152200) ∧
  ∀ bytes : List Byte,
    (∀ j : Int, -2048 ≤ sampleAt bytes j ∧ sampleAt bytes j ≤ 2047) ∧
    (∀ n : Nat, 0 ≤ powerAt bytes n ∧ powerAt bytes n ≤ 134152200 ∧ powerAt bytes n < 2 ^ 27) ∧
    (∀ p : Nat, spAt bytes p ≤ 536608800 ∧ svAt bytes p ≤ 804913200 ∧ 2 * svAt bytes p ≤ 1609826400 ∧
      2 * svAt bytes p < 2 ^ 31)

/-! ## U5, the power window -/

/-- R125: `PW.NEW` checks the size before anything is read; on a stream it loads the first block; on a source that fails it leaves
a faulted instance. Nothing but the window and its source changes (the count of windows is the model's own, log entry 9). That a
`ConfigError` leaves the earlier window at the port is log entry 6, how many bytes a failing read consumes is log entry 17, and that
a source which another unit still reads is refused (R300) is log entry 34 (each DESIGN CHOICE). -/
def Obligations.PwNewResult : Prop :=
  ∀ (source : Nat) (windowSize : Int) (s : State),
    (windowSize < 1 ∨ 65536 < windowSize →
      exec (.pwNew source windowSize) s = .next (s.respond (.error ⟨.configError, [windowSize]⟩))) ∧
    (1 ≤ windowSize → windowSize ≤ 65536 → s.sourceInUse .pw source = true →
      exec (.pwNew source windowSize) s = .refused (.sourceInUse source)) ∧
    (1 ≤ windowSize → windowSize ≤ 65536 → s.sourceInUse .pw source = false →
      (∀ bytes : List Byte, FreshSource s.sources source bytes →
        ∃ w : PowerWindow,
          exec (.pwNew source windowSize) s = .next { s with
            pw := w
            sources := s.sources.set source ⟨bytes, min 262144 bytes.length, 1, [], decide (bytes.length < 262144)⟩
            windowsBuilt := s.windowsBuilt + 1
            response := .done } ∧
          w.windowSize = windowSize.toNat ∧ w.position = 0#64 ∧ w.cur = false ∧ w.fault = none ∧
          w.avail = min (powerCount bytes) 65536 ∧ w.eos = decide (powerCount bytes < 65536) ∧
          w.computer.batch = 65536 ∧ w.computer.decoder = ⟨source, 131072⟩ ∧
          ∀ k, k < w.avail → Mem.read? w.blk0 k = some (BitVec.ofInt 32 (powerAt bytes k))) ∧
      (∀ (src : ByteSource) (f : IoFailure), s.sources[source]? = some src → src.ended = false →
        (src.failures.find? fun f => f.atCall == src.calls) = some f →
        ∃ w : PowerWindow,
          exec (.pwNew source windowSize) s = .next { s with
            pw := w
            sources := s.sources.set source { src with
              calls := src.calls + 1
              cursor := min (src.cursor + min f.consumed 262144) src.bytes.length }
            windowsBuilt := s.windowsBuilt + 1
            response := .error ⟨.ioError, [f.info]⟩ } ∧
          w.fault = some ⟨.ioError, [f.info]⟩ ∧ w.position = 0#64 ∧ w.avail = 0 ∧ w.eos = false))

/-- R127 to R129: `PW.SIZE`, `PW.POSITION` and `PW.ISFULL` read their registers and change nothing. On a window that shows a stream,
it is full exactly when all of its entries are real data, and once it is not, no `PW.ADVANCE` makes it so. -/
def Obligations.PwAccessorsRead : Prop :=
  (∀ s : State, s.pw.fault = none →
    exec .pwSize s = .next (s.respond (.nat s.pw.windowSize)) ∧
    exec .pwPosition s = .next (s.respond (.u64 s.pw.position)) ∧
    exec .pwIsfull s =
      .next (s.respond (.bool (decide (s.pw.position.toNat + s.pw.windowSize ≤ s.pw.avail))))) ∧
  (∀ (s : State) (bytes : List Byte), s.pw.Shows bytes s.sources →
    exec .pwIsfull s =
      .next (s.respond (.bool (decide (s.pw.position.toNat + s.pw.windowSize ≤ powerCount bytes)))) ∧
    (s.pw.position.toNat + 1 < 2 ^ 64 → powerCount bytes < s.pw.position.toNat + s.pw.windowSize →
      ∃ t, exec .pwAdvance s = .next t ∧ exec .pwIsfull t = .next (t.respond (.bool false))))

/-- R126, R130: `PW.GET` reads the power value at `position + i`; an index outside the window raises an error; an entry beyond
the end of the stream reads as some value. Nothing changes. -/
def Obligations.PwGetReadsPower : Prop :=
  ∀ (i : Int) (s : State), s.pw.fault = none →
    (i < 0 ∨ (s.pw.windowSize : Int) ≤ i →
      exec (.pwGet i) s = .next (s.respond (.error ⟨.rangeError, [i]⟩))) ∧
    (0 ≤ i → i < (s.pw.windowSize : Int) →
      ∃ v : Power, exec (.pwGet i) s = .next (s.respond (.i32 v)) ∧
        ∀ bytes : List Byte, s.pw.Shows bytes s.sources → s.pw.position.toNat + i.toNat < powerCount bytes →
          v.toInt = powerAt bytes (s.pw.position.toNat + i.toNat))

/-- R131, R134, R135, R137, R258 (c): one `PW.ADVANCE`, with everything it writes. Without a refill only the position and `cur`
move. A refill writes the batch to the low entries of the buffer that is not current, and no other entry of either buffer. A
refill that fails leaves all but the fault register, the position too. -/
def Obligations.PwAdvanceEffect : Prop :=
  ∀ s : State, s.pw.fault = none →
    let p := s.pw.position + 1#64
    let cur := if p.toNat % 65536 = 0 then !s.pw.cur else s.pw.cur
    ((p.toNat + s.pw.windowSize - 1) % 65536 ≠ 0 ∨ s.pw.eos = true →
      exec .pwAdvance s = .next { s with pw := { s.pw with position := p, cur := cur }, response := .done }) ∧
    ((p.toNat + s.pw.windowSize - 1) % 65536 = 0 → s.pw.eos = false →
      (∀ (powers : List Power) (computer : PowerComputer) (sources : List ByteSource),
        s.pw.computer.readBatch s.sources = (.ok (powers, computer), sources) →
        ∃ w : PowerWindow,
          exec .pwAdvance s = .next { s with pw := w, sources := sources, response := .done } ∧
          w.computer = computer ∧ w.windowSize = s.pw.windowSize ∧ w.position = p ∧ w.cur = cur ∧ w.fault = none ∧
          w.avail = s.pw.avail + powers.length ∧ w.eos = decide (powers.length < 65536) ∧ w.serial = s.pw.serial ∧
          ∀ (b : Bool) (a : Nat), Mem.read? (w.block b) a =
            if b = !s.pw.cur ∧ a < powers.length then powers[a]? else Mem.read? (s.pw.block b) a) ∧
      (∀ (e : Error) (sources : List ByteSource),
        s.pw.computer.readBatch s.sources = (.error e, sources) →
        exec .pwAdvance s = .next { s with
          pw := { s.pw with fault := some e }
          sources := sources
          response := .error e }))

/-- R132: `PW.ADVANCEBY n` is `PW.ADVANCE` n times: none for 0, where no error is recorded (a recorded one is raised again, R263), and
no more after one that failed. -/
def Obligations.PwAdvancebyRepeats : Prop :=
  (∀ s : State, s.pw.fault = none → exec (.pwAdvanceby 0) s = .next (s.respond .done)) ∧
  (∀ (n : Nat) (s t : State), exec .pwAdvance s = .next t →
    (t.response = .done → exec (.pwAdvanceby (n + 1)) s = exec (.pwAdvanceby n) t) ∧
    (∀ e, t.response = .error e → exec (.pwAdvanceby (n + 1)) s = .next t)) ∧
  (∀ (n : Nat) (s t : State), exec (.pwAdvanceby n) s = .next t → t.response = .done →
    t.pw.position = s.pw.position + BitVec.ofNat 64 n)

/-- R126, R138: the two views of the window agree. A window constructed on a stream shows it, and `PW.ADVANCE` and `PW.ADVANCEBY`
keep it so while the position does not wrap; they change nothing but the window and its own source. Every step whatever, of the
operations of all units and of the acts of the host, keeps it so in a sound state, but for a `PW.NEW` that constructs another
window; and the same holds for the demodulator's window. That no other unit reads the window's source is R300, which the model
keeps by log entry 34. -/
def Obligations.WindowShowsStream : Prop :=
  (∀ (source : Nat) (windowSize : Int) (s : State) (bytes : List Byte), 1 ≤ windowSize → windowSize ≤ 65536 →
    FreshSource s.sources source bytes → s.sourceInUse .pw source = false →
    ∃ t, exec (.pwNew source windowSize) s = .next t ∧ t.pw.position = 0#64 ∧ t.pw.Shows bytes t.sources) ∧
  (∀ (s : State) (bytes : List Byte), s.pw.Shows bytes s.sources → s.pw.position.toNat + 1 < 2 ^ 64 →
    ∃ t, exec .pwAdvance s = .next t ∧
      t = { s with pw := t.pw, sources := t.sources, response := .done } ∧
      t.pw.position.toNat = s.pw.position.toNat + 1 ∧ t.pw.windowSize = s.pw.windowSize ∧ t.pw.Shows bytes t.sources ∧
      ∀ h, h ≠ s.pw.computer.decoder.source → t.sources[h]? = s.sources[h]?) ∧
  (∀ (n : Nat) (s : State) (bytes : List Byte), s.pw.Shows bytes s.sources → s.pw.position.toNat + n < 2 ^ 64 →
    ∃ t, exec (.pwAdvanceby n) s = .next t ∧
      t = { s with pw := t.pw, sources := t.sources, response := .done } ∧
      t.pw.position.toNat = s.pw.position.toNat + n ∧ t.pw.windowSize = s.pw.windowSize ∧ t.pw.Shows bytes t.sources ∧
      ∀ h, h ≠ s.pw.computer.decoder.source → t.sources[h]? = s.sources[h]?) ∧
  (∀ (s t : State) (bytes : List Byte), s.Sound → step s = .next t → s.pw.Shows bytes s.sources →
    (∀ (r : Request) (rest : List Request) (i : Instr), s.queue = r :: rest → decode r = .ok i →
      (∀ source windowSize, i = .pwNew source windowSize → windowSize < 1 ∨ 65536 < windowSize) ∧
      (i = .pwAdvance → s.pw.position.toNat + 1 < 2 ^ 64) ∧
      ∀ n, i = .pwAdvanceby n → s.pw.position.toNat + n < 2 ^ 64) →
    t.pw.Shows bytes t.sources) ∧
  (∀ (s t : State) (bytes : List Byte), s.Sound → step s = .next t → s.dm.window.Shows bytes s.sources →
    powerCount bytes + 1200 < 2 ^ 64 →
    (∀ (r : Request) (rest : List Request) (source : Nat), s.queue = r :: rest → decode r ≠ .ok (.dmNew source)) →
    t.dm.window.Shows bytes t.sources)

/-- R258 (c), R263: on a faulted instance every operation raises the recorded error again, before it looks at its arguments, and
changes nothing; no source is read. -/
def Obligations.FaultedInstanceRaisesAgain : Prop :=
  (∀ (s : State) (e : Error), s.pw.fault = some e →
    exec .pwSize s = .next (s.respond (.error e)) ∧
    exec .pwPosition s = .next (s.respond (.error e)) ∧
    exec .pwIsfull s = .next (s.respond (.error e)) ∧
    (∀ i, exec (.pwGet i) s = .next (s.respond (.error e))) ∧
    exec .pwAdvance s = .next (s.respond (.error e)) ∧
    (∀ n, exec (.pwAdvanceby n) s = .next (s.respond (.error e)))) ∧
  (∀ (s : State) (e : Error), s.dm.window.fault = some e →
    exec .dmSp s = .next (s.respond (.error e)) ∧
    exec .dmSv s = .next (s.respond (.error e)) ∧
    exec .dmDetect s = .next (s.respond (.error e)) ∧
    exec .dmSlice s = .next (s.respond (.error e)) ∧
    exec .dmNext s = .next (s.respond (.error e)))

/-! ## U6, the demodulator -/

/-- R145, R28: `DM.NEW` on a stream builds a window of 1200 at position 0 that shows the stream, clears `sp_prev`, and leaves the
other score registers and the frame register (log entry 7); on a source that fails it leaves a faulted instance, with `sp_prev`
cleared too, having consumed what the host's data say (log entry 17); on a source that another unit still reads it is refused (R300;
log entry 34). The count of windows is the model's own (log entry 9). -/
def Obligations.DmNewResult : Prop :=
  ∀ (source : Nat) (s : State),
    (s.sourceInUse .dm source = true → exec (.dmNew source) s = .refused (.sourceInUse source)) ∧
    (∀ bytes : List Byte, FreshSource s.sources source bytes → s.sourceInUse .dm source = false →
      ∃ w : PowerWindow,
        exec (.dmNew source) s = .next { s with
          dm := { s.dm with window := w, spPrev := 0 }
          sources := s.sources.set source ⟨bytes, min 262144 bytes.length, 1, [], decide (bytes.length < 262144)⟩
          windowsBuilt := s.windowsBuilt + 1
          response := .done } ∧
        w.windowSize = 1200 ∧ w.position = 0#64 ∧
        w.Shows bytes
          (s.sources.set source ⟨bytes, min 262144 bytes.length, 1, [], decide (bytes.length < 262144)⟩)) ∧
    (∀ (src : ByteSource) (f : IoFailure), s.sources[source]? = some src → s.sourceInUse .dm source = false →
      src.ended = false → (src.failures.find? fun f => f.atCall == src.calls) = some f →
      ∃ w : PowerWindow,
        exec (.dmNew source) s = .next { s with
          dm := { s.dm with window := w, spPrev := 0 }
          sources := s.sources.set source { src with
            calls := src.calls + 1
            cursor := min (src.cursor + min f.consumed 262144) src.bytes.length }
          windowsBuilt := s.windowsBuilt + 1
          response := .error ⟨.ioError, [f.info]⟩ } ∧
        w.fault = some ⟨.ioError, [f.info]⟩ ∧ w.windowSize = 1200 ∧ w.position = 0#64 ∧ w.avail = 0 ∧ w.eos = false)

/-- R146, R147, R149: on a full window of 1200 that shows a stream, `DM.SP` and `DM.SV` give the preamble and the void score at the
position, and `DM.DETECT` the decision on them. The preceding score is the register `sp_prev`, as R150 derives it; that `DM.DETECT`
reads it is log entry 21 (DEDUCED). They change nothing, and return on every window without a recorded error. -/
def Obligations.DmScoresAndDecision : Prop :=
  (∀ (s : State) (bytes : List Byte), s.dm.window.Shows bytes s.sources → s.dm.window.windowSize = 1200 →
    s.dm.window.position.toNat + 1200 ≤ powerCount bytes →
    let p := s.dm.window.position.toNat
    let power := fun k : Nat => powerAt bytes (p + k)
    exec .dmSp s = .next (s.respond (.int (power 0 + power 10 + power 35 + power 45))) ∧
    exec .dmSv s =
      .next (s.respond (.int (power 5 + power 15 + power 20 + power 25 + power 30 + power 40))) ∧
    exec .dmDetect s = .next (s.respond (.bool (decide
      (s.dm.spPrev < spAt bytes p ∧ spAt bytes (p + 1) < spAt bytes p ∧ 2 * svAt bytes p ≤ spAt bytes p)))) ∧
    0 ≤ spAt bytes p ∧ spAt bytes p ≤ 536608800 ∧ 0 ≤ svAt bytes p ∧ svAt bytes p ≤ 804913200) ∧
  (∀ s : State, s.dm.window.fault = none →
    (∃ z, exec .dmSp s = .next (s.respond (.int z))) ∧
    (∃ z, exec .dmSv s = .next (s.respond (.int z))) ∧
    (∃ b, exec .dmDetect s = .next (s.respond (.bool b))))

/-- R152, R153, R18: on a full window that shows a stream, bit `i` that `DM.SLICE` slices compares the samples at `80 + 10 i` and
`85 + 10 i` with the polarity `PPM_ONE_IS_LATE`, and lands in byte `i div 8` at bit `7 - i mod 8`. It writes the frame register and
nothing else, and returns on every window without a recorded error. The frame register is not observable: with another frame in it
every operation answers the same, and leaves the same state but for that register. That `DM.SLICE` returns nothing at its port is
log entry 35 (DEDUCED). -/
def Obligations.DmSliceBits : Prop :=
  (∀ s : State, s.dm.window.fault = none →
    ∃ f : Frame, exec .dmSlice s = .next { s with dm := { s.dm with frame := f }, response := .done } ∧
      ∀ bytes : List Byte, s.dm.window.Shows bytes s.sources → s.dm.window.windowSize = 1200 →
        s.dm.window.position.toNat + 1200 ≤ powerCount bytes →
        ∀ i : Nat, i < 112 →
          let e := powerAt bytes (s.dm.window.position.toNat + 80 + 10 * i)
          let l := powerAt bytes (s.dm.window.position.toNat + 85 + 10 * i)
          (frameByte f (i / 8)).getLsbD (7 - i % 8) =
            (if s.params.ppmOneIsLate = true then decide (e < l) else !(decide (e < l)))) ∧
  (∀ (i : Instr) (s t : State) (f : Frame), exec i s = .next t →
    ∃ g : Frame, exec i { s with dm := { s.dm with frame := f } } = .next { t with dm := { t.dm with frame := g } })

/-- R154: a candidate frame at the acceptor is returned as a raw message, timestamped with the position times 100, exactly when
its CRC is zero and its `DF` is 17; with another `DF` it is discarded, also with a zero CRC. Only the CRC register is written. That
a FRAME word is a candidate at the demodulator's present position is log entry 25, and that the CRC register holds the CRC
afterwards is log entry 19 (both DESIGN CHOICE). -/
def Obligations.FrameAcceptance : Prop :=
  ∀ (unread : BitVec 3) (icao : Icao) (me : Me) (check : BitVec 24) (s : State),
    (let f : Frame := 17#5 ++ unread ++ icao ++ me ++ check
     exec (.frameDf17 unread icao me check) s = .next { s with
        crc := { s.crc with crcReg := s.crc.run (frameBytes f) }
        response :=
          if s.crc.run (frameBytes f) = 0#24 then .raw ⟨BitVec.ofNat 64 (s.dm.window.position.toNat * 100), f⟩ else .absent }) ∧
    (∀ df : BitVec 5, df ≠ 17#5 →
      let f : Frame := df ++ unread ++ icao ++ me ++ check
      exec (.frameOther df unread icao me check) s = .next { s with
        crc := { s.crc with crcReg := s.crc.run (frameBytes f) }
        response := .absent })

/-- R155, R156: on a window that shows a stream, `DM.NEXT` returns the frame at the first position, from the window's on, at which
a preamble is declared and the frame sliced there is accepted, and stands 1200 positions on; if there is none before the
window can no longer fill, it returns absent at the first position where it cannot. At the first position the preceding score
is the register's, after it the true one; after a jump the register is set as `SP_PREV_AFTER_ACCEPT` says (R150). R150 sets it
under `true_sequence` where the window is still full and leaves it open elsewhere; that it is the true score wherever the stream
reaches that far is log entry 21 (DEDUCED). Nothing but the demodulator, the CRC register and the window's own source changes, and
the window still shows the stream. -/
def Obligations.DmNextFindsFirstAccepted : Prop :=
  ∀ (s : State) (bytes : List Byte), s.dm.window.Shows bytes s.sources → s.dm.window.windowSize = 1200 →
    powerCount bytes + 1200 < 2 ^ 64 →
    let p := s.dm.window.position.toNat
    let slice := sliceAt s.params.ppmOneIsLate bytes
    let accepted := fun q : Nat =>
      detect (if q = p then s.dm.spPrev else spAt bytes (q - 1)) (spAt bytes q) (spAt bytes (q + 1)) (svAt bytes q) &&
        accepts s.crc (slice q)
    let kept := fun (t : State) (r : Response) =>
      t = { s with dm := t.dm, crc := { s.crc with crcReg := t.crc.crcReg }, sources := t.sources, response := r } ∧
      t.dm.window.windowSize = 1200 ∧ t.dm.window.Shows bytes t.sources ∧
      ∀ h, h ≠ s.dm.window.computer.decoder.source → t.sources[h]? = s.sources[h]?
    (∀ q, p ≤ q → q + 1200 ≤ powerCount bytes → accepted q = true → (∀ r, p ≤ r → r < q → accepted r = false) →
      ∃ t, exec .dmNext s = .next t ∧ kept t (.raw ⟨BitVec.ofNat 64 (q * 100), slice q⟩) ∧
        t.dm.window.position.toNat = q + 1200 ∧ t.dm.frame = slice q ∧
        (s.params.spPrevAfterAccept = .zero → t.dm.spPrev = 0) ∧
        (s.params.spPrevAfterAccept = .trueSequence → q + 1245 ≤ powerCount bytes →
          t.dm.spPrev = spAt bytes (q + 1199))) ∧
    ((∀ r, p ≤ r → r + 1200 ≤ powerCount bytes → accepted r = false) →
      ∃ t, exec .dmNext s = .next t ∧ kept t .absent ∧
        t.dm.window.position.toNat = max p (powerCount bytes + 1 - 1200))

/-- R155, R258 (c), R263: `DM.NEXT` when a refill fails. It returns the `IoError`; the steps before the failing one stand, the error
is recorded, and nothing of that refill is written to the window. (1) Whenever `DM.NEXT` on an unfaulted window returns an error, it
is that of a refill, some number of steps on. (2) Where no frame is accepted at the present position and the step to the next one
fails, the error is returned there, although a later position might have held a frame. (3) Where a frame is accepted and a step of
the 1200 that follow fails, the error is returned in place of the message, and the position stands behind the steps that
succeeded; the frame register holds the frame. That (3) loses the message is log entry 27 (DEDUCED). -/
def Obligations.DmNextFailedRefill : Prop :=
  ∀ s : State, s.dm.window.fault = none →
    let w := s.dm.window
    let faulted := fun (n : Nat) (e : Error) (t : State) =>
      t = { s with dm := t.dm, crc := { s.crc with crcReg := t.crc.crcReg }, sources := t.sources, response := .error e } ∧
      t.dm.window = { (w.advanceBy s.sources n).window with fault := some e } ∧
      t.dm.window.position = w.position + BitVec.ofNat 64 n ∧
      t.sources = ((w.advanceBy s.sources n).window.advance (w.advanceBy s.sources n).sources).sources
    let failsAfter := fun (n : Nat) (e : Error) => (w.advanceBy s.sources n).error = none ∧
      ((w.advanceBy s.sources n).window.advance (w.advanceBy s.sources n).sources).error = some e
    let full := w.position.toNat + w.windowSize ≤ w.avail
    let sliced := slice s.params.ppmOneIsLate w
    let found := detect s.dm.spPrev (w.sp 0) (w.sp 1) w.sv && accepts s.crc sliced
    (∀ (t : State) (e : Error), exec .dmNext s = .next t → t.response = .error e →
      ∃ n, failsAfter n e ∧ faulted n e t) ∧
    (∀ e : Error, full → found = false → failsAfter 0 e → ∃ t, exec .dmNext s = .next t ∧ faulted 0 e t) ∧
    (∀ (n : Nat) (e : Error), full → found = true → n < 1200 → failsAfter n e →
      ∃ t, exec .dmNext s = .next t ∧ faulted n e t ∧ t.dm.frame = sliced)

/-- R157: after `DM.NEXT` has returned absent, it returns absent again and changes nothing at all: no source is read. -/
def Obligations.DmNextAbsentStays : Prop :=
  ∀ s t : State, exec .dmNext s = .next t → t.response = .absent → exec .dmNext t = .next t

/-- R24, R154, R156 (b): what `DM.NEXT` returns in any state is an accepted frame, held in the frame register, with the timestamp
of the position 1200 behind. On a stream the timestamp is not before the position where the scan began, and the next scan begins
120000 ns after it: the messages come in order, two consecutive ones at least 120000 ns apart. -/
def Obligations.DmNextMessagesInOrder : Prop :=
  (∀ (s t : State) (r : RawMessage), exec .dmNext s = .next t → t.response = .raw r →
    s.crc.run (frameBytes r.bytes) = 0#24 ∧ frameDf r.bytes = 17#5 ∧ t.dm.frame = r.bytes ∧
      r.timestampNs = (t.dm.window.position - 1200#64) * 100#64) ∧
  (∀ (s t : State) (bytes : List Byte) (r : RawMessage), s.dm.window.Shows bytes s.sources →
    s.dm.window.windowSize = 1200 → (powerCount bytes + 1200) * 100 < 2 ^ 64 →
    exec .dmNext s = .next t → t.response = .raw r →
    s.dm.window.position.toNat * 100 ≤ r.timestampNs.toNat ∧
      t.dm.window.position.toNat * 100 = r.timestampNs.toNat + 120000)

/-! ## U7, raw messages and the dispatcher -/

/-- R170, R84: `RM.OF` returns a value exactly when the CRC is zero, checks nothing else, and carries the timestamp; a replay
record feeds it unchanged. Only the CRC register is written. That it holds the CRC after the call is log entry 19, and that the CRC
is that of the generator last built is log entry 33 (both DESIGN CHOICE). -/
def Obligations.RmOfChecksCrc : Prop :=
  ∀ (timestampNs : BitVec 64) (f : Frame) (s : State),
    exec (.rmOf timestampNs f) s = .next { s with
      crc := { s.crc with crcReg := s.crc.run (frameBytes f) }
      response := if s.crc.run (frameBytes f) = 0#24 then .raw ⟨timestampNs, f⟩ else .absent } ∧
    exec (.replayRecord timestampNs f) s = exec (.rmOf timestampNs f) s ∧
    ∃ t, exec (.replayRecord timestampNs f) s = .next t

/-- R171 to R174, R82: the field taps of a raw message, given by the bytes of its frame; the ICAO address as text has six
upper-case hexadecimal digits, the most significant first. They change nothing. -/
def Obligations.RmTapsRead : Prop :=
  ∀ (raw : RawMessage) (s : State),
    let byte := fun k : Nat => (raw.bytes.toNat / 256 ^ (13 - k)) % 256
    exec (.rmDf raw) s = .next (s.respond (.nat (byte 0 / 8))) ∧
    (∃ a : Icao, exec (.rmIcao raw) s = .next (s.respond (.icao a)) ∧
      a.toNat = byte 1 * 65536 + byte 2 * 256 + byte 3 ∧
      (icaoText a).length = 6 ∧
      ∀ k, k < 6 → (icaoText a)[k]?.map BitVec.toNat =
        some (if a.toNat / 16 ^ (5 - k) % 16 < 10 then 48 + a.toNat / 16 ^ (5 - k) % 16
          else 55 + a.toNat / 16 ^ (5 - k) % 16)) ∧
    (∃ me : Me, exec (.rmMe raw) s = .next (s.respond (.me me)) ∧ me.toNat = raw.bytes.toNat / 2 ^ 24 % 2 ^ 56) ∧
    exec (.rmTc raw) s = .next (s.respond (.nat (byte 4 / 8)))

/-- R176: `MP.PARSE` dispatches on the type code alone: 1 to 4 to `ID.DECODE`, 9 to 18 and 20 to 22 to `AP.DECODE`, 19 to `AV.DECODE`,
and absent for every other. It changes nothing, and a message carries the timestamp and the ICAO address of the raw message. -/
def Obligations.MpParseDispatches : Prop :=
  ∀ (raw : RawMessage) (s : State),
    let tc := raw.bytes.toNat / 2 ^ 75 % 32
    (∃ r : Response, exec (.mpParse raw) s = .next (s.respond r) ∧
      ∀ m, r = .message m → m.timestampNs = raw.timestampNs ∧ m.icao = raw.bytes.extractLsb' 80 24) ∧
    (1 ≤ tc ∧ tc ≤ 4 → exec (.mpParse raw) s = exec (.idDecode raw) s) ∧
    ((9 ≤ tc ∧ tc ≤ 18) ∨ (20 ≤ tc ∧ tc ≤ 22) → exec (.mpParse raw) s = exec (.apDecode raw) s) ∧
    (tc = 19 → exec (.mpParse raw) s = exec (.avDecode raw) s) ∧
    (tc = 0 ∨ (5 ≤ tc ∧ tc ≤ 8) ∨ 23 ≤ tc → exec (.mpParse raw) s = .next (s.respond .absent))

/-- R60, R176: the payload words and the parser agree. The operation that a payload decodes to gives the payload that `MP.PARSE`
gives for a frame that carries it, with the frame's timestamp and ICAO address there; and the payload words of the type codes
and the velocity subtypes that are not decoded give absent (R80, R215). That a payload word is run as an operation, and gives a
payload without timestamp and address, is log entry 26 (DESIGN CHOICE). -/
def Obligations.PayloadWordsAreParsed : Prop :=
  (∀ (raw : RawMessage) (s : State), ∃ p : Option Payload,
    exec (decodeMe (frameMe raw.bytes)) s =
      .next (s.respond (match p with | some p => .payload p | none => .absent)) ∧
    exec (.mpParse raw) s =
      .next (s.respond (match p with
        | some p => .message ⟨raw.timestampNs, frameIcao raw.bytes, p⟩
        | none => .absent))) ∧
  (∀ row ∈ restRows, ∀ (unread : BitVec 51) (s : State),
    decodeMe (restWord row.1 unread) = row.2 unread ∧ exec (row.2 unread) s = .next (s.respond .absent)) ∧
  (∀ row ∈ velocityRestRows, ∀ (unread : BitVec 48) (s : State),
    decodeMe (velocityRestWord row.1 unread) = row.2 unread ∧ exec (row.2 unread) s = .next (s.respond .absent))

/-! ## U8, identification -/

/-- R187: the call-sign table, code by code, as the 64 operations that read it; exactly 37 codes are valid. That a CHAR word is run
as an operation that returns its character or absent is log entry 26 (DESIGN CHOICE of the form). -/
def Obligations.CallSignTable : Prop :=
  charRows.length = 64 ∧
  (∀ (code : Nat) (h : code < charRows.length), decodeChar (BitVec.ofNat 6 code) = charRows[code] ∧
    ∀ s : State, exec charRows[code] s =
      .next (s.respond (
        if 1 ≤ code ∧ code ≤ 26 then .char (BitVec.ofNat 8 (64 + code))
        else if code = 32 then .char 32#8
        else if 48 ≤ code ∧ code ≤ 57 then .char (BitVec.ofNat 8 code)
        else .absent))) ∧
  ((List.range 64).filter fun code => (cslut (BitVec.ofNat 6 code)).isSome).length = 37

/-- R185, R186, R188: `ID.DECODE` and the identification words. A single invalid code makes the message absent. Else the category is
`(14 - TC) * 16 + CA` for the type codes 1 to 4, and the call sign is the eight characters, without their trailing spaces if
`CALLSIGN_TRIM` says so; it matches the pattern of R26. Nothing changes. R189 leaves the category of another type code undefined; that
the message is returned there too, with a free value as its category, is log entry 13. That the identification words are run as
operations is log entry 26 (both DESIGN CHOICE). -/
def Obligations.IdDecodeResult : Prop :=
  (∀ (s : State) (text : List Byte),
    let trimmed := fun cs : List Byte => callSignOk cs = true ∧
      (s.params.callSignTrim = .none → cs = text) ∧
      (s.params.callSignTrim = .trailing →
        (∃ n, text = cs ++ List.replicate n 32#8) ∧ ∀ c, cs.getLast? = some c → c ≠ 32#8)
    (∀ raw : RawMessage,
      let me := frameMe raw.bytes
      let codes := (List.range 8).map fun k => me.extractLsb' (42 - 6 * k) 6
      (none ∈ codes.map cslut → exec (.idDecode raw) s = .next (s.respond .absent)) ∧
      (codes.map cslut = text.map some → ∃ (category : BitVec 8) (cs : List Byte),
        exec (.idDecode raw) s =
          .next (s.respond (.message ⟨raw.timestampNs, frameIcao raw.bytes, .identification ⟨category, cs⟩⟩)) ∧
        trimmed cs ∧
        (1 ≤ (me.extractLsb' 51 5).toNat → (me.extractLsb' 51 5).toNat ≤ 4 →
          category.toNat = (14 - (me.extractLsb' 51 5).toNat) * 16 + (me.extractLsb' 48 3).toNat))) ∧
    (∀ row ∈ identRows, ∀ (ca : BitVec 3) (c0 c1 c2 c3 c4 c5 c6 c7 : BitVec 6),
      let codes := [c0, c1, c2, c3, c4, c5, c6, c7]
      (none ∈ codes.map cslut → exec (row.2 ca c0 c1 c2 c3 c4 c5 c6 c7) s = .next (s.respond .absent)) ∧
      (codes.map cslut = text.map some → ∃ (category : BitVec 8) (cs : List Byte),
        exec (row.2 ca c0 c1 c2 c3 c4 c5 c6 c7) s =
          .next (s.respond (.payload (.identification ⟨category, cs⟩))) ∧
        trimmed cs ∧ category.toNat = (14 - row.1.toNat) * 16 + ca.toNat)))

/-! ## U9, position and altitude -/

/-- R195, R197: `AP.DECODE` and the position words. An invalid altitude makes the whole message absent; else the message carries the
altitude, in feet, the parity and the raw CPR fields of the payload. Nothing changes. The altitude in metres is the feet times
0.3048 (R205). That the position words are run as operations is log entry 26 (DESIGN CHOICE of the form). -/
def Obligations.ApDecodeResult : Prop :=
  (∀ (raw : RawMessage) (s : State),
    let me := frameMe raw.bytes
    (altFeet (me.extractLsb' 36 12) = none → exec (.apDecode raw) s = .next (s.respond .absent)) ∧
    (∀ feet, altFeet (me.extractLsb' 36 12) = some feet →
      exec (.apDecode raw) s = .next (s.respond (.message ⟨raw.timestampNs, frameIcao raw.bytes,
        .position ⟨feet, me.extractLsb' 34 1, me.extractLsb' 0 17, me.extractLsb' 17 17⟩⟩)))) ∧
  (∀ row ∈ positionRows, ∀ (unread50 : BitVec 3) (alt : BitVec 12) (unread35 f : BitVec 1) (y x : BitVec 17) (s : State),
    (altFeet alt = none → exec (row.2 unread50 alt unread35 f y x) s = .next (s.respond .absent)) ∧
    (∀ feet, altFeet alt = some feet →
      exec (row.2 unread50 alt unread35 f y x) s = .next (s.respond (.payload (.position ⟨feet, f, x, y⟩))))) ∧
  ∀ feet : Int, (metresOf feet).metres = (feet : ℝ) * 0.3048

/-- R198, R199, R200, R202: `ALT.DECODE` on every field. With `Q` = 1 the altitude is `25 n - 1000`; with `Q` = 0 the 100-ft group
decides as the table of R202 says. The two altitude words give what `ALT.DECODE` gives for their field; that they are run as
operations is log entry 26 (DESIGN CHOICE). Nothing changes. -/
def Obligations.AltDecodeResult : Prop :=
  (∀ (alt : BitVec 12) (s : State), alt.getLsbD 4 = true →
    exec (.altDecode alt) s =
      .next (s.respond (.int (25 * ((alt.toNat / 32 * 16 + alt.toNat % 16 : Nat) : Int) - 1000)))) ∧
  (∀ (alt : BitVec 12) (s : State), alt.getLsbD 4 = false →
    let msb := (grayToBin (altG500 alt)).toNat
    let decoded := fun even odd : Int =>
      Host.Outcome.next (φ := Fault) (ρ := Refusal)
        (s.respond (.int (500 * msb + 100 * (if msb % 2 = 0 then even else odd) - 1300)))
    let g100 := (alt.getLsbD 11).toNat * 4 + (alt.getLsbD 9).toNat * 2 + (alt.getLsbD 7).toNat
    msb ≤ 255 ∧
    (g100 = 0b000 ∨ g100 = 0b111 ∨ g100 = 0b101 → exec (.altDecode alt) s = .next (s.respond .absent)) ∧
    (g100 = 0b001 → exec (.altDecode alt) s = decoded 1 5) ∧
    (g100 = 0b011 → exec (.altDecode alt) s = decoded 2 4) ∧
    (g100 = 0b010 → exec (.altDecode alt) s = decoded 3 3) ∧
    (g100 = 0b110 → exec (.altDecode alt) s = decoded 4 2) ∧
    (g100 = 0b100 → exec (.altDecode alt) s = decoded 5 1)) ∧
  (∀ (alt : BitVec 12) (s : State), exec (decodeAlt alt) s = exec (.altDecode alt) s) ∧
  (∀ (nHi : BitVec 7) (nLo : BitVec 4) (s : State),
    exec (.altQ1 nHi nLo) s = .next (s.respond (.int (25 * ((nHi.toNat * 16 + nLo.toNat : Nat) : Int) - 1000)))) ∧
  (∀ (c1 a1 c2 a2 c4 a4 b1 b2 d2 b4 d4 : BitVec 1) (s : State),
    ∃ r, exec (.altQ0 c1 a1 c2 a2 c4 a4 b1 b2 d2 b4 d4) s = .next (s.respond r) ∧
      exec (.altDecode (altQ0Word c1 a1 c2 a2 c4 a4 b1 b2 d2 b4 d4)) s = .next (s.respond r))

/-- R201: `GRAY.DECODE` of a code of any number of bits: the top bit is kept, every other bit is the bit above it XOR the code's
bit, and the decoding inverts `b -> b xor (b >> 1)`. It changes nothing. -/
def Obligations.GrayDecodeResult : Prop :=
  ∀ (n : Nat) (g : BitVec n) (s : State), 0 < n → ∃ b : BitVec n,
    exec (.grayDecode ⟨n, g.toNat⟩) s = .next (s.respond (.nat b.toNat)) ∧
    b.getLsbD (n - 1) = g.getLsbD (n - 1) ∧
    (∀ k, k + 1 < n → b.getLsbD k = (b.getLsbD (k + 1) ^^ g.getLsbD k)) ∧
    b ^^^ (b >>> 1) = g

/-- R203: the altitude scale of the fields with `Q` = 0: 768 are absent; the others decode to pairwise different altitudes, exactly
the multiples of 100 from -1200 to 126700; and the fields of neighbouring altitudes differ in exactly one bit. -/
def Obligations.GillhamScale : Prop :=
  ((List.range 4096).filter fun a => !a.testBit 4 && (altFeet (BitVec.ofNat 12 a)).isNone).length = 768 ∧
  (∀ a b : BitVec 12, a.getLsbD 4 = false → b.getLsbD 4 = false → altFeet a ≠ none → altFeet a = altFeet b → a = b) ∧
  (∀ feet : Int, (∃ a : BitVec 12, a.getLsbD 4 = false ∧ altFeet a = some feet) ↔
    -1200 ≤ feet ∧ feet ≤ 126700 ∧ feet % 100 = 0) ∧
  altFeet 0x080#12 = some (-1200) ∧ altFeet 0x084#12 = some 126700 ∧ altFeet 0x000#12 = none ∧
  (∀ (a b : BitVec 12) (feet : Int), a.getLsbD 4 = false → b.getLsbD 4 = false → altFeet a = some feet →
    altFeet b = some (feet + 100) → ∃ k, k < 12 ∧ a ^^^ b = 1#12 <<< k)

/-! ## U10, velocity -/

/-- R215 to R218, R76: `AV.DECODE` and the velocity words. Subtypes 1 and 2 give the signed components in knots, subtypes 3 and 4
the speed with the status bit and the heading; the supersonic subtypes count four knots; a speed field of 0 makes the message
absent, as does every other subtype. Nothing changes. That the velocity words are run as operations is log entry 26 (DESIGN CHOICE
of the form). -/
def Obligations.AvDecodeResult : Prop :=
  let sign := fun b : BitVec 1 => if b = 1#1 then (-1 : Int) else 1
  let scale := fun st : BitVec 3 => if st = 2#3 ∨ st = 4#3 then (4 : Int) else 1
  (∀ (raw : RawMessage) (s : State),
    let me := frameMe raw.bytes
    let st := me.extractLsb' 48 3
    let b42 := me.extractLsb' 42 1
    let f41 := me.extractLsb' 32 10
    let b31 := me.extractLsb' 31 1
    let f30 := me.extractLsb' 21 10
    let reply := fun p : VelocityPayload =>
      Host.Outcome.next (φ := Fault) (ρ := Refusal)
        (s.respond (.message ⟨raw.timestampNs, frameIcao raw.bytes, .velocity p⟩))
    (st = 1#3 ∨ st = 2#3 → f41 ≠ 0#10 → f30 ≠ 0#10 → exec (.avDecode raw) s =
      reply (.ground (scale st * ((f41.toNat : Int) - 1) * sign b42) (scale st * ((f30.toNat : Int) - 1) * sign b31))) ∧
    (st = 1#3 ∨ st = 2#3 → f41 = 0#10 ∨ f30 = 0#10 → exec (.avDecode raw) s = .next (s.respond .absent)) ∧
    (st = 3#3 ∨ st = 4#3 → f30 ≠ 0#10 → ∃ v : Nat, (v : Int) = scale st * ((f30.toNat : Int) - 1) ∧
      exec (.avDecode raw) s = reply (.air v b42 f41)) ∧
    (st = 3#3 ∨ st = 4#3 → f30 = 0#10 → exec (.avDecode raw) s = .next (s.respond .absent)) ∧
    (st = 0#3 ∨ st = 5#3 ∨ st = 6#3 ∨ st = 7#3 → exec (.avDecode raw) s = .next (s.respond .absent))) ∧
  (∀ row ∈ groundRows, ∀ (u : BitVec 5) (dew : BitVec 1) (vew : BitVec 10) (dns : BitVec 1) (vns : BitVec 10)
      (u' : BitVec 21) (s : State),
    (vew ≠ 0#10 → vns ≠ 0#10 → exec (row.2.2 u dew vew dns vns u') s = .next (s.respond (.payload (.velocity
      (.ground (row.2.1 * ((vew.toNat : Int) - 1) * sign dew) (row.2.1 * ((vns.toNat : Int) - 1) * sign dns)))))) ∧
    (vew = 0#10 ∨ vns = 0#10 → exec (row.2.2 u dew vew dns vns u') s = .next (s.respond .absent))) ∧
  (∀ row ∈ airRows, ∀ (u : BitVec 5) (sh : BitVec 1) (hdg : BitVec 10) (b31 : BitVec 1) (as : BitVec 10)
      (u' : BitVec 21) (s : State),
    (as ≠ 0#10 → ∃ v : Nat, (v : Int) = row.2.1 * ((as.toNat : Int) - 1) ∧
      exec (row.2.2 u sh hdg b31 as u') s = .next (s.respond (.payload (.velocity (.air v sh hdg))))) ∧
    (as = 0#10 → exec (row.2.2 u sh hdg b31 as u') s = .next (s.respond .absent)))

/-- R25, R216, R217, R219, R220: the real numbers that the exact results stand for, with the open parameter `Numerics` of R5 at its
default, exact reals (log entry 22, DESIGN CHOICE). A speed is the length of its vector in knots (R216) times 1852/3600 and is never
negative (R25); a track or heading lies in `[0, 2π)`, is 0 for north and for the zero vector, and has
the vector's sine and cosine; with the status bit clear the heading is 0. -/
def Obligations.RealResults : Prop :=
  (∀ p : VelocityPayload, 0 ≤ (speedOf p).mps ∧ 0 ≤ (angleOf p).radians ∧ (angleOf p).radians < 2 * Real.pi) ∧
  (∀ e n : Int, (speedOf (.ground e n)).mps = Real.sqrt ((e : ℝ) ^ 2 + (n : ℝ) ^ 2) * 1852 / 3600 ∧
    (0 ≤ n → (angleOf (.ground 0 n)).radians = 0) ∧
    (0 < e → (angleOf (.ground e 0)).radians = Real.pi / 2) ∧
    (n < 0 → (angleOf (.ground 0 n)).radians = Real.pi) ∧
    (e < 0 → (angleOf (.ground e 0)).radians = 3 * Real.pi / 2) ∧
    Real.sqrt ((e : ℝ) ^ 2 + (n : ℝ) ^ 2) * Real.sin (angleOf (.ground e n)).radians = e ∧
    (e ≠ 0 ∨ n ≠ 0 → Real.sqrt ((e : ℝ) ^ 2 + (n : ℝ) ^ 2) * Real.cos (angleOf (.ground e n)).radians = n)) ∧
  (∀ (v : Nat) (sh : BitVec 1) (hdg : BitVec 10),
    (speedOf (.air v sh hdg)).mps = (v : ℝ) * 1852 / 3600 ∧
    (angleOf (.air v sh hdg)).radians = if sh = 1#1 then (hdg.toNat : ℝ) * 2 * Real.pi / 1024 else 0)

/-! ## U11, the CPR solver -/

/-- R238, R239: on the latitudes that the solver can produce, `CPR.NL` is what the integer columns of `NLTAB` say, its two tie points
being parameters; everywhere it is even in the latitude, between 1 and 60 (60 only at latitude 0, if the parameter says so), and
1 beyond 87 degrees. It changes nothing. -/
def Obligations.CprNlFollowsTable : Prop :=
  (∀ (k : Int) (s : State), (k.natAbs = 1900544 → s.params.nlAt87DegreesIs2 = true) →
    ∃ n, exec (.cprNl ⟨k, 7864320⟩) s = .next (s.respond (.nat n)) ∧ 1 ≤ n ∧
      ∀ row ∈ zoneTable, row.1 ≤ n ↔ k.natAbs ≤ row.2.1) ∧
  (∀ (k : Int) (s : State), ∃ n, exec (.cprNl ⟨k, 7733248⟩) s = .next (s.respond (.nat n)) ∧ 1 ≤ n ∧
      ∀ row ∈ zoneTable, row.1 ≤ n ↔ k.natAbs ≤ row.2.2) ∧
  (∀ (phi : Turns) (s : State), phi.den ≠ 0 →
    ∃ n, exec (.cprNl phi) s = .next (s.respond (.nat n)) ∧ 1 ≤ n ∧ n ≤ 60 ∧
      (phi.num = 0 → n = if s.params.nlAtEquatorIs59 then 59 else 60) ∧
      (phi.num ≠ 0 → n ≤ 59) ∧
      (29 * phi.den < phi.num.natAbs * 120 → n = 1) ∧
      (phi.num.natAbs * 120 = 29 * phi.den → n = if s.params.nlAt87DegreesIs2 then 2 else 1) ∧
      exec (.cprNl ⟨-phi.num, phi.den⟩) s = .next (s.respond (.nat n)))

/-- R238: where the latitude is not 0 and lies within 87 degrees, `CPR.NL` is the value of the formula, in exact arithmetic (log
entry 14 says how the model decides it). It changes nothing. -/
def Obligations.CprNlIsTheFormula : Prop :=
  ∀ (phi : Turns) (s : State), phi.den ≠ 0 → phi.num ≠ 0 → phi.num.natAbs * 120 < 29 * phi.den →
    let c := Real.cos (2 * Real.pi * ((phi.num : ℝ) / phi.den))
    let a := 1 - (1 - Real.cos (2 * Real.pi / 60)) / c ^ 2
    exec (.cprNl phi) s = .next (s.respond (.nat ⌊2 * Real.pi / Real.arccos a⌋₊))

/-- R230 to R236: `CPR.DECODE`, step by step. It changes nothing. The bound on the longitude is R236, which the spec derives from
R231. -/
def Obligations.CprDecodeResult : Prop :=
  ∀ (x0 y0 x1 y1 : BitVec 17) (mostRecent : BitVec 1) (s : State),
    let round := roundQuotient s.params.roundTies
    let zphi := round (59 * (y0.toNat : Int) - 60 * y1.toNat) 131072
    let zphi0 := if zphi < 0 then zphi + 60 else zphi
    let zphi1 := if zphi < 0 then zphi + 59 else zphi
    let phi0 := Turns.norm (zphi0 * 131072 + y0.toNat) 7864320
    let phi1 := Turns.norm (zphi1 * 131072 + y1.toNat) 7733248
    let nl := zoneCount s.params phi0
    (nl ≠ zoneCount s.params phi1 →
      exec (.cprDecode x0 y0 x1 y1 mostRecent) s = .next (s.respond .absent)) ∧
    (nl = zoneCount s.params phi1 →
      let zlam := round ((x0.toNat : Int) * ((nl : Int) - 1) - (x1.toNat : Int) * nl) 131072
      let zlam0 := if zlam < 0 then zlam + nl else zlam
      let zlam1 := if zlam < 0 then zlam + ((nl : Int) - 1) else zlam
      let lam0 := if nl = 1 then Turns.norm x0.toNat 131072 else Turns.norm (zlam0 * 131072 + x0.toNat) (nl * 131072)
      let lam1 := if nl = 1 then Turns.norm x1.toNat 131072
        else Turns.norm (zlam1 * 131072 + x1.toNat) ((nl - 1) * 131072)
      let phi := if mostRecent = 0#1 then phi0 else phi1
      let lam := if mostRecent = 0#1 then lam0 else lam1
      let lat := round (phi.num * 2 ^ 32) phi.den
      let lon := round (lam.num * 2 ^ 32) lam.den
      (2 ^ 30 ≤ lat ∨ lat ≤ -2 ^ 30 → exec (.cprDecode x0 y0 x1 y1 mostRecent) s = .next (s.respond .absent)) ∧
      (-2 ^ 30 < lat → lat < 2 ^ 30 → ∃ g : GeoPos,
        exec (.cprDecode x0 y0 x1 y1 mostRecent) s = .next (s.respond (.geo g)) ∧
        g.latitudeT32.toInt = lat ∧ g.longitudeT32.toInt = lon ∧ -2 ^ 31 ≤ lon ∧ lon ≤ 2 ^ 31 - 277))

/-- R231, R232, R234, R236: the zone indices and the candidates of both coordinates stay in their ranges, no conversion to T32 units
meets a tie, and so its value does not depend on `ROUND_TIES`. The longitudes are those of every zone count from 1 to 60, the last
of which stands only for a setting of `NL` at latitude 0. The ranges are the spec's inferences (R232, R236). -/
def Obligations.CprCandidateRanges : Prop :=
  let inRange := fun (t : Turns) (den : Nat) =>
    t.den = den ∧ -(den : Int) ≤ 2 * t.num ∧ 2 * t.num < den ∧ (2 * (t.num * 2 ^ 32) + t.den) % (2 * t.den) ≠ 0 ∧
      ∀ ties ties' : RoundTies, toT32 ties t = toT32 ties' t ∧ -2 ^ 31 ≤ toT32 ties t ∧ toT32 ties t ≤ 2 ^ 31 - 277
  (∀ (ties : RoundTies) (y0 y1 : BitVec 17),
    let zphi := zoneIndex ties 60 y0 y1
    let c := candidates ties 60 y0 y1
    zphi ≤ 59 ∧ -60 ≤ zphi ∧
    0 ≤ zoneFrom zphi 60 ∧ zoneFrom zphi 60 ≤ 59 ∧ -1 ≤ zoneFrom zphi 59 ∧ zoneFrom zphi 59 ≤ 59 ∧
    inRange c.even 7864320 ∧ inRange c.odd 7733248) ∧
  (∀ (ties : RoundTies) (nl : Nat) (x0 x1 : BitVec 17), 1 ≤ nl → nl ≤ 60 →
    let zlam := zoneIndex ties nl x0 x1
    let c := longitudes ties nl x0 x1
    zlam ≤ (nl : Int) - 1 ∧ -(nl : Int) ≤ zlam ∧
    inRange c.even (nl * 131072) ∧ inRange c.odd (if nl = 1 then 131072 else (nl - 1) * 131072))

/-- R237: `round` is the floor of the value plus a half; the other settings of `ROUND_TIES` are nearest too, differ from it only at
ties, and there go to the even neighbour or away from zero. -/
def Obligations.RoundingAtTies : Prop :=
  ∀ (num : Int) (den : Nat), 0 < den →
    roundQuotient .halfUp num den = ⌊(num : ℚ) / den + 1 / 2⌋ ∧
    (∀ ties, |(num : ℚ) / den - roundQuotient ties num den| ≤ 1 / 2) ∧
    ((2 * num + den) % (2 * den) ≠ 0 →
      roundQuotient .halfEven num den = roundQuotient .halfUp num den ∧
      roundQuotient .halfAway num den = roundQuotient .halfUp num den) ∧
    ((2 * num + den) % (2 * den) = 0 →
      roundQuotient .halfEven num den % 2 = 0 ∧
      (0 < num → roundQuotient .halfAway num den = roundQuotient .halfUp num den) ∧
      (num < 0 → roundQuotient .halfAway num den = roundQuotient .halfUp num den - 1))

/-! ## The host: per-aircraft state -/

/-- R272 to R274: `ACC.UPDATE` folds a message into the state of its aircraft, kind by kind, records the time for every kind, and
touches no other aircraft and no other state. A position message is stored in the slot of its parity, the other slot is never
cleared, and a position is installed only with a message of the other parity less than 1000000000 ns older, or newer; a pair that the solver rejects leaves the position as it was. -/
def Obligations.AccUpdateFolds : Prop :=
  ∀ (ts : BitVec 64) (icao : Icao) (s : State),
    let a := (Mem.read? s.aircraft icao.toNat).getD AircraftState.created
    let updated := fun (p : Payload) (b : AircraftState) => ∃ t : State,
      exec (.accUpdate ⟨ts, icao, p⟩) s = .next t ∧ t = { s with aircraft := t.aircraft, response := .done } ∧
      Mem.read? t.aircraft icao.toNat = some b ∧
      ∀ k, k ≠ icao.toNat → Mem.read? t.aircraft k = Mem.read? s.aircraft k
    (∀ p : IdentPayload, updated (.identification p)
      { a with category := some p.category, callSign := some p.callSign, lastSeenNs := some ts }) ∧
    (∀ p : VelocityPayload, updated (.velocity p)
      { a with speed := some (speedOf p), trackOrHeading := some (angleOf p), lastSeenNs := some ts }) ∧
    (∀ p : PositionPayload,
      let even := if p.parity = 0#1 then some ⟨ts, p⟩ else a.slotEven
      let odd := if p.parity = 0#1 then a.slotOdd else some ⟨ts, p⟩
      let other := if p.parity = 0#1 then a.slotOdd else a.slotEven
      let position := match even, odd, other with
        | some e, some o, some other =>
          if (ts.toNat : Int) - (other.timestampNs.toNat : Int) < 1000000000 then
            (cprPosition s.params e.position.x e.position.y o.position.x o.position.y p.parity).or a.position
          else a.position
        | _, _, _ => a.position
      updated (.position p)
        { a with
          altitude := some ⟨p.altitudeFt⟩
          slotEven := even
          slotOdd := odd
          position := position
          lastSeenNs := some ts })

/-- R275: the host's purge evicts exactly the aircraft that have been silent for longer than the threshold at the host's time, and
changes nothing else. That the purge is an act of the host at the port, and that an entry without a last-seen time stays, is log
entry 28 (DESIGN CHOICE). -/
def Obligations.PurgeEvictsSilent : Prop :=
  ∀ (s : State) (now : Nat) (rest : List Request), Mem.Wf s.aircraft → s.queue = .purge now :: rest →
    ∃ t, step s = .next t ∧ t = { s with aircraft := t.aircraft, queue := rest } ∧
      ∀ k, Mem.read? t.aircraft k = match Mem.read? s.aircraft k with
        | none => none
        | some a =>
          match a.lastSeenNs with
          | none => some a
          | some seen => if (s.params.purgeNs : Int) < (now : Int) - (seen.toNat : Int) then none else some a

/-- R257: the host's constructors. A `CallSign` is at most eight characters of `[A-Z0-9 ]`; an `IcaoAddress` text as the block writes
it gives its address back, and a text of another length or with a character that is no hexadecimal digit is refused; a refused
text raises `ConfigError` and changes nothing. That the construction is an act of the host at the port, and the text's codes the
error's info, is log entry 24 (DESIGN CHOICE); whether lower-case digits are accepted is left open (log entry 15). -/
def Obligations.HostConstructors : Prop :=
  (∀ (s : State) (text : List Byte) (rest : List Request), s.queue = .newCallSign text :: rest →
    let fits := text.length ≤ 8 ∧ ∀ c ∈ text,
      (65 ≤ c.toNat ∧ c.toNat ≤ 90) ∨ (48 ≤ c.toNat ∧ c.toNat ≤ 57) ∨ c.toNat = 32
    (fits → step s = .next { s with queue := rest, response := .text text }) ∧
    (¬fits → step s = .next { s with
      queue := rest
      response := .error ⟨.configError, text.map fun c => (c.toNat : Int)⟩ })) ∧
  (∀ (s : State) (a : Icao) (rest : List Request), s.queue = .newIcaoAddress (icaoText a) :: rest →
    step s = .next { s with queue := rest, response := .icao a }) ∧
  (∀ (s : State) (text : List Byte) (rest : List Request), s.queue = .newIcaoAddress text :: rest →
    text.length ≠ 6 ∨ (∃ c ∈ text, ¬(48 ≤ c.toNat ∧ c.toNat ≤ 57) ∧ ¬(65 ≤ c.toNat ∧ c.toNat ≤ 70) ∧
      ¬(97 ≤ c.toNat ∧ c.toNat ≤ 102)) →
    step s = .next { s with
      queue := rest
      response := .error ⟨.configError, text.map fun c => (c.toNat : Int)⟩ })

end
end

