-- ==== Sys2Proof/Laws/RootsOfUnity.lean ====
section
/-! SUPPORT. How near to zero an expression in roots of unity can come: what lets `CPR.NL` decide its thresholds (R238) by bounds
alone. -/

namespace Sys2Proof.Machine

set_option Elab.async false

open IntermediateField

/-- An integer expression in the roots of unity of order `N` that is not zero is not small: the product of its conjugates is an integer,
there are at most `N` of them, and none is greater than 32. -/
theorem rootsOfUnity_far (N p q r : ℕ) (hN : 0 < N) (z : ℂ) (hz : z ^ N = 1) :
    let X := (2 + z ^ p + z⁻¹ ^ p) * (2 - z ^ q - z⁻¹ ^ q) - 4 * (2 - z ^ r - z⁻¹ ^ r)
    X ≠ 0 → 1 ≤ ‖X‖ * 32 ^ N := by
  classical
  intro X hX
  have hint : IsIntegral ℤ z := by
    refine ⟨Polynomial.X ^ N - 1, Polynomial.monic_X_pow_sub_C 1 hN.ne', ?_⟩
    simp [hz]
  have hintQ : IsIntegral ℚ z := hint.tower_top
  have : FiniteDimensional ℚ ℚ⟮z⟯ := adjoin.finiteDimensional hintQ
  let g : ℚ⟮z⟯ := AdjoinSimple.gen ℚ z
  have hg : (g : ℂ) = z := AdjoinSimple.coe_gen ℚ z
  have hgN : g ^ N = 1 := by
    apply Subtype.ext
    push_cast
    rw [hg, hz]
  let x : ℚ⟮z⟯ := (2 + g ^ p + g⁻¹ ^ p) * (2 - g ^ q - g⁻¹ ^ q) - 4 * (2 - g ^ r - g⁻¹ ^ r)
  have hxX : (x : ℂ) = X := by
    show ℚ⟮z⟯.val x = X
    have hgv : ℚ⟮z⟯.val g = z := hg
    simp only [x, X, map_sub, map_mul, map_add, map_pow, map_inv₀, map_ofNat, hgv]
  have hx0 : x ≠ 0 := by
    intro h
    apply hX
    rw [← hxX, h]
    rfl
  have hginv : g⁻¹ ^ N = 1 := by rw [inv_pow, hgN, inv_one]
  have hgi : IsIntegral ℤ g := ⟨Polynomial.X ^ N - 1, Polynomial.monic_X_pow_sub_C 1 hN.ne', by simp [hgN]⟩
  have hgii : IsIntegral ℤ g⁻¹ := ⟨Polynomial.X ^ N - 1, Polynomial.monic_X_pow_sub_C 1 hN.ne', by
    rw [Polynomial.eval₂_sub, Polynomial.eval₂_pow, Polynomial.eval₂_X, hginv, Polynomial.eval₂_one, sub_self]⟩
  have h2 : IsIntegral ℤ (2 : ℚ⟮z⟯) := by simpa using (isIntegral_algebraMap (R := ℤ) (A := ℚ⟮z⟯) (x := 2))
  have h4 : IsIntegral ℤ (4 : ℚ⟮z⟯) := by simpa using (isIntegral_algebraMap (R := ℤ) (A := ℚ⟮z⟯) (x := 4))
  have hxi : IsIntegral ℤ x :=
    (((h2.add (hgi.pow p)).add (hgii.pow p)).mul ((h2.sub (hgi.pow q)).sub (hgii.pow q))).sub
      (h4.mul ((h2.sub (hgi.pow r)).sub (hgii.pow r)))
  have hnorm : IsIntegral ℤ (Algebra.norm ℚ x) := Algebra.isIntegral_norm ℚ hxi
  obtain ⟨m, hm⟩ := IsIntegrallyClosed.isIntegral_iff.1 hnorm
  have hm0 : m ≠ 0 := by
    rintro rfl
    apply hx0
    rw [map_zero] at hm
    exact (Algebra.norm_eq_zero_iff).1 hm.symm
  have hprod := Algebra.norm_eq_prod_embeddings ℚ ℂ x
  have hone : 1 ≤ ‖∏ σ : ℚ⟮z⟯ →ₐ[ℚ] ℂ, σ x‖ := by
    rw [← hprod, ← hm]
    have : (1 : ℤ) ≤ |m| := Int.one_le_abs hm0
    have h' : ((algebraMap ℚ ℂ) ((algebraMap ℤ ℚ) m)) = (m : ℂ) := by simp
    rw [h', Complex.norm_intCast]
    exact_mod_cast this
  have hσ : ∀ σ : ℚ⟮z⟯ →ₐ[ℚ] ℂ, ‖σ x‖ ≤ 32 := by
    intro σ
    have n1 : ‖σ g‖ = 1 := Complex.norm_eq_one_of_pow_eq_one (by rw [← map_pow, hgN, map_one]) hN.ne'
    have n2 : ‖(σ g)⁻¹‖ = 1 := by rw [norm_inv, n1, inv_one]
    have e : σ x = (2 + σ g ^ p + (σ g)⁻¹ ^ p) * (2 - σ g ^ q - (σ g)⁻¹ ^ q) - 4 * (2 - σ g ^ r - (σ g)⁻¹ ^ r) := by
      simp only [x, map_sub, map_mul, map_add, map_pow, map_inv₀, map_ofNat]
    have p1 : ∀ k, ‖σ g ^ k‖ = 1 := fun k => by rw [norm_pow, n1, one_pow]
    have p2 : ∀ k, ‖(σ g)⁻¹ ^ k‖ = 1 := fun k => by rw [norm_pow, n2, one_pow]
    have two : ‖(2 : ℂ)‖ = 2 := by simp
    have four : ‖(4 : ℂ)‖ = 4 := by simp
    have b1 : ‖2 + σ g ^ p + (σ g)⁻¹ ^ p‖ ≤ 4 := by
      refine (norm_add_le _ _).trans ?_
      have := norm_add_le (2 : ℂ) (σ g ^ p)
      rw [p1, two] at this; rw [p2]; linarith
    have b2 : ∀ k, ‖2 - σ g ^ k - (σ g)⁻¹ ^ k‖ ≤ 4 := by
      intro k
      refine (norm_sub_le _ _).trans ?_
      have := norm_sub_le (2 : ℂ) (σ g ^ k)
      rw [p1, two] at this; rw [p2]; linarith
    rw [e]
    refine (norm_sub_le _ _).trans ?_
    rw [norm_mul, norm_mul, four]
    have := mul_le_mul b1 (b2 q) (norm_nonneg _) (by norm_num)
    have := b2 r
    linarith
  -- isolate the inclusion
  let σ0 : ℚ⟮z⟯ →ₐ[ℚ] ℂ := ℚ⟮z⟯.val
  have h0 : σ0 x = X := hxX
  rw [← Finset.mul_prod_erase Finset.univ (fun σ : ℚ⟮z⟯ →ₐ[ℚ] ℂ => σ x) (Finset.mem_univ σ0), h0, norm_mul, norm_prod] at hone
  refine hone.trans (mul_le_mul_of_nonneg_left ?_ (norm_nonneg _))
  have hle : ∏ σ ∈ Finset.univ.erase σ0, ‖σ x‖ ≤ ∏ σ ∈ Finset.univ.erase σ0, (32 : ℝ) :=
    Finset.prod_le_prod (fun _ _ => norm_nonneg _) (fun σ _ => hσ σ)
  refine hle.trans ?_
  rw [Finset.prod_const]
  refine pow_le_pow_right₀ (by norm_num) ?_
  refine (Finset.card_erase_le).trans ?_
  rw [Finset.card_univ, AlgHom.card, adjoin.finrank hintQ]
  have hdvd : minpoly ℚ z ∣ Polynomial.X ^ N - 1 := minpoly.dvd ℚ z (by simp [hz])
  have hne : (Polynomial.X ^ N - 1 : Polynomial ℚ) ≠ 0 := (Polynomial.monic_X_pow_sub_C 1 hN.ne').ne_zero
  have := Polynomial.natDegree_le_of_dvd hdvd hne
  refine this.trans ?_
  rw [← Polynomial.C_1, Polynomial.natDegree_X_pow_sub_C]

end Sys2Proof.Machine
end

