-- ==== Sys2Proof/Laws/Cosine.lean ====
section
/-! SUPPORT. What the threshold comparison of `CPR.NL` decides (R238): the square root is the rounded one, the bounds enclose the
cosine and close in on it, and `cosAtLeast` says exactly on which side of a threshold an angle lies. -/

namespace Sys2Proof.Machine

set_option Elab.async false

/-! ## The square root -/

/-- Newton's iteration with enough turns is that of the library. -/
theorem sqrtFrom_eq_iter (n fuel x : Nat) (h : x ≤ fuel) : sqrtFrom n fuel x = Nat.sqrt.iter n x := by
  induction fuel generalizing x with
  | zero =>
    obtain rfl : x = 0 := by omega
    rw [Nat.sqrt.iter]; simp [sqrtFrom]
  | succ fuel ih =>
    rw [Nat.sqrt.iter, sqrtFrom]
    split
    · rename_i hlt
      rw [ih _ (by omega)]
    · rfl

/-- `sqrtFloor` is the square root, rounded down. -/
theorem sqrtFloor_eq (n : Nat) : sqrtFloor n = Nat.sqrt n := by
  rw [sqrtFloor, Nat.sqrt]
  split
  · rfl
  · rw [sqrtFrom_eq_iter _ _ _ le_rfl, Nat.one_shiftLeft]

theorem sqrtFloor_le (n : Nat) : (sqrtFloor n : ℝ) ≤ Real.sqrt n := by
  rw [sqrtFloor_eq]; exact Real.nat_sqrt_le_real_sqrt

/-! ## The bounds enclose the cosine -/

/-- The rounded square root of half a number is not above the square root. -/
theorem sqrtFloor_half_le (a : ℕ) : (sqrtFloor (a / 2) : ℝ) ≤ Real.sqrt ((a : ℝ) / 2) := by
  refine (sqrtFloor_le _).trans (Real.sqrt_le_sqrt ?_)
  exact Nat.cast_div_le

/-- The rounded square root of half a number is less than one below the square root. -/
theorem sqrt_half_le (a : ℕ) : Real.sqrt ((a : ℝ) / 2) ≤ sqrtFloor (a / 2) + 1 := by
  have h : a / 2 < (sqrtFloor (a / 2) + 1) * (sqrtFloor (a / 2) + 1) := by
    rw [sqrtFloor_eq]; exact Nat.lt_succ_sqrt _
  have h' : a < 2 * ((sqrtFloor (a / 2) + 1) * (sqrtFloor (a / 2) + 1)) := by omega
  rw [Real.sqrt_le_left (by positivity)]
  have : (a : ℝ) < 2 * ((sqrtFloor (a / 2) + 1) * (sqrtFloor (a / 2) + 1)) := by exact_mod_cast h'
  nlinarith

/-- The half-angle formula, scaled. -/
theorem cos_eq_sqrt {x : ℝ} (h0 : 0 ≤ x) (h1 : x ≤ Real.pi / 2) {S : ℝ} (hS : 0 < S) :
    Real.sqrt (S * (S * (1 + Real.cos (2 * x))) / 2) = S * Real.cos x := by
  have hc : 0 ≤ Real.cos x := Real.cos_nonneg_of_neg_pi_div_two_le_of_le (by linarith [Real.pi_pos]) h1
  rw [Real.cos_two_mul, show S * (S * (1 + (2 * Real.cos x ^ 2 - 1))) / 2 = (S * Real.cos x) ^ 2 by ring]
  exact Real.sqrt_sq (by positivity)

/-- The bounds enclose `S * (1 + cos (π num / den))`. -/
theorem cosBounds_sound {S : ℕ} (hS : 0 < S) (k num den : ℕ) (hd : 0 < den) (h : num ≤ den) :
    ((cosBounds S k num den).1 : ℝ) ≤ S * (1 + Real.cos (Real.pi * num / den)) ∧
      S * (1 + Real.cos (Real.pi * num / den)) ≤ (cosBounds S k num den).2 ∧ (cosBounds S k num den).2 ≤ 2 * S := by
  have hS' : (0 : ℝ) < S := by exact_mod_cast hS
  have hd' : (0 : ℝ) < den := by exact_mod_cast hd
  induction k generalizing num with
  | zero =>
    have h1 := Real.neg_one_le_cos (Real.pi * num / den)
    have h2 := Real.cos_le_one (Real.pi * num / den)
    refine ⟨?_, ?_, le_rfl⟩
    · simp only [cosBounds, Nat.cast_zero]; exact mul_nonneg hS'.le (by linarith)
    · simp only [cosBounds]; push_cast; nlinarith
  | succ k ih =>
    have low : ∀ x : ℝ, 0 ≤ x → x ≤ Real.pi / 2 → ∀ lo hi : ℕ, (lo : ℝ) ≤ S * (1 + Real.cos (2 * x)) → S * (1 + Real.cos (2 * x)) ≤ hi →
        (sqrtFloor (S * lo / 2) : ℝ) ≤ S * Real.cos x ∧ S * Real.cos x ≤ sqrtFloor (S * hi / 2) + 1 := by
      intro x h0 h1 lo hi hlo hhi
      rw [← cos_eq_sqrt h0 h1 hS']
      constructor
      · refine (sqrtFloor_half_le _).trans (Real.sqrt_le_sqrt ?_)
        push_cast
        have := mul_le_mul_of_nonneg_left hlo hS'.le
        linarith
      · refine le_trans (Real.sqrt_le_sqrt ?_) (sqrt_half_le _)
        push_cast
        have := mul_le_mul_of_nonneg_left hhi hS'.le
        linarith
    rw [cosBounds]
    split
    · rename_i h2
      have := ih (2 * num) h2
      dsimp only
      have e : Real.pi * ((2 * num : ℕ) : ℝ) / den = 2 * (Real.pi * num / den) := by push_cast; ring
      rw [e] at this
      have hx0 : 0 ≤ Real.pi * num / den := by positivity
      have hx1 : Real.pi * num / den ≤ Real.pi / 2 := by
        rw [div_le_div_iff₀ hd' (by norm_num)]
        have : (2 : ℝ) * num ≤ den := by exact_mod_cast h2
        nlinarith [Real.pi_pos]
      have hl := low _ hx0 hx1 _ _ this.1 this.2.1
      have hc1 := Real.cos_le_one (Real.pi * num / den)
      refine ⟨by push_cast; linarith, ?_, min_le_left _ _⟩
      push_cast
      refine le_min ?_ (by linarith)
      nlinarith
    · rename_i h2
      have hle : 2 * num ≤ 2 * den := by omega
      have := ih (2 * den - 2 * num) (by omega)
      dsimp only
      have hcast : ((2 * den - 2 * num : ℕ) : ℝ) = 2 * den - 2 * num := by rw [Nat.cast_sub hle]; push_cast; ring
      have e : Real.pi * ((2 * den - 2 * num : ℕ) : ℝ) / den = 2 * (Real.pi - Real.pi * num / den) := by
        rw [hcast]; field_simp
      rw [e] at this
      have hn : (num : ℝ) ≤ den := by exact_mod_cast h
      have h2' : (den : ℝ) < 2 * num := by exact_mod_cast (not_le.1 h2)
      have hx0 : 0 ≤ Real.pi - Real.pi * num / den := by
        rw [sub_nonneg, div_le_iff₀ hd']; nlinarith [Real.pi_pos]
      have hx1 : Real.pi - Real.pi * num / den ≤ Real.pi / 2 := by
        rw [sub_le_iff_le_add, ← sub_le_iff_le_add', le_div_iff₀ hd']; nlinarith [Real.pi_pos]
      have hl := low _ hx0 hx1 _ _ this.1 this.2.1
      rw [Real.cos_pi_sub] at hl
      have hnn := Real.neg_one_le_cos (Real.pi * num / den)
      have hle1 : sqrtFloor (S * (cosBounds S k (2 * den - 2 * num) den).1 / 2) ≤ S := by
        have : (sqrtFloor (S * (cosBounds S k (2 * den - 2 * num) den).1 / 2) : ℝ) ≤ S := by nlinarith
        exact_mod_cast this
      refine ⟨?_, ?_, by omega⟩
      · by_cases hb : sqrtFloor (S * (cosBounds S k (2 * den - 2 * num) den).2 / 2) + 1 ≤ S
        · rw [Nat.cast_sub hb]; push_cast; linarith
        · rw [Nat.sub_eq_zero_of_le (by omega)]; push_cast; nlinarith
      · rw [Nat.cast_sub hle1]; linarith

/-! ## The bounds close in on it -/

/-- How far the inverse cosine moves where its argument falls by `ε`. -/
theorem arccos_le_of_sub_le {x y ε : ℝ} (hx : -1 ≤ x) (hx' : x ≤ 1) (hy : -1 ≤ y) (hy' : y ≤ 1) (h : y - x ≤ ε) :
    Real.arccos x ≤ Real.arccos y + Real.pi * Real.sqrt (ε / 2) := by
  have hpi := Real.pi_pos
  by_cases hxy : y ≤ x
  · have := Real.arccos_le_arccos hxy
    have : 0 ≤ Real.pi * Real.sqrt (ε / 2) := by positivity
    linarith
  · push Not at hxy
    set a := Real.arccos x with ha
    set b := Real.arccos y with hb
    have hab : b ≤ a := Real.arccos_le_arccos hxy.le
    have ha1 : a ≤ Real.pi := Real.arccos_le_pi x
    have hb0 : 0 ≤ b := Real.arccos_nonneg y
    have hca : Real.cos a = x := Real.cos_arccos hx hx'
    have hcb : Real.cos b = y := Real.cos_arccos hy hy'
    have hdiff : y - x = 2 * Real.sin ((a + b) / 2) * Real.sin ((a - b) / 2) := by
      rw [← hca, ← hcb, Real.cos_sub_cos, show (b - a) / 2 = -((a - b) / 2) by ring, Real.sin_neg, add_comm b a]
      ring
    set d := (a - b) / 2 with hd
    have hd0 : 0 ≤ d := by rw [hd]; linarith
    have hd1 : d ≤ Real.pi / 2 := by rw [hd]; linarith
    have hjordan : 2 / Real.pi * d ≤ Real.sin d := Real.mul_le_sin hd0 hd1
    have hs0 : 0 ≤ 2 / Real.pi * d := by positivity
    have hmid : Real.sin d ≤ Real.sin ((a + b) / 2) := by
      by_cases hm : (a + b) / 2 ≤ Real.pi / 2
      · exact Real.sin_le_sin_of_le_of_le_pi_div_two (by linarith) hm (by rw [hd]; linarith)
      · rw [← Real.sin_pi_sub ((a + b) / 2)]
        exact Real.sin_le_sin_of_le_of_le_pi_div_two (by linarith) (by linarith) (by rw [hd]; linarith)
    have hsq : 2 * (2 / Real.pi * d) ^ 2 ≤ ε := by
      have h1 : (2 / Real.pi * d) ^ 2 ≤ Real.sin ((a + b) / 2) * Real.sin d := by
        rw [sq]
        exact mul_le_mul (hjordan.trans hmid) hjordan hs0 (hs0.trans (hjordan.trans hmid))
      nlinarith
    have : 2 / Real.pi * d ≤ Real.sqrt (ε / 2) := Real.le_sqrt_of_sq_le (by linarith)
    have h2 : 2 * d ≤ Real.pi * Real.sqrt (ε / 2) := by
      have := mul_le_mul_of_nonneg_left this hpi.le
      have e : Real.pi * (2 / Real.pi * d) = 2 * d := by field_simp
      linarith
    have : a = b + 2 * d := by rw [hd]; ring
    linarith

/-- The angle between the two bounds. -/
noncomputable def spread (S : ℕ) (b : ℕ × ℕ) : ℝ := Real.arccos ((b.1 : ℝ) / S - 1) - Real.arccos ((b.2 : ℝ) / S - 1)

/-- The half-angle formula, at an inverse cosine. -/
theorem arccos_half {c : ℝ} (h : -1 ≤ c) (h' : c ≤ 1) : Real.cos (Real.arccos c / 2) = Real.sqrt ((1 + c) / 2) := by
  rw [Real.cos_half (by linarith [Real.arccos_nonneg c, Real.pi_pos]) (Real.arccos_le_pi c), Real.cos_arccos h h']

/-- Each half-angle step halves the angle between the bounds, but for the rounding of the square roots. -/
theorem spread_le {S : ℕ} (hS : 0 < S) (k num den : ℕ) (hd : 0 < den) (h : num ≤ den) :
    spread S (cosBounds S k num den) ≤ Real.pi / 2 ^ k + 4 * (Real.pi * Real.sqrt (1 / S / 2)) := by
  have hS' : (0 : ℝ) < S := by exact_mod_cast hS
  have hpi := Real.pi_pos
  set ρ := Real.pi * Real.sqrt (1 / S / 2) with hρ
  have hρ0 : 0 ≤ ρ := by positivity
  induction k generalizing num with
  | zero =>
    have h1 := Real.arccos_le_pi (((cosBounds S 0 num den).1 : ℝ) / S - 1)
    have h2 := Real.arccos_nonneg (((cosBounds S 0 num den).2 : ℝ) / S - 1)
    unfold spread
    rw [pow_zero, div_one]
    linarith
  | succ k ih =>
    -- one half-angle step from bounds lo, hi
    have half : ∀ m : ℕ, m ≤ 2 * S → Real.cos (Real.arccos ((m : ℝ) / S - 1) / 2) = Real.sqrt (((S * m : ℕ) : ℝ) / 2) / S := by
      intro m hm
      have hm' : (m : ℝ) ≤ 2 * S := by exact_mod_cast hm
      rw [arccos_half (by have : (0:ℝ) ≤ m / S := by positivity
                          linarith) (by rw [sub_le_iff_le_add, div_le_iff₀ hS']; linarith)]
      rw [← Real.sqrt_sq hS'.le, ← Real.sqrt_div' _ (by positivity)]
      congr 1
      push_cast
      rw [Real.sqrt_sq hS'.le]
      field_simp
      ring
    have bnd : ∀ m : ℕ, m ≤ 2 * S → Real.sqrt (((S * m : ℕ) : ℝ) / 2) ≤ S := by
      intro m hm
      rw [Real.sqrt_le_left hS'.le]
      have hm' : (m : ℝ) ≤ 2 * S := by exact_mod_cast hm
      push_cast
      nlinarith
    have range : ∀ m : ℕ, 0 ≤ Real.arccos ((m : ℝ) / S - 1) / 2 ∧ Real.arccos ((m : ℝ) / S - 1) / 2 ≤ Real.pi := by
      intro m
      have := Real.arccos_le_pi ((m : ℝ) / S - 1)
      have := Real.arccos_nonneg ((m : ℝ) / S - 1)
      constructor <;> linarith
    have key : ∀ (m : ℕ) (x : ℝ), m ≤ 2 * S → |(m : ℝ) / S - 1 - Real.cos x| ≤ 1 / S → 0 ≤ x → x ≤ Real.pi → |Real.arccos ((m : ℝ) / S - 1) - x| ≤ ρ := by
      intro m x hm hab h0 h1
      have hm' : (m : ℝ) ≤ 2 * S := by exact_mod_cast hm
      have a1 : -1 ≤ (m : ℝ) / S - 1 := by have : (0:ℝ) ≤ m / S := by positivity
                                           linarith
      have a2 : (m : ℝ) / S - 1 ≤ 1 := by rw [sub_le_iff_le_add, div_le_iff₀ hS']; linarith
      rw [abs_le] at hab
      have e1 := arccos_le_of_sub_le (ε := 1 / S) a1 a2 (Real.neg_one_le_cos x) (Real.cos_le_one x) (by linarith)
      have e2 := arccos_le_of_sub_le (ε := 1 / S) (Real.neg_one_le_cos x) (Real.cos_le_one x) a1 a2 (by linarith)
      rw [Real.arccos_cos h0 h1] at e1 e2
      rw [abs_le]
      constructor <;> linarith
    have step : ∀ lo hi : ℕ, hi ≤ 2 * S → lo ≤ 2 * S →
        (|Real.arccos (((S + sqrtFloor (S * lo / 2) : ℕ) : ℝ) / S - 1) - Real.arccos ((lo : ℝ) / S - 1) / 2| ≤ ρ) ∧
        (|Real.arccos (((min (2 * S) (S + sqrtFloor (S * hi / 2) + 1) : ℕ) : ℝ) / S - 1) - Real.arccos ((hi : ℝ) / S - 1) / 2| ≤ ρ) ∧
        (|Real.arccos (((S - (sqrtFloor (S * hi / 2) + 1) : ℕ) : ℝ) / S - 1) - (Real.pi - Real.arccos ((hi : ℝ) / S - 1) / 2)| ≤ ρ) ∧
        (|Real.arccos (((S - sqrtFloor (S * lo / 2) : ℕ) : ℝ) / S - 1) - (Real.pi - Real.arccos ((lo : ℝ) / S - 1) / 2)| ≤ ρ) := by
      intro lo hi hhi hlo
      have l1 := sqrtFloor_half_le (S * lo)
      have l2 := sqrt_half_le (S * lo)
      have l3 := bnd lo hlo
      have h1 := sqrtFloor_half_le (S * hi)
      have h2 := sqrt_half_le (S * hi)
      have h3 := bnd hi hhi
      have hf : sqrtFloor (S * lo / 2) ≤ S := by exact_mod_cast l1.trans l3
      have hf' : sqrtFloor (S * hi / 2) ≤ S := by exact_mod_cast h1.trans h3
      refine ⟨key _ _ (by omega) ?_ (range lo).1 (range lo).2, key _ _ (min_le_left _ _) ?_ (range hi).1 (range hi).2,
        key _ _ (by omega) ?_ (by linarith [(range hi).2]) (by linarith [(range hi).1]),
        key _ _ (by omega) ?_ (by linarith [(range lo).2]) (by linarith [(range lo).1])⟩
      · rw [half lo hlo, show ((S + sqrtFloor (S * lo / 2) : ℕ) : ℝ) / S - 1 - Real.sqrt (((S * lo : ℕ) : ℝ) / 2) / S =
          (sqrtFloor (S * lo / 2) - Real.sqrt (((S * lo : ℕ) : ℝ) / 2)) / S by push_cast; field_simp; ring]
        rw [abs_div, abs_of_pos hS', div_le_div_iff_of_pos_right hS', abs_le]
        constructor <;> linarith
      · rw [half hi hhi, show ((min (2 * S) (S + sqrtFloor (S * hi / 2) + 1) : ℕ) : ℝ) / S - 1 - Real.sqrt (((S * hi : ℕ) : ℝ) / 2) / S =
          (min (S : ℝ) (sqrtFloor (S * hi / 2) + 1) - Real.sqrt (((S * hi : ℕ) : ℝ) / 2)) / S by
            push_cast
            rw [show (2 : ℝ) * S = S + S by ring, add_assoc, min_add_add_left]
            field_simp; ring]
        rw [abs_div, abs_of_pos hS', div_le_div_iff_of_pos_right hS', abs_le]
        constructor
        · have := le_min h3 h2; linarith
        · have := min_le_right (S : ℝ) (sqrtFloor (S * hi / 2) + 1); linarith
      · rw [Real.cos_pi_sub, half hi hhi]
        by_cases hb : sqrtFloor (S * hi / 2) + 1 ≤ S
        · rw [Nat.cast_sub hb, show ((S : ℝ) - (sqrtFloor (S * hi / 2) + 1 : ℕ)) / S - 1 - -(Real.sqrt (((S * hi : ℕ) : ℝ) / 2) / S) =
            (Real.sqrt (((S * hi : ℕ) : ℝ) / 2) - (sqrtFloor (S * hi / 2) + 1)) / S by push_cast; field_simp; ring]
          rw [abs_div, abs_of_pos hS', div_le_div_iff_of_pos_right hS', abs_le]
          constructor <;> linarith
        · have : sqrtFloor (S * hi / 2) = S := by omega
          rw [this, Nat.sub_eq_zero_of_le (by omega), show ((0 : ℕ) : ℝ) / S - 1 - -(Real.sqrt (((S * hi : ℕ) : ℝ) / 2) / S) =
            (Real.sqrt (((S * hi : ℕ) : ℝ) / 2) - S) / S by push_cast; field_simp; ring]
          rw [abs_div, abs_of_pos hS', div_le_div_iff_of_pos_right hS', abs_le]
          rw [this] at h1
          constructor <;> linarith
      · rw [Real.cos_pi_sub, half lo hlo, Nat.cast_sub hf, show ((S : ℝ) - (sqrtFloor (S * lo / 2) : ℕ)) / S - 1 - -(Real.sqrt (((S * lo : ℕ) : ℝ) / 2) / S) =
            (Real.sqrt (((S * lo : ℕ) : ℝ) / 2) - sqrtFloor (S * lo / 2)) / S by field_simp; ring]
        rw [abs_div, abs_of_pos hS', div_le_div_iff_of_pos_right hS', abs_le]
        constructor <;> linarith
    have ranges : ∀ n', n' ≤ den → (cosBounds S k n' den).2 ≤ 2 * S ∧ (cosBounds S k n' den).1 ≤ 2 * S := by
      intro n' hn'
      have := cosBounds_sound hS k n' den hd hn'
      have h12 : (cosBounds S k n' den).1 ≤ (cosBounds S k n' den).2 := by exact_mod_cast this.1.trans this.2.1
      exact ⟨this.2.2, h12.trans this.2.2⟩
    have e2 : Real.pi / 2 ^ (k + 1) = Real.pi / 2 ^ k / 2 := by rw [pow_succ, div_div]
    rw [cosBounds]
    split
    · rename_i h2
      have i := ih (2 * num) h2
      have r := ranges (2 * num) h2
      have s := step _ _ r.1 r.2
      unfold spread at i ⊢
      dsimp only
      have s1 := abs_le.1 s.1
      have s2 := abs_le.1 s.2.1
      rw [e2]
      linarith
    · have i := ih (2 * den - 2 * num) (by omega)
      have r := ranges (2 * den - 2 * num) (by omega)
      have s := step _ _ r.1 r.2
      unfold spread at i ⊢
      dsimp only
      have s1 := abs_le.1 s.2.2.1
      have s2 := abs_le.1 s.2.2.2
      rw [e2]
      linarith

theorem cos_sub_cos_le (a b : ℝ) (h : b ≤ a) : Real.cos b - Real.cos a ≤ a - b := by
  have := Real.abs_cos_sub_cos_le b a
  rw [abs_sub_comm b a, abs_of_nonneg (sub_nonneg.2 h)] at this
  exact (le_abs_self _).trans this

/-- The bounds of `k` steps at the scale that the comparison uses are no further apart than `4 / 2^k`. -/
theorem cosBounds_width (k num den : ℕ) (hd : 0 < den) (h : num ≤ den) :
    ((cosBounds (4 ^ (k + 4)) k num den).2 : ℝ) - (cosBounds (4 ^ (k + 4)) k num den).1 ≤ 4 / 2 ^ k * (4 ^ (k + 4) : ℕ) := by
  have hS : 0 < 4 ^ (k + 4) := by positivity
  have hS' : (0 : ℝ) < (4 ^ (k + 4) : ℕ) := by exact_mod_cast hS
  have sp := spread_le hS k num den hd h
  have so := cosBounds_sound hS k num den hd h
  set S := 4 ^ (k + 4) with hSdef
  have hlohi : ((cosBounds S k num den).1 : ℝ) ≤ (cosBounds S k num den).2 := so.1.trans so.2.1
  have hhi : ((cosBounds S k num den).2 : ℝ) ≤ 2 * S := by exact_mod_cast so.2.2
  have hlo0 : (0 : ℝ) ≤ (cosBounds S k num den).1 := Nat.cast_nonneg _
  unfold spread at sp
  have rng : ∀ x : ℝ, 0 ≤ x → x ≤ 2 * S → Real.cos (Real.arccos (x / S - 1)) = x / S - 1 := by
    intro x h0 h1
    refine Real.cos_arccos (by have : 0 ≤ x / S := by positivity
                               linarith) (by rw [sub_le_iff_le_add, div_le_iff₀ hS']; linarith)
  have hdiff := cos_sub_cos_le (Real.arccos (((cosBounds S k num den).1 : ℝ) / S - 1)) (Real.arccos (((cosBounds S k num den).2 : ℝ) / S - 1))
    (Real.arccos_le_arccos (by gcongr))
  rw [rng _ (hlo0.trans hlohi) hhi, rng _ hlo0 (hlohi.trans hhi)] at hdiff
  have hsq : Real.sqrt (1 / S / 2) ≤ 1 / (16 * 2 ^ k) := by
    rw [Real.sqrt_le_left (by positivity), hSdef]
    push_cast
    rw [div_pow, one_pow, mul_pow, pow_add, div_div]
    apply one_div_le_one_div_of_le (by positivity)
    have : (4 : ℝ) ^ k = (2 ^ k) ^ 2 := by rw [← pow_mul, mul_comm, pow_mul]; norm_num
    rw [this]
    nlinarith [sq_nonneg ((2 : ℝ) ^ k)]
  have hpi := Real.pi_pos
  have hpi4 : Real.pi < 3.15 := Real.pi_lt_d2
  have : Real.pi / 2 ^ k + 4 * (Real.pi * Real.sqrt (1 / S / 2)) ≤ 4 / 2 ^ k := by
    have h2 : (0 : ℝ) < 2 ^ k := by positivity
    have h1 : Real.pi * Real.sqrt (1 / S / 2) ≤ Real.pi * (1 / (16 * 2 ^ k)) := mul_le_mul_of_nonneg_left hsq hpi.le
    have e : Real.pi / 2 ^ k + 4 * (Real.pi * (1 / (16 * 2 ^ k))) = (5 / 4 * Real.pi) / 2 ^ k := by field_simp; ring
    calc _ ≤ Real.pi / 2 ^ k + 4 * (Real.pi * (1 / (16 * 2 ^ k))) := by linarith
      _ = (5 / 4 * Real.pi) / 2 ^ k := e
      _ ≤ 4 / 2 ^ k := by gcongr; linarith
  have h5 : ((cosBounds S k num den).2 : ℝ) / S - ((cosBounds S k num den).1 : ℝ) / S ≤ 4 / 2 ^ k := by linarith
  rw [← sub_div, div_le_iff₀ hS'] at h5
  exact h5

/-! ## The comparison -/

/-- The difference of the two sides of the comparison. -/
noncomputable def gap (n num den : ℕ) : ℝ :=
  (1 + Real.cos (Real.pi * num / den)) * (1 - Real.cos (2 * Real.pi / n)) - 2 * (1 - Real.cos (Real.pi / 30))

/-- A decided comparison is right, and an undecided one leaves a small difference. -/
theorem belowWithin_sound (k n num den : ℕ) (hn : 2 ≤ n) (hd : 0 < den) (h : num ≤ den) :
    (belowWithin k n num den = some true → 0 ≤ gap n num den) ∧ (belowWithin k n num den = some false → gap n num den < 0) ∧
      (belowWithin k n num den = none → |gap n num den| ≤ 24 / 2 ^ k) := by
  have hS : 0 < 4 ^ (k + 4) := by positivity
  have hS' : (0 : ℝ) < (4 ^ (k + 4) : ℕ) := by exact_mod_cast hS
  have sa := cosBounds_sound hS k num den hd h
  have sb := cosBounds_sound hS k 2 n (by omega) hn
  have sc := cosBounds_sound hS k 1 30 (by norm_num) (by norm_num)
  have wa := cosBounds_width k num den hd h
  have wb := cosBounds_width k 2 n (by omega) hn
  have wc := cosBounds_width k 1 30 (by norm_num) (by norm_num)
  unfold gap belowWithin
  dsimp only
  rw [show Real.pi * ((2 : ℕ) : ℝ) / n = 2 * Real.pi / n by push_cast; ring] at sb
  rw [show Real.pi * ((1 : ℕ) : ℝ) / (30 : ℕ) = Real.pi / 30 by push_cast; ring] at sc
  set S := 4 ^ (k + 4) with hSdef
  set a := cosBounds S k num den
  set b := cosBounds S k 2 n
  set c := cosBounds S k 1 30
  set x := Real.cos (Real.pi * num / den)
  set y := Real.cos (2 * Real.pi / n)
  set z := Real.cos (Real.pi / 30)
  have ca : (a.2 : ℝ) ≤ 2 * S := by exact_mod_cast sa.2.2
  have cb : (b.2 : ℝ) ≤ 2 * S := by exact_mod_cast sb.2.2
  have cc : (c.2 : ℝ) ≤ 2 * S := by exact_mod_cast sc.2.2
  have c1 : c.1 ≤ 2 * S := by
    have : (c.1 : ℝ) ≤ 2 * S := by linarith [sc.1, sc.2.1]
    exact_mod_cast this
  have b1 : b.1 ≤ 2 * S := by
    have : (b.1 : ℝ) ≤ 2 * S := by linarith [sb.1, sb.2.1]
    exact_mod_cast this
  have a0 : (0 : ℝ) ≤ a.1 := Nat.cast_nonneg _
  have b0 : (0 : ℝ) ≤ b.1 := Nat.cast_nonneg _
  have c0 : (0 : ℝ) ≤ c.1 := Nat.cast_nonneg _
  have e1 : 2 * S * (2 * S - c.1) ≤ a.1 * (2 * S - b.2) ↔ 2 * (S : ℝ) * (2 * S - c.1) ≤ a.1 * (2 * S - b.2) := by
    rw [← Nat.cast_le (α := ℝ)]; push_cast [Nat.cast_sub c1, Nat.cast_sub sb.2.2]; rfl
  have e2 : a.2 * (2 * S - b.1) < 2 * S * (2 * S - c.2) ↔ (a.2 : ℝ) * (2 * S - b.1) < 2 * S * (2 * S - c.2) := by
    rw [← Nat.cast_lt (α := ℝ)]; push_cast [Nat.cast_sub sc.2.2, Nat.cast_sub b1]; rfl
  have scale : (S : ℝ) ^ 2 * ((1 + x) * (1 - y) - 2 * (1 - z)) = (S * (1 + x)) * (2 * S - S * (1 + y)) - 2 * S * (2 * S - S * (1 + z)) := by ring
  set A := (S : ℝ) * (1 + x)
  set B := (S : ℝ) * (1 + y)
  set D := (S : ℝ) * (1 + z)
  obtain ⟨ha1, ha2, -⟩ := sa
  obtain ⟨hb1, hb2, -⟩ := sb
  obtain ⟨hc1, hc2, -⟩ := sc
  have hS2 : (0 : ℝ) < (S : ℝ) ^ 2 := by positivity
  have lowprod : (a.1 : ℝ) * (2 * S - b.2) ≤ A * (2 * S - B) := mul_le_mul ha1 (by linarith) (by linarith) (by linarith)
  have highprod : A * (2 * S - B) ≤ (a.2 : ℝ) * (2 * S - b.1) := mul_le_mul ha2 (by linarith) (by linarith) (by linarith)
  have ineq1 : 2 * S * (2 * S - D) ≤ 2 * (S : ℝ) * (2 * S - c.1) := by gcongr
  have ineq2 : 2 * (S : ℝ) * (2 * S - c.2) ≤ 2 * S * (2 * S - D) := by gcongr
  refine ⟨?_, ?_, ?_⟩
  · intro hh
    split at hh
    · rename_i hc
      rw [e1] at hc
      by_contra hneg
      push Not at hneg
      have := mul_neg_of_pos_of_neg hS2 hneg
      linarith
    · split at hh <;> cases hh
  · intro hh
    split at hh
    · cases hh
    · split at hh
      · rename_i hc
        rw [e2] at hc
        by_contra hneg
        push Not at hneg
        have := mul_nonneg hS2.le hneg
        linarith
      · cases hh
  · intro hh
    split at hh
    · cases hh
    · split at hh
      · cases hh
      · rename_i h1 h2
        rw [e1] at h1
        rw [e2] at h2
        push Not at h1 h2
        set W := 4 / 2 ^ k * (S : ℝ) with hW
        have hW0 : 0 ≤ W := by positivity
        have up : A * (2 * S - B) - (a.1 : ℝ) * (2 * S - b.2) ≤ 4 * S * W := by
          have : A * (2 * S - B) - (a.1 : ℝ) * (2 * S - b.2) = (A - a.1) * (2 * S - B) + a.1 * (b.2 - B) := by ring
          rw [this]
          have t1 : (A - a.1) * (2 * S - B) ≤ W * (2 * S) := mul_le_mul (by linarith) (by linarith) (by linarith) hW0
          have t2 : (a.1 : ℝ) * (b.2 - B) ≤ (2 * S) * W := mul_le_mul (by linarith) (by linarith) (by linarith) (by linarith)
          linarith
        have dn : (a.2 : ℝ) * (2 * S - b.1) - A * (2 * S - B) ≤ 4 * S * W := by
          have : (a.2 : ℝ) * (2 * S - b.1) - A * (2 * S - B) = (a.2 - A) * (2 * S - b.1) + A * (B - b.1) := by ring
          rw [this]
          have t1 : ((a.2 : ℝ) - A) * (2 * S - b.1) ≤ W * (2 * S) := mul_le_mul (by linarith) (by linarith) (by linarith) hW0
          have t2 : A * (B - b.1) ≤ (2 * S) * W := mul_le_mul (by linarith) (by linarith) (by linarith) (by linarith)
          linarith
        have r1 : 2 * (S : ℝ) * (2 * S - c.1) - 2 * S * (2 * S - D) ≤ 2 * S * W := by
          have : 2 * (S : ℝ) * (2 * S - c.1) - 2 * S * (2 * S - D) = 2 * S * (D - c.1) := by ring
          rw [this]; gcongr; linarith
        have r2 : 2 * (S : ℝ) * (2 * S - D) - 2 * S * (2 * S - c.2) ≤ 2 * S * W := by
          have : 2 * (S : ℝ) * (2 * S - D) - 2 * S * (2 * S - c.2) = 2 * S * (c.2 - D) := by ring
          rw [this]; gcongr; linarith
        have tot : (24 / 2 ^ k) * (S : ℝ) ^ 2 = 6 * S * W := by rw [hW]; ring
        rw [abs_le]
        constructor
        · have : -(24 / 2 ^ k) * (S : ℝ) ^ 2 ≤ S ^ 2 * ((1 + x) * (1 - y) - 2 * (1 - z)) := by rw [scale]; linarith
          refine le_of_mul_le_mul_left ?_ hS2
          linarith
        · have : S ^ 2 * ((1 + x) * (1 - y) - 2 * (1 - z)) ≤ (24 / 2 ^ k) * (S : ℝ) ^ 2 := by rw [scale]; linarith
          refine le_of_mul_le_mul_left ?_ hS2
          linarith

/-- A difference that is not zero is not small. -/
theorem gap_far (n num den : ℕ) (hn : 0 < n) (hd : 0 < den) (h : gap n num den ≠ 0) :
    1 ≤ |gap n num den| * (4 * 32 ^ (60 * n * den)) := by
  set N := 60 * n * den with hN
  have hN0 : 0 < N := by positivity
  set z := Complex.exp (2 * Real.pi * Complex.I / N) with hz
  have hzN : z ^ N = 1 := by
    rw [hz, ← Complex.exp_nat_mul, mul_div_cancel₀ _ (by exact_mod_cast hN0.ne'), Complex.exp_two_pi_mul_I]
  have hcos : ∀ (p : ℕ) (x : ℝ), 2 * Real.pi * p / N = x → z ^ p + z⁻¹ ^ p = ((2 * Real.cos x : ℝ) : ℂ) := by
    intro p x hx
    have e : z ^ p = Complex.exp (x * Complex.I) := by
      rw [hz, ← Complex.exp_nat_mul, ← hx]
      congr 1
      push_cast
      ring
    rw [inv_pow, e, ← Complex.exp_neg, Complex.ofReal_mul, Complex.ofReal_cos, Complex.ofReal_ofNat, Complex.two_cos, neg_mul]
  have hn' : (n : ℝ) ≠ 0 := by exact_mod_cast hn.ne'
  have hd' : (den : ℝ) ≠ 0 := by exact_mod_cast hd.ne'
  have cp := hcos (30 * n * num) (Real.pi * num / den) (by rw [hN]; push_cast; field_simp; norm_num; ring)
  have cq := hcos (60 * den) (2 * Real.pi / n) (by rw [hN]; push_cast; field_simp)
  have cr := hcos (n * den) (Real.pi / 30) (by rw [hN]; push_cast; field_simp; norm_num)
  have key := rootsOfUnity_far N (30 * n * num) (60 * den) (n * den) hN0 z hzN
  dsimp only at key
  rw [add_assoc, sub_sub, sub_sub, cp, cq, cr] at key
  have e : (2 + ((2 * Real.cos (Real.pi * num / den) : ℝ) : ℂ)) * (2 - ((2 * Real.cos (2 * Real.pi / n) : ℝ) : ℂ)) -
      4 * (2 - ((2 * Real.cos (Real.pi / 30) : ℝ) : ℂ)) = ((4 * gap n num den : ℝ) : ℂ) := by
    unfold gap
    push_cast
    ring
  rw [e] at key
  have := key (by exact_mod_cast mul_ne_zero (by norm_num) h)
  rw [Complex.norm_real, Real.norm_eq_abs, abs_mul, abs_of_pos (by norm_num : (0:ℝ) < 4)] at this
  linarith

/-- The repeated comparison is right where its last turn has steps enough for the least difference. -/
theorem belowFrom_sound (n num den : ℕ) (hn : 2 ≤ n) (hd : 0 < den) (h : num ≤ den) (fuel k : ℕ)
    (hk : 0 < fuel → 300 * (n * den) + 7 ≤ k * 2 ^ (fuel - 1)) :
    (belowFrom n num den fuel k = false → gap n num den < 0) ∧ (belowFrom n num den fuel k = true → 0 < fuel → 0 ≤ gap n num den) := by
  induction fuel generalizing k with
  | zero => exact ⟨fun h => (by cases h), fun _ h => absurd h (by omega)⟩
  | succ fuel ih =>
    have hs := belowWithin_sound k n num den hn hd h
    rw [belowFrom]
    cases hb : belowWithin k n num den with
    | some b =>
      cases b
      · exact ⟨fun _ => hs.2.1 hb, fun h => (by cases h)⟩
      · exact ⟨fun h => (by cases h), fun _ _ => hs.1 hb⟩
    | none =>
      dsimp only
      by_cases hf : fuel = 0
      · subst hf
        rw [belowFrom]
        refine ⟨fun h => (by cases h), fun _ _ => ?_⟩
        have hb' := hs.2.2 hb
        by_contra hneg
        push Not at hneg
        have far := gap_far n num den (by omega) hd hneg.ne
        have hk' := hk (by omega)
        simp only [Nat.zero_add, Nat.sub_self, pow_zero, mul_one] at hk'
        have h2 : |gap n num den| * (4 * 32 ^ (60 * n * den)) ≤ 24 / 2 ^ k * (4 * 32 ^ (60 * n * den)) :=
          mul_le_mul_of_nonneg_right hb' (by positivity)
        have h3 : (24 : ℝ) / 2 ^ k * (4 * 32 ^ (60 * n * den)) < 1 := by
          rw [div_mul_eq_mul_div, div_lt_one (by positivity)]
          have e : (32 : ℝ) ^ (60 * n * den) = 2 ^ (300 * (n * den)) := by
            rw [show (32 : ℝ) = 2 ^ 5 by norm_num, ← pow_mul]
            congr 1
            ring
          rw [e]
          calc (24 : ℝ) * (4 * 2 ^ (300 * (n * den))) < 2 ^ 7 * 2 ^ (300 * (n * den)) := by
                have : (0:ℝ) < 2 ^ (300 * (n * den)) := by positivity
                nlinarith
            _ = 2 ^ (300 * (n * den) + 7) := by rw [← pow_add, add_comm]
            _ ≤ 2 ^ k := pow_le_pow_right₀ (by norm_num) hk'
        linarith
      · have := ih (2 * k) (by
          intro _
          have := hk (by omega)
          rw [show fuel + 1 - 1 = (fuel - 1) + 1 by omega, pow_succ] at this
          calc _ ≤ _ := this
            _ = _ := by ring)
        exact ⟨this.1, fun h' _ => this.2 h' (by omega)⟩

/-- `cosAtLeast` decides its comparison exactly. -/
theorem cosAtLeast_iff (n num den : ℕ) (hn : 2 ≤ n) (hd : 0 < den) (h : num ≤ den) :
    cosAtLeast n num den = true ↔
      2 * (1 - Real.cos (Real.pi / 30)) ≤ (1 + Real.cos (Real.pi * num / den)) * (1 - Real.cos (2 * Real.pi / n)) := by
  have hs := belowFrom_sound n num den hn hd h ((n * den).log2 + 10) 64 (by
    intro _
    have h1 : n * den < 2 ^ ((n * den).log2 + 1) := Nat.lt_log2_self
    rw [show (n * den).log2 + 10 - 1 = (n * den).log2 + 1 + 8 by omega, pow_add]
    have h0 : 0 < n * den := by positivity
    omega)
  have hg : 0 ≤ gap n num den ↔
      2 * (1 - Real.cos (Real.pi / 30)) ≤ (1 + Real.cos (Real.pi * num / den)) * (1 - Real.cos (2 * Real.pi / n)) := by
    unfold gap; exact sub_nonneg
  rw [← hg]
  constructor
  · exact fun h => hs.2 h (by omega)
  · intro h'
    by_contra hc
    have := hs.1 (by rw [← Bool.not_eq_true]; exact hc)
    linarith

end Sys2Proof.Machine
end

