-- ==== Sys2Proof/Laws/Memory.lean ====
section
/-! SUPPORT. What the memory operations do (R8, R47, R49): reading what was written, leaving the rest alone, and keeping the
canonical form. -/

namespace Sys2Proof.Machine

set_option Elab.async false

variable {α : Type}

/-! ## Reading -/

@[simp] theorem Mem.read?_nil (a : Nat) : Mem.read? ([] : Mem α) a = none := rfl

theorem Mem.read?_cons (p : Nat × α) (m : Mem α) (a : Nat) :
    Mem.read? (p :: m) a = if p.1 = a then some p.2 else Mem.read? m a := rfl

/-- A read gives an entry that is listed. -/
theorem Mem.mem_of_read? {m : Mem α} {a : Nat} {v : α} (h : Mem.read? m a = some v) : (a, v) ∈ m := by
  induction m with
  | nil => simp at h
  | cons p rest ih =>
    rw [Mem.read?_cons] at h
    split at h
    · rename_i hp
      simp only [Option.some.injEq] at h
      subst hp h
      exact List.mem_cons_self
    · exact List.mem_cons_of_mem _ (ih h)

/-- An address that no entry has reads as never written. -/
theorem Mem.read?_eq_none {m : Mem α} {a : Nat} (h : ∀ p ∈ m, p.1 ≠ a) : Mem.read? m a = none := by
  cases hr : Mem.read? m a with
  | none => rfl
  | some v => exact absurd rfl (h _ (Mem.mem_of_read? hr))

/-- In canonical form every listed entry is the one that is read. -/
theorem Mem.read?_of_mem {m : Mem α} (hw : Mem.Wf m) {a : Nat} {v : α} (h : (a, v) ∈ m) : Mem.read? m a = some v := by
  induction m with
  | nil => simp at h
  | cons p rest ih =>
    simp only [Mem.Wf, List.map_cons, List.pairwise_cons, List.mem_map] at hw
    rw [Mem.read?_cons]
    rcases List.mem_cons.mp h with rfl | hmem
    · simp
    · have := hw.1 a ⟨_, hmem, rfl⟩
      rw [if_neg (by omega)]
      exact ih hw.2 hmem

/-- Two lists read one after the other. -/
theorem Mem.read?_append (m n : Mem α) (a : Nat) :
    Mem.read? (m ++ n) a = (Mem.read? m a).or (Mem.read? n a) := by
  induction m with
  | nil => simp
  | cons p rest ih =>
    simp only [List.cons_append, Mem.read?_cons, ih]
    split <;> simp

/-! ## Writing one entry -/

@[simp] theorem Mem.read?_write_same (m : Mem α) (a : Nat) (v : α) : Mem.read? (Mem.write m a v) a = some v := by
  induction m with
  | nil => simp [Mem.write, Mem.read?_cons]
  | cons p rest ih =>
    simp only [Mem.write]
    split
    · rw [Mem.read?_cons, if_neg (by omega), ih]
    · split <;> simp [Mem.read?_cons]

theorem Mem.read?_write_other (m : Mem α) {a b : Nat} (v : α) (h : b ≠ a) :
    Mem.read? (Mem.write m a v) b = Mem.read? m b := by
  induction m with
  | nil => simp [Mem.write, Mem.read?_cons, Ne.symm h]
  | cons p rest ih =>
    simp only [Mem.write]
    split
    · simp only [Mem.read?_cons, ih]
    · split
      · rename_i hp
        simp [Mem.read?_cons, Ne.symm h, hp]
      · simp [Mem.read?_cons, Ne.symm h]

/-- The entries after a write: the new one, and entries that were there. -/
theorem Mem.mem_write {m : Mem α} {a : Nat} {v : α} {p : Nat × α} (h : p ∈ Mem.write m a v) : p = (a, v) ∨ p ∈ m := by
  induction m with
  | nil => simpa [Mem.write] using h
  | cons q rest ih =>
    simp only [Mem.write] at h
    split at h
    · rcases List.mem_cons.mp h with rfl | h
      · simp
      · rcases ih h with h | h
        · exact .inl h
        · exact .inr (List.mem_cons_of_mem _ h)
    · split at h
      · rcases List.mem_cons.mp h with rfl | h
        · exact .inl rfl
        · exact .inr (List.mem_cons_of_mem _ h)
      · rcases List.mem_cons.mp h with rfl | h
        · exact .inl rfl
        · exact .inr h

/-- A write keeps the canonical form. -/
theorem Mem.wf_write {m : Mem α} (hw : Mem.Wf m) (a : Nat) (v : α) : Mem.Wf (Mem.write m a v) := by
  induction m with
  | nil => simp [Mem.write, Mem.Wf]
  | cons q rest ih =>
    have hw' := hw
    simp only [Mem.Wf, List.map_cons, List.pairwise_cons, List.mem_map] at hw
    simp only [Mem.write]
    split
    · rename_i hq
      simp only [Mem.Wf, List.map_cons, List.pairwise_cons, List.mem_map]
      refine ⟨?_, ih hw.2⟩
      rintro b ⟨p, hp, rfl⟩
      rcases Mem.mem_write hp with rfl | hp
      · exact hq
      · exact hw.1 _ ⟨p, hp, rfl⟩
    · split
      · rename_i hq
        simp only [Mem.Wf, List.map_cons, List.pairwise_cons, List.mem_map]
        exact ⟨fun b hb => hq ▸ hw.1 b hb, hw.2⟩
      · refine List.pairwise_cons.mpr ⟨fun b hb => ?_, hw'⟩
        obtain ⟨p, hp, rfl⟩ := List.mem_map.mp hb
        rcases List.mem_cons.mp hp with rfl | hp
        · show a < p.1
          omega
        · have := hw.1 _ ⟨p, hp, rfl⟩
          omega

/-- A write inside the bound keeps the bound. -/
theorem Mem.below_write {n : Nat} {m : Mem α} (hb : Mem.Below n m) {a : Nat} (v : α) (ha : a < n) :
    Mem.Below n (Mem.write m a v) := by
  intro p hp
  rcases Mem.mem_write hp with rfl | hp
  · exact ha
  · exact hb p hp

/-! ## Consecutive entries -/

theorem Mem.read?_number (vs : List α) (base a : Nat) :
    Mem.read? (Mem.number base vs) a = if base ≤ a then vs[a - base]? else none := by
  induction vs generalizing base with
  | nil => simp [Mem.number]
  | cons v rest ih =>
    rw [Mem.number, Mem.read?_cons, ih]
    by_cases h : base = a
    · subst h
      simp
    · by_cases hb : base ≤ a
      · rw [if_neg h, if_pos (by omega), if_pos hb, show a - base = (a - (base + 1)) + 1 by omega,
          List.getElem?_cons_succ]
      · rw [if_neg h, if_neg (by omega), if_neg hb]

theorem Mem.mem_number {vs : List α} {base : Nat} {p : Nat × α} (h : p ∈ Mem.number base vs) :
    base ≤ p.1 ∧ p.1 < base + vs.length := by
  induction vs generalizing base with
  | nil => simp [Mem.number] at h
  | cons v rest ih =>
    rw [Mem.number] at h
    rcases List.mem_cons.mp h with rfl | h
    · simp
    · have := ih h
      simp only [List.length_cons]
      omega

theorem Mem.wf_number (vs : List α) (base : Nat) : Mem.Wf (Mem.number base vs) := by
  induction vs generalizing base with
  | nil => simp [Mem.number, Mem.Wf]
  | cons v rest ih =>
    simp only [Mem.Wf, Mem.number, List.map_cons, List.pairwise_cons, List.mem_map]
    refine ⟨?_, ih (base + 1)⟩
    rintro b ⟨p, hp, rfl⟩
    have := Mem.mem_number hp
    omega

/-! ## A refill -/

/-- After a refill the new values are read below their count, and every entry above it as before (R135). -/
theorem Mem.read?_load (vs : List α) (m : Mem α) (a : Nat) :
    Mem.read? (Mem.load vs m) a = if a < vs.length then vs[a]? else Mem.read? m a := by
  have hfilter : Mem.read? (m.filter fun p => decide (vs.length ≤ p.1)) a =
      if a < vs.length then none else Mem.read? m a := by
    induction m with
    | nil => simp
    | cons p rest ih =>
      by_cases hp : vs.length ≤ p.1
      · rw [List.filter_cons_of_pos (by simpa using hp)]
        simp only [Mem.read?_cons, ih]
        by_cases ha : a < vs.length
        · simp [ha, show p.1 ≠ a by omega]
        · simp [ha]
      · rw [List.filter_cons_of_neg (by simpa using hp), ih]
        by_cases ha : a < vs.length
        · simp [ha]
        · simp [ha, Mem.read?_cons, show p.1 ≠ a by omega]
  rw [Mem.load, Mem.read?_append, Mem.read?_number, hfilter]
  by_cases ha : a < vs.length
  · simp [ha]
  · simp [ha]

/-- A refill keeps the canonical form. -/
theorem Mem.wf_load (vs : List α) {m : Mem α} (hw : Mem.Wf m) : Mem.Wf (Mem.load vs m) := by
  rw [Mem.Wf, Mem.load, List.map_append, List.pairwise_append]
  refine ⟨Mem.wf_number vs 0, ?_, ?_⟩
  · exact List.Pairwise.sublist (List.Sublist.map _ List.filter_sublist) hw
  · intro a ha b hb
    simp only [List.mem_map, List.mem_filter, decide_eq_true_eq] at ha hb
    obtain ⟨p, hp, rfl⟩ := ha
    obtain ⟨q, ⟨-, hq⟩, rfl⟩ := hb
    have := Mem.mem_number hp
    omega

/-- A refill of no more than `n` values keeps the bound `n`. -/
theorem Mem.below_load {n : Nat} {vs : List α} {m : Mem α} (hv : vs.length ≤ n) (hb : Mem.Below n m) :
    Mem.Below n (Mem.load vs m) := by
  intro p hp
  rw [Mem.load, List.mem_append] at hp
  rcases hp with hp | hp
  · have := Mem.mem_number hp
    omega
  · exact hb p (List.mem_filter.mp hp).1

/-! ## Eviction -/

/-- Keeping the entries that satisfy a test keeps the canonical form. -/
theorem Mem.wf_keep (test : α → Bool) {m : Mem α} (hw : Mem.Wf m) : Mem.Wf (Mem.keep test m) :=
  List.Pairwise.sublist (List.Sublist.map _ List.filter_sublist) hw

/-- In canonical form an entry is kept exactly when it satisfies the test, and reads as before. -/
theorem Mem.read?_keep (test : α → Bool) {m : Mem α} (hw : Mem.Wf m) (a : Nat) :
    Mem.read? (Mem.keep test m) a = (Mem.read? m a).filter test := by
  induction m with
  | nil => simp [Mem.keep]
  | cons p rest ih =>
    have hne : ∀ q ∈ rest, p.1 < q.1 := by
      simp only [Mem.Wf, List.map_cons, List.pairwise_cons, List.mem_map] at hw
      exact fun q hq => hw.1 _ ⟨q, hq, rfl⟩
    have ih := ih (by
      simp only [Mem.Wf, List.map_cons, List.pairwise_cons] at hw
      exact hw.2)
    simp only [Mem.keep] at ih ⊢
    by_cases ht : test p.2
    · rw [List.filter_cons_of_pos (p := fun p : Nat × α => test p.2) ht]
      simp only [Mem.read?_cons, ih]
      split
      · exact (Option.filter_some_pos ht).symm
      · rfl
    · rw [List.filter_cons_of_neg (p := fun p : Nat × α => test p.2) ht]
      simp only [Mem.read?_cons, ih]
      split
      · rename_i hp
        rw [Mem.read?_eq_none fun q hq => by have := hne q hq; omega]
        exact (Option.filter_some_neg (by simpa using ht)).symm
      · rfl

end Sys2Proof.Machine
end

