-- ==== Sys2Proof/Laws/Crc.lean ====
section
/-! SUPPORT. The CRC unit with a built table (R53, R101, R102), and one byte of the table-driven loop. -/

namespace Sys2Proof.Machine

set_option Elab.async false

/-- Every entry of a table that was built is the bitwise CRC of its index (R101). -/
theorem Crc24.Built.entry {crc : Crc24} (h : crc.Built) (i : BitVec 8) : crc.entry i = crcBitwise crc.generator [i] := by
  have hi : i.toNat < 256 := i.isLt
  have hlen : (crcEntries crc.generator).length = 256 := by simp [crcEntries]
  have hread : Mem.read? crc.table i.toNat = some (crcBitwise crc.generator [i]) := by
    rw [h, crcTableOf, Mem.read?_load, if_pos (by rw [hlen]; exact hi), crcEntries, List.getElem?_map, List.getElem?_range hi]
    simp
  rw [Crc24.entry, hread, Option.getD_some]

/-- Building the table for a generator leaves a built table. -/
theorem Crc24.built_crcTableOf (generator r : BitVec 24) : Crc24.Built ⟨generator, crcTableOf generator, r⟩ := rfl

end Sys2Proof.Machine
end

