-- ==== Sys2Proof/Laws/Sources.lean ====
section
/-! SUPPORT. What one `SrcRead` does (R41): to its own source, and to the list of the host's sources; and when a unit is constructed on
a source (R300). -/

namespace Sys2Proof.Machine

set_option Elab.async false

variable (n : Nat) (src : ByteSource)

/-! ## One source -/

/-- Once a read has been short, a read returns the empty string (R41 (ii)). -/
theorem readSource_of_ended (h : src.ended = true) : readSource n src = (.ok [], { src with calls := src.calls + 1 }) := by
  simp [readSource, h]

/-- A read that does not fail delivers the next bytes, as many as are left, and moves the cursor past them; it is short if
there are fewer than it asks for. -/
theorem readSource_of_find_none (he : src.ended = false)
    (h : (src.failures.find? fun f => f.atCall == src.calls) = none) :
    readSource n src = (.ok ((src.bytes.drop src.cursor).take n),
      { src with
        calls := src.calls + 1
        cursor := src.cursor + min n (src.bytes.length - src.cursor)
        ended := decide (src.bytes.length - src.cursor < n) }) := by
  have : (min n (src.bytes.length - src.cursor) < n) = (src.bytes.length - src.cursor < n) := by
    rw [eq_iff_iff]
    omega
  simp [readSource, he, h, this]

/-- A read that fails reports what the source reports. -/
theorem readSource_of_find_some (he : src.ended = false) {f : IoFailure}
    (h : (src.failures.find? fun f => f.atCall == src.calls) = some f) :
    readSource n src = (.error (Error.io f.info),
      { src with
        calls := src.calls + 1
        cursor := min (src.cursor + min f.consumed n) src.bytes.length }) := by
  simp [readSource, he, h]

/-- What a read can be: the empty string of a source that has ended, the next bytes, or an `IoError`. -/
theorem readSource_cases :
    (src.ended = true ∧ (readSource n src).1 = .ok [] ∧ (readSource n src).2 = { src with calls := src.calls + 1 }) ∨
    (src.ended = false ∧ (readSource n src).1 = .ok ((src.bytes.drop src.cursor).take n) ∧
      (readSource n src).2.cursor = src.cursor + min n (src.bytes.length - src.cursor) ∧
      (readSource n src).2.ended = decide (src.bytes.length - src.cursor < n)) ∨
    (src.ended = false ∧ ∃ info, (readSource n src).1 = .error (Error.io info) ∧ (readSource n src).2.ended = false ∧
      ∃ consumed, (readSource n src).2.cursor = min (src.cursor + consumed) src.bytes.length) := by
  cases he : src.ended with
  | true => exact .inl (by rw [readSource_of_ended n src he]; exact ⟨rfl, rfl, by rw [← he]⟩)
  | false =>
    cases h : src.failures.find? fun f => f.atCall == src.calls with
    | none => exact .inr (.inl (by rw [readSource_of_find_none n src he h]; exact ⟨rfl, rfl, rfl, rfl⟩))
    | some f => exact .inr (.inr ⟨rfl, f.info, by rw [readSource_of_find_some n src he h]; exact ⟨rfl, he, _, rfl⟩⟩)

@[simp] theorem readSource_bytes : (readSource n src).2.bytes = src.bytes := by
  unfold readSource
  repeat' split
  all_goals rfl

@[simp] theorem readSource_failures : (readSource n src).2.failures = src.failures := by
  unfold readSource
  repeat' split
  all_goals rfl

@[simp] theorem readSource_calls : (readSource n src).2.calls = src.calls + 1 := by
  unfold readSource
  repeat' split
  all_goals rfl

/-- A read never goes back, and never beyond the stream. -/
theorem readSource_cursor (h : src.cursor ≤ src.bytes.length) :
    src.cursor ≤ (readSource n src).2.cursor ∧ (readSource n src).2.cursor ≤ src.bytes.length := by
  rcases readSource_cases n src with ⟨-, -, hc⟩ | ⟨-, -, hc, -⟩ | ⟨-, -, -, -, _, hc⟩
  · rw [hc]
    exact ⟨le_refl _, h⟩
  all_goals rw [hc]; omega

/-- A source that has ended stays ended. -/
theorem readSource_ended (h : src.ended = true) : (readSource n src).2.ended = true := by
  rw [readSource_of_ended n src h]
  exact h

/-- An error of a read is an `IoError`. -/
theorem readSource_error {e : Error} (h : (readSource n src).1 = .error e) : e.code = .ioError := by
  rcases readSource_cases n src with ⟨-, hok, -⟩ | ⟨-, hok, -⟩ | ⟨-, info, he, -⟩
  · rw [hok] at h
    cases h
  · rw [hok] at h
    cases h
  · rw [he] at h
    cases h
    rfl

/-- The bytes of a read that succeeds are those at the cursor, and the cursor moves past them; a short read ends the source
(R41 (i), (ii)). -/
theorem readSource_ok {bs : List Byte} (h : (readSource n src).1 = .ok bs) :
    bs = (src.bytes.drop src.cursor).take bs.length ∧ bs.length ≤ n ∧
      (readSource n src).2.cursor = src.cursor + bs.length ∧ (bs.length < n → (readSource n src).2.ended = true) := by
  rcases readSource_cases n src with ⟨he, hok, hs⟩ | ⟨-, hok, hc, hs⟩ | ⟨-, info, he, -⟩
  · rw [hok] at h
    cases h
    rw [hs]
    exact ⟨by simp, Nat.zero_le _, rfl, fun _ => he⟩
  · rw [hok] at h
    cases h
    rw [hc, hs]
    simp only [List.length_take, List.length_drop, decide_eq_true_eq]
    refine ⟨?_, by omega, trivial, by omega⟩
    rw [List.take_eq_take_iff, List.length_drop]
    omega
  · rw [he] at h
    cases h

/-! ## The list of sources -/

variable (handle : Nat) (sources : List ByteSource)

theorem sourceAt_of_getElem? {src : ByteSource} (h : sources[handle]? = some src) : sourceAt sources handle = src := by
  simp [sourceAt, List.getD, h]

theorem srcRead_result : (srcRead n handle sources).1 = (readSource n (sourceAt sources handle)).1 := rfl

/-- A read changes the source that it reads and no other. -/
theorem srcRead_sources (k : Nat) :
    (srcRead n handle sources).2[k]? =
      if k = handle then sources[k]?.map fun src => (readSource n src).2 else sources[k]? := by
  rw [srcRead, List.getElem?_set]
  by_cases hk : k = handle
  · subst hk
    by_cases hlt : k < sources.length
    · simp [hlt, sourceAt, List.getD]
    · simp [hlt]
  · simp [hk, Ne.symm hk]

@[simp] theorem srcRead_length : (srcRead n handle sources).2.length = sources.length := by simp [srcRead]

theorem srcRead_sources_of_some {src : ByteSource} (h : sources[handle]? = some src) :
    (srcRead n handle sources).2 = sources.set handle (readSource n src).2 := by
  rw [srcRead, sourceAt_of_getElem? handle sources h]

/-! ## One reader -/

variable (s : State) (u : StreamUnit)

theorem State.sourceInUse_iff :
    s.sourceInUse u handle = true ↔ ∃ v, v ≠ u ∧ s.mayRead v = true ∧ s.sourceOf v = handle := by
  rw [State.sourceInUse, List.any_eq_true]
  refine exists_congr fun v => ?_
  have : v ∈ [StreamUnit.sd, .pc, .pw, .dm] := by cases v <;> decide
  simp only [this, true_and, Bool.and_eq_true, bne_iff_ne, beq_iff_eq, and_assoc]

/-- Where no two units that may still read have one source, a unit's own source is free for it. -/
theorem State.sourceInUse_own (h : ∀ v w, v ≠ w → s.mayRead v = true → s.mayRead w = true → s.sourceOf v ≠ s.sourceOf w)
    (hu : s.mayRead u = true) : s.sourceInUse u (s.sourceOf u) = false := by
  rw [← Bool.not_eq_true, State.sourceInUse_iff]
  rintro ⟨v, hne, hv, hs⟩
  exact h v u hne hv hu hs

/-- What a construction on a source can be. -/
theorem withOwnSource_cases (construct : State → Answer) :
    (s.sourceInUse u handle = true ∧ withOwnSource u handle construct s = .refused (.sourceInUse handle)) ∨
    (s.sourceInUse u handle = false ∧ withOwnSource u handle construct s = construct s) := by
  cases h : s.sourceInUse u handle <;> simp [withOwnSource, h]

/-- A construction that succeeds has its source for itself. -/
theorem withOwnSource_next {construct : State → Answer} {t : State} (h : withOwnSource u handle construct s = .next t) :
    s.sourceInUse u handle = false ∧ construct s = .next t := by
  rcases withOwnSource_cases handle s u construct with ⟨-, he⟩ | ⟨hf, he⟩ <;> rw [he] at h
  · cases h
  · exact ⟨hf, h⟩

end Sys2Proof.Machine
end

