-- ==== Sys2Proof/Laws/FrontEnd.lean ====
section
/-! SUPPORT. What the front end does (42_sample_power.md): the samples of a byte string, the FIR history, and one batch read
of the sample decoder and of the power computer. -/

namespace Sys2Proof.Machine

set_option Elab.async false

/-! ## Samples -/

/-- Two bytes make one sample, and an odd trailing byte none (R111). -/
@[simp] theorem samplesOf_length (bytes : List Byte) : (samplesOf bytes).length = bytes.length / 2 := by
  fun_induction samplesOf bytes with
  | case1 b0 b1 rest ih =>
    simp only [List.length_cons, ih]
    omega
  | case2 bytes h =>
    match bytes, h with
    | [], _ => rfl
    | [_], _ => exact (Nat.div_eq_of_lt (by decide : 1 < 2)).symm
    | b0 :: b1 :: rest, h => exact absurd rfl (h b0 b1 rest)

/-- Sample `k` comes from the bytes `2k` and `2k + 1` (R42, R111). -/
theorem samplesOf_getElem? (bytes : List Byte) (k : Nat) (h : 2 * k + 1 < bytes.length) :
    (samplesOf bytes)[k]? = some (decodeSampleBytes (bytes.getD (2 * k) 0#8) (bytes.getD (2 * k + 1) 0#8)) := by
  induction k generalizing bytes with
  | zero =>
    match bytes, h with
    | b0 :: b1 :: rest, _ => rfl
  | succ k ih =>
    match bytes, h with
    | b0 :: b1 :: rest, h =>
      have := ih rest (by simp only [List.length_cons] at h; omega)
      simpa [samplesOf, Nat.mul_add] using this

/-! ## The FIR history -/

theorem History.tap_eq (f : History) (k : Fin 8) : f.tap k = (f.h[(f.t - k).val]).toInt := rfl

/-- The sample just written is the most recent one (R115). -/
@[simp] theorem History.tap_push_zero (f : History) (x : Sample) : (f.push x).tap 0 = x.toInt := by
  rw [History.tap_eq]
  simp only [History.push, sub_zero, Vector.getElem_set_self]

/-- Writing a sample makes every earlier one a place older (R115, R116). -/
theorem History.tap_push_succ (f : History) (x : Sample) (k : Fin 8) (hk : k ≠ 7) :
    (f.push x).tap (k + 1) = f.tap k := by
  have h1 : f.t + 1 - (k + 1) = f.t - k := add_sub_add_right_eq_sub ..
  have hne : ∀ t k : Fin 8, k ≠ 7 → (t + 1).val ≠ (t - k).val := by decide
  rw [History.tap_eq, History.tap_eq]
  simp only [History.push, h1]
  rw [Vector.getElem_set_ne _ _ (hne f.t k hk)]

/-- Induction over the I/Q pairs of a list of samples. -/
theorem samplesPairs {motive : List Sample → Prop} (samples : List Sample) (nil : motive [])
    (single : ∀ x, motive [x]) (pair : ∀ i q rest, motive rest → motive (i :: q :: rest)) : motive samples :=
  match samples with
  | [] => nil
  | [x] => single x
  | i :: q :: rest => pair i q rest (samplesPairs rest nil single pair)

/-- Two samples make one power value (R115). -/
@[simp] theorem History.run_length (f : History) (samples : List Sample) :
    (f.run samples).1.length = samples.length / 2 := by
  induction samples using samplesPairs generalizing f with
  | nil => rfl
  | single _ => exact (Nat.div_eq_of_lt (by decide : 1 < 2)).symm
  | pair i q rest ih =>
    rw [History.run, List.length_cons, ih, List.length_cons, List.length_cons]
    omega

/-- A run on samples that come in whole pairs goes on where it stopped (R115, R118). -/
theorem History.run_append (f : History) (a b : List Sample) (h : a.length % 2 = 0) :
    f.run (a ++ b) = ((f.run a).1 ++ ((f.run a).2.run b).1, ((f.run a).2.run b).2) := by
  induction a using samplesPairs generalizing f with
  | nil => rfl
  | single _ => simp at h
  | pair i q rest ih =>
    rw [List.cons_append, List.cons_append, History.run, History.run, ih _ (by simp only [List.length_cons] at h; omega)]
    rfl

/-! ## One batch -/

/-- What a batch read of a power computer can be: the power values of the samples that one `SrcRead` delivers, with the
history moved on; or an `IoError`, with the computer as it was (R115, R258 (c)). -/
theorem PowerComputer.readBatch_cases (c : PowerComputer) (sources : List ByteSource) :
    (∃ bytes, (srcRead (2 * c.decoder.batch) c.decoder.source sources).1 = .ok bytes ∧
      c.readBatch sources =
        (.ok ((c.history.run (samplesOf bytes)).1, { c with history := (c.history.run (samplesOf bytes)).2 }),
          (srcRead (2 * c.decoder.batch) c.decoder.source sources).2)) ∨
    (∃ e, (srcRead (2 * c.decoder.batch) c.decoder.source sources).1 = .error e ∧ e.code = .ioError ∧
      c.readBatch sources = (.error e, (srcRead (2 * c.decoder.batch) c.decoder.source sources).2)) := by
  cases h : (srcRead (2 * c.decoder.batch) c.decoder.source sources).1 with
  | ok bytes => exact .inl ⟨bytes, rfl, by simp [PowerComputer.readBatch, SampleDecoder.readBatch, h, Except.map]⟩
  | error e =>
    refine .inr ⟨e, rfl, readSource_error _ _ h, ?_⟩
    simp [PowerComputer.readBatch, SampleDecoder.readBatch, h, Except.map]

/-- A batch read is one `SrcRead` of two bytes a sample (R50, R111). -/
theorem PowerComputer.readBatch_sources (c : PowerComputer) (sources : List ByteSource) :
    (c.readBatch sources).2 = (srcRead (2 * c.decoder.batch) c.decoder.source sources).2 := rfl

/-- A batch never holds more values than a batch's size (R115). -/
theorem PowerComputer.readBatch_length_le (c : PowerComputer) (sources : List ByteSource) {powers : List Power}
    {c' : PowerComputer} (h : (c.readBatch sources).1 = .ok (powers, c')) : powers.length ≤ c.decoder.batch / 2 := by
  rcases c.readBatch_cases sources with ⟨bytes, hb, hr⟩ | ⟨e, -, -, hr⟩
  · rw [hr] at h
    cases h
    have := (readSource_ok _ _ hb).2.1
    rw [History.run_length, samplesOf_length]
    omega
  · rw [hr] at h
    cases h

end Sys2Proof.Machine
end

