-- ==== Sys2Proof/Laws/State.lean ====
section
/-! SUPPORT. One lemma per field for every update of the state and of its parts, so that no proof unfolds an update. -/

namespace Sys2Proof.Machine

set_option Elab.async false

variable (r : Response) (s : State)

/-! ## The result port -/

@[simp] theorem State.respond_params : (s.respond r).params = s.params := rfl

@[simp] theorem State.respond_crc : (s.respond r).crc = s.crc := rfl

@[simp] theorem State.respond_sd : (s.respond r).sd = s.sd := rfl

@[simp] theorem State.respond_pc : (s.respond r).pc = s.pc := rfl

@[simp] theorem State.respond_pw : (s.respond r).pw = s.pw := rfl

@[simp] theorem State.respond_dm : (s.respond r).dm = s.dm := rfl

@[simp] theorem State.respond_sources : (s.respond r).sources = s.sources := rfl

@[simp] theorem State.respond_windowsBuilt : (s.respond r).windowsBuilt = s.windowsBuilt := rfl

@[simp] theorem State.respond_aircraft : (s.respond r).aircraft = s.aircraft := rfl

@[simp] theorem State.respond_response : (s.respond r).response = r := rfl

@[simp] theorem State.respond_queue : (s.respond r).queue = s.queue := rfl

@[simp] theorem State.respond_respond (q : Response) : (s.respond q).respond r = s.respond r := rfl

/-! ## Answers -/

/-- An operation that answers leaves the state it was given with the result at the port. -/
theorem answer_eq_next {t : State} : answer r s = .next t ↔ t = s.respond r := by
  simp only [answer, Host.Outcome.next.injEq]
  exact eq_comm

/-- An operation that raises returns the error in place of its result and changes nothing else. -/
theorem raise_eq_next {e : Error} {t : State} : raise e s = .next t ↔ t = s.respond (.error e) := answer_eq_next ..

/-- An operation on a window without a recorded error runs. -/
theorem unlessFaulted_of_none {w : PowerWindow} (h : w.fault = none) (operation : State → Answer) :
    unlessFaulted w operation s = operation s := by simp [unlessFaulted, h]

/-- An operation on a faulted window raises the recorded error again. -/
theorem unlessFaulted_of_some {w : PowerWindow} {e : Error} (h : w.fault = some e) (operation : State → Answer) :
    unlessFaulted w operation s = .next (s.respond (.error e)) := by simp [unlessFaulted, h, raise, answer]

/-- What an operation on a window can answer: the recorded error, or what the operation itself answers. -/
theorem unlessFaulted_cases {w : PowerWindow} {operation : State → Answer} {t : State}
    (h : unlessFaulted w operation s = .next t) :
    (∃ e, w.fault = some e ∧ t = s.respond (.error e)) ∨ (w.fault = none ∧ operation s = .next t) := by
  unfold unlessFaulted at h
  split at h
  · rename_i e he
    exact .inl ⟨e, he, (raise_eq_next s).mp h⟩
  · rename_i he
    exact .inr ⟨he, h⟩

/-! ## The parts of a window -/

variable (w : PowerWindow) (b : Bool) (m : Mem Power)

@[simp] theorem PowerWindow.withBlock_computer : (w.withBlock b m).computer = w.computer := by
  cases b <;> rfl

@[simp] theorem PowerWindow.withBlock_windowSize : (w.withBlock b m).windowSize = w.windowSize := by
  cases b <;> rfl

@[simp] theorem PowerWindow.withBlock_position : (w.withBlock b m).position = w.position := by
  cases b <;> rfl

@[simp] theorem PowerWindow.withBlock_avail : (w.withBlock b m).avail = w.avail := by
  cases b <;> rfl

@[simp] theorem PowerWindow.withBlock_eos : (w.withBlock b m).eos = w.eos := by
  cases b <;> rfl

@[simp] theorem PowerWindow.withBlock_cur : (w.withBlock b m).cur = w.cur := by
  cases b <;> rfl

@[simp] theorem PowerWindow.withBlock_fault : (w.withBlock b m).fault = w.fault := by
  cases b <;> rfl

@[simp] theorem PowerWindow.withBlock_serial : (w.withBlock b m).serial = w.serial := by
  cases b <;> rfl

/-- The block that was replaced. -/
@[simp] theorem PowerWindow.block_withBlock_same : (w.withBlock b m).block b = m := by
  cases b <;> rfl

/-- The other block stays as it was. -/
@[simp] theorem PowerWindow.block_withBlock_other : (w.withBlock b m).block (!b) = w.block (!b) := by
  cases b <;> rfl

end Sys2Proof.Machine
end

