-- ==== Sys2Proof/Laws/Window.lean ====
section
/-! SUPPORT. What the window's operations do (43_power_window.md): one lemma for each that says every case, what each leaves
alone, and that each keeps a sound window sound. -/

namespace Sys2Proof.Machine

set_option Elab.async false

/-! ## The refill -/

/-- What a refill can be (R135): nothing after the end of the stream; an `IoError`, recorded; or one whole batch loaded. -/
theorem PowerWindow.refill_cases (b : Bool) (w : PowerWindow) (sources : List ByteSource) :
    (w.eos = true ∧ w.refill b sources = ⟨w, sources, none⟩) ∨
    (w.eos = false ∧ ∃ e, (w.computer.readBatch sources).1 = .error e ∧ e.code = .ioError ∧
      w.refill b sources = ⟨{ w with fault := some e }, (w.computer.readBatch sources).2, some e⟩) ∨
    (w.eos = false ∧ ∃ powers computer, (w.computer.readBatch sources).1 = .ok (powers, computer) ∧
      w.refill b sources =
        ⟨{ w.withBlock b (Mem.load powers (w.block b)) with
            computer := computer, avail := w.avail + powers.length, eos := eosAfter powers.length },
          (w.computer.readBatch sources).2, none⟩) := by
  cases he : w.eos with
  | true => exact .inl ⟨rfl, by simp [PowerWindow.refill, he]⟩
  | false =>
    rcases w.computer.readBatch_cases sources with ⟨bytes, -, hr⟩ | ⟨e, -, hio, hr⟩
    · exact .inr (.inr ⟨rfl, _, _, congrArg Prod.fst hr, by simp [PowerWindow.refill, he, hr]⟩)
    · exact .inr (.inl ⟨rfl, e, congrArg Prod.fst hr, hio, by simp [PowerWindow.refill, he, hr]⟩)

variable (b : Bool) (w : PowerWindow) (sources : List ByteSource)

@[simp] theorem PowerWindow.refill_windowSize : (w.refill b sources).window.windowSize = w.windowSize := by
  rcases w.refill_cases b sources with ⟨-, h⟩ | ⟨-, e, -, -, h⟩ | ⟨-, p, c, -, h⟩ <;> simp [h]

@[simp] theorem PowerWindow.refill_position : (w.refill b sources).window.position = w.position := by
  rcases w.refill_cases b sources with ⟨-, h⟩ | ⟨-, e, -, -, h⟩ | ⟨-, p, c, -, h⟩ <;> simp [h]

@[simp] theorem PowerWindow.refill_cur : (w.refill b sources).window.cur = w.cur := by
  rcases w.refill_cases b sources with ⟨-, h⟩ | ⟨-, e, -, -, h⟩ | ⟨-, p, c, -, h⟩ <;> simp [h]

@[simp] theorem PowerWindow.refill_serial : (w.refill b sources).window.serial = w.serial := by
  rcases w.refill_cases b sources with ⟨-, h⟩ | ⟨-, e, -, -, h⟩ | ⟨-, p, c, -, h⟩ <;> simp [h]

/-- A refill records exactly the error that it raises. -/
theorem PowerWindow.refill_fault :
    (w.refill b sources).window.fault = (w.refill b sources).error.or w.fault := by
  rcases w.refill_cases b sources with ⟨-, h⟩ | ⟨-, e, -, -, h⟩ | ⟨-, p, c, -, h⟩ <;> simp [h]

/-- A refill writes no other block buffer than the one it fills. -/
theorem PowerWindow.refill_block_other :
    (w.refill b sources).window.block (!b) = w.block (!b) := by
  rcases w.refill_cases b sources with ⟨-, h⟩ | ⟨-, e, -, -, h⟩ | ⟨-, p, c, -, h⟩ <;> rw [h]
  · rfl
  · exact w.block_withBlock_other b _

/-! ## Rotation -/

theorem PowerWindow.rotate_eq :
    w.rotate = { w with cur := if w.position.toNat % 65536 = 0 then !w.cur else w.cur } := by
  unfold PowerWindow.rotate Config.blockSize
  by_cases h : w.position.toNat % 65536 = 0
  · rw [if_pos h, if_pos h]
  · rw [if_neg h, if_neg h]

@[simp] theorem PowerWindow.rotate_position : w.rotate.position = w.position := by rw [w.rotate_eq]

@[simp] theorem PowerWindow.rotate_windowSize : w.rotate.windowSize = w.windowSize := by rw [w.rotate_eq]

@[simp] theorem PowerWindow.rotate_fault : w.rotate.fault = w.fault := by rw [w.rotate_eq]

@[simp] theorem PowerWindow.rotate_avail : w.rotate.avail = w.avail := by rw [w.rotate_eq]

@[simp] theorem PowerWindow.rotate_eos : w.rotate.eos = w.eos := by rw [w.rotate_eq]

@[simp] theorem PowerWindow.rotate_computer : w.rotate.computer = w.computer := by rw [w.rotate_eq]

@[simp] theorem PowerWindow.rotate_serial : w.rotate.serial = w.serial := by rw [w.rotate_eq]

@[simp] theorem PowerWindow.rotate_block (b : Bool) : w.rotate.block b = w.block b := by rw [w.rotate_eq]; rfl

/-! ## One step -/

/-- What one step can be (R131, R137): a move without a refill; a move after a refill; or a refill that failed, with the
position as it was. -/
theorem PowerWindow.advance_cases :
    (entersNextBlock (w.position + 1#64) w.windowSize = false ∧
      w.advance sources = ⟨PowerWindow.rotate { w with position := w.position + 1#64 }, sources, none⟩) ∨
    (entersNextBlock (w.position + 1#64) w.windowSize = true ∧ (w.refill (!w.cur) sources).error = none ∧
      w.advance sources =
        ⟨PowerWindow.rotate { (w.refill (!w.cur) sources).window with position := w.position + 1#64 },
          (w.refill (!w.cur) sources).sources, none⟩) ∨
    (entersNextBlock (w.position + 1#64) w.windowSize = true ∧ ∃ e, (w.refill (!w.cur) sources).error = some e ∧
      w.advance sources = w.refill (!w.cur) sources) := by
  cases he : entersNextBlock (w.position + 1#64) w.windowSize with
  | false => exact .inl ⟨rfl, by simp [PowerWindow.advance, he]⟩
  | true =>
    cases hr : (w.refill (!w.cur) sources).error with
    | none => exact .inr (.inl ⟨rfl, rfl, by simp [PowerWindow.advance, he, hr]⟩)
    | some e => exact .inr (.inr ⟨rfl, e, rfl, by simp [PowerWindow.advance, he, hr]⟩)

@[simp] theorem PowerWindow.advance_windowSize : (w.advance sources).window.windowSize = w.windowSize := by
  rcases w.advance_cases sources with ⟨-, h⟩ | ⟨-, -, h⟩ | ⟨-, e, -, h⟩ <;> simp [h]

@[simp] theorem PowerWindow.advance_serial : (w.advance sources).window.serial = w.serial := by
  rcases w.advance_cases sources with ⟨-, h⟩ | ⟨-, -, h⟩ | ⟨-, e, -, h⟩ <;> simp [h]

/-- A step that does not fail moves the position by one; a step that fails leaves it. -/
theorem PowerWindow.advance_position :
    (w.advance sources).window.position =
      if (w.advance sources).error = none then w.position + 1#64 else w.position := by
  rcases w.advance_cases sources with ⟨-, h⟩ | ⟨-, -, h⟩ | ⟨-, e, he, h⟩ <;> rw [h]
  · simp
  · simp
  · simp [he]

/-- A step records exactly the error that it raises. -/
theorem PowerWindow.advance_fault :
    (w.advance sources).window.fault = (w.advance sources).error.or w.fault := by
  rcases w.advance_cases sources with ⟨-, h⟩ | ⟨-, hn, h⟩ | ⟨-, e, he, h⟩ <;> rw [h]
  · simp
  · simp [w.refill_fault, hn]
  · exact w.refill_fault _ sources

/-- A step that fails leaves the window as it was but for the recorded error (R258 (c)). -/
theorem PowerWindow.advance_of_error {e : Error} (he : (w.advance sources).error = some e) :
    (w.advance sources).window = { w with fault := some e } := by
  rcases w.advance_cases sources with ⟨-, h⟩ | ⟨-, -, h⟩ | ⟨-, e', he', h⟩
  · rw [h] at he
    cases he
  · rw [h] at he
    cases he
  · rw [h] at he ⊢
    rcases w.refill_cases (!w.cur) sources with ⟨-, hr⟩ | ⟨-, e'', -, -, hr⟩ | ⟨-, _, _, -, hr⟩ <;> rw [hr] at he ⊢ <;>
      cases he
    rfl

/-- A batch read changes a computer's history only. -/
theorem PowerComputer.readBatch_batch (c : PowerComputer) {sources : List ByteSource} {powers : List Power}
    {c' : PowerComputer} (h : (c.readBatch sources).1 = .ok (powers, c')) : c' = { c with history := c'.history } := by
  rcases c.readBatch_cases sources with ⟨bytes, -, hr⟩ | ⟨e, -, -, hr⟩ <;> rw [hr] at h <;> cases h
  rfl

/-! ## What a window still reads -/

/-- A refill keeps the window's source, and a window that may read its source after it could before it. -/
theorem PowerWindow.refill_mayRead :
    (w.refill b sources).window.computer.decoder.source = w.computer.decoder.source ∧
      ((w.refill b sources).window.mayRead = true → w.mayRead = true) := by
  rcases w.refill_cases b sources with ⟨-, h⟩ | ⟨he, e, -, -, h⟩ | ⟨he, p, c, hr, h⟩ <;> rw [h]
  · exact ⟨rfl, id⟩
  · exact ⟨rfl, by simp [PowerWindow.mayRead]⟩
  · refine ⟨by dsimp only; rw [w.computer.readBatch_batch hr], ?_⟩
    cases b <;> simp [PowerWindow.mayRead, PowerWindow.withBlock, he]

/-- So does a step. -/
theorem PowerWindow.advance_mayRead :
    (w.advance sources).window.computer.decoder.source = w.computer.decoder.source ∧
      ((w.advance sources).window.mayRead = true → w.mayRead = true) := by
  rcases w.advance_cases sources with ⟨-, h⟩ | ⟨-, -, h⟩ | ⟨-, e, -, h⟩ <;> rw [h]
  · simp [PowerWindow.mayRead]
  · have := w.refill_mayRead (!w.cur) sources
    simpa [PowerWindow.mayRead] using this
  · exact w.refill_mayRead _ _

/-! ## Several steps -/

@[simp] theorem PowerWindow.advanceBy_zero : w.advanceBy sources 0 = ⟨w, sources, none⟩ := rfl

/-- One step more, and no more after a step that failed (R132). -/
theorem PowerWindow.advanceBy_succ (n : Nat) :
    w.advanceBy sources (n + 1) =
      if (w.advance sources).error = none then (w.advance sources).window.advanceBy (w.advance sources).sources n
      else w.advance sources := by
  rw [PowerWindow.advanceBy]
  cases (w.advance sources).error <;> simp

/-- An induction over the steps: what every single step keeps, several steps keep. -/
theorem PowerWindow.advanceBy_induct {motive : PowerWindow → List ByteSource → Prop}
    (step : ∀ w sources, motive w sources → motive (w.advance sources).window (w.advance sources).sources)
    (n : Nat) (w : PowerWindow) (sources : List ByteSource) (h : motive w sources) :
    motive (w.advanceBy sources n).window (w.advanceBy sources n).sources := by
  induction n generalizing w sources with
  | zero => exact h
  | succ n ih =>
    rw [PowerWindow.advanceBy_succ]
    split
    · exact ih _ _ (step w sources h)
    · exact step w sources h

/-- Steps that all succeed move the position by their number. -/
theorem PowerWindow.advanceBy_position (n : Nat) (w : PowerWindow) (sources : List ByteSource)
    (h : (w.advanceBy sources n).error = none) :
    (w.advanceBy sources n).window.position = w.position + BitVec.ofNat 64 n := by
  induction n generalizing w sources with
  | zero => simp
  | succ n ih =>
    rw [PowerWindow.advanceBy_succ] at h ⊢
    split at h
    · rename_i ha
      rw [if_pos ha, ih _ _ h, w.advance_position, if_pos ha, BitVec.add_assoc, BitVec.ofNat_add, BitVec.add_comm (BitVec.ofNat 64 n)]
    · rename_i ha
      exact absurd h ha

/-- Steps after steps that all succeed. -/
theorem PowerWindow.advanceBy_add (n m : Nat) (w : PowerWindow) (sources : List ByteSource)
    (h : (w.advanceBy sources n).error = none) :
    w.advanceBy sources (n + m) = (w.advanceBy sources n).window.advanceBy (w.advanceBy sources n).sources m := by
  induction n generalizing w sources with
  | zero => simp
  | succ n ih =>
    rw [PowerWindow.advanceBy_succ] at h
    split at h
    · rename_i ha
      rw [show n + 1 + m = n + m + 1 by omega, PowerWindow.advanceBy_succ, if_pos ha, ih _ _ h, PowerWindow.advanceBy_succ,
        if_pos ha]
    · rename_i ha
      exact absurd h ha

/-- One step after steps that all succeed. -/
theorem PowerWindow.advanceBy_succ_last (n : Nat) (h : (w.advanceBy sources n).error = none) :
    w.advanceBy sources (n + 1) = (w.advanceBy sources n).window.advance (w.advanceBy sources n).sources := by
  rw [PowerWindow.advanceBy_add n 1 w sources h, PowerWindow.advanceBy_succ]
  split
  · rename_i ha
    rw [PowerWindow.advanceBy_zero, ← ha]
  · rfl

/-- Steps of which one fails: the first such step ends them (R132). -/
theorem PowerWindow.advanceBy_error {n : Nat} {e : Error} (h : (w.advanceBy sources n).error = some e) :
    ∃ m, m < n ∧ (w.advanceBy sources m).error = none ∧
      ((w.advanceBy sources m).window.advance (w.advanceBy sources m).sources).error = some e ∧
      w.advanceBy sources n = (w.advanceBy sources m).window.advance (w.advanceBy sources m).sources := by
  induction n generalizing w sources with
  | zero => cases h
  | succ n ih =>
    rw [PowerWindow.advanceBy_succ] at h ⊢
    split at h
    · rename_i ha
      obtain ⟨m, hm, h1, h2, h3⟩ := ih _ _ h
      have hs : w.advanceBy sources (m + 1) = (w.advance sources).window.advanceBy (w.advance sources).sources m := by
        rw [PowerWindow.advanceBy_succ, if_pos ha]
      refine ⟨m + 1, by omega, ?_⟩
      rw [hs, if_pos ha]
      exact ⟨h1, h2, h3⟩
    · rename_i ha
      exact ⟨0, by omega, rfl, h, if_neg ha⟩

/-- A step that fails after steps that all succeed ends any longer row of steps (R132). -/
theorem PowerWindow.advanceBy_of_fails {m n : Nat} {e : Error} (hm : m < n) (h : (w.advanceBy sources m).error = none)
    (he : ((w.advanceBy sources m).window.advance (w.advanceBy sources m).sources).error = some e) :
    w.advanceBy sources n = (w.advanceBy sources m).window.advance (w.advanceBy sources m).sources := by
  rw [show n = m + (n - m - 1 + 1) by omega, PowerWindow.advanceBy_add m _ w sources h, PowerWindow.advanceBy_succ, if_neg]
  simp [he]

/-! ## Sound windows -/

variable {b : Bool} {w : PowerWindow} {sources : List ByteSource}

/-- A batch of a sound window fits a block. -/
theorem PowerWindow.Sound.batch_le (hw : w.Sound) {powers : List Power} {c : PowerComputer}
    (h : (w.computer.readBatch sources).1 = .ok (powers, c)) : powers.length ≤ 65536 := by
  have := w.computer.readBatch_length_le sources h
  rwa [hw.batches.2] at this

/-- A refill keeps a sound window sound. -/
theorem PowerWindow.Sound.refill (hw : w.Sound) : (w.refill b sources).window.Sound := by
  rcases w.refill_cases b sources with ⟨-, h⟩ | ⟨-, e, -, hio, h⟩ | ⟨he, p, c, hr, h⟩ <;> rw [h]
  · exact hw
  · exact { hw with faults := fun e' h' => by cases h'; exact hio }
  · have hlen := hw.batch_le hr
    have hc := w.computer.readBatch_batch hr
    have hblocks : eosAfter p.length = false → (w.avail + p.length) % 65536 = 0 := by
      intro h'
      have h1 : w.avail % 65536 = 0 := hw.blocks he
      have h2 : ¬ p.length < 65536 := of_decide_eq_false h'
      omega
    cases b
    · exact {
        size := hw.size
        batches := by rw [hc]; exact hw.batches
        wf0 := Mem.wf_load p hw.wf0
        wf1 := hw.wf1
        below0 := Mem.below_load hlen hw.below0
        below1 := hw.below1
        current := hw.current
        blocks := hblocks
        faults := hw.faults }
    · exact {
        size := hw.size
        batches := by rw [hc]; exact hw.batches
        wf0 := hw.wf0
        wf1 := Mem.wf_load p hw.wf1
        below0 := hw.below0
        below1 := Mem.below_load hlen hw.below1
        current := hw.current
        blocks := hblocks
        faults := hw.faults }

/-- Moving the position of a sound window by one, with the rotation, keeps it sound. -/
theorem PowerWindow.Sound.move (hw : w.Sound) : (PowerWindow.rotate { w with position := w.position + 1#64 }).Sound := by
  have hcur := hw.current
  have hlt := w.position.isLt
  have hadd : (w.position + 1#64).toNat = (w.position.toNat + 1) % 2 ^ 64 := by
    rw [BitVec.toNat_add]
    rfl
  have hnew : (if (w.position + 1#64).toNat % 65536 = 0 then !w.cur else w.cur) =
      decide ((w.position + 1#64).toNat / 65536 % 2 = 1) := by
    rw [hcur, hadd]
    split
    · rw [← decide_not, decide_eq_decide]
      omega
    · rw [decide_eq_decide]
      omega
  rw [PowerWindow.rotate_eq]
  exact { hw with current := hnew }

/-- One step keeps a sound window sound. -/
theorem PowerWindow.Sound.advance (hw : w.Sound) : (w.advance sources).window.Sound := by
  rcases w.advance_cases sources with ⟨-, h⟩ | ⟨-, -, h⟩ | ⟨-, e, -, h⟩ <;> rw [h]
  · exact hw.move
  · have := (hw.refill (b := !w.cur) (sources := sources)).move
    rwa [PowerWindow.refill_position] at this
  · exact hw.refill

/-- Several steps keep a sound window sound. -/
theorem PowerWindow.Sound.advanceBy (hw : w.Sound) (n : Nat) : (w.advanceBy sources n).window.Sound :=
  PowerWindow.advanceBy_induct (motive := fun w _ => w.Sound) (fun _ _ h => h.advance) n w sources hw

/-- The window of a construction is sound, also if its first fill failed (R125). -/
theorem PowerWindow.sound_construct {source windowSize serial : Nat} (h1 : 1 ≤ windowSize) (h2 : windowSize ≤ 65536) :
    (PowerWindow.construct source windowSize serial sources).window.Sound := by
  refine PowerWindow.Sound.refill ?_
  exact {
    size := ⟨h1, h2⟩
    batches := ⟨rfl, rfl⟩
    wf0 := List.Pairwise.nil
    wf1 := List.Pairwise.nil
    below0 := fun _ h => absurd h List.not_mem_nil
    below1 := fun _ h => absurd h List.not_mem_nil
    current := by simp [PowerWindow.fresh]
    blocks := fun _ => rfl
    faults := fun _ h => nomatch h }

end Sys2Proof.Machine
end

