-- ==== Sys2Proof/Laws/Demod.lean ====
section
/-! SUPPORT. What the scan of `DM.NEXT` does (44_demodulator.md R150, R155): one lemma for each part that says every case, the
induction over its turns, and what it keeps. -/

namespace Sys2Proof.Machine

set_option Elab.async false

/-! ## One turn -/

/-- The scan after the score registers have been computed at its position (R150). -/
def Scan.scored (c : Scan) : Scan :=
  { c with dm := { c.dm with spCur := c.dm.window.sp 0, spNext := c.dm.window.sp 1 } }

/-- The candidate frame of a scan. -/
def Scan.candidate (params : Params) (c : Scan) : Frame := slice params.ppmOneIsLate c.dm.window

/-- The scan after its candidate has been sliced and its CRC computed. -/
def Scan.sliced (params : Params) (c : Scan) : Scan :=
  { c.scored with
    dm := { c.scored.dm with frame := c.candidate params }
    crc := c.crc.after (frameBytes (c.candidate params)) }

/-- What one turn can be (R155): it ends on a recorded error; it ends because the window is not full; a candidate is
accepted; or the scan resumes from the next sample, with a rejected candidate or without one. -/
theorem Scan.turn_cases (params : Params) (c : Scan) :
    (∃ e, c.dm.window.fault = some e ∧ c.turn params = .stop c (.error e)) ∨
    (c.dm.window.fault = none ∧ c.dm.window.isFull = false ∧ c.turn params = .stop c .absent) ∨
    (c.dm.window.fault = none ∧ c.dm.window.isFull = true ∧ c.scored.dm.detects = true ∧
      accepts c.crc (c.candidate params) = true ∧
      c.turn params =
        .stop ((c.sliced params).jump params.spPrevAfterAccept ⟨timestampOf c.dm.window.position, c.candidate params⟩).1
          ((c.sliced params).jump params.spPrevAfterAccept ⟨timestampOf c.dm.window.position, c.candidate params⟩).2) ∨
    (c.dm.window.fault = none ∧ c.dm.window.isFull = true ∧ c.scored.dm.detects = true ∧
      accepts c.crc (c.candidate params) = false ∧ c.turn params = (c.sliced params).next) ∨
    (c.dm.window.fault = none ∧ c.dm.window.isFull = true ∧ c.scored.dm.detects = false ∧
      c.turn params = c.scored.next) := by
  cases hf : c.dm.window.fault with
  | some e => exact .inl ⟨e, rfl, by simp [Scan.turn, hf]⟩
  | none =>
    refine .inr ?_
    cases hfull : c.dm.window.isFull with
    | false => exact .inl ⟨rfl, rfl, by simp [Scan.turn, hf, hfull]⟩
    | true =>
      refine .inr ?_
      cases hd : c.scored.dm.detects with
      | false =>
        refine .inr (.inr ⟨rfl, rfl, rfl, ?_⟩)
        simp only [Scan.scored] at hd
        simp [Scan.turn, hf, hfull, hd, Scan.scored]
      | true =>
        have hd' := hd
        simp only [Scan.scored] at hd'
        cases ha : accepts c.crc (c.candidate params) with
        | false =>
          refine .inr (.inl ⟨rfl, rfl, rfl, rfl, ?_⟩)
          simp only [Scan.candidate] at ha
          simp [Scan.turn, hf, hfull, hd', ha, Scan.scored, Scan.sliced, Scan.candidate]
        | true =>
          refine .inl ⟨rfl, rfl, rfl, rfl, ?_⟩
          simp only [Scan.candidate] at ha
          simp [Scan.turn, hf, hfull, hd', ha, Scan.scored, Scan.sliced, Scan.candidate]

/-- What resuming can be (R150, R155): the refill failed, or the scan goes round again one position on. -/
theorem Scan.next_cases (c : Scan) :
    (∃ e, (c.dm.window.advance c.sources).error = some e ∧
      c.next = .stop { c with
        dm := { c.dm with window := (c.dm.window.advance c.sources).window }
        sources := (c.dm.window.advance c.sources).sources } (.error e)) ∨
    ((c.dm.window.advance c.sources).error = none ∧
      c.next = .again { c with
        dm := { c.dm with
          window := (c.dm.window.advance c.sources).window
          spPrev := c.dm.spCur
          spCur := c.dm.spNext }
        sources := (c.dm.window.advance c.sources).sources }) := by
  cases h : (c.dm.window.advance c.sources).error with
  | some e => exact .inl ⟨e, rfl, by simp [Scan.next, h]⟩
  | none => exact .inr ⟨rfl, by simp [Scan.next, h]⟩

/-- What the jump answers: the accepted message, or the error of a refill. -/
theorem Scan.jump_result (after : SpPrevAfterAccept) (c : Scan) (m : RawMessage) :
    (c.jump after m).2 = .raw m ∨ ∃ e, (c.jump after m).2 = .error e := by
  cases after with
  | zero =>
    cases h : (c.dm.window.advanceBy c.sources 1200).error with
    | none => exact .inl (by simp [Scan.jump, h])
    | some e => exact .inr ⟨e, by simp [Scan.jump, h]⟩
  | trueSequence =>
    cases h : (c.dm.window.advanceBy c.sources 1199).error with
    | some e => exact .inr ⟨e, by simp [Scan.jump, h]⟩
    | none =>
      cases h' : ((c.dm.window.advanceBy c.sources 1199).window.advance
          (c.dm.window.advanceBy c.sources 1199).sources).error with
      | some e => exact .inr ⟨e, by simp [Scan.jump, h, h']⟩
      | none => exact .inl (by simp [Scan.jump, h, h'])

/-- The jump leaves the CRC unit, the frame register and the following score alone. -/
theorem Scan.jump_frame (after : SpPrevAfterAccept) (c : Scan) (m : RawMessage) :
    (c.jump after m).1.crc = c.crc ∧ (c.jump after m).1.dm.frame = c.dm.frame ∧
      (c.jump after m).1.dm.spNext = c.dm.spNext := by
  cases after with
  | zero =>
    cases h : (c.dm.window.advanceBy c.sources 1200).error <;> simp [Scan.jump, h]
  | trueSequence =>
    cases h : (c.dm.window.advanceBy c.sources 1199).error with
    | some e => simp [Scan.jump, h]
    | none =>
      cases h' : ((c.dm.window.advanceBy c.sources 1199).window.advance
          (c.dm.window.advanceBy c.sources 1199).sources).error <;> simp [Scan.jump, h, h']

/-- What every single step keeps, the jump keeps. -/
theorem Scan.jump_induct {motive : PowerWindow → List ByteSource → Prop}
    (step : ∀ w sources, motive w sources → motive (w.advance sources).window (w.advance sources).sources)
    (after : SpPrevAfterAccept) (c : Scan) (m : RawMessage) (h : motive c.dm.window c.sources) :
    motive (c.jump after m).1.dm.window (c.jump after m).1.sources := by
  cases after with
  | zero =>
    have := PowerWindow.advanceBy_induct step 1200 _ _ h
    cases he : (c.dm.window.advanceBy c.sources 1200).error <;> simpa [Scan.jump, he] using this
  | trueSequence =>
    have h1 := PowerWindow.advanceBy_induct step 1199 _ _ h
    have h2 := step _ _ h1
    cases he : (c.dm.window.advanceBy c.sources 1199).error with
    | some e => simpa [Scan.jump, he] using h1
    | none =>
      cases he' : ((c.dm.window.advanceBy c.sources 1199).window.advance
          (c.dm.window.advanceBy c.sources 1199).sources).error <;> simpa [Scan.jump, he, he'] using h2

/-- A jump of which a step fails returns that step's error, and stands where the failing step stood (R155, R258 (c)). -/
theorem Scan.jump_of_fails (after : SpPrevAfterAccept) (c : Scan) (m : RawMessage) {n : Nat} {e : Error} (hn : n < 1200)
    (h : (c.dm.window.advanceBy c.sources n).error = none)
    (he : ((c.dm.window.advanceBy c.sources n).window.advance (c.dm.window.advanceBy c.sources n).sources).error = some e) :
    (c.jump after m).2 = .error e ∧
      (c.jump after m).1.dm.window = { (c.dm.window.advanceBy c.sources n).window with fault := some e } ∧
      (c.jump after m).1.sources =
        ((c.dm.window.advanceBy c.sources n).window.advance (c.dm.window.advanceBy c.sources n).sources).sources := by
  have hw := PowerWindow.advance_of_error _ _ he
  cases after with
  | zero => simp [Scan.jump, PowerWindow.advanceBy_of_fails _ _ hn h he, he, hw]
  | trueSequence =>
    by_cases h9 : n < 1199
    · simp [Scan.jump, PowerWindow.advanceBy_of_fails _ _ h9 h he, he, hw]
    · obtain rfl : n = 1199 := by omega
      simp [Scan.jump, h, he, hw]

/-- A jump that returns an error is one of which a step fails. -/
theorem Scan.jump_error (after : SpPrevAfterAccept) (c : Scan) (m : RawMessage) {e : Error} (h : (c.jump after m).2 = .error e) :
    ∃ n, n < 1200 ∧ (c.dm.window.advanceBy c.sources n).error = none ∧
      ((c.dm.window.advanceBy c.sources n).window.advance (c.dm.window.advanceBy c.sources n).sources).error = some e := by
  cases after with
  | zero =>
    cases h' : (c.dm.window.advanceBy c.sources 1200).error with
    | none => simp [Scan.jump, h'] at h
    | some e' =>
      obtain rfl : e' = e := by simpa [Scan.jump, h'] using h
      obtain ⟨n, hn, h1, h2, -⟩ := PowerWindow.advanceBy_error _ _ h'
      exact ⟨n, hn, h1, h2⟩
  | trueSequence =>
    cases h' : (c.dm.window.advanceBy c.sources 1199).error with
    | some e' =>
      obtain rfl : e' = e := by simpa [Scan.jump, h'] using h
      obtain ⟨n, hn, h1, h2, -⟩ := PowerWindow.advanceBy_error _ _ h'
      exact ⟨n, by omega, h1, h2⟩
    | none =>
      cases h2 : ((c.dm.window.advanceBy c.sources 1199).window.advance
          (c.dm.window.advanceBy c.sources 1199).sources).error with
      | none => simp [Scan.jump, h', h2] at h
      | some e' =>
        obtain rfl : e' = e := by simpa [Scan.jump, h', h2] using h
        exact ⟨1199, by omega, h', h2⟩

/-! ## The loop -/

theorem Scan.loop_succ (params : Params) (fuel : Nat) (c : Scan) :
    Scan.loop params (fuel + 1) c =
      match c.turn params with
      | .stop c r => some (c, r)
      | .again c => Scan.loop params fuel c := rfl

/-- Induction over the turns of the loop: what holds of the scan it starts from, and what every turn that goes round again
keeps, holds of the scan in the last turn, whose result is the loop's. -/
theorem Scan.loop_induct {params : Params} {motive : Scan → Prop}
    (again : ∀ c c', motive c → c.turn params = .again c' → motive c') {fuel : Nat} {c : Scan} (h : motive c)
    {d : Scan} {r : Response} (hl : Scan.loop params fuel c = some (d, r)) :
    ∃ last, motive last ∧ last.turn params = .stop d r := by
  induction fuel generalizing c with
  | zero => cases hl
  | succ fuel ih =>
    rw [Scan.loop_succ] at hl
    split at hl
    · rename_i c' r' ht
      cases hl
      exact ⟨c, h, ht⟩
    · rename_i c' ht
      exact ih (again c c' h ht) hl

/-- What every step of the window keeps, a turn that goes round again keeps. -/
theorem Scan.turn_again {motive : PowerWindow → List ByteSource → Prop}
    (step : ∀ w sources, motive w sources → motive (w.advance sources).window (w.advance sources).sources)
    {params : Params} {c c' : Scan} (h : motive c.dm.window c.sources) (ht : c.turn params = .again c') :
    motive c'.dm.window c'.sources := by
  have key : ∀ d : Scan, d.dm.window = c.dm.window → d.sources = c.sources → d.next = .again c' →
      motive c'.dm.window c'.sources := by
    intro d hw hs hn
    rcases d.next_cases with ⟨e, -, he⟩ | ⟨-, he⟩ <;> rw [he] at hn <;> cases hn
    rw [hw, hs]
    exact step _ _ h
  rcases c.turn_cases params with ⟨e, -, he⟩ | ⟨-, -, he⟩ | ⟨-, -, -, -, he⟩ | ⟨-, -, -, -, he⟩ | ⟨-, -, -, he⟩
  · rw [he] at ht
    cases ht
  · rw [he] at ht
    cases ht
  · rw [he] at ht
    cases ht
  · exact key (c.sliced params) rfl rfl (he.symm.trans ht)
  · exact key c.scored rfl rfl (he.symm.trans ht)

/-- What every step of the window keeps, a turn that ends the scan keeps. -/
theorem Scan.turn_stop {motive : PowerWindow → List ByteSource → Prop}
    (step : ∀ w sources, motive w sources → motive (w.advance sources).window (w.advance sources).sources)
    {params : Params} {c c' : Scan} {r : Response} (h : motive c.dm.window c.sources)
    (ht : c.turn params = .stop c' r) : motive c'.dm.window c'.sources := by
  have key : ∀ d : Scan, d.dm.window = c.dm.window → d.sources = c.sources → d.next = .stop c' r →
      motive c'.dm.window c'.sources := by
    intro d hw hs hn
    rcases d.next_cases with ⟨e, -, he⟩ | ⟨-, he⟩ <;> rw [he] at hn <;> cases hn
    rw [hw, hs]
    exact step _ _ h
  rcases c.turn_cases params with ⟨e, -, he⟩ | ⟨-, -, he⟩ | ⟨-, -, -, -, he⟩ | ⟨-, -, -, -, he⟩ | ⟨-, -, -, he⟩
  · rw [he] at ht
    cases ht
    exact h
  · rw [he] at ht
    cases ht
    exact h
  · rw [he] at ht
    cases ht
    exact Scan.jump_induct step _ _ _ h
  · exact key (c.sliced params) rfl rfl (he.symm.trans ht)
  · exact key c.scored rfl rfl (he.symm.trans ht)

/-- What every step of the window keeps, a whole scan keeps. -/
theorem Scan.loop_window {motive : PowerWindow → List ByteSource → Prop}
    (step : ∀ w sources, motive w sources → motive (w.advance sources).window (w.advance sources).sources)
    {params : Params} {fuel : Nat} {c d : Scan} {r : Response} (h : motive c.dm.window c.sources)
    (hl : Scan.loop params fuel c = some (d, r)) : motive d.dm.window d.sources := by
  obtain ⟨last, hlast, ht⟩ := Scan.loop_induct (motive := fun c => motive c.dm.window c.sources)
    (fun c c' h ht => Scan.turn_again step h ht) h hl
  exact Scan.turn_stop step hlast ht

/-! ## The CRC unit during a scan -/

/-- Running the CRC leaves the generator and the table. -/
@[simp] theorem Crc24.after_generator (crc : Crc24) (bytes : List Byte) : (crc.after bytes).generator = crc.generator := rfl

@[simp] theorem Crc24.after_table (crc : Crc24) (bytes : List Byte) : (crc.after bytes).table = crc.table := rfl

/-- The CRC reads nothing of the unit but its table (R102). -/
theorem Crc24.run_congr {crc crc' : Crc24} (h : crc'.table = crc.table) (bytes : List Byte) : crc'.run bytes = crc.run bytes := by
  have : crc'.stepByte = crc.stepByte := by
    funext r b
    simp [Crc24.stepByte, Crc24.entry, h]
  rw [Crc24.run, Crc24.run, this]

@[simp] theorem Crc24.run_after (crc : Crc24) (bytes other : List Byte) : (crc.after other).run bytes = crc.run bytes :=
  Crc24.run_congr (crc' := crc.after other) rfl bytes

/-- A scan leaves the generator and the table. -/
theorem Scan.loop_crc {params : Params} {fuel : Nat} {c d : Scan} {r : Response}
    (hl : Scan.loop params fuel c = some (d, r)) : d.crc.generator = c.crc.generator ∧ d.crc.table = c.crc.table := by
  let Kept := fun x : Scan => x.crc.generator = c.crc.generator ∧ x.crc.table = c.crc.table
  have next : ∀ z y : Scan, Kept z → z.next = .again y ∨ (∃ r, z.next = .stop y r) → Kept y := by
    intro z y hz hn
    rcases z.next_cases with ⟨e, -, he⟩ | ⟨-, he⟩ <;> rw [he] at hn <;> rcases hn with hn | ⟨r, hn⟩ <;> cases hn <;> exact hz
  have turn : ∀ x y : Scan, Kept x → x.turn params = .again y ∨ (∃ r, x.turn params = .stop y r) → Kept y := by
    intro x y hx hy
    have hs : Kept (x.sliced params) := hx
    rcases x.turn_cases params with ⟨e, -, he⟩ | ⟨-, -, he⟩ | ⟨-, -, -, -, he⟩ | ⟨-, -, -, -, he⟩ | ⟨-, -, -, he⟩ <;>
      rw [he] at hy
    · rcases hy with hy | ⟨r, hy⟩ <;> cases hy
      exact hx
    · rcases hy with hy | ⟨r, hy⟩ <;> cases hy
      exact hx
    · rcases hy with hy | ⟨r, hy⟩ <;> cases hy
      show _ ∧ _
      rw [(Scan.jump_frame _ _ _).1]
      exact hs
    · exact next _ y hs hy
    · exact next x.scored y hx hy
  obtain ⟨last, hlast, ht⟩ := Scan.loop_induct (motive := Kept) (fun x y hx ht => turn x y hx (.inl ht)) ⟨rfl, rfl⟩ hl
  exact turn last d hlast (.inr ⟨r, ht⟩)

end Sys2Proof.Machine
end

