-- ==== Sys2Proof/Laws/Operands.lean ====
section
/-! SUPPORT. What the operand assembly does: the bits of a packed frame (R65, R153), and the bytes and fields of a frame (R43, R66). -/

namespace Sys2Proof.Machine

set_option Elab.async false

/-- Bit `j` of the frame of the first `n` sliced bits: the bit sliced `j` places before the last one (R65, R153). -/
theorem packBits_getLsbD (bit : Nat → Bool) (n j : Nat) (hn : n ≤ 112) :
    (packBits bit n).getLsbD j = (decide (j < n) && bit (n - 1 - j)) := by
  induction n generalizing j with
  | zero => simp [packBits]
  | succ n ih =>
    have hj := ih (j - 1) (by omega)
    rw [packBits, BitVec.getLsbD_or, BitVec.getLsbD_shiftLeft, hj]
    cases j with
    | zero => simp
    | succ j =>
      by_cases h : j < n
      · simp [h, show n - (j + 1) = n - 1 - j by omega]
        omega
      · simp [h]

/-- Frames of the same bits are the same. -/
theorem packBits_congr {f g : Nat → Bool} (n : Nat) (h : ∀ i, i < n → f i = g i) : packBits f n = packBits g n := by
  induction n with
  | zero => rfl
  | succ n ih => rw [packBits, packBits, ih fun i hi => h i (by omega), h n (by omega)]

@[simp] theorem frameBytes_length (f : Frame) : (frameBytes f).length = 14 := by simp [frameBytes]

/-- A byte of a frame, by the frame's number (R66). -/
theorem frameByte_toNat (f : Frame) (k : Nat) : (frameByte f k).toNat = f.toNat / 256 ^ (13 - k) % 256 := by
  rw [frameByte, BitVec.extractLsb'_toNat, Nat.shiftRight_eq_div_pow, pow_mul]
  norm_num

end Sys2Proof.Machine
end

