-- ==== Sys2Proof/Laws/Words.lean ====
section
/-! SUPPORT. What the decoder's and the encoder's shared functions do: bytes and numbers (R43, R44), a word in its format's
bytes, the fields of the payload, frame and altitude words, and the operands of the port operations. -/

namespace Sys2Proof

set_option Elab.async false

/-! ## Bytes and numbers -/

@[simp] theorem bytesOfNat_length (n w : Nat) : (bytesOfNat n w).length = n := by
  induction n with
  | zero => rfl
  | succ n ih => simp [bytesOfNat, ih]

/-- The number that the bytes of a number spell: its low bytes. -/
theorem natOfBytes_bytesOfNat (n w : Nat) : natOfBytes (bytesOfNat n w) = w % 256 ^ n := by
  induction n with
  | zero => simp [bytesOfNat, natOfBytes, Nat.mod_one]
  | succ n ih =>
    have hb : (BitVec.ofNat 8 (w / 256 ^ n)).toNat = w / 256 ^ n % 256 := BitVec.toNat_ofNat ..
    rw [bytesOfNat, natOfBytes, bytesOfNat_length, ih, hb, pow_succ, Nat.mod_mul, Nat.mul_comm, Nat.add_comm]

/-- Bytes spell a number that fits them. -/
theorem natOfBytes_lt (bs : List Byte) : natOfBytes bs < 256 ^ bs.length := by
  induction bs with
  | nil => simp [natOfBytes]
  | cons b rest ih =>
    have hb : b.toNat < 256 := b.isLt
    rw [natOfBytes, List.length_cons, pow_succ]
    nlinarith

/-- The bytes of the number that bytes spell are those bytes. -/
theorem bytesOfNat_natOfBytes (bs : List Byte) : bytesOfNat bs.length (natOfBytes bs) = bs := by
  induction bs with
  | nil => rfl
  | cons b rest ih =>
    have hlt := natOfBytes_lt rest
    have hpos : 0 < 256 ^ rest.length := by positivity
    rw [List.length_cons, bytesOfNat, natOfBytes]
    congr 1
    · rw [Nat.add_comm, Nat.add_mul_div_right _ _ hpos, Nat.div_eq_of_lt hlt]
      simp
    · have hlow : ∀ n x y : Nat, bytesOfNat n (x * 256 ^ n + y) = bytesOfNat n y := by
        intro n
        induction n with
        | zero => intros; rfl
        | succ n ihn =>
          intro x y
          have h1 : x * 256 ^ (n + 1) + y = (x * 256) * 256 ^ n + y := by ring
          rw [bytesOfNat, bytesOfNat, h1, ihn]
          congr 1
          apply BitVec.eq_of_toNat_eq
          rw [BitVec.toNat_ofNat, BitVec.toNat_ofNat, Nat.add_comm (x * 256 * 256 ^ n),
            Nat.add_mul_div_right _ _ (by positivity)]
          omega
      rw [hlow, ih]

/-! ## A word in its format's bytes -/

@[simp] theorem Format.layout_length (format : Format) (w : Nat) : (format.layout w).length = format.bytes := by
  cases format <;> simp [Format.layout, Format.bytes]

/-- Reading a stored word gives it back. -/
theorem Format.wordOf_layout (format : Format) {w : Nat} (h : w < 2 ^ format.width) : format.wordOf (format.layout w) = w := by
  cases format <;>
    simp [Format.layout, Format.wordOf, Format.bytes, Format.width, natOfBytes_bytesOfNat] at * <;> omega

/-- Storing the word that bytes spell gives those bytes back. -/
theorem Format.layout_wordOf (format : Format) {bytes : List Byte} (h : bytes.length = format.bytes) :
    format.layout (format.wordOf bytes) = bytes := by
  have big : ∀ n, bytes.length = n → bytesOfNat n (natOfBytes bytes) = bytes := by
    rintro n rfl
    exact bytesOfNat_natOfBytes bytes
  cases format with
  | sample16 =>
    have := bytesOfNat_natOfBytes bytes.reverse
    rw [List.length_reverse, h] at this
    exact (congrArg List.reverse this).trans (List.reverse_reverse bytes)
  | replay176 => exact big 22 h
  | frame112 => exact big 14 h
  | me56 => exact big 7 h
  | alt12 => exact big 2 h
  | char6 => exact big 1 h

/-- The decoder on a stored word. -/
theorem decodeWord_layout (format : Format) {w : Nat} (h : w < 2 ^ format.width) :
    decodeWord format (format.layout w) = .ok (decodeFormat format w) := by
  simp only [decodeWord, Format.wordOf_layout format h, Format.layout_length]
  rw [if_neg (by omega)]

/-- The decoder on the request that stores a word. -/
theorem decode_encodeWord (format : Format) {n : Nat} (w : BitVec n) (h : n ≤ format.width) :
    decode (encodeWord format w) = .ok (decodeFormat format w.toNat) :=
  decodeWord_layout format (lt_of_lt_of_le w.isLt (Nat.pow_le_pow_right (by decide) h))

theorem decode_encode_sample (w : BitVec 16) : decode (encodeWord .sample16 w) = .ok (decodeSample w) := by
  rw [decode_encodeWord .sample16 w (by decide), decodeFormat, BitVec.ofNat_toNat, BitVec.setWidth_eq]

theorem decode_encode_replay (w : BitVec 176) : decode (encodeWord .replay176 w) = .ok (decodeReplay w) := by
  rw [decode_encodeWord .replay176 w (by decide), decodeFormat, BitVec.ofNat_toNat, BitVec.setWidth_eq]

theorem decode_encode_frame (w : BitVec 112) : decode (encodeWord .frame112 w) = .ok (decodeFrame w) := by
  rw [decode_encodeWord .frame112 w (by decide), decodeFormat, BitVec.ofNat_toNat, BitVec.setWidth_eq]

theorem decode_encode_me (w : BitVec 56) : decode (encodeWord .me56 w) = .ok (decodeMe w) := by
  rw [decode_encodeWord .me56 w (by decide), decodeFormat, BitVec.ofNat_toNat, BitVec.setWidth_eq]

theorem decode_encode_alt (w : BitVec 12) : decode (encodeWord .alt12 w) = .ok (decodeAlt w) := by
  rw [decode_encodeWord .alt12 w (by decide), decodeFormat, BitVec.ofNat_toNat, BitVec.setWidth_eq]

theorem decode_encode_char (w : BitVec 6) : decode (encodeWord .char6 w) = .ok (decodeChar w) := by
  rw [decode_encodeWord .char6 w (by decide), decodeFormat, BitVec.ofNat_toNat, BitVec.setWidth_eq]

/-! ## Fields of a concatenation -/

/-- A field that lies in the lower part of a concatenation. -/
theorem field_low {n m : Nat} (x : BitVec n) (y : BitVec m) (start len : Nat) (h : start + len ≤ m) :
    (x ++ y).extractLsb' start len = y.extractLsb' start len := by
  rw [BitVec.extractLsb'_append_eq_of_add_le h]

/-- A field that lies in the upper part of a concatenation. -/
theorem field_high {n m : Nat} (x : BitVec n) (y : BitVec m) (start len : Nat) (h : m ≤ start) :
    (x ++ y).extractLsb' start len = x.extractLsb' (start - m) len := by
  rw [BitVec.extractLsb'_append_eq_of_le h]

/-- The whole word as a field. -/
theorem field_all {n : Nat} (x : BitVec n) : x.extractLsb' 0 n = x := BitVec.extractLsb'_eq_self

/-- Two fields that lie one above the other are one field. -/
theorem field_join {n : Nat} (x : BitVec n) (start low high : Nat) :
    x.extractLsb' (start + low) high ++ x.extractLsb' start low = x.extractLsb' start (high + low) :=
  BitVec.extractLsb'_append_extractLsb'_eq_extractLsb' rfl

/-! ## Operands of the port operations -/

@[simp] theorem asBits_toNat {n : Nat} (b : BitVec n) : asBits n (b.toNat : Int) = some b := by
  have h : ((b.toNat : Int)) < 2 ^ n := by exact_mod_cast b.isLt
  simp [asBits, h]

@[simp] theorem asNat_natCast (n : Nat) : asNat (n : Int) = some n := by simp [asNat]

@[simp] theorem asBytes_bytesAsInts (bs : List Byte) : asBytes (bytesAsInts bs) = some bs := by
  induction bs with
  | nil => rfl
  | cons b rest ih =>
    rw [bytesAsInts, List.map_cons, asBytes, asBits_toNat]
    rw [bytesAsInts] at ih
    simp [ih]

@[simp] theorem asRaw_rawAsInts (raw : RawMessage) : asRaw (rawAsInts raw) = some raw := by
  simp [asRaw, rawAsInts]

/-- A payload that is well formed is read back from its operands. -/
theorem asPayload_payloadAsInts {p : Payload} (h : p.wellFormed) : asPayload (payloadAsInts p) = some p := by
  match p, h with
  | .identification p, h => simp_all [payloadAsInts, asPayload, Payload.wellFormed]
  | .position p, _ => simp [payloadAsInts, asPayload]
  | .velocity (.ground e n), _ => rfl
  | .velocity (.air v sh hdg), _ => simp [payloadAsInts, asPayload]

/-- A message that is well formed is read back from its operands. -/
theorem asMessage_messageAsInts {m : Message} (h : m.payload.wellFormed) : asMessage (messageAsInts m) = some m := by
  simp [asMessage, messageAsInts, asPayload_payloadAsInts h]

/-- A latitude with a denominator is read back from its operands. -/
theorem asTurns_turns {phi : Turns} (h : phi.den ≠ 0) : asTurns [phi.num, (phi.den : Int)] = some phi := by
  simp [asTurns, Nat.pos_of_ne_zero h]

/-! The port operations with operands. -/

theorem decodeCall_bfExtract (value : Word) (start size : Int) :
    decodeCall .bfExtract [(value.toNat : Int), start, size] = some (.bfExtract value start size) := by
  simp only [decodeCall, asBits_toNat, Option.map_some]

theorem decodeCall_bfTest (value : Word) (index : Int) :
    decodeCall .bfTest [(value.toNat : Int), index] = some (.bfTest value index) := by
  simp only [decodeCall, asBits_toNat, Option.map_some]

theorem decodeCall_crcBuild (generator : BitVec 24) :
    decodeCall .crcBuild [(generator.toNat : Int)] = some (.crcBuild generator) := by
  simp only [decodeCall, asBits_toNat, Option.map_some]

theorem decodeCall_crcCrc (bytes : List Byte) :
    decodeCall .crcCrc (bytesAsInts bytes) = some (.crcCrc bytes) := by
  simp only [decodeCall, asBytes_bytesAsInts, Option.map_some]

theorem decodeCall_sdNew (source : Nat) (batchSize : Int) :
    decodeCall .sdNew [(source : Int), batchSize] = some (.sdNew source batchSize) := by
  simp only [decodeCall, asSourceAndSize, asNat_natCast, Option.map_some]

theorem decodeCall_pcNew (source : Nat) (batchSize : Int) :
    decodeCall .pcNew [(source : Int), batchSize] = some (.pcNew source batchSize) := by
  simp only [decodeCall, asSourceAndSize, asNat_natCast, Option.map_some]

theorem decodeCall_pwNew (source : Nat) (windowSize : Int) :
    decodeCall .pwNew [(source : Int), windowSize] = some (.pwNew source windowSize) := by
  simp only [decodeCall, asSourceAndSize, asNat_natCast, Option.map_some]

theorem decodeCall_pwGet (i : Int) :
    decodeCall .pwGet [i] = some (.pwGet i) := by
  simp only [decodeCall]

theorem decodeCall_pwAdvanceby (n : Nat) :
    decodeCall .pwAdvanceby [(n : Int)] = some (.pwAdvanceby n) := by
  simp only [decodeCall, asNat_natCast, Option.map_some]

theorem decodeCall_dmNew (source : Nat) :
    decodeCall .dmNew [(source : Int)] = some (.dmNew source) := by
  simp only [decodeCall, asNat_natCast, Option.map_some]

theorem decodeCall_rmOf (timestampNs : BitVec 64) (bytes : Frame) :
    decodeCall .rmOf (rawAsInts ⟨timestampNs, bytes⟩) = some (.rmOf timestampNs bytes) := by
  simp only [decodeCall, asRaw_rawAsInts, Option.map_some]

theorem decodeCall_rmDf (raw : RawMessage) :
    decodeCall .rmDf (rawAsInts raw) = some (.rmDf raw) := by
  simp only [decodeCall, asRaw_rawAsInts, Option.map_some]

theorem decodeCall_rmIcao (raw : RawMessage) :
    decodeCall .rmIcao (rawAsInts raw) = some (.rmIcao raw) := by
  simp only [decodeCall, asRaw_rawAsInts, Option.map_some]

theorem decodeCall_rmMe (raw : RawMessage) :
    decodeCall .rmMe (rawAsInts raw) = some (.rmMe raw) := by
  simp only [decodeCall, asRaw_rawAsInts, Option.map_some]

theorem decodeCall_rmTc (raw : RawMessage) :
    decodeCall .rmTc (rawAsInts raw) = some (.rmTc raw) := by
  simp only [decodeCall, asRaw_rawAsInts, Option.map_some]

theorem decodeCall_mpParse (raw : RawMessage) :
    decodeCall .mpParse (rawAsInts raw) = some (.mpParse raw) := by
  simp only [decodeCall, asRaw_rawAsInts, Option.map_some]

theorem decodeCall_idDecode (raw : RawMessage) :
    decodeCall .idDecode (rawAsInts raw) = some (.idDecode raw) := by
  simp only [decodeCall, asRaw_rawAsInts, Option.map_some]

theorem decodeCall_apDecode (raw : RawMessage) :
    decodeCall .apDecode (rawAsInts raw) = some (.apDecode raw) := by
  simp only [decodeCall, asRaw_rawAsInts, Option.map_some]

theorem decodeCall_avDecode (raw : RawMessage) :
    decodeCall .avDecode (rawAsInts raw) = some (.avDecode raw) := by
  simp only [decodeCall, asRaw_rawAsInts, Option.map_some]

theorem decodeCall_altDecode (alt : BitVec 12) :
    decodeCall .altDecode [(alt.toNat : Int)] = some (.altDecode alt) := by
  simp only [decodeCall, asBits_toNat, Option.map_some]

theorem decodeCall_grayDecode {g : GrayCode} (hw : 0 < g.width) (hc : g.code < 2 ^ g.width) :
    decodeCall .grayDecode [(g.width : Int), (g.code : Int)] = some (.grayDecode g) := by
  have : (g.code : Int) < 2 ^ g.width := by exact_mod_cast hc
  simp [decodeCall, asGray, hw, this]

theorem decodeCall_cprNl {phi : Turns} (h : phi.den ≠ 0) :
    decodeCall .cprNl [phi.num, (phi.den : Int)] = some (.cprNl phi) := by
  simp only [decodeCall, asTurns_turns h, Option.map_some]

theorem decodeCall_cprDecode (x0 y0 x1 y1 : BitVec 17) (mostRecent : BitVec 1) :
    decodeCall .cprDecode
      [(x0.toNat : Int), (y0.toNat : Int), (x1.toNat : Int), (y1.toNat : Int), (mostRecent.toNat : Int)] =
      some (.cprDecode x0 y0 x1 y1 mostRecent) := by
  simp only [decodeCall, asBits_toNat, Option.bind_some, Option.map_some]

theorem decodeCall_accUpdate {msg : Message} (h : msg.payload.wellFormed) :
    decodeCall .accUpdate (messageAsInts msg) = some (.accUpdate msg) := by
  simp only [decodeCall, asMessage_messageAsInts h, Option.map_some]

/-- A port operation whose operands are read is decoded. -/
theorem decode_call {op : PortOp} {args : List Int} {i : Instr} (h : decodeCall op args = some i) :
    decode (.call op args) = .ok i := by simp [decode, h]

/-! ## The fields of the payload, frame and altitude words -/

theorem identWord_tc (tc : BitVec 5) (ca : BitVec 3) (c0 c1 c2 c3 c4 c5 c6 c7 : BitVec 6) :
    (identWord tc ca c0 c1 c2 c3 c4 c5 c6 c7).extractLsb' 51 5 = tc := by
  rw [identWord]
  iterate 9 rw [field_high _ _ _ _ (by decide)]
  exact field_all _

theorem identWord_ca (tc : BitVec 5) (ca : BitVec 3) (c0 c1 c2 c3 c4 c5 c6 c7 : BitVec 6) :
    (identWord tc ca c0 c1 c2 c3 c4 c5 c6 c7).extractLsb' 48 3 = ca := by
  rw [identWord]
  iterate 8 rw [field_high _ _ _ _ (by decide)]
  rw [field_low _ _ _ _ (by decide)]
  exact field_all _

theorem identWord_c0 (tc : BitVec 5) (ca : BitVec 3) (c0 c1 c2 c3 c4 c5 c6 c7 : BitVec 6) :
    (identWord tc ca c0 c1 c2 c3 c4 c5 c6 c7).extractLsb' 42 6 = c0 := by
  rw [identWord]
  iterate 7 rw [field_high _ _ _ _ (by decide)]
  rw [field_low _ _ _ _ (by decide)]
  exact field_all _

theorem identWord_c1 (tc : BitVec 5) (ca : BitVec 3) (c0 c1 c2 c3 c4 c5 c6 c7 : BitVec 6) :
    (identWord tc ca c0 c1 c2 c3 c4 c5 c6 c7).extractLsb' 36 6 = c1 := by
  rw [identWord]
  iterate 6 rw [field_high _ _ _ _ (by decide)]
  rw [field_low _ _ _ _ (by decide)]
  exact field_all _

theorem identWord_c2 (tc : BitVec 5) (ca : BitVec 3) (c0 c1 c2 c3 c4 c5 c6 c7 : BitVec 6) :
    (identWord tc ca c0 c1 c2 c3 c4 c5 c6 c7).extractLsb' 30 6 = c2 := by
  rw [identWord]
  iterate 5 rw [field_high _ _ _ _ (by decide)]
  rw [field_low _ _ _ _ (by decide)]
  exact field_all _

theorem identWord_c3 (tc : BitVec 5) (ca : BitVec 3) (c0 c1 c2 c3 c4 c5 c6 c7 : BitVec 6) :
    (identWord tc ca c0 c1 c2 c3 c4 c5 c6 c7).extractLsb' 24 6 = c3 := by
  rw [identWord]
  iterate 4 rw [field_high _ _ _ _ (by decide)]
  rw [field_low _ _ _ _ (by decide)]
  exact field_all _

theorem identWord_c4 (tc : BitVec 5) (ca : BitVec 3) (c0 c1 c2 c3 c4 c5 c6 c7 : BitVec 6) :
    (identWord tc ca c0 c1 c2 c3 c4 c5 c6 c7).extractLsb' 18 6 = c4 := by
  rw [identWord]
  iterate 3 rw [field_high _ _ _ _ (by decide)]
  rw [field_low _ _ _ _ (by decide)]
  exact field_all _

theorem identWord_c5 (tc : BitVec 5) (ca : BitVec 3) (c0 c1 c2 c3 c4 c5 c6 c7 : BitVec 6) :
    (identWord tc ca c0 c1 c2 c3 c4 c5 c6 c7).extractLsb' 12 6 = c5 := by
  rw [identWord]
  iterate 2 rw [field_high _ _ _ _ (by decide)]
  rw [field_low _ _ _ _ (by decide)]
  exact field_all _

theorem identWord_c6 (tc : BitVec 5) (ca : BitVec 3) (c0 c1 c2 c3 c4 c5 c6 c7 : BitVec 6) :
    (identWord tc ca c0 c1 c2 c3 c4 c5 c6 c7).extractLsb' 6 6 = c6 := by
  rw [identWord]
  iterate 1 rw [field_high _ _ _ _ (by decide)]
  rw [field_low _ _ _ _ (by decide)]
  exact field_all _

theorem identWord_c7 (tc : BitVec 5) (ca : BitVec 3) (c0 c1 c2 c3 c4 c5 c6 c7 : BitVec 6) :
    (identWord tc ca c0 c1 c2 c3 c4 c5 c6 c7).extractLsb' 0 6 = c7 := by
  rw [identWord]
  rw [field_low _ _ _ _ (by decide)]
  exact field_all _

theorem positionWord_tc (tc : BitVec 5) (unread50 : BitVec 3) (alt : BitVec 12) (unread35 f : BitVec 1) (y x : BitVec 17) :
    (positionWord tc unread50 alt unread35 f y x).extractLsb' 51 5 = tc := by
  rw [positionWord]
  iterate 6 rw [field_high _ _ _ _ (by decide)]
  exact field_all _

theorem positionWord_unread50 (tc : BitVec 5) (unread50 : BitVec 3) (alt : BitVec 12) (unread35 f : BitVec 1) (y x : BitVec 17) :
    (positionWord tc unread50 alt unread35 f y x).extractLsb' 48 3 = unread50 := by
  rw [positionWord]
  iterate 5 rw [field_high _ _ _ _ (by decide)]
  rw [field_low _ _ _ _ (by decide)]
  exact field_all _

theorem positionWord_alt (tc : BitVec 5) (unread50 : BitVec 3) (alt : BitVec 12) (unread35 f : BitVec 1) (y x : BitVec 17) :
    (positionWord tc unread50 alt unread35 f y x).extractLsb' 36 12 = alt := by
  rw [positionWord]
  iterate 4 rw [field_high _ _ _ _ (by decide)]
  rw [field_low _ _ _ _ (by decide)]
  exact field_all _

theorem positionWord_unread35 (tc : BitVec 5) (unread50 : BitVec 3) (alt : BitVec 12) (unread35 f : BitVec 1) (y x : BitVec 17) :
    (positionWord tc unread50 alt unread35 f y x).extractLsb' 35 1 = unread35 := by
  rw [positionWord]
  iterate 3 rw [field_high _ _ _ _ (by decide)]
  rw [field_low _ _ _ _ (by decide)]
  exact field_all _

theorem positionWord_f (tc : BitVec 5) (unread50 : BitVec 3) (alt : BitVec 12) (unread35 f : BitVec 1) (y x : BitVec 17) :
    (positionWord tc unread50 alt unread35 f y x).extractLsb' 34 1 = f := by
  rw [positionWord]
  iterate 2 rw [field_high _ _ _ _ (by decide)]
  rw [field_low _ _ _ _ (by decide)]
  exact field_all _

theorem positionWord_y (tc : BitVec 5) (unread50 : BitVec 3) (alt : BitVec 12) (unread35 f : BitVec 1) (y x : BitVec 17) :
    (positionWord tc unread50 alt unread35 f y x).extractLsb' 17 17 = y := by
  rw [positionWord]
  iterate 1 rw [field_high _ _ _ _ (by decide)]
  rw [field_low _ _ _ _ (by decide)]
  exact field_all _

theorem positionWord_x (tc : BitVec 5) (unread50 : BitVec 3) (alt : BitVec 12) (unread35 f : BitVec 1) (y x : BitVec 17) :
    (positionWord tc unread50 alt unread35 f y x).extractLsb' 0 17 = x := by
  rw [positionWord]
  rw [field_low _ _ _ _ (by decide)]
  exact field_all _

theorem velocityWord_tc (st : BitVec 3) (unread47 : BitVec 5) (b42 : BitVec 1) (f41 : BitVec 10) (b31 : BitVec 1)
    (f30 : BitVec 10) (unread20 : BitVec 21) :
    (velocityWord st unread47 b42 f41 b31 f30 unread20).extractLsb' 51 5 = 19#5 := by
  rw [velocityWord]
  iterate 7 rw [field_high _ _ _ _ (by decide)]
  exact field_all _

theorem velocityWord_st (st : BitVec 3) (unread47 : BitVec 5) (b42 : BitVec 1) (f41 : BitVec 10) (b31 : BitVec 1)
    (f30 : BitVec 10) (unread20 : BitVec 21) :
    (velocityWord st unread47 b42 f41 b31 f30 unread20).extractLsb' 48 3 = st := by
  rw [velocityWord]
  iterate 6 rw [field_high _ _ _ _ (by decide)]
  rw [field_low _ _ _ _ (by decide)]
  exact field_all _

theorem velocityWord_unread47 (st : BitVec 3) (unread47 : BitVec 5) (b42 : BitVec 1) (f41 : BitVec 10) (b31 : BitVec 1)
    (f30 : BitVec 10) (unread20 : BitVec 21) :
    (velocityWord st unread47 b42 f41 b31 f30 unread20).extractLsb' 43 5 = unread47 := by
  rw [velocityWord]
  iterate 5 rw [field_high _ _ _ _ (by decide)]
  rw [field_low _ _ _ _ (by decide)]
  exact field_all _

theorem velocityWord_b42 (st : BitVec 3) (unread47 : BitVec 5) (b42 : BitVec 1) (f41 : BitVec 10) (b31 : BitVec 1)
    (f30 : BitVec 10) (unread20 : BitVec 21) :
    (velocityWord st unread47 b42 f41 b31 f30 unread20).extractLsb' 42 1 = b42 := by
  rw [velocityWord]
  iterate 4 rw [field_high _ _ _ _ (by decide)]
  rw [field_low _ _ _ _ (by decide)]
  exact field_all _

theorem velocityWord_f41 (st : BitVec 3) (unread47 : BitVec 5) (b42 : BitVec 1) (f41 : BitVec 10) (b31 : BitVec 1)
    (f30 : BitVec 10) (unread20 : BitVec 21) :
    (velocityWord st unread47 b42 f41 b31 f30 unread20).extractLsb' 32 10 = f41 := by
  rw [velocityWord]
  iterate 3 rw [field_high _ _ _ _ (by decide)]
  rw [field_low _ _ _ _ (by decide)]
  exact field_all _

theorem velocityWord_b31 (st : BitVec 3) (unread47 : BitVec 5) (b42 : BitVec 1) (f41 : BitVec 10) (b31 : BitVec 1)
    (f30 : BitVec 10) (unread20 : BitVec 21) :
    (velocityWord st unread47 b42 f41 b31 f30 unread20).extractLsb' 31 1 = b31 := by
  rw [velocityWord]
  iterate 2 rw [field_high _ _ _ _ (by decide)]
  rw [field_low _ _ _ _ (by decide)]
  exact field_all _

theorem velocityWord_f30 (st : BitVec 3) (unread47 : BitVec 5) (b42 : BitVec 1) (f41 : BitVec 10) (b31 : BitVec 1)
    (f30 : BitVec 10) (unread20 : BitVec 21) :
    (velocityWord st unread47 b42 f41 b31 f30 unread20).extractLsb' 21 10 = f30 := by
  rw [velocityWord]
  iterate 1 rw [field_high _ _ _ _ (by decide)]
  rw [field_low _ _ _ _ (by decide)]
  exact field_all _

theorem velocityWord_unread20 (st : BitVec 3) (unread47 : BitVec 5) (b42 : BitVec 1) (f41 : BitVec 10) (b31 : BitVec 1)
    (f30 : BitVec 10) (unread20 : BitVec 21) :
    (velocityWord st unread47 b42 f41 b31 f30 unread20).extractLsb' 0 21 = unread20 := by
  rw [velocityWord]
  rw [field_low _ _ _ _ (by decide)]
  exact field_all _

theorem velocityRestWord_tc (st : BitVec 3) (unread : BitVec 48) :
    (velocityRestWord st unread).extractLsb' 51 5 = 19#5 := by
  rw [velocityRestWord]
  iterate 2 rw [field_high _ _ _ _ (by decide)]
  exact field_all _

theorem velocityRestWord_st (st : BitVec 3) (unread : BitVec 48) :
    (velocityRestWord st unread).extractLsb' 48 3 = st := by
  rw [velocityRestWord]
  iterate 1 rw [field_high _ _ _ _ (by decide)]
  rw [field_low _ _ _ _ (by decide)]
  exact field_all _

theorem velocityRestWord_unread (st : BitVec 3) (unread : BitVec 48) :
    (velocityRestWord st unread).extractLsb' 0 48 = unread := by
  rw [velocityRestWord]
  rw [field_low _ _ _ _ (by decide)]
  exact field_all _

theorem restWord_tc (tc : BitVec 5) (unread : BitVec 51) :
    (restWord tc unread).extractLsb' 51 5 = tc := by
  rw [restWord]
  iterate 1 rw [field_high _ _ _ _ (by decide)]
  exact field_all _

theorem restWord_unread (tc : BitVec 5) (unread : BitVec 51) :
    (restWord tc unread).extractLsb' 0 51 = unread := by
  rw [restWord]
  rw [field_low _ _ _ _ (by decide)]
  exact field_all _

theorem frameWord_df (df : BitVec 5) (unread : BitVec 3) (icao : Icao) (me : Me) (check : BitVec 24) :
    (frameWord df unread icao me check).extractLsb' 107 5 = df := by
  rw [frameWord]
  iterate 4 rw [field_high _ _ _ _ (by decide)]
  exact field_all _

theorem frameWord_unread (df : BitVec 5) (unread : BitVec 3) (icao : Icao) (me : Me) (check : BitVec 24) :
    (frameWord df unread icao me check).extractLsb' 104 3 = unread := by
  rw [frameWord]
  iterate 3 rw [field_high _ _ _ _ (by decide)]
  rw [field_low _ _ _ _ (by decide)]
  exact field_all _

theorem frameWord_icao (df : BitVec 5) (unread : BitVec 3) (icao : Icao) (me : Me) (check : BitVec 24) :
    (frameWord df unread icao me check).extractLsb' 80 24 = icao := by
  rw [frameWord]
  iterate 2 rw [field_high _ _ _ _ (by decide)]
  rw [field_low _ _ _ _ (by decide)]
  exact field_all _

theorem frameWord_me (df : BitVec 5) (unread : BitVec 3) (icao : Icao) (me : Me) (check : BitVec 24) :
    (frameWord df unread icao me check).extractLsb' 24 56 = me := by
  rw [frameWord]
  iterate 1 rw [field_high _ _ _ _ (by decide)]
  rw [field_low _ _ _ _ (by decide)]
  exact field_all _

theorem frameWord_check (df : BitVec 5) (unread : BitVec 3) (icao : Icao) (me : Me) (check : BitVec 24) :
    (frameWord df unread icao me check).extractLsb' 0 24 = check := by
  rw [frameWord]
  rw [field_low _ _ _ _ (by decide)]
  exact field_all _

theorem altQ1Word_q (nHi : BitVec 7) (nLo : BitVec 4) :
    (altQ1Word nHi nLo).extractLsb' 4 1 = 1#1 := by
  rw [altQ1Word]
  iterate 1 rw [field_high _ _ _ _ (by decide)]
  rw [field_low _ _ _ _ (by decide)]
  exact field_all _

theorem altQ1Word_nHi (nHi : BitVec 7) (nLo : BitVec 4) :
    (altQ1Word nHi nLo).extractLsb' 5 7 = nHi := by
  rw [altQ1Word]
  iterate 2 rw [field_high _ _ _ _ (by decide)]
  exact field_all _

theorem altQ1Word_nLo (nHi : BitVec 7) (nLo : BitVec 4) :
    (altQ1Word nHi nLo).extractLsb' 0 4 = nLo := by
  rw [altQ1Word]
  rw [field_low _ _ _ _ (by decide)]
  exact field_all _

theorem altQ0Word_c1 (c1 a1 c2 a2 c4 a4 b1 b2 d2 b4 d4 : BitVec 1) :
    (altQ0Word c1 a1 c2 a2 c4 a4 b1 b2 d2 b4 d4).extractLsb' 11 1 = c1 := by
  rw [altQ0Word]
  iterate 11 rw [field_high _ _ _ _ (by decide)]
  exact field_all _

theorem altQ0Word_a1 (c1 a1 c2 a2 c4 a4 b1 b2 d2 b4 d4 : BitVec 1) :
    (altQ0Word c1 a1 c2 a2 c4 a4 b1 b2 d2 b4 d4).extractLsb' 10 1 = a1 := by
  rw [altQ0Word]
  iterate 10 rw [field_high _ _ _ _ (by decide)]
  rw [field_low _ _ _ _ (by decide)]
  exact field_all _

theorem altQ0Word_c2 (c1 a1 c2 a2 c4 a4 b1 b2 d2 b4 d4 : BitVec 1) :
    (altQ0Word c1 a1 c2 a2 c4 a4 b1 b2 d2 b4 d4).extractLsb' 9 1 = c2 := by
  rw [altQ0Word]
  iterate 9 rw [field_high _ _ _ _ (by decide)]
  rw [field_low _ _ _ _ (by decide)]
  exact field_all _

theorem altQ0Word_a2 (c1 a1 c2 a2 c4 a4 b1 b2 d2 b4 d4 : BitVec 1) :
    (altQ0Word c1 a1 c2 a2 c4 a4 b1 b2 d2 b4 d4).extractLsb' 8 1 = a2 := by
  rw [altQ0Word]
  iterate 8 rw [field_high _ _ _ _ (by decide)]
  rw [field_low _ _ _ _ (by decide)]
  exact field_all _

theorem altQ0Word_c4 (c1 a1 c2 a2 c4 a4 b1 b2 d2 b4 d4 : BitVec 1) :
    (altQ0Word c1 a1 c2 a2 c4 a4 b1 b2 d2 b4 d4).extractLsb' 7 1 = c4 := by
  rw [altQ0Word]
  iterate 7 rw [field_high _ _ _ _ (by decide)]
  rw [field_low _ _ _ _ (by decide)]
  exact field_all _

theorem altQ0Word_a4 (c1 a1 c2 a2 c4 a4 b1 b2 d2 b4 d4 : BitVec 1) :
    (altQ0Word c1 a1 c2 a2 c4 a4 b1 b2 d2 b4 d4).extractLsb' 6 1 = a4 := by
  rw [altQ0Word]
  iterate 6 rw [field_high _ _ _ _ (by decide)]
  rw [field_low _ _ _ _ (by decide)]
  exact field_all _

theorem altQ0Word_b1 (c1 a1 c2 a2 c4 a4 b1 b2 d2 b4 d4 : BitVec 1) :
    (altQ0Word c1 a1 c2 a2 c4 a4 b1 b2 d2 b4 d4).extractLsb' 5 1 = b1 := by
  rw [altQ0Word]
  iterate 5 rw [field_high _ _ _ _ (by decide)]
  rw [field_low _ _ _ _ (by decide)]
  exact field_all _

theorem altQ0Word_q (c1 a1 c2 a2 c4 a4 b1 b2 d2 b4 d4 : BitVec 1) :
    (altQ0Word c1 a1 c2 a2 c4 a4 b1 b2 d2 b4 d4).extractLsb' 4 1 = 0#1 := by
  rw [altQ0Word]
  iterate 4 rw [field_high _ _ _ _ (by decide)]
  rw [field_low _ _ _ _ (by decide)]
  exact field_all _

theorem altQ0Word_b2 (c1 a1 c2 a2 c4 a4 b1 b2 d2 b4 d4 : BitVec 1) :
    (altQ0Word c1 a1 c2 a2 c4 a4 b1 b2 d2 b4 d4).extractLsb' 3 1 = b2 := by
  rw [altQ0Word]
  iterate 3 rw [field_high _ _ _ _ (by decide)]
  rw [field_low _ _ _ _ (by decide)]
  exact field_all _

theorem altQ0Word_d2 (c1 a1 c2 a2 c4 a4 b1 b2 d2 b4 d4 : BitVec 1) :
    (altQ0Word c1 a1 c2 a2 c4 a4 b1 b2 d2 b4 d4).extractLsb' 2 1 = d2 := by
  rw [altQ0Word]
  iterate 2 rw [field_high _ _ _ _ (by decide)]
  rw [field_low _ _ _ _ (by decide)]
  exact field_all _

theorem altQ0Word_b4 (c1 a1 c2 a2 c4 a4 b1 b2 d2 b4 d4 : BitVec 1) :
    (altQ0Word c1 a1 c2 a2 c4 a4 b1 b2 d2 b4 d4).extractLsb' 1 1 = b4 := by
  rw [altQ0Word]
  iterate 1 rw [field_high _ _ _ _ (by decide)]
  rw [field_low _ _ _ _ (by decide)]
  exact field_all _

theorem altQ0Word_d4 (c1 a1 c2 a2 c4 a4 b1 b2 d2 b4 d4 : BitVec 1) :
    (altQ0Word c1 a1 c2 a2 c4 a4 b1 b2 d2 b4 d4).extractLsb' 0 1 = d4 := by
  rw [altQ0Word]
  rw [field_low _ _ _ _ (by decide)]
  exact field_all _

/-! ## The other decoders on each row's word -/

theorem decodeSample_append (ignored : BitVec 4) (u : BitVec 12) : decodeSample (ignored ++ u) = .sample ignored u := by
  rw [decodeSample, field_high _ _ _ _ (by decide), field_low _ _ _ _ (by decide)]
  exact congrArg₂ Instr.sample (field_all _) (field_all _)

theorem decodeReplay_append (timestampNs : BitVec 64) (frame : Frame) :
    decodeReplay (timestampNs ++ frame) = .replayRecord timestampNs frame := by
  rw [decodeReplay, field_high _ _ _ _ (by decide), field_low _ _ _ _ (by decide)]
  exact congrArg₂ Instr.replayRecord (field_all _) (field_all _)

theorem decodeFrame_df17 (unread : BitVec 3) (icao : Icao) (me : Me) (check : BitVec 24) :
    decodeFrame (frameWord 17#5 unread icao me check) = .frameDf17 unread icao me check := by
  rw [decodeFrame, frameWord_df, if_pos (show 17#5 = Config.dfAdsb from rfl), frameWord_unread, frameWord_icao,
    frameWord_me, frameWord_check]

theorem decodeFrame_other {df : BitVec 5} (h : df ≠ Config.dfAdsb) (unread : BitVec 3) (icao : Icao) (me : Me)
    (check : BitVec 24) : decodeFrame (frameWord df unread icao me check) = .frameOther df unread icao me check := by
  rw [decodeFrame, frameWord_df, if_neg h, frameWord_unread, frameWord_icao, frameWord_me, frameWord_check]

theorem decodeAlt_q1 (nHi : BitVec 7) (nLo : BitVec 4) : decodeAlt (altQ1Word nHi nLo) = .altQ1 nHi nLo := by
  rw [decodeAlt, altQ1Word_q, if_pos rfl, altQ1Word_nHi, altQ1Word_nLo]

theorem decodeAlt_q0 (c1 a1 c2 a2 c4 a4 b1 b2 d2 b4 d4 : BitVec 1) :
    decodeAlt (altQ0Word c1 a1 c2 a2 c4 a4 b1 b2 d2 b4 d4) = .altQ0 c1 a1 c2 a2 c4 a4 b1 b2 d2 b4 d4 := by
  rw [decodeAlt, altQ0Word_q, if_neg (by decide), altQ0Word_c1, altQ0Word_a1, altQ0Word_c2, altQ0Word_a2, altQ0Word_c4,
    altQ0Word_a4, altQ0Word_b1, altQ0Word_b2, altQ0Word_d2, altQ0Word_b4, altQ0Word_d4]

/-! ## The payload decoder on each row's word -/

theorem decodeMe_identWord1 (ca : BitVec 3) (c0 c1 c2 c3 c4 c5 c6 c7 : BitVec 6) :
    decodeMe (identWord 1#5 ca c0 c1 c2 c3 c4 c5 c6 c7) = .meIdentTc1 ca c0 c1 c2 c3 c4 c5 c6 c7 := by
  simp only [decodeMe, identWord_tc, BitVec.reduceToNat, identWord_ca, identWord_c0, identWord_c1, identWord_c2, identWord_c3,
    identWord_c4, identWord_c5, identWord_c6, identWord_c7]

theorem decodeMe_identWord2 (ca : BitVec 3) (c0 c1 c2 c3 c4 c5 c6 c7 : BitVec 6) :
    decodeMe (identWord 2#5 ca c0 c1 c2 c3 c4 c5 c6 c7) = .meIdentTc2 ca c0 c1 c2 c3 c4 c5 c6 c7 := by
  simp only [decodeMe, identWord_tc, BitVec.reduceToNat, identWord_ca, identWord_c0, identWord_c1, identWord_c2, identWord_c3,
    identWord_c4, identWord_c5, identWord_c6, identWord_c7]

theorem decodeMe_identWord3 (ca : BitVec 3) (c0 c1 c2 c3 c4 c5 c6 c7 : BitVec 6) :
    decodeMe (identWord 3#5 ca c0 c1 c2 c3 c4 c5 c6 c7) = .meIdentTc3 ca c0 c1 c2 c3 c4 c5 c6 c7 := by
  simp only [decodeMe, identWord_tc, BitVec.reduceToNat, identWord_ca, identWord_c0, identWord_c1, identWord_c2, identWord_c3,
    identWord_c4, identWord_c5, identWord_c6, identWord_c7]

theorem decodeMe_identWord4 (ca : BitVec 3) (c0 c1 c2 c3 c4 c5 c6 c7 : BitVec 6) :
    decodeMe (identWord 4#5 ca c0 c1 c2 c3 c4 c5 c6 c7) = .meIdentTc4 ca c0 c1 c2 c3 c4 c5 c6 c7 := by
  simp only [decodeMe, identWord_tc, BitVec.reduceToNat, identWord_ca, identWord_c0, identWord_c1, identWord_c2, identWord_c3,
    identWord_c4, identWord_c5, identWord_c6, identWord_c7]

theorem decodeMe_position9 (unread50 : BitVec 3) (alt : BitVec 12) (unread35 f : BitVec 1) (y x : BitVec 17) :
    decodeMe (positionWord 9#5 unread50 alt unread35 f y x) = .mePositionTc9 unread50 alt unread35 f y x := by
  simp only [decodeMe, positionWord_tc, BitVec.reduceToNat, positionWord_unread50, positionWord_alt, positionWord_unread35,
    positionWord_f, positionWord_y, positionWord_x]

theorem decodeMe_position10 (unread50 : BitVec 3) (alt : BitVec 12) (unread35 f : BitVec 1) (y x : BitVec 17) :
    decodeMe (positionWord 10#5 unread50 alt unread35 f y x) = .mePositionTc10 unread50 alt unread35 f y x := by
  simp only [decodeMe, positionWord_tc, BitVec.reduceToNat, positionWord_unread50, positionWord_alt, positionWord_unread35,
    positionWord_f, positionWord_y, positionWord_x]

theorem decodeMe_position11 (unread50 : BitVec 3) (alt : BitVec 12) (unread35 f : BitVec 1) (y x : BitVec 17) :
    decodeMe (positionWord 11#5 unread50 alt unread35 f y x) = .mePositionTc11 unread50 alt unread35 f y x := by
  simp only [decodeMe, positionWord_tc, BitVec.reduceToNat, positionWord_unread50, positionWord_alt, positionWord_unread35,
    positionWord_f, positionWord_y, positionWord_x]

theorem decodeMe_position12 (unread50 : BitVec 3) (alt : BitVec 12) (unread35 f : BitVec 1) (y x : BitVec 17) :
    decodeMe (positionWord 12#5 unread50 alt unread35 f y x) = .mePositionTc12 unread50 alt unread35 f y x := by
  simp only [decodeMe, positionWord_tc, BitVec.reduceToNat, positionWord_unread50, positionWord_alt, positionWord_unread35,
    positionWord_f, positionWord_y, positionWord_x]

theorem decodeMe_position13 (unread50 : BitVec 3) (alt : BitVec 12) (unread35 f : BitVec 1) (y x : BitVec 17) :
    decodeMe (positionWord 13#5 unread50 alt unread35 f y x) = .mePositionTc13 unread50 alt unread35 f y x := by
  simp only [decodeMe, positionWord_tc, BitVec.reduceToNat, positionWord_unread50, positionWord_alt, positionWord_unread35,
    positionWord_f, positionWord_y, positionWord_x]

theorem decodeMe_position14 (unread50 : BitVec 3) (alt : BitVec 12) (unread35 f : BitVec 1) (y x : BitVec 17) :
    decodeMe (positionWord 14#5 unread50 alt unread35 f y x) = .mePositionTc14 unread50 alt unread35 f y x := by
  simp only [decodeMe, positionWord_tc, BitVec.reduceToNat, positionWord_unread50, positionWord_alt, positionWord_unread35,
    positionWord_f, positionWord_y, positionWord_x]

theorem decodeMe_position15 (unread50 : BitVec 3) (alt : BitVec 12) (unread35 f : BitVec 1) (y x : BitVec 17) :
    decodeMe (positionWord 15#5 unread50 alt unread35 f y x) = .mePositionTc15 unread50 alt unread35 f y x := by
  simp only [decodeMe, positionWord_tc, BitVec.reduceToNat, positionWord_unread50, positionWord_alt, positionWord_unread35,
    positionWord_f, positionWord_y, positionWord_x]

theorem decodeMe_position16 (unread50 : BitVec 3) (alt : BitVec 12) (unread35 f : BitVec 1) (y x : BitVec 17) :
    decodeMe (positionWord 16#5 unread50 alt unread35 f y x) = .mePositionTc16 unread50 alt unread35 f y x := by
  simp only [decodeMe, positionWord_tc, BitVec.reduceToNat, positionWord_unread50, positionWord_alt, positionWord_unread35,
    positionWord_f, positionWord_y, positionWord_x]

theorem decodeMe_position17 (unread50 : BitVec 3) (alt : BitVec 12) (unread35 f : BitVec 1) (y x : BitVec 17) :
    decodeMe (positionWord 17#5 unread50 alt unread35 f y x) = .mePositionTc17 unread50 alt unread35 f y x := by
  simp only [decodeMe, positionWord_tc, BitVec.reduceToNat, positionWord_unread50, positionWord_alt, positionWord_unread35,
    positionWord_f, positionWord_y, positionWord_x]

theorem decodeMe_position18 (unread50 : BitVec 3) (alt : BitVec 12) (unread35 f : BitVec 1) (y x : BitVec 17) :
    decodeMe (positionWord 18#5 unread50 alt unread35 f y x) = .mePositionTc18 unread50 alt unread35 f y x := by
  simp only [decodeMe, positionWord_tc, BitVec.reduceToNat, positionWord_unread50, positionWord_alt, positionWord_unread35,
    positionWord_f, positionWord_y, positionWord_x]

theorem decodeMe_position20 (unread50 : BitVec 3) (alt : BitVec 12) (unread35 f : BitVec 1) (y x : BitVec 17) :
    decodeMe (positionWord 20#5 unread50 alt unread35 f y x) = .mePositionTc20 unread50 alt unread35 f y x := by
  simp only [decodeMe, positionWord_tc, BitVec.reduceToNat, positionWord_unread50, positionWord_alt, positionWord_unread35,
    positionWord_f, positionWord_y, positionWord_x]

theorem decodeMe_position21 (unread50 : BitVec 3) (alt : BitVec 12) (unread35 f : BitVec 1) (y x : BitVec 17) :
    decodeMe (positionWord 21#5 unread50 alt unread35 f y x) = .mePositionTc21 unread50 alt unread35 f y x := by
  simp only [decodeMe, positionWord_tc, BitVec.reduceToNat, positionWord_unread50, positionWord_alt, positionWord_unread35,
    positionWord_f, positionWord_y, positionWord_x]

theorem decodeMe_position22 (unread50 : BitVec 3) (alt : BitVec 12) (unread35 f : BitVec 1) (y x : BitVec 17) :
    decodeMe (positionWord 22#5 unread50 alt unread35 f y x) = .mePositionTc22 unread50 alt unread35 f y x := by
  simp only [decodeMe, positionWord_tc, BitVec.reduceToNat, positionWord_unread50, positionWord_alt, positionWord_unread35,
    positionWord_f, positionWord_y, positionWord_x]

theorem decodeMe_velocity1 (unread47 : BitVec 5) (dew : BitVec 1) (vew : BitVec 10) (dns : BitVec 1) (vns : BitVec 10) (unread20 : BitVec 21) :
    decodeMe (velocityWord 1#3 unread47 dew vew dns vns unread20) = .meVelocitySt1 unread47 dew vew dns vns unread20 := by
  simp only [decodeMe, velocityWord_tc, velocityWord_st, BitVec.reduceToNat, velocityWord_unread47, velocityWord_b42,
    velocityWord_f41, velocityWord_b31, velocityWord_f30, velocityWord_unread20]

theorem decodeMe_velocity2 (unread47 : BitVec 5) (dew : BitVec 1) (vew : BitVec 10) (dns : BitVec 1) (vns : BitVec 10) (unread20 : BitVec 21) :
    decodeMe (velocityWord 2#3 unread47 dew vew dns vns unread20) = .meVelocitySt2 unread47 dew vew dns vns unread20 := by
  simp only [decodeMe, velocityWord_tc, velocityWord_st, BitVec.reduceToNat, velocityWord_unread47, velocityWord_b42,
    velocityWord_f41, velocityWord_b31, velocityWord_f30, velocityWord_unread20]

theorem decodeMe_velocity3 (unread47 : BitVec 5) (sh : BitVec 1) (hdg : BitVec 10) (unread31 : BitVec 1) (airspeed : BitVec 10) (unread20 : BitVec 21) :
    decodeMe (velocityWord 3#3 unread47 sh hdg unread31 airspeed unread20) = .meVelocitySt3 unread47 sh hdg unread31 airspeed unread20 := by
  simp only [decodeMe, velocityWord_tc, velocityWord_st, BitVec.reduceToNat, velocityWord_unread47, velocityWord_b42,
    velocityWord_f41, velocityWord_b31, velocityWord_f30, velocityWord_unread20]

theorem decodeMe_velocity4 (unread47 : BitVec 5) (sh : BitVec 1) (hdg : BitVec 10) (unread31 : BitVec 1) (airspeed : BitVec 10) (unread20 : BitVec 21) :
    decodeMe (velocityWord 4#3 unread47 sh hdg unread31 airspeed unread20) = .meVelocitySt4 unread47 sh hdg unread31 airspeed unread20 := by
  simp only [decodeMe, velocityWord_tc, velocityWord_st, BitVec.reduceToNat, velocityWord_unread47, velocityWord_b42,
    velocityWord_f41, velocityWord_b31, velocityWord_f30, velocityWord_unread20]

theorem decodeMe_velocity0 (unread : BitVec 48) :
    decodeMe (velocityRestWord 0#3 unread) = .meVelocitySt0 unread := by
  simp only [decodeMe, velocityRestWord_tc, velocityRestWord_st, BitVec.reduceToNat, velocityRestWord_unread]

theorem decodeMe_velocity5 (unread : BitVec 48) :
    decodeMe (velocityRestWord 5#3 unread) = .meVelocitySt5 unread := by
  simp only [decodeMe, velocityRestWord_tc, velocityRestWord_st, BitVec.reduceToNat, velocityRestWord_unread]

theorem decodeMe_velocity6 (unread : BitVec 48) :
    decodeMe (velocityRestWord 6#3 unread) = .meVelocitySt6 unread := by
  simp only [decodeMe, velocityRestWord_tc, velocityRestWord_st, BitVec.reduceToNat, velocityRestWord_unread]

theorem decodeMe_velocity7 (unread : BitVec 48) :
    decodeMe (velocityRestWord 7#3 unread) = .meVelocitySt7 unread := by
  simp only [decodeMe, velocityRestWord_tc, velocityRestWord_st, BitVec.reduceToNat, velocityRestWord_unread]

theorem decodeMe_tc0 (unread : BitVec 51) :
    decodeMe (restWord 0#5 unread) = .meTc0 unread := by
  simp only [decodeMe, restWord_tc, BitVec.reduceToNat, restWord_unread]

theorem decodeMe_tc5 (unread : BitVec 51) :
    decodeMe (restWord 5#5 unread) = .meTc5 unread := by
  simp only [decodeMe, restWord_tc, BitVec.reduceToNat, restWord_unread]

theorem decodeMe_tc6 (unread : BitVec 51) :
    decodeMe (restWord 6#5 unread) = .meTc6 unread := by
  simp only [decodeMe, restWord_tc, BitVec.reduceToNat, restWord_unread]

theorem decodeMe_tc7 (unread : BitVec 51) :
    decodeMe (restWord 7#5 unread) = .meTc7 unread := by
  simp only [decodeMe, restWord_tc, BitVec.reduceToNat, restWord_unread]

theorem decodeMe_tc8 (unread : BitVec 51) :
    decodeMe (restWord 8#5 unread) = .meTc8 unread := by
  simp only [decodeMe, restWord_tc, BitVec.reduceToNat, restWord_unread]

theorem decodeMe_tc23 (unread : BitVec 51) :
    decodeMe (restWord 23#5 unread) = .meTc23 unread := by
  simp only [decodeMe, restWord_tc, BitVec.reduceToNat, restWord_unread]

theorem decodeMe_tc24 (unread : BitVec 51) :
    decodeMe (restWord 24#5 unread) = .meTc24 unread := by
  simp only [decodeMe, restWord_tc, BitVec.reduceToNat, restWord_unread]

theorem decodeMe_tc25 (unread : BitVec 51) :
    decodeMe (restWord 25#5 unread) = .meTc25 unread := by
  simp only [decodeMe, restWord_tc, BitVec.reduceToNat, restWord_unread]

theorem decodeMe_tc26 (unread : BitVec 51) :
    decodeMe (restWord 26#5 unread) = .meTc26 unread := by
  simp only [decodeMe, restWord_tc, BitVec.reduceToNat, restWord_unread]

theorem decodeMe_tc27 (unread : BitVec 51) :
    decodeMe (restWord 27#5 unread) = .meTc27 unread := by
  simp only [decodeMe, restWord_tc, BitVec.reduceToNat, restWord_unread]

theorem decodeMe_tc28 (unread : BitVec 51) :
    decodeMe (restWord 28#5 unread) = .meTc28 unread := by
  simp only [decodeMe, restWord_tc, BitVec.reduceToNat, restWord_unread]

theorem decodeMe_tc29 (unread : BitVec 51) :
    decodeMe (restWord 29#5 unread) = .meTc29 unread := by
  simp only [decodeMe, restWord_tc, BitVec.reduceToNat, restWord_unread]

theorem decodeMe_tc30 (unread : BitVec 51) :
    decodeMe (restWord 30#5 unread) = .meTc30 unread := by
  simp only [decodeMe, restWord_tc, BitVec.reduceToNat, restWord_unread]

theorem decodeMe_tc31 (unread : BitVec 51) :
    decodeMe (restWord 31#5 unread) = .meTc31 unread := by
  simp only [decodeMe, restWord_tc, BitVec.reduceToNat, restWord_unread]

end Sys2Proof
end

