-- ==== Sys2Proof/Laws/PerInstr.lean ====
section
/-! SUPPORT. The family RoundTrip: decoding what the encoder writes gives the instruction back, one lemma for each
constructor of `Instr`. -/

namespace Sys2Proof.Laws.RoundTrip

set_option Elab.async false

/-- The decoder reads a well-formed instruction back from the request that the encoder writes for it. -/
def Statement (i : Instr) : Prop := i.wellFormed = true → decode (encode i) = .ok i

theorem bfExtract (value : Word) (start size : Int) :
    Statement (.bfExtract value start size) := fun _ => decode_call (decodeCall_bfExtract value start size)

theorem bfTest (value : Word) (index : Int) :
    Statement (.bfTest value index) := fun _ => decode_call (decodeCall_bfTest value index)

theorem crcBuild (generator : BitVec 24) :
    Statement (.crcBuild generator) := fun _ => decode_call (decodeCall_crcBuild generator)

theorem crcCrc (bytes : List Byte) :
    Statement (.crcCrc bytes) := fun _ => decode_call (decodeCall_crcCrc bytes)

theorem sdNew (source : Nat) (batchSize : Int) :
    Statement (.sdNew source batchSize) := fun _ => decode_call (decodeCall_sdNew source batchSize)

theorem sdReadbatch :
    Statement .sdReadbatch := fun _ => decode_call rfl

theorem pcNew (source : Nat) (batchSize : Int) :
    Statement (.pcNew source batchSize) := fun _ => decode_call (decodeCall_pcNew source batchSize)

theorem pcReadbatch :
    Statement .pcReadbatch := fun _ => decode_call rfl

theorem pwNew (source : Nat) (windowSize : Int) :
    Statement (.pwNew source windowSize) := fun _ => decode_call (decodeCall_pwNew source windowSize)

theorem pwSize :
    Statement .pwSize := fun _ => decode_call rfl

theorem pwPosition :
    Statement .pwPosition := fun _ => decode_call rfl

theorem pwIsfull :
    Statement .pwIsfull := fun _ => decode_call rfl

theorem pwGet (i : Int) :
    Statement (.pwGet i) := fun _ => decode_call (decodeCall_pwGet i)

theorem pwAdvance :
    Statement .pwAdvance := fun _ => decode_call rfl

theorem pwAdvanceby (n : Nat) :
    Statement (.pwAdvanceby n) := fun _ => decode_call (decodeCall_pwAdvanceby n)

theorem dmNew (source : Nat) :
    Statement (.dmNew source) := fun _ => decode_call (decodeCall_dmNew source)

theorem dmSp :
    Statement .dmSp := fun _ => decode_call rfl

theorem dmSv :
    Statement .dmSv := fun _ => decode_call rfl

theorem dmDetect :
    Statement .dmDetect := fun _ => decode_call rfl

theorem dmSlice :
    Statement .dmSlice := fun _ => decode_call rfl

theorem dmNext :
    Statement .dmNext := fun _ => decode_call rfl

theorem rmOf (timestampNs : BitVec 64) (bytes : Frame) :
    Statement (.rmOf timestampNs bytes) := fun _ => decode_call (decodeCall_rmOf timestampNs bytes)

theorem rmDf (raw : RawMessage) :
    Statement (.rmDf raw) := fun _ => decode_call (decodeCall_rmDf raw)

theorem rmIcao (raw : RawMessage) :
    Statement (.rmIcao raw) := fun _ => decode_call (decodeCall_rmIcao raw)

theorem rmMe (raw : RawMessage) :
    Statement (.rmMe raw) := fun _ => decode_call (decodeCall_rmMe raw)

theorem rmTc (raw : RawMessage) :
    Statement (.rmTc raw) := fun _ => decode_call (decodeCall_rmTc raw)

theorem mpParse (raw : RawMessage) :
    Statement (.mpParse raw) := fun _ => decode_call (decodeCall_mpParse raw)

theorem idDecode (raw : RawMessage) :
    Statement (.idDecode raw) := fun _ => decode_call (decodeCall_idDecode raw)

theorem apDecode (raw : RawMessage) :
    Statement (.apDecode raw) := fun _ => decode_call (decodeCall_apDecode raw)

theorem altDecode (alt : BitVec 12) :
    Statement (.altDecode alt) := fun _ => decode_call (decodeCall_altDecode alt)

theorem grayDecode (g : GrayCode) :
    Statement (.grayDecode g) := fun h => by
  simp only [Instr.wellFormed, Bool.and_eq_true, decide_eq_true_eq] at h
  exact decode_call (decodeCall_grayDecode h.1 h.2)

theorem avDecode (raw : RawMessage) :
    Statement (.avDecode raw) := fun _ => decode_call (decodeCall_avDecode raw)

theorem cprNl (phi : Turns) :
    Statement (.cprNl phi) := fun h => decode_call (decodeCall_cprNl (by simpa [Instr.wellFormed] using h))

theorem cprDecode (x0 y0 x1 y1 : BitVec 17) (mostRecent : BitVec 1) :
    Statement (.cprDecode x0 y0 x1 y1 mostRecent) := fun _ => decode_call (decodeCall_cprDecode x0 y0 x1 y1 mostRecent)

theorem accUpdate (msg : Message) :
    Statement (.accUpdate msg) := fun h => decode_call (decodeCall_accUpdate h)

theorem sample (ignored : BitVec 4) (u : BitVec 12) :
    Statement (.sample ignored u) := fun _ => (decode_encode_sample _).trans (congrArg Except.ok (decodeSample_append ignored u))

theorem replayRecord (timestampNs : BitVec 64) (frame : Frame) :
    Statement (.replayRecord timestampNs frame) := fun _ => (decode_encode_replay _).trans (congrArg Except.ok (decodeReplay_append timestampNs frame))

theorem frameDf17 (unread : BitVec 3) (icao : Icao) (me : Me) (check : BitVec 24) :
    Statement (.frameDf17 unread icao me check) := fun _ => (decode_encode_frame _).trans (congrArg Except.ok (decodeFrame_df17 unread icao me check))

theorem frameOther (df : BitVec 5) (unread : BitVec 3) (icao : Icao) (me : Me) (check : BitVec 24) :
    Statement (.frameOther df unread icao me check) := fun h =>
  (decode_encode_frame _).trans (congrArg Except.ok (decodeFrame_other (by simpa [Instr.wellFormed] using h) unread icao me check))

theorem meIdentTc1 (ca : BitVec 3) (c0 c1 c2 c3 c4 c5 c6 c7 : BitVec 6) :
    Statement (.meIdentTc1 ca c0 c1 c2 c3 c4 c5 c6 c7) := fun _ =>
  (decode_encode_me _).trans (congrArg Except.ok (decodeMe_identWord1 ca c0 c1 c2 c3 c4 c5 c6 c7))

theorem meIdentTc2 (ca : BitVec 3) (c0 c1 c2 c3 c4 c5 c6 c7 : BitVec 6) :
    Statement (.meIdentTc2 ca c0 c1 c2 c3 c4 c5 c6 c7) := fun _ =>
  (decode_encode_me _).trans (congrArg Except.ok (decodeMe_identWord2 ca c0 c1 c2 c3 c4 c5 c6 c7))

theorem meIdentTc3 (ca : BitVec 3) (c0 c1 c2 c3 c4 c5 c6 c7 : BitVec 6) :
    Statement (.meIdentTc3 ca c0 c1 c2 c3 c4 c5 c6 c7) := fun _ =>
  (decode_encode_me _).trans (congrArg Except.ok (decodeMe_identWord3 ca c0 c1 c2 c3 c4 c5 c6 c7))

theorem meIdentTc4 (ca : BitVec 3) (c0 c1 c2 c3 c4 c5 c6 c7 : BitVec 6) :
    Statement (.meIdentTc4 ca c0 c1 c2 c3 c4 c5 c6 c7) := fun _ =>
  (decode_encode_me _).trans (congrArg Except.ok (decodeMe_identWord4 ca c0 c1 c2 c3 c4 c5 c6 c7))

theorem mePositionTc9 (unread50 : BitVec 3) (alt : BitVec 12) (unread35 f : BitVec 1) (y x : BitVec 17) :
    Statement (.mePositionTc9 unread50 alt unread35 f y x) := fun _ =>
  (decode_encode_me _).trans (congrArg Except.ok (decodeMe_position9 unread50 alt unread35 f y x))

theorem mePositionTc10 (unread50 : BitVec 3) (alt : BitVec 12) (unread35 f : BitVec 1) (y x : BitVec 17) :
    Statement (.mePositionTc10 unread50 alt unread35 f y x) := fun _ =>
  (decode_encode_me _).trans (congrArg Except.ok (decodeMe_position10 unread50 alt unread35 f y x))

theorem mePositionTc11 (unread50 : BitVec 3) (alt : BitVec 12) (unread35 f : BitVec 1) (y x : BitVec 17) :
    Statement (.mePositionTc11 unread50 alt unread35 f y x) := fun _ =>
  (decode_encode_me _).trans (congrArg Except.ok (decodeMe_position11 unread50 alt unread35 f y x))

theorem mePositionTc12 (unread50 : BitVec 3) (alt : BitVec 12) (unread35 f : BitVec 1) (y x : BitVec 17) :
    Statement (.mePositionTc12 unread50 alt unread35 f y x) := fun _ =>
  (decode_encode_me _).trans (congrArg Except.ok (decodeMe_position12 unread50 alt unread35 f y x))

theorem mePositionTc13 (unread50 : BitVec 3) (alt : BitVec 12) (unread35 f : BitVec 1) (y x : BitVec 17) :
    Statement (.mePositionTc13 unread50 alt unread35 f y x) := fun _ =>
  (decode_encode_me _).trans (congrArg Except.ok (decodeMe_position13 unread50 alt unread35 f y x))

theorem mePositionTc14 (unread50 : BitVec 3) (alt : BitVec 12) (unread35 f : BitVec 1) (y x : BitVec 17) :
    Statement (.mePositionTc14 unread50 alt unread35 f y x) := fun _ =>
  (decode_encode_me _).trans (congrArg Except.ok (decodeMe_position14 unread50 alt unread35 f y x))

theorem mePositionTc15 (unread50 : BitVec 3) (alt : BitVec 12) (unread35 f : BitVec 1) (y x : BitVec 17) :
    Statement (.mePositionTc15 unread50 alt unread35 f y x) := fun _ =>
  (decode_encode_me _).trans (congrArg Except.ok (decodeMe_position15 unread50 alt unread35 f y x))

theorem mePositionTc16 (unread50 : BitVec 3) (alt : BitVec 12) (unread35 f : BitVec 1) (y x : BitVec 17) :
    Statement (.mePositionTc16 unread50 alt unread35 f y x) := fun _ =>
  (decode_encode_me _).trans (congrArg Except.ok (decodeMe_position16 unread50 alt unread35 f y x))

theorem mePositionTc17 (unread50 : BitVec 3) (alt : BitVec 12) (unread35 f : BitVec 1) (y x : BitVec 17) :
    Statement (.mePositionTc17 unread50 alt unread35 f y x) := fun _ =>
  (decode_encode_me _).trans (congrArg Except.ok (decodeMe_position17 unread50 alt unread35 f y x))

theorem mePositionTc18 (unread50 : BitVec 3) (alt : BitVec 12) (unread35 f : BitVec 1) (y x : BitVec 17) :
    Statement (.mePositionTc18 unread50 alt unread35 f y x) := fun _ =>
  (decode_encode_me _).trans (congrArg Except.ok (decodeMe_position18 unread50 alt unread35 f y x))

theorem mePositionTc20 (unread50 : BitVec 3) (alt : BitVec 12) (unread35 f : BitVec 1) (y x : BitVec 17) :
    Statement (.mePositionTc20 unread50 alt unread35 f y x) := fun _ =>
  (decode_encode_me _).trans (congrArg Except.ok (decodeMe_position20 unread50 alt unread35 f y x))

theorem mePositionTc21 (unread50 : BitVec 3) (alt : BitVec 12) (unread35 f : BitVec 1) (y x : BitVec 17) :
    Statement (.mePositionTc21 unread50 alt unread35 f y x) := fun _ =>
  (decode_encode_me _).trans (congrArg Except.ok (decodeMe_position21 unread50 alt unread35 f y x))

theorem mePositionTc22 (unread50 : BitVec 3) (alt : BitVec 12) (unread35 f : BitVec 1) (y x : BitVec 17) :
    Statement (.mePositionTc22 unread50 alt unread35 f y x) := fun _ =>
  (decode_encode_me _).trans (congrArg Except.ok (decodeMe_position22 unread50 alt unread35 f y x))

theorem meVelocitySt1 (unread47 : BitVec 5) (dew : BitVec 1) (vew : BitVec 10) (dns : BitVec 1) (vns : BitVec 10) (unread20 : BitVec 21) :
    Statement (.meVelocitySt1 unread47 dew vew dns vns unread20) := fun _ =>
  (decode_encode_me _).trans (congrArg Except.ok (decodeMe_velocity1 unread47 dew vew dns vns unread20))

theorem meVelocitySt2 (unread47 : BitVec 5) (dew : BitVec 1) (vew : BitVec 10) (dns : BitVec 1) (vns : BitVec 10) (unread20 : BitVec 21) :
    Statement (.meVelocitySt2 unread47 dew vew dns vns unread20) := fun _ =>
  (decode_encode_me _).trans (congrArg Except.ok (decodeMe_velocity2 unread47 dew vew dns vns unread20))

theorem meVelocitySt3 (unread47 : BitVec 5) (sh : BitVec 1) (hdg : BitVec 10) (unread31 : BitVec 1) (airspeed : BitVec 10) (unread20 : BitVec 21) :
    Statement (.meVelocitySt3 unread47 sh hdg unread31 airspeed unread20) := fun _ =>
  (decode_encode_me _).trans (congrArg Except.ok (decodeMe_velocity3 unread47 sh hdg unread31 airspeed unread20))

theorem meVelocitySt4 (unread47 : BitVec 5) (sh : BitVec 1) (hdg : BitVec 10) (unread31 : BitVec 1) (airspeed : BitVec 10) (unread20 : BitVec 21) :
    Statement (.meVelocitySt4 unread47 sh hdg unread31 airspeed unread20) := fun _ =>
  (decode_encode_me _).trans (congrArg Except.ok (decodeMe_velocity4 unread47 sh hdg unread31 airspeed unread20))

theorem meVelocitySt0 (unread : BitVec 48) :
    Statement (.meVelocitySt0 unread) := fun _ =>
  (decode_encode_me _).trans (congrArg Except.ok (decodeMe_velocity0 unread))

theorem meVelocitySt5 (unread : BitVec 48) :
    Statement (.meVelocitySt5 unread) := fun _ =>
  (decode_encode_me _).trans (congrArg Except.ok (decodeMe_velocity5 unread))

theorem meVelocitySt6 (unread : BitVec 48) :
    Statement (.meVelocitySt6 unread) := fun _ =>
  (decode_encode_me _).trans (congrArg Except.ok (decodeMe_velocity6 unread))

theorem meVelocitySt7 (unread : BitVec 48) :
    Statement (.meVelocitySt7 unread) := fun _ =>
  (decode_encode_me _).trans (congrArg Except.ok (decodeMe_velocity7 unread))

theorem meTc0 (unread : BitVec 51) :
    Statement (.meTc0 unread) := fun _ =>
  (decode_encode_me _).trans (congrArg Except.ok (decodeMe_tc0 unread))

theorem meTc5 (unread : BitVec 51) :
    Statement (.meTc5 unread) := fun _ =>
  (decode_encode_me _).trans (congrArg Except.ok (decodeMe_tc5 unread))

theorem meTc6 (unread : BitVec 51) :
    Statement (.meTc6 unread) := fun _ =>
  (decode_encode_me _).trans (congrArg Except.ok (decodeMe_tc6 unread))

theorem meTc7 (unread : BitVec 51) :
    Statement (.meTc7 unread) := fun _ =>
  (decode_encode_me _).trans (congrArg Except.ok (decodeMe_tc7 unread))

theorem meTc8 (unread : BitVec 51) :
    Statement (.meTc8 unread) := fun _ =>
  (decode_encode_me _).trans (congrArg Except.ok (decodeMe_tc8 unread))

theorem meTc23 (unread : BitVec 51) :
    Statement (.meTc23 unread) := fun _ =>
  (decode_encode_me _).trans (congrArg Except.ok (decodeMe_tc23 unread))

theorem meTc24 (unread : BitVec 51) :
    Statement (.meTc24 unread) := fun _ =>
  (decode_encode_me _).trans (congrArg Except.ok (decodeMe_tc24 unread))

theorem meTc25 (unread : BitVec 51) :
    Statement (.meTc25 unread) := fun _ =>
  (decode_encode_me _).trans (congrArg Except.ok (decodeMe_tc25 unread))

theorem meTc26 (unread : BitVec 51) :
    Statement (.meTc26 unread) := fun _ =>
  (decode_encode_me _).trans (congrArg Except.ok (decodeMe_tc26 unread))

theorem meTc27 (unread : BitVec 51) :
    Statement (.meTc27 unread) := fun _ =>
  (decode_encode_me _).trans (congrArg Except.ok (decodeMe_tc27 unread))

theorem meTc28 (unread : BitVec 51) :
    Statement (.meTc28 unread) := fun _ =>
  (decode_encode_me _).trans (congrArg Except.ok (decodeMe_tc28 unread))

theorem meTc29 (unread : BitVec 51) :
    Statement (.meTc29 unread) := fun _ =>
  (decode_encode_me _).trans (congrArg Except.ok (decodeMe_tc29 unread))

theorem meTc30 (unread : BitVec 51) :
    Statement (.meTc30 unread) := fun _ =>
  (decode_encode_me _).trans (congrArg Except.ok (decodeMe_tc30 unread))

theorem meTc31 (unread : BitVec 51) :
    Statement (.meTc31 unread) := fun _ =>
  (decode_encode_me _).trans (congrArg Except.ok (decodeMe_tc31 unread))

theorem altQ1 (nHi : BitVec 7) (nLo : BitVec 4) :
    Statement (.altQ1 nHi nLo) := fun _ => (decode_encode_alt _).trans (congrArg Except.ok (decodeAlt_q1 nHi nLo))

theorem altQ0 (c1 a1 c2 a2 c4 a4 b1 b2 d2 b4 d4 : BitVec 1) :
    Statement (.altQ0 c1 a1 c2 a2 c4 a4 b1 b2 d2 b4 d4) := fun _ =>
  (decode_encode_alt _).trans (congrArg Except.ok (decodeAlt_q0 c1 a1 c2 a2 c4 a4 b1 b2 d2 b4 d4))

theorem char0 :
    Statement .char0 := fun _ => decode_encode_char _

theorem char1 :
    Statement .char1 := fun _ => decode_encode_char _

theorem char2 :
    Statement .char2 := fun _ => decode_encode_char _

theorem char3 :
    Statement .char3 := fun _ => decode_encode_char _

theorem char4 :
    Statement .char4 := fun _ => decode_encode_char _

theorem char5 :
    Statement .char5 := fun _ => decode_encode_char _

theorem char6 :
    Statement .char6 := fun _ => decode_encode_char _

theorem char7 :
    Statement .char7 := fun _ => decode_encode_char _

theorem char8 :
    Statement .char8 := fun _ => decode_encode_char _

theorem char9 :
    Statement .char9 := fun _ => decode_encode_char _

theorem char10 :
    Statement .char10 := fun _ => decode_encode_char _

theorem char11 :
    Statement .char11 := fun _ => decode_encode_char _

theorem char12 :
    Statement .char12 := fun _ => decode_encode_char _

theorem char13 :
    Statement .char13 := fun _ => decode_encode_char _

theorem char14 :
    Statement .char14 := fun _ => decode_encode_char _

theorem char15 :
    Statement .char15 := fun _ => decode_encode_char _

theorem char16 :
    Statement .char16 := fun _ => decode_encode_char _

theorem char17 :
    Statement .char17 := fun _ => decode_encode_char _

theorem char18 :
    Statement .char18 := fun _ => decode_encode_char _

theorem char19 :
    Statement .char19 := fun _ => decode_encode_char _

theorem char20 :
    Statement .char20 := fun _ => decode_encode_char _

theorem char21 :
    Statement .char21 := fun _ => decode_encode_char _

theorem char22 :
    Statement .char22 := fun _ => decode_encode_char _

theorem char23 :
    Statement .char23 := fun _ => decode_encode_char _

theorem char24 :
    Statement .char24 := fun _ => decode_encode_char _

theorem char25 :
    Statement .char25 := fun _ => decode_encode_char _

theorem char26 :
    Statement .char26 := fun _ => decode_encode_char _

theorem char27 :
    Statement .char27 := fun _ => decode_encode_char _

theorem char28 :
    Statement .char28 := fun _ => decode_encode_char _

theorem char29 :
    Statement .char29 := fun _ => decode_encode_char _

theorem char30 :
    Statement .char30 := fun _ => decode_encode_char _

theorem char31 :
    Statement .char31 := fun _ => decode_encode_char _

theorem char32 :
    Statement .char32 := fun _ => decode_encode_char _

theorem char33 :
    Statement .char33 := fun _ => decode_encode_char _

theorem char34 :
    Statement .char34 := fun _ => decode_encode_char _

theorem char35 :
    Statement .char35 := fun _ => decode_encode_char _

theorem char36 :
    Statement .char36 := fun _ => decode_encode_char _

theorem char37 :
    Statement .char37 := fun _ => decode_encode_char _

theorem char38 :
    Statement .char38 := fun _ => decode_encode_char _

theorem char39 :
    Statement .char39 := fun _ => decode_encode_char _

theorem char40 :
    Statement .char40 := fun _ => decode_encode_char _

theorem char41 :
    Statement .char41 := fun _ => decode_encode_char _

theorem char42 :
    Statement .char42 := fun _ => decode_encode_char _

theorem char43 :
    Statement .char43 := fun _ => decode_encode_char _

theorem char44 :
    Statement .char44 := fun _ => decode_encode_char _

theorem char45 :
    Statement .char45 := fun _ => decode_encode_char _

theorem char46 :
    Statement .char46 := fun _ => decode_encode_char _

theorem char47 :
    Statement .char47 := fun _ => decode_encode_char _

theorem char48 :
    Statement .char48 := fun _ => decode_encode_char _

theorem char49 :
    Statement .char49 := fun _ => decode_encode_char _

theorem char50 :
    Statement .char50 := fun _ => decode_encode_char _

theorem char51 :
    Statement .char51 := fun _ => decode_encode_char _

theorem char52 :
    Statement .char52 := fun _ => decode_encode_char _

theorem char53 :
    Statement .char53 := fun _ => decode_encode_char _

theorem char54 :
    Statement .char54 := fun _ => decode_encode_char _

theorem char55 :
    Statement .char55 := fun _ => decode_encode_char _

theorem char56 :
    Statement .char56 := fun _ => decode_encode_char _

theorem char57 :
    Statement .char57 := fun _ => decode_encode_char _

theorem char58 :
    Statement .char58 := fun _ => decode_encode_char _

theorem char59 :
    Statement .char59 := fun _ => decode_encode_char _

theorem char60 :
    Statement .char60 := fun _ => decode_encode_char _

theorem char61 :
    Statement .char61 := fun _ => decode_encode_char _

theorem char62 :
    Statement .char62 := fun _ => decode_encode_char _

theorem char63 :
    Statement .char63 := fun _ => decode_encode_char _

end Sys2Proof.Laws.RoundTrip
end

