-- ==== Sys2Proof/Laws/Stream.lean ====
section
/-! SUPPORT. The front end on a byte stream (R115 to R118): the samples of a read, the power values of a batch, and where a power
computer stands afterwards. -/

namespace Sys2Proof.Machine

set_option Elab.async false

/-- A raw sample is the low 12 bits of its word, minus 2048 (R112). -/
theorem decodeSampleBytes_toInt (b0 b1 : Byte) :
    (decodeSampleBytes b0 b1).toInt = ((b1.toNat : Int) * 256 + b0.toNat) % 4096 - 2048 := by
  have h0 : b0.toNat < 256 := b0.isLt
  have h1 : b1.toNat < 256 := b1.isLt
  have hu : ((b1 ++ b0).extractLsb' 0 12).toNat = (b1.toNat * 256 + b0.toNat) % 4096 := by
    rw [BitVec.extractLsb'_toNat, BitVec.toNat_append, Nat.shiftLeft_eq, Nat.mul_comm,
      ← Nat.two_pow_add_eq_or_of_lt (i := 8) h0, Nat.shiftRight_zero, Nat.mul_comm]
  rw [decodeSampleBytes, BitVec.toInt_sub, BitVec.toInt_eq_toNat_bmod, BitVec.toInt_eq_toNat_bmod, hu]
  simp only [BitVec.toNat_ofNat, Int.bmod_def]
  omega

/-- The samples of the bytes from an even place of a stream on (R112). -/
theorem samplesOf_stream (bytes : List Byte) (c n k : Nat) (h : k < (samplesOf ((bytes.drop (2 * c)).take n)).length) :
    (samplesOf ((bytes.drop (2 * c)).take n))[k].toInt = sampleAt bytes (c + k : Nat) := by
  have hlen := h
  rw [samplesOf_length, List.length_take, List.length_drop] at hlen
  have hk := samplesOf_getElem? ((bytes.drop (2 * c)).take n) k (by rw [List.length_take, List.length_drop]; omega)
  rw [List.getElem?_eq_getElem h, Option.some_inj] at hk
  have hget : ∀ j, j < n → ((bytes.drop (2 * c)).take n).getD j 0#8 = bytes.getD (2 * c + j) 0#8 := by
    intro j hj
    simp [List.getD_eq_getElem?_getD, hj]
  rw [hk, decodeSampleBytes_toInt, hget _ (by omega), hget _ (by omega), sampleAt, if_neg (by omega)]
  rw [byteAt, byteAt, Int.toNat_natCast, show 2 * (c + k) + 1 = 2 * c + (2 * k + 1) by ring,
    show 2 * (c + k) = 2 * c + 2 * k by ring]

/-- A history that holds the last eight samples of a stream gives the power value of their last pair (R116, R117). -/
theorem History.power_stream {f : History} {bytes : List Byte} {m : Nat}
    (h : ∀ k : Fin 8, f.tap k = sampleAt bytes (2 * ((m + 1 : Nat) : Int) - 1 - (k.val : Int))) :
    f.power = BitVec.ofInt 32 (powerAt bytes m) := by
  have h' : ∀ (k : Fin 8) (j : Int), j = 1 - (k.val : Int) → f.tap k = sampleAt bytes (2 * (m : Int) + j) := by
    rintro k j rfl
    rw [h k]
    congr 1
    push_cast
    ring
  rw [History.power, powerAt, h' 7 (-6) rfl, h' 5 (-4) rfl, h' 3 (-2) rfl, h' 1 0 rfl, h' 6 (-5) rfl, h' 4 (-3) rfl,
    h' 2 (-1) rfl, h' 0 1 rfl]
  ring_nf

/-- A history that holds the last eight samples of a stream, after one sample more. -/
theorem History.push_stream {f : History} {bytes : List Byte} {j : Int} {x : Sample}
    (h : ∀ k : Fin 8, f.tap k = sampleAt bytes (j - 1 - (k.val : Int))) (hx : x.toInt = sampleAt bytes j) :
    ∀ k : Fin 8, (f.push x).tap k = sampleAt bytes (j + 1 - 1 - (k.val : Int)) := by
  intro k
  by_cases hk : k = 0
  · subst hk
    rw [History.tap_push_zero, hx]
    congr 1
    simp
  · have hs : ∀ k : Fin 8, k ≠ 0 → k - 1 ≠ 7 ∧ k - 1 + 1 = k ∧ (k - 1).val + 1 = k.val := by decide
    obtain ⟨h1, h2, h3⟩ := hs k hk
    have := f.tap_push_succ x (k - 1) h1
    rw [h2] at this
    rw [this, h]
    congr 1
    omega

/-- The loop of `PC.READBATCH` on the samples of a stream (R115, R117). -/
theorem History.run_stream (bytes : List Byte) (f : History) (samples : List Sample) (m : Nat)
    (hf : ∀ k : Fin 8, f.tap k = sampleAt bytes (2 * (m : Int) - 1 - (k.val : Int)))
    (hs : ∀ (k : Nat) (h : k < samples.length), samples[k].toInt = sampleAt bytes (2 * m + k : Nat)) :
    (f.run samples).1 = (List.range' m (samples.length / 2)).map (fun k => BitVec.ofInt 32 (powerAt bytes k)) ∧
      ∀ k : Fin 8, (f.run samples).2.tap k =
        sampleAt bytes (2 * ((m + samples.length / 2 : Nat) : Int) - 1 - (k.val : Int)) := by
  induction samples using samplesPairs generalizing f m with
  | nil => exact ⟨rfl, hf⟩
  | single x =>
    rw [show [x].length / 2 = 0 by simp]
    exact ⟨rfl, hf⟩
  | pair i q rest ih =>
    have h0 := hs 0 (by simp)
    have h1 := hs 1 (by simp)
    have hi := f.push_stream (j := 2 * (m : Int)) (x := i) hf (by simpa using h0)
    have hq := (f.push i).push_stream (j := 2 * (m : Int) + 1) (x := q)
      (fun k => by rw [hi k]) (by simpa using h1)
    have hg : ∀ k : Fin 8, ((f.push i).push q).tap k = sampleAt bytes (2 * ((m + 1 : Nat) : Int) - 1 - (k.val : Int)) := by
      intro k
      rw [hq k]
      push_cast
      ring_nf
    have hrest := ih ((f.push i).push q) (m + 1) hg (by
      intro k hk
      have := hs (k + 2) (by simpa using hk)
      rw [show 2 * (m + 1) + k = 2 * m + (k + 2) by ring]
      simpa using this)
    have hlen : (i :: q :: rest).length / 2 = rest.length / 2 + 1 := by
      rw [List.length_cons, List.length_cons]
      omega
    rw [hlen]
    refine ⟨?_, ?_⟩
    · rw [History.run, List.range'_succ, List.map_cons, hrest.1, History.power_stream hg]
    · intro k
      rw [History.run, hrest.2 k, show m + 1 + rest.length / 2 = m + (rest.length / 2 + 1) by ring]

/-- `PC.READBATCH` on a stream (R115, R118): the next values of the power sequence, and the computer stands behind them. -/
theorem PowerComputer.readBatch_stream {c : PowerComputer} {bytes : List Byte} {n : Nat} {sources : List ByteSource}
    (hd : c.decoder.batch = 2 * c.batch) (h : c.AtIndex bytes n sources) :
    ∃ c' : PowerComputer, c' = { c with history := c'.history } ∧
      (c.readBatch sources).1 = .ok
        ((List.range' n (min (n + c.batch) (powerCount bytes) - n)).map fun k => BitVec.ofInt 32 (powerAt bytes k), c') ∧
      c'.AtIndex bytes (n + c.batch) (c.readBatch sources).2 := by
  obtain ⟨⟨calls, hsrc⟩, htap⟩ := h
  have hlt : c.decoder.source < sources.length := (List.getElem?_eq_some_iff.1 hsrc).1
  have hread : readSource (2 * c.decoder.batch)
      ⟨bytes, min (4 * n) bytes.length, calls, [], decide (bytes.length < 4 * n)⟩ =
        (.ok ((bytes.drop (min (4 * n) bytes.length)).take (4 * c.batch)),
          ⟨bytes, min (4 * (n + c.batch)) bytes.length, calls + 1, [], decide (bytes.length < 4 * (n + c.batch))⟩) := by
    rw [hd, show 2 * (2 * c.batch) = 4 * c.batch by ring]
    by_cases he : bytes.length < 4 * n
    · rw [readSource_of_ended _ _ (decide_eq_true he), Nat.min_eq_right he.le, Nat.min_eq_right (by omega), List.drop_length,
        List.take_nil, decide_eq_true he, decide_eq_true (by omega : bytes.length < 4 * (n + c.batch))]
    · rw [readSource_of_find_none _ _ (decide_eq_false he) rfl]
      simp only [Prod.mk.injEq, ByteSource.mk.injEq, decide_eq_decide, true_and]
      omega
  have hok : (srcRead (2 * c.decoder.batch) c.decoder.source sources).1 =
      .ok ((bytes.drop (min (4 * n) bytes.length)).take (4 * c.batch)) := by
    rw [srcRead_result, sourceAt_of_getElem? _ _ hsrc, hread]
  have hsources : (c.readBatch sources).2[c.decoder.source]? =
      some ⟨bytes, min (4 * (n + c.batch)) bytes.length, calls + 1, [], decide (bytes.length < 4 * (n + c.batch))⟩ := by
    rw [c.readBatch_sources, srcRead_sources_of_some _ _ _ hsrc, hread, List.getElem?_set_self hlt]
  have hpow : powerCount bytes = bytes.length / 4 := rfl
  rcases c.readBatch_cases sources with ⟨bs, hb, hr⟩ | ⟨e, he, -, -⟩
  · rw [hok, Except.ok.injEq] at hb
    subst hb
    refine ⟨{ c with
      history := (c.history.run (samplesOf ((bytes.drop (min (4 * n) bytes.length)).take (4 * c.batch)))).2 },
      rfl, ?_, ⟨calls + 1, hsources⟩, ?_⟩
    all_goals
      by_cases hn : 4 * n ≤ bytes.length
      · have hrun := History.run_stream bytes c.history
          (samplesOf ((bytes.drop (min (4 * n) bytes.length)).take (4 * c.batch))) n
          (by rw [Nat.min_eq_left (by omega : n ≤ powerCount bytes)] at htap; exact htap)
          (by
            rw [Nat.min_eq_left hn, show 4 * n = 2 * (2 * n) by ring]
            exact fun k hk => samplesOf_stream bytes (2 * n) _ k hk)
        have hl : (samplesOf ((bytes.drop (min (4 * n) bytes.length)).take (4 * c.batch))).length / 2 =
            min (n + c.batch) (powerCount bytes) - n := by
          rw [samplesOf_length, List.length_take, List.length_drop]
          omega
        rw [hl] at hrun
        first
        | rw [hr, hrun.1]
        | intro k
          rw [hrun.2 k, show n + (min (n + c.batch) (powerCount bytes) - n) = min (n + c.batch) (powerCount bytes) by omega]
      · have hnil : (bytes.drop (min (4 * n) bytes.length)).take (4 * c.batch) = [] := by
          rw [Nat.min_eq_right (by omega), List.drop_length, List.take_nil]
        rw [Nat.min_eq_right (by omega : powerCount bytes ≤ n + c.batch)]
        first
        | rw [hr, hnil, show powerCount bytes - n = 0 by omega]
          rfl
        | rw [hnil]
          rw [Nat.min_eq_right (by omega : powerCount bytes ≤ n)] at htap
          exact htap
  · rw [hok] at he
    cases he

/-! ## Ranges -/

/-- Every sample of a stream lies in the 12-bit range (R112). -/
theorem sampleAt_range (bytes : List Byte) (j : Int) : -2048 ≤ sampleAt bytes j ∧ sampleAt bytes j ≤ 2047 := by
  unfold sampleAt
  split <;> omega

/-- Every power value of a stream fits an `i32` (R6, R116). -/
theorem powerAt_range (bytes : List Byte) (n : Nat) : 0 ≤ powerAt bytes n ∧ powerAt bytes n ≤ 134152200 := by
  have square : ∀ x : Int, -8190 ≤ x → x ≤ 8190 → x ^ 2 ≤ 67076100 := by
    intro x h1 h2
    nlinarith
  have part : ∀ a b c d : Int, (sampleAt bytes a - sampleAt bytes b + sampleAt bytes c - sampleAt bytes d) ^ 2 ≤ 67076100 := by
    intro a b c d
    have := sampleAt_range bytes a
    have := sampleAt_range bytes b
    have := sampleAt_range bytes c
    have := sampleAt_range bytes d
    exact square _ (by omega) (by omega)
  unfold powerAt
  have hi := part (2 * n + -6) (2 * n + -4) (2 * n + -2) (2 * n + 0)
  have hq := part (2 * n + -5) (2 * n + -3) (2 * n + -1) (2 * n + 1)
  dsimp only
  exact ⟨by positivity, by omega⟩

end Sys2Proof.Machine
end

