-- ==== Sys2Proof/Laws/Shows.lean ====
section
/-! SUPPORT. The window on a byte stream (43_power_window.md R126, R138): what a refill, a construction and a step do to a window that
shows a stream. -/

namespace Sys2Proof.Machine

set_option Elab.async false

/-- A computer that stands behind the whole stream stands there for every later index too. -/
theorem PowerComputer.AtIndex.later {c : PowerComputer} {bytes : List Byte} {n m : Nat} {sources : List ByteSource}
    (h : c.AtIndex bytes n sources) (hn : powerCount bytes < n) (hm : n ≤ m) : c.AtIndex bytes m sources := by
  obtain ⟨⟨calls, hs⟩, ht⟩ := h
  have hpow : powerCount bytes = bytes.length / 4 := rfl
  refine ⟨⟨calls, ?_⟩, ?_⟩
  · rw [hs]
    simp only [Option.some_inj, ByteSource.mk.injEq, decide_eq_decide, true_and]
    omega
  · rw [show min m (powerCount bytes) = min n (powerCount bytes) by omega]
    exact ht

/-- A refill of a window that has loaded a stream up to `e`, a block boundary, loads it up to the next one (R135). -/
theorem PowerWindow.refill_stream {w : PowerWindow} {bytes : List Byte} {sources : List ByteSource} {e : Nat} (b : Bool)
    (hb : w.computer.batch = 65536 ∧ w.computer.decoder.batch = 131072) (he : e % 65536 = 0)
    (havail : w.avail = min (powerCount bytes) e) (heos : w.eos = decide (powerCount bytes < e))
    (hsrc : w.computer.AtIndex bytes e sources) :
    (w.refill b sources).error = none ∧
    (w.refill b sources).window.avail = min (powerCount bytes) (e + 65536) ∧
    (w.refill b sources).window.eos = decide (powerCount bytes < e + 65536) ∧
    (w.refill b sources).window.fault = w.fault ∧
    (w.refill b sources).window.computer.batch = 65536 ∧
    (w.refill b sources).window.computer.decoder = w.computer.decoder ∧
    (w.refill b sources).window.computer.AtIndex bytes (e + 65536) (w.refill b sources).sources ∧
    (∀ k, e ≤ k → k < (w.refill b sources).window.avail →
      Mem.read? ((w.refill b sources).window.block b) (k % 65536) = some (BitVec.ofInt 32 (powerAt bytes k))) ∧
    (∀ h, h ≠ w.computer.decoder.source → (w.refill b sources).sources[h]? = sources[h]?) := by
  by_cases hlt : powerCount bytes < e
  · have heos' : w.eos = true := by rw [heos]; exact decide_eq_true hlt
    have hr : w.refill b sources = ⟨w, sources, none⟩ := by simp [PowerWindow.refill, heos']
    rw [hr]
    refine ⟨rfl, ?_, ?_, rfl, hb.1, rfl, hsrc.later hlt (by omega), ?_, fun _ _ => rfl⟩
    · show w.avail = _
      omega
    · show w.eos = _
      rw [heos']
      exact (decide_eq_true (by omega)).symm
    · intro k hk hk'
      change k < w.avail at hk'
      omega
  · have heos' : w.eos = false := by rw [heos]; exact decide_eq_false hlt
    obtain ⟨c', hc', hok, hat⟩ := w.computer.readBatch_stream (by rw [hb.1, hb.2]) hsrc
    rw [hb.1] at hok hat
    have hread : w.computer.readBatch sources = (.ok (_, c'), (w.computer.readBatch sources).2) := Prod.ext hok rfl
    have hr : w.refill b sources = ⟨{ w.withBlock b (Mem.load ((List.range' e (min (e + 65536) (powerCount bytes) - e)).map
        fun k => BitVec.ofInt 32 (powerAt bytes k)) (w.block b)) with
        computer := c'
        avail := w.avail + (min (e + 65536) (powerCount bytes) - e)
        eos := eosAfter (min (e + 65536) (powerCount bytes) - e) },
        (w.computer.readBatch sources).2, none⟩ := by
      rw [PowerWindow.refill, if_neg (by simp [heos']), hread]
      simp only [List.length_map, List.length_range']
    rw [hr]
    have hdec : c'.decoder = w.computer.decoder := by rw [hc']
    refine ⟨rfl, ?_, ?_, by simp, by rw [hc']; exact hb.1, hdec, hat, ?_, ?_⟩
    · show w.avail + _ = _
      omega
    · show eosAfter _ = _
      unfold eosAfter Config.blockSize
      congr 1
      apply propext
      omega
    · intro k hk hk'
      change k < w.avail + _ at hk'
      show Mem.read? ((w.withBlock b _).block b) _ = _
      rw [PowerWindow.block_withBlock_same, Mem.read?_load]
      have hkm : k % 65536 = k - e := by omega
      rw [if_pos (by rw [List.length_map, List.length_range']; omega), hkm, List.getElem?_map,
        List.getElem?_range' (by omega), Option.map_some]
      congr 3
      omega
    · intro h hh
      show (w.computer.readBatch sources).2[h]? = _
      rw [PowerComputer.readBatch_sources, srcRead_sources, if_neg hh]

variable {w : PowerWindow} {bytes : List Byte} {sources : List ByteSource}

/-- The window of a construction on a stream shows it (R125, R138). -/
theorem PowerWindow.shows_construct {source windowSize : Nat} (serial : Nat) (h1 : 1 ≤ windowSize)
    (h2 : windowSize ≤ 65536) (hs : FreshSource sources source bytes) :
    (PowerWindow.construct source windowSize serial sources).error = none ∧
    (PowerWindow.construct source windowSize serial sources).window.Shows bytes
      (PowerWindow.construct source windowSize serial sources).sources := by
  have hat : (PowerWindow.fresh source windowSize serial).computer.AtIndex bytes 0 sources := by
    refine ⟨⟨0, ?_⟩, ?_⟩
    · rw [show (PowerWindow.fresh source windowSize serial).computer.decoder.source = source from rfl, hs]
      simp
    · intro k
      rw [show sampleAt bytes _ = 0 from if_pos (by simp; omega)]
      have : ∀ k : Fin 8, History.zero.tap k = 0 := by decide
      exact this k
  obtain ⟨herr, havail, heos, hfault, hbatch, hdec, hsrc, hent, -⟩ :=
    PowerWindow.refill_stream (w := PowerWindow.fresh source windowSize serial) (e := 0) false ⟨rfl, rfl⟩ rfl
      (Nat.min_zero _).symm rfl hat
  have hend : PowerWindow.loadedEnd (PowerWindow.construct source windowSize serial sources).window = 65536 := by
    unfold PowerWindow.loadedEnd PowerWindow.construct
    rw [PowerWindow.refill_windowSize, PowerWindow.refill_position]
    show ((0 + windowSize - 1) / 65536 + 1) * 65536 = 65536
    omega
  exact ⟨herr, {
    size := by
      unfold PowerWindow.construct
      rw [PowerWindow.refill_windowSize]
      exact ⟨h1, h2⟩
    batches := ⟨hbatch, by unfold PowerWindow.construct; rw [hdec]; rfl⟩
    unfaulted := hfault
    loaded := by rw [hend]; exact havail
    ended := by rw [hend]; exact heos
    entries := by
      intro k _ hk
      have hlt : k < 65536 := lt_of_lt_of_le hk (by rw [PowerWindow.construct, havail]; exact Nat.min_le_right _ _)
      have := hent k (Nat.zero_le k) hk
      unfold PowerWindow.construct
      have h0 : k / 65536 = (PowerWindow.fresh source windowSize serial).position.toNat / 65536 := by
        show k / 65536 = (0#64).toNat / 65536
        simp
        omega
      rw [PowerWindow.refill_position, PowerWindow.refill_cur, if_pos h0]
      exact this
    source := by rw [hend]; exact hsrc }⟩

/-- When the right edge enters the next block, every entry of the block before it lies in the current block. -/
theorem currentBlock {p size k : Nat} (h1 : 1 ≤ size) (h2 : size ≤ 65536) (hr : (p + size) % 65536 = 0)
    (hk : (p + 1) / 65536 * 65536 ≤ k) (hk' : k < p + size) :
    ¬(p + 1) % 65536 = 0 ∧ p / 65536 * 65536 ≤ k ∧ k / 65536 = p / 65536 ∧ k / 65536 = (p + 1) / 65536 := by
  omega

/-- When the position enters the next block, every entry from it on that is loaded lies in that block. -/
theorem nextBlock {p size k : Nat} (h2 : size ≤ 65536) (hturn : (p + 1) % 65536 = 0)
    (hk : (p + 1) / 65536 * 65536 ≤ k) (hk' : k < ((p + size - 1) / 65536 + 1) * 65536) :
    ¬k / 65536 = p / 65536 ∧ k / 65536 = (p + 1) / 65536 := by
  omega

theorem sameBlock {p : Nat} (hturn : ¬(p + 1) % 65536 = 0) : p / 65536 = (p + 1) / 65536 := by omega

/-- A step keeps a window that shows a stream so (R131, R138), and no step of it fails. -/
theorem PowerWindow.Shows.advance (h : w.Shows bytes sources) (hp : w.position.toNat + 1 < 2 ^ 64) :
    (w.advance sources).error = none ∧
    (w.advance sources).window.position.toNat = w.position.toNat + 1 ∧
    (w.advance sources).window.Shows bytes (w.advance sources).sources ∧
    (w.advance sources).window.computer.decoder.source = w.computer.decoder.source ∧
    (∀ k, k ≠ w.computer.decoder.source → (w.advance sources).sources[k]? = sources[k]?) := by
  have hpos : (w.position + 1#64).toNat = w.position.toNat + 1 := by
    rw [BitVec.toNat_add]
    exact Nat.mod_eq_of_lt hp
  have hend : w.loadedEnd = ((w.position.toNat + w.windowSize - 1) / 65536 + 1) * 65536 := rfl
  have hsize := h.size
  have henter : entersNextBlock (w.position + 1#64) w.windowSize =
      decide ((w.position.toNat + w.windowSize) % 65536 = 0) := by
    unfold entersNextBlock Config.blockSize
    rw [hpos]
    congr 2
    omega
  have hloaded := h.loaded
  have hended := h.ended
  by_cases hr : (w.position.toNat + w.windowSize) % 65536 = 0
  · -- the right edge enters the next block
    obtain ⟨herr, havail, heos, hfault, hbatch, hdec, hsrc, hent, hother⟩ :=
      PowerWindow.refill_stream (w := w) (e := w.loadedEnd) (!w.cur) h.batches (by omega) hloaded hended h.source
    have ha : w.advance sources = ⟨PowerWindow.rotate { (w.refill (!w.cur) sources).window with
        position := w.position + 1#64 }, (w.refill (!w.cur) sources).sources, none⟩ := by
      rcases w.advance_cases sources with ⟨hn, -⟩ | ⟨-, -, ha⟩ | ⟨-, e, he, -⟩
      · rw [henter, decide_eq_true hr] at hn
        cases hn
      · exact ha
      · rw [herr] at he
        cases he
    have hnew : PowerWindow.loadedEnd (PowerWindow.rotate { (w.refill (!w.cur) sources).window with
        position := w.position + 1#64 }) = w.loadedEnd + 65536 := by
      unfold PowerWindow.loadedEnd
      rw [PowerWindow.rotate_position, PowerWindow.rotate_windowSize, PowerWindow.refill_windowSize, hpos]
      omega
    have hsame := PowerWindow.refill_block_other (!w.cur) w sources
    rw [Bool.not_not] at hsame
    rw [ha]
    refine ⟨rfl, by rw [PowerWindow.rotate_position, hpos], ?_, by rw [PowerWindow.rotate_computer, hdec], hother⟩
    exact {
      size := by rw [PowerWindow.rotate_windowSize, PowerWindow.refill_windowSize]; exact hsize
      batches := by rw [PowerWindow.rotate_computer, hdec]; exact ⟨hbatch, h.batches.2⟩
      unfaulted := by rw [PowerWindow.rotate_fault, hfault]; exact h.unfaulted
      loaded := by rw [hnew, PowerWindow.rotate_avail]; exact havail
      ended := by rw [hnew, PowerWindow.rotate_eos]; exact heos
      entries := by
        intro k hk hk'
        rw [PowerWindow.rotate_position, hpos] at hk
        rw [PowerWindow.rotate_avail] at hk'
        replace hk' : k < (w.refill (!w.cur) sources).window.avail := hk'
        have hkb := hk'
        rw [havail] at hkb
        rw [PowerWindow.rotate_block, PowerWindow.rotate_position, hpos, PowerWindow.rotate_eq]
        simp only [hpos, PowerWindow.refill_cur]
        by_cases hke : w.loadedEnd ≤ k
        · have hnewEntry := hent k hke hk'
          by_cases hturn : (w.position.toNat + 1) % 65536 = 0
          · rw [if_pos hturn, if_pos (by omega)]
            exact hnewEntry
          · rw [if_neg hturn, if_neg (by omega)]
            exact hnewEntry
        · obtain ⟨hturn, hlow, hsame1, hsame2⟩ := currentBlock hsize.1 hsize.2 hr hk (by omega)
          have hold := h.entries k hlow (by rw [hloaded]; omega)
          rw [if_pos hsame1] at hold
          rw [if_neg hturn, if_pos hsame2]
          show Mem.read? ((w.refill (!w.cur) sources).window.block w.cur) _ = _
          rw [hsame]
          exact hold
      source := by rw [hnew, PowerWindow.rotate_computer]; exact hsrc }
  · -- the right edge stays in its block
    have ha : w.advance sources = ⟨PowerWindow.rotate { w with position := w.position + 1#64 }, sources, none⟩ := by
      rcases w.advance_cases sources with ⟨-, ha⟩ | ⟨hn, -, -⟩ | ⟨hn, -, -, -⟩
      · exact ha
      · rw [henter, decide_eq_false hr] at hn
        cases hn
      · rw [henter, decide_eq_false hr] at hn
        cases hn
    have hnew : PowerWindow.loadedEnd (PowerWindow.rotate { w with position := w.position + 1#64 }) = w.loadedEnd := by
      unfold PowerWindow.loadedEnd
      rw [PowerWindow.rotate_position, PowerWindow.rotate_windowSize, hpos]
      show ((w.position.toNat + 1 + w.windowSize - 1) / 65536 + 1) * 65536 = _
      omega
    rw [ha]
    refine ⟨rfl, by rw [PowerWindow.rotate_position, hpos], ?_, by rw [PowerWindow.rotate_computer], fun _ _ => rfl⟩
    exact {
      size := by rw [PowerWindow.rotate_windowSize]; exact hsize
      batches := by rw [PowerWindow.rotate_computer]; exact h.batches
      unfaulted := by rw [PowerWindow.rotate_fault]; exact h.unfaulted
      loaded := by rw [hnew, PowerWindow.rotate_avail]; exact hloaded
      ended := by rw [hnew, PowerWindow.rotate_eos]; exact hended
      entries := by
        intro k hk hk'
        rw [PowerWindow.rotate_position, hpos] at hk
        rw [PowerWindow.rotate_avail] at hk'
        replace hk' : k < w.avail := hk'
        rw [PowerWindow.rotate_block, PowerWindow.rotate_position, hpos, PowerWindow.rotate_eq]
        simp only [hpos]
        have hlow : w.position.toNat / 65536 * 65536 ≤ k :=
          le_trans (Nat.mul_le_mul_right _ (Nat.div_le_div_right (Nat.le_succ _))) hk
        have hold := h.entries k hlow hk'
        have hend' : k < w.loadedEnd := by omega
        rw [hend] at hend'
        by_cases hturn : (w.position.toNat + 1) % 65536 = 0
        · obtain ⟨hb1, hb2⟩ := nextBlock hsize.2 hturn hk hend'
          rw [if_neg hb1] at hold
          rw [if_pos hturn, if_pos hb2]
          exact hold
        · rw [if_neg hturn, ← sameBlock hturn]
          exact hold
      source := by rw [hnew, PowerWindow.rotate_computer]; exact h.source }

/-- `n` steps keep a window that shows a stream so (R132, R138). -/
theorem PowerWindow.Shows.advanceBy (n : Nat) (h : w.Shows bytes sources) (hp : w.position.toNat + n < 2 ^ 64) :
    (w.advanceBy sources n).error = none ∧
    (w.advanceBy sources n).window.position.toNat = w.position.toNat + n ∧
    (w.advanceBy sources n).window.Shows bytes (w.advanceBy sources n).sources ∧
    (w.advanceBy sources n).window.windowSize = w.windowSize ∧
    (w.advanceBy sources n).window.computer.decoder.source = w.computer.decoder.source ∧
    (∀ k, k ≠ w.computer.decoder.source → (w.advanceBy sources n).sources[k]? = sources[k]?) := by
  induction n generalizing w sources with
  | zero => exact ⟨rfl, rfl, h, rfl, rfl, fun _ _ => rfl⟩
  | succ n ih =>
    obtain ⟨herr, hpos, hshows, hdec, hother⟩ := h.advance (by omega)
    obtain ⟨herr', hpos', hshows', hsize', hdec', hother'⟩ := ih hshows (by omega)
    rw [PowerWindow.advanceBy_succ, if_pos herr]
    exact ⟨herr', by omega, hshows', hsize'.trans (w.advance_windowSize sources), hdec'.trans hdec,
      fun k hk => (hother' k (by rw [hdec]; exact hk)).trans (hother k hk)⟩

/-- In which block an entry of the window lies, and where in it (R136). -/
theorem windowAddress {p i : Nat} (hi : i < 65536) :
    (p % 65536 + i < 65536 → (p + i) / 65536 = p / 65536 ∧ p % 65536 + i = (p + i) % 65536) ∧
      (¬p % 65536 + i < 65536 → ¬(p + i) / 65536 = p / 65536 ∧ p % 65536 + i - 65536 = (p + i) % 65536) := by
  omega

/-- The entries of a window that shows a stream (R126, R130, R136). -/
theorem PowerWindow.Shows.entry (h : w.Shows bytes sources) {i : Nat} (hi : i < w.windowSize)
    (hn : w.position.toNat + i < powerCount bytes) :
    w.entry i = BitVec.ofInt 32 (powerAt bytes (w.position.toNat + i)) := by
  have hsize := h.size
  have hend : w.loadedEnd = ((w.position.toNat + w.windowSize - 1) / 65536 + 1) * 65536 := rfl
  have hk : w.position.toNat + i < w.avail := by rw [h.loaded]; omega
  have hent := h.entries (w.position.toNat + i) (by omega) hk
  have haddr : w.address i = (if (w.position.toNat + i) / 65536 = w.position.toNat / 65536 then w.cur else !w.cur,
      (w.position.toNat + i) % 65536) := by
    obtain ⟨hin, hout⟩ := windowAddress (p := w.position.toNat) (lt_of_lt_of_le hi hsize.2)
    unfold PowerWindow.address Config.blockSize
    dsimp only
    by_cases hb : w.position.toNat % 65536 + i < 65536
    · obtain ⟨h1, h2⟩ := hin hb
      rw [if_pos hb, if_pos h1, h2]
    · obtain ⟨h1, h2⟩ := hout hb
      rw [if_neg hb, if_neg h1, h2]
  rw [PowerWindow.entry, if_pos hk, haddr]
  dsimp only
  rw [hent, Option.getD_some]

/-- The entries of a window that shows a stream, as integers. -/
theorem PowerWindow.Shows.entry_toInt (h : w.Shows bytes sources) {i : Nat} (hi : i < w.windowSize)
    (hn : w.position.toNat + i < powerCount bytes) : (w.entry i).toInt = powerAt bytes (w.position.toNat + i) := by
  have hr := powerAt_range bytes (w.position.toNat + i)
  rw [h.entry hi hn, BitVec.toInt_ofInt, Int.bmod_eq_of_le] <;> norm_num <;> omega

/-- A window that shows a stream is full exactly while all of it is real data (R129). -/
theorem PowerWindow.Shows.isFull (h : w.Shows bytes sources) :
    w.isFull = decide (w.position.toNat + w.windowSize ≤ powerCount bytes) := by
  have hend : w.loadedEnd = ((w.position.toNat + w.windowSize - 1) / 65536 + 1) * 65536 := rfl
  have hloaded := h.loaded
  have hsize := h.size
  unfold PowerWindow.isFull
  congr 1
  apply propext
  omega

end Sys2Proof.Machine
end

