-- ==== Sys2Proof/Tests/Slice0.lean ====
section
/-! SUPPORT. Tests, their expected values taken from the spec's encodings and test vectors (95_test_vectors.md), and witnesses
that the hypotheses of the statements can be met. -/

namespace Sys2Proof.Machine.Tests

set_option Elab.async false

/-! ## Decoding -/

/-- The identification words, field by field (R67, R70). -/
theorem test_decode_identification : List.map (decodeTableWord 56)
    [0b00001_101_000001_000010_011010_100000_110000_111001_000000_111111,
    0b00010_101_000001_000010_011010_100000_110000_111001_000000_111111,
    0b00011_101_000001_000010_011010_100000_110000_111001_000000_111111,
    0b00100_101_000001_000010_011010_100000_110000_111001_000000_111111] =
    [some (.meIdentTc1 5#3 1#6 2#6 26#6 32#6 48#6 57#6 0#6 63#6),
    some (.meIdentTc2 5#3 1#6 2#6 26#6 32#6 48#6 57#6 0#6 63#6),
    some (.meIdentTc3 5#3 1#6 2#6 26#6 32#6 48#6 57#6 0#6 63#6),
    some (.meIdentTc4 5#3 1#6 2#6 26#6 32#6 48#6 57#6 0#6 63#6)] := by decide

/-- The position words, field by field (R67, R72). -/
theorem test_decode_position : List.map (decodeTableWord 56)
    [0b01001_110_101100100010_1_0_01111100000111010_10101000010101101,
    0b01010_110_101100100010_1_0_01111100000111010_10101000010101101,
    0b01011_110_101100100010_1_0_01111100000111010_10101000010101101,
    0b01100_110_101100100010_1_0_01111100000111010_10101000010101101,
    0b01101_110_101100100010_1_0_01111100000111010_10101000010101101,
    0b01110_110_101100100010_1_0_01111100000111010_10101000010101101,
    0b01111_110_101100100010_1_0_01111100000111010_10101000010101101,
    0b10000_110_101100100010_1_0_01111100000111010_10101000010101101,
    0b10001_110_101100100010_1_0_01111100000111010_10101000010101101,
    0b10010_110_101100100010_1_0_01111100000111010_10101000010101101,
    0b10100_110_101100100010_1_0_01111100000111010_10101000010101101,
    0b10101_110_101100100010_1_0_01111100000111010_10101000010101101,
    0b10110_110_101100100010_1_0_01111100000111010_10101000010101101] =
    [some (.mePositionTc9 6#3 0xB22#12 1#1 0#1 63546#17 86189#17),
    some (.mePositionTc10 6#3 0xB22#12 1#1 0#1 63546#17 86189#17),
    some (.mePositionTc11 6#3 0xB22#12 1#1 0#1 63546#17 86189#17),
    some (.mePositionTc12 6#3 0xB22#12 1#1 0#1 63546#17 86189#17),
    some (.mePositionTc13 6#3 0xB22#12 1#1 0#1 63546#17 86189#17),
    some (.mePositionTc14 6#3 0xB22#12 1#1 0#1 63546#17 86189#17),
    some (.mePositionTc15 6#3 0xB22#12 1#1 0#1 63546#17 86189#17),
    some (.mePositionTc16 6#3 0xB22#12 1#1 0#1 63546#17 86189#17),
    some (.mePositionTc17 6#3 0xB22#12 1#1 0#1 63546#17 86189#17),
    some (.mePositionTc18 6#3 0xB22#12 1#1 0#1 63546#17 86189#17),
    some (.mePositionTc20 6#3 0xB22#12 1#1 0#1 63546#17 86189#17),
    some (.mePositionTc21 6#3 0xB22#12 1#1 0#1 63546#17 86189#17),
    some (.mePositionTc22 6#3 0xB22#12 1#1 0#1 63546#17 86189#17)] := by decide

/-- The velocity words of the decoded subtypes, field by field (R67, R75). -/
theorem test_decode_velocity : List.map (decodeTableWord 56)
    [0b10011_001_10011_1_0000001001_0_0010100000_010000011100000010111,
    0b10011_010_10011_1_0000001001_0_0010100000_010000011100000010111,
    0b10011_011_10011_1_1010110110_0_0101111000_110001001010000000000,
    0b10011_100_10011_1_1010110110_0_0101111000_110001001010000000000] =
    [some (.meVelocitySt1 19#5 1#1 9#10 0#1 160#10 0x083817#21),
    some (.meVelocitySt2 19#5 1#1 9#10 0#1 160#10 0x083817#21),
    some (.meVelocitySt3 19#5 1#1 694#10 0#1 376#10 0x189400#21),
    some (.meVelocitySt4 19#5 1#1 694#10 0#1 376#10 0x189400#21)] := by decide

/-- The velocity words of the other subtypes (R67, R75, R80). -/
theorem test_decode_velocity_rest : List.map (decodeTableWord 56)
    [0b10011_000_000000010010001101000101011001111000100110101011,
    0b10011_101_000000010010001101000101011001111000100110101011,
    0b10011_110_000000010010001101000101011001111000100110101011,
    0b10011_111_000000010010001101000101011001111000100110101011] =
    [some (.meVelocitySt0 0x0123456789AB#48),
    some (.meVelocitySt5 0x0123456789AB#48),
    some (.meVelocitySt6 0x0123456789AB#48),
    some (.meVelocitySt7 0x0123456789AB#48)] := by decide

/-- The payload words of the type codes that are not decoded (R67, R80). -/
theorem test_decode_rest : List.map (decodeTableWord 56)
    [0b00000_000000000010010001101000101011001111000100110101011,
    0b00101_000000000010010001101000101011001111000100110101011,
    0b00110_000000000010010001101000101011001111000100110101011,
    0b00111_000000000010010001101000101011001111000100110101011,
    0b01000_000000000010010001101000101011001111000100110101011,
    0b10111_000000000010010001101000101011001111000100110101011,
    0b11000_000000000010010001101000101011001111000100110101011,
    0b11001_000000000010010001101000101011001111000100110101011,
    0b11010_000000000010010001101000101011001111000100110101011,
    0b11011_000000000010010001101000101011001111000100110101011,
    0b11100_000000000010010001101000101011001111000100110101011,
    0b11101_000000000010010001101000101011001111000100110101011,
    0b11110_000000000010010001101000101011001111000100110101011,
    0b11111_000000000010010001101000101011001111000100110101011] =
    [some (.meTc0 0x0123456789AB#51),
    some (.meTc5 0x0123456789AB#51),
    some (.meTc6 0x0123456789AB#51),
    some (.meTc7 0x0123456789AB#51),
    some (.meTc8 0x0123456789AB#51),
    some (.meTc23 0x0123456789AB#51),
    some (.meTc24 0x0123456789AB#51),
    some (.meTc25 0x0123456789AB#51),
    some (.meTc26 0x0123456789AB#51),
    some (.meTc27 0x0123456789AB#51),
    some (.meTc28 0x0123456789AB#51),
    some (.meTc29 0x0123456789AB#51),
    some (.meTc30 0x0123456789AB#51),
    some (.meTc31 0x0123456789AB#51)] := by decide

/-- The frame words, field by field: `DF` 17, and `DF` 18 for every other (R66). -/
theorem test_decode_frame : List.map (decodeTableWord 112)
    [0b10001_101_010010110001011111100101_11111000001000010000000000000010000000000100101110111000_101100011111000110101100,
    0b10010_101_010010110001011111100101_11111000001000010000000000000010000000000100101110111000_101100011111000110101100] =
    [some (.frameDf17 5#3 0x4B17E5#24 0xF8210002004BB8#56 0xB1F1AC#24),
    some (.frameOther 18#5 5#3 0x4B17E5#24 0xF8210002004BB8#56 0xB1F1AC#24)] := by decide

/-- The replay record, the timestamp first (R84). -/
theorem test_decode_replay : List.map (decodeTableWord 176)
    [0b0000000000000000000000000000000000111011100110101100101000000000_1000110101001011000101111110010100100000001011001100001101110001110000110010110011100000001000010101011011100101] =
    [some (.replayRecord 0x3B9ACA00#64 0x8D4B17E5202CC371C32CE02156E5#112)] := by decide

/-- The raw sample word (R61). -/
theorem test_decode_sample : List.map (decodeTableWord 16)
    [0b1111_001000110100] =
    [some (.sample 0xF#4 0x234#12)] := by decide

/-- The altitude fields, `Q` = 1 and `Q` = 0 (R73, R74). -/
theorem test_decode_altitude : List.map (decodeTableWord 16)
    [0b1100001_1_1000,
    0b1_0_1_1_0_0_1_0_0_0_1_0] =
    [some (.altQ1 0b1100001#7 0b1000#4),
    some (.altQ0 1#1 0#1 1#1 1#1 0#1 0#1 1#1 0#1 0#1 1#1 0#1)] := by decide

/-- The character codes: row by row, the code of a row is its number (R187). -/
theorem test_decode_characters : (List.range 64).map (decodeTableWord 8) = charRows.map some := by decide

/-! ## Port operations by name -/

/-- The port operations without a byte source or a message (00_scope.md section 5). -/
theorem test_decode_calls : List.map (fun c => (decode (.call c.1 c.2)).toOption)
    [(.bfExtract, [0xF8210002004BB8, 51, 5]), (.bfTest, [0x10, 4]), (.crcBuild, [0xFFF409]), (.crcCrc, [1, 255]),
      (.sdReadbatch, []), (.pcReadbatch, []), (.pwSize, []), (.pwPosition, []), (.pwIsfull, []), (.pwGet, [-1]),
      (.pwAdvance, []), (.pwAdvanceby, [1200]), (.dmSp, []), (.dmSv, []), (.dmDetect, []), (.dmSlice, []), (.dmNext, [])] =
    [some (.bfExtract 0xF8210002004BB8#64 51 5), some (.bfTest 0x10#64 4), some (.crcBuild 0xFFF409#24),
      some (.crcCrc [1#8, 255#8]), some .sdReadbatch, some .pcReadbatch, some .pwSize, some .pwPosition, some .pwIsfull,
      some (.pwGet (-1)), some .pwAdvance, some (.pwAdvanceby 1200), some .dmSp, some .dmSv, some .dmDetect, some .dmSlice,
      some .dmNext] := by decide

/-- The constructors on a byte source. -/
theorem test_decode_constructors : List.map (fun c => (decode (.call c.1 c.2)).toOption)
    [(.sdNew, [3, -2]), (.pcNew, [2, 8]), (.pwNew, [1, 65537]), (.dmNew, [4]), (.dmNew, [-4]), (.sdNew, [3])] =
    [some (.sdNew 3 (-2)), some (.pcNew 2 8), some (.pwNew 1 65537), some (.dmNew 4), none, none] := by decide

/-- The operations on a raw message and on the decoders' operands. -/
theorem test_decode_messages : List.map (fun c => (decode (.call c.1 c.2)).toOption)
    [(.rmOf, [7, 9]), (.rmDf, [7, 9]), (.rmIcao, [7, 9]), (.rmMe, [7, 9]), (.rmTc, [7, 9]), (.mpParse, [7, 9]),
      (.idDecode, [7, 9]), (.apDecode, [7, 9]), (.avDecode, [7, 9]), (.altDecode, [0xFFF]), (.grayDecode, [3, 7]),
      (.grayDecode, [9, 511]), (.grayDecode, [1, 1]), (.cprNl, [-3, 8]), (.cprDecode, [1, 2, 3, 4, 1]), (.accUpdate, [7, 9, 2, -8, -159])] =
    [some (.rmOf 7#64 9#112), some (.rmDf ⟨7#64, 9#112⟩), some (.rmIcao ⟨7#64, 9#112⟩), some (.rmMe ⟨7#64, 9#112⟩),
      some (.rmTc ⟨7#64, 9#112⟩), some (.mpParse ⟨7#64, 9#112⟩), some (.idDecode ⟨7#64, 9#112⟩),
      some (.apDecode ⟨7#64, 9#112⟩), some (.avDecode ⟨7#64, 9#112⟩), some (.altDecode 0xFFF#12),
      some (.grayDecode ⟨3, 7⟩), some (.grayDecode ⟨9, 511⟩), some (.grayDecode ⟨1, 1⟩), some (.cprNl ⟨-3, 8⟩),
      some (.cprDecode 1#17 2#17 3#17 4#17 1#1), some (.accUpdate ⟨7#64, 9#24, .velocity (.ground (-8) (-159))⟩)] := by
  decide

/-- What is not expressible at a port: an operand that does not fit it, a frame of another length, a negative count (R90, R132,
R170, R230), an act of the host. -/
theorem test_decode_refused : List.map decode
    [.call .bfTest [18446744073709551616, 0], .call .pwAdvanceby [-1], .call .altDecode [4096], .call .cprNl [1, 0],
      .call .grayDecode [9, 512], .call .grayDecode [0, 0],
      .word .frame112 [0x8D#8], .word .alt12 [0x10#8, 0#8], .purge 5] =
    [.error (.badOperands .bfTest), .error (.badOperands .pwAdvanceby), .error (.badOperands .altDecode),
      .error (.badOperands .cprNl), .error (.badOperands .grayDecode), .error (.badOperands .grayDecode), .error (.notAWordOf .frame112), .error (.notAWordOf .alt12),
      .error .notAnOperation] := by decide

/-! ## WellFormed -/

/-- `FRAME.OTHER` does not stand for a frame with `DF` 17. -/
theorem test_wellFormed_frame : (Instr.frameOther 17#5 0#3 0#24 0#56 0#24).wellFormed = false := by decide

/-- A latitude without a denominator is no rational number. -/
theorem test_wellFormed_latitude : (Instr.cprNl ⟨1, 0⟩).wellFormed = false := by decide

/-- A Gray code of no bits, and one that does not fit its width. -/
theorem test_wellFormed_gray : (Instr.grayDecode ⟨0, 0⟩).wellFormed = false ∧ (Instr.grayDecode ⟨3, 8⟩).wellFormed = false := by
  decide

/-- A call sign with a lower-case letter, and one of nine characters. -/
theorem test_wellFormed_callSign :
    (Instr.accUpdate ⟨0#64, 0#24, .identification ⟨0#8, [97#8]⟩⟩).wellFormed = false ∧
    (Instr.accUpdate ⟨0#64, 0#24, .identification ⟨0#8, List.replicate 9 65#8⟩⟩).wellFormed = false := by decide

/-! ## Results -/

/-- What an operation returns after reset. -/
def result (i : Instr) : Option Response :=
  match exec i State.reset with
  | .next t => some t.response
  | _ => none

/-- The state an operation leaves, or the state it ran on. -/
def after (i : Instr) (s : State) : State :=
  match exec i s with
  | .next t => t
  | _ => s

/-- 95_test_vectors.md section 2.1. -/
theorem test_bfExtract : result (.bfExtract 0x00F8210002004BB8#64 36 12) = some (.u32 528#32) ∧
    result (.bfExtract 0x8000000000000001#64 62 2) = some (.u32 2#32) ∧
    result (.bfExtract 5#64 60 5) = some (.error ⟨.rangeError, [60, 5]⟩) := by decide

/-- 95_test_vectors.md section 2.1. -/
theorem test_bfTest : result (.bfTest 0x010#64 4) = some (.bool true) ∧ result (.bfTest 0x010#64 3) = some (.bool false) ∧
    result (.bfTest 0x010#64 64) = some (.error ⟨.rangeError, [64]⟩) := by decide

/-- 95_test_vectors.md section 2.2: entries of the table that is built for the default generator. -/
theorem test_crcBuild : [1#8, 2#8, 85#8, 128#8, 141#8, 255#8].map (after (.crcBuild 0xFFF409#24) State.reset).crc.entry =
    [0xFFF409#24, 0x001C1B#24, 0xFCAF87#24, 0x0706C0#24, 0xF8BA93#24, 0xFA0480#24] := by decide +kernel

/-- 95_test_vectors.md section 2.3: the CRC of the ASCII digits 1 to 9, and of a frame with its first bit flipped. -/
theorem test_crcCrc :
    result (.crcCrc [0x31#8, 0x32#8, 0x33#8, 0x34#8, 0x35#8, 0x36#8, 0x37#8, 0x38#8, 0x39#8]) = some (.u32 0x054268#32) ∧
    result (.crcCrc (frameBytes 0x0D4B17E5F8210002004BB8B1F1AC#112)) = some (.u32 0x16C19E#32) := by decide +kernel

/-- 95_test_vectors.md section 3.1: the high four bits are ignored. -/
theorem test_sample : result (.sample 0x1#4 0x234#12) = some (.int (-1484)) ∧
    decodeSampleBytes 0xFF#8 0x07#8 = -1#12 ∧ decodeSampleBytes 0xFF#8 0xFF#8 = 2047#12 := by decide

/-- 95_test_vectors.md section 3.3. -/
theorem test_frontEndConstructors : result (.sdNew 0 0) = some (.error ⟨.configError, [0]⟩) ∧ result (.sdNew 0 3) = some .done ∧
    result (.pcNew 0 12) = some (.error ⟨.configError, [12]⟩) ∧ result (.pcNew 0 8) = some .done := by decide

/-- 95_test_vectors.md section 3.3. -/
theorem test_pwNew : result (.pwNew 1 0) = some (.error ⟨.configError, [0]⟩) ∧
    result (.pwNew 1 65537) = some (.error ⟨.configError, [65537]⟩) ∧ result (.pwNew 1 65536) = some .done := by decide

/-- A machine whose byte sources hold `bytes`, but for the second, which fails at its first read; the power computer and the sample
decoder stand on the third and the fourth. -/
def onStream (bytes : List Byte) : State :=
  { State.reset with
    sources := [⟨bytes, 0, 0, [], false⟩, ⟨[1#8], 0, 0, [⟨0, 7, 1⟩], false⟩, ⟨bytes, 0, 0, [], false⟩, ⟨bytes, 0, 0, [], false⟩]
    sd := ⟨3, 2⟩
    pc := PowerComputer.fresh 2 8 }

/-- The byte stream of case F, 95_test_vectors.md section 3.2. -/
def streamF : List Byte :=
  [0x0A#8, 0x08#8, 0xEC#8, 0x07#8, 0x1E#8, 0x08#8, 0x28#8, 0x08#8, 0xCE#8, 0x07#8, 0x3C#8, 0x08#8] ++
  [0x46#8, 0x08#8, 0xB0#8, 0x07#8, 0x5A#8, 0x08#8, 0x64#8, 0x08#8, 0x92#8, 0x07#8, 0x78#8, 0x08#8]

/-- A batch of two samples, and the cursor behind their bytes (R111, R112). -/
theorem test_sdReadbatch : (after .sdReadbatch (onStream streamF)).response = .samples [10#12, -20#12] ∧
    (after .sdReadbatch (onStream streamF)).sources[3]? = some ⟨streamF, 4, 1, [], false⟩ := by decide

/-- After a short read every later one returns the empty string, also one that would have failed (R41 (ii)); before it, a failing
read is passed on. -/
theorem test_shortRead : (after .sdReadbatch (after .sdReadbatch
      { onStream [] with sd := ⟨0, 2⟩, sources := [⟨[1#8, 2#8, 3#8], 0, 0, [⟨1, 7, 1⟩], false⟩] })).response = .samples [] ∧
    (after .sdReadbatch (after .sdReadbatch
      { onStream [] with sd := ⟨0, 1⟩, sources := [⟨[1#8, 2#8, 3#8], 0, 0, [⟨1, 7, 1⟩], false⟩] })).response =
        .error ⟨.ioError, [7]⟩ := by decide

/-- A byte source has one reader (R300): the source of the sample decoder is refused to the other units, and given to the sample
decoder itself. -/
theorem test_oneReader : exec (.pcNew 3 8) State.reset = .refused (.sourceInUse 3) ∧
    exec (.pwNew 3 1) State.reset = .refused (.sourceInUse 3) ∧ exec (.dmNew 3) State.reset = .refused (.sourceInUse 3) ∧
    { State.reset with pw := PowerWindow.fresh 0 4 0 }.sourceInUse .dm 0 = true ∧ result (.sdNew 3 1) = some .done :=
  ⟨rfl, rfl, rfl, by decide, by decide⟩

/-- 95_test_vectors.md section 3.2, case F. -/
theorem test_pcReadbatch : (after .pcReadbatch (onStream streamF)).response =
    .powers [500#32, 4000#32, 4900#32, 26000#32, 43600#32, 20800#32] := by decide

/-- The same case through a window, which is not full. -/
theorem test_pwGet : (after (.pwGet 3) (after (.pwNew 0 7) (onStream streamF))).response = .i32 26000#32 ∧
    (after (.pwGet 7) (after (.pwNew 0 7) (onStream streamF))).response = .error ⟨.rangeError, [7]⟩ ∧
    (after .pwIsfull (after (.pwNew 0 7) (onStream streamF))).response = .bool false ∧
    (after .pwIsfull (after (.pwNew 0 6) (onStream streamF))).response = .bool true := by decide

/-- The position after steps, and the entries that have moved with it (R127, R128, R131, R132). -/
theorem test_pwAdvance : (after .pwPosition (after (.pwAdvanceby 2) (after (.pwNew 0 4) (onStream streamF)))).response =
      .u64 2#64 ∧
    (after (.pwGet 0) (after .pwAdvance (after (.pwNew 0 4) (onStream streamF)))).response = .i32 4000#32 ∧
    (after .pwSize (after (.pwNew 0 4) (onStream streamF))).response = .nat 4 := by decide

/-- A construction on a source that fails, and the recorded error raised again (R258). -/
theorem test_ioError : (after (.pwNew 1 4) (onStream [])).response = .error ⟨.ioError, [7]⟩ ∧
    (after (.pwGet 99) (after (.pwNew 1 4) (onStream []))).response = .error ⟨.ioError, [7]⟩ ∧
    (after (.dmNew 1) (onStream [])).dm.window.faultBits = 3#2 := by decide

/-- The demodulator on an empty stream (R156, R157). -/
theorem test_dmNext_empty : result .dmNext = some .absent ∧ result (.dmNew 0) = some .done := by decide

/-- 95_test_vectors.md section 5.5. -/
theorem test_detect : detect 0 400 360 0 = true ∧ detect 399 400 399 200 = true ∧ detect 399 400 399 201 = false ∧
    detect 400 400 399 0 = false ∧ detect 399 400 400 0 = false := by decide

/-- The acceptor: a frame of 95_test_vectors.md S1, and the frame of section 4 with `DF` 18, whose CRC is zero too. -/
theorem test_frame : result (.frameDf17 5#3 0x4B17E5#24 0xF8210002004BB8#56 0xB1F1AC#24) =
      some (.raw ⟨0#64, 0x8D4B17E5F8210002004BB8B1F1AC#112⟩) ∧
    result (.frameOther 18#5 0#3 0x4840D6#24 0x202CC371C32CE0#56 0x2A6C6D#24) = some .absent := by decide +kernel

/-- 95_test_vectors.md section 4: `DF` 18 passes `RM.OF`, a wrong CRC does not. -/
theorem test_rmOf : result (.rmOf 5#64 0x904840D6202CC371C32CE02A6C6D#112) =
      some (.raw ⟨5#64, 0x904840D6202CC371C32CE02A6C6D#112⟩) ∧
    result (.rmOf 0#64 0x8D4840D6202CC371C32CE0576099#112) = some .absent := by decide +kernel

/-- 95_test_vectors.md program P4, records 1 and 6. -/
theorem test_replayRecord : result (.replayRecord 0x3B9ACA00#64 0x8D4B17E5202CC371C32CE02156E5#112) =
      some (.raw ⟨1000000000#64, 0x8D4B17E5202CC371C32CE02156E5#112⟩) ∧
    result (.replayRecord 0x9DF3CA80#64 0x8D4B17E558C382D690C8AC000000#112) = some .absent := by decide +kernel

/-- The raw message of 95_test_vectors.md S1. -/
def messageS1 : RawMessage := ⟨8096200#64, 0x8D4B17E5F8210002004BB8B1F1AC#112⟩

theorem test_rmTaps : result (.rmDf messageS1) = some (.nat 17) ∧ result (.rmIcao messageS1) = some (.icao 0x4B17E5#24) ∧
    result (.rmMe messageS1) = some (.me 0xF8210002004BB8#56) ∧ result (.rmTc messageS1) = some (.nat 31) ∧
    icaoText 0x4B17E5#24 = [0x34#8, 0x42#8, 0x31#8, 0x37#8, 0x45#8, 0x35#8] := by decide

/-- 95_test_vectors.md section 4: absent for type code 31; `DF` 18 is parsed. -/
theorem test_mpParse : result (.mpParse messageS1) = some .absent ∧
    result (.mpParse ⟨1#64, 0x904840D6202CC371C32CE02A6C6D#112⟩) = some (.message ⟨1#64, 0x4840D6#24,
      .identification ⟨0xA0#8, [0x4B#8, 0x4C#8, 0x4D#8, 0x31#8, 0x30#8, 0x32#8, 0x33#8]⟩⟩) := by decide

/-- 95_test_vectors.md section 7: inner spaces stay, and an unlisted code makes the message absent. -/
theorem test_idDecode : result (.idDecode ⟨1#64, 0x8D4B17E51D0600A0803820A89E2E#112⟩) = some (.message ⟨1#64, 0x4B17E5#24,
      .identification ⟨0xB5#8, [0x41#8, 0x20#8, 0x42#8, 0x20#8, 0x20#8, 0x43#8]⟩⟩) ∧
    result (.idDecode ⟨1#64, 0x8D4B17E5205054D4C72CE16C2DA8#112⟩) = some .absent := by decide

/-- 95_test_vectors.md section 7, one row for each type code. -/
theorem test_meIdent : result (.meIdentTc1 7#3 1#6 2#6 3#6 4#6 5#6 6#6 7#6 8#6) = some (.payload (.identification
      ⟨0xD7#8, [0x41#8, 0x42#8, 0x43#8, 0x44#8, 0x45#8, 0x46#8, 0x47#8, 0x48#8]⟩)) ∧
    result (.meIdentTc2 3#3 32#6 32#6 32#6 32#6 32#6 32#6 32#6 32#6) = some (.payload (.identification ⟨0xC3#8, []⟩)) ∧
    result (.meIdentTc3 5#3 1#6 32#6 32#6 32#6 32#6 32#6 32#6 32#6) = some (.payload (.identification ⟨0xB5#8, [0x41#8]⟩)) ∧
    result (.meIdentTc4 2#3 48#6 32#6 32#6 32#6 32#6 32#6 32#6 32#6) = some (.payload (.identification ⟨0xA2#8, [0x30#8]⟩)) ∧
    result (.meIdentTc4 2#3 48#6 32#6 32#6 32#6 32#6 32#6 32#6 37#6) = some .absent := by decide

/-- 95_test_vectors.md section 7: the classes of the table. -/
theorem test_characters : [Instr.char0, .char1, .char26, .char27, .char32, .char37, .char47, .char48, .char57, .char58,
      .char63].map result =
    [some .absent, some (.char 0x41#8), some (.char 0x5A#8), some .absent, some (.char 0x20#8), some .absent, some .absent,
      some (.char 0x30#8), some (.char 0x39#8), some .absent, some .absent] := by decide

/-- 95_test_vectors.md section 8.3. -/
theorem test_apDecode : result (.apDecode ⟨1#64, 0x8D39203559B225F07550ADBE328F#112⟩) =
      some (.message ⟨1#64, 0x392035#24, .position ⟨11400, 1#1, 86189#17, 63546#17⟩⟩) ∧
    result (.apDecode ⟨1#64, 0x8D4B17E558A80400C800C88564D1#112⟩) = some .absent := by decide

/-- 95_test_vectors.md section 8.3: type codes 9, 18, 20 and 22. -/
theorem test_mePosition : result (.mePositionTc9 0#3 0xFFF#12 0#1 1#1 131071#17 131071#17) =
      some (.payload (.position ⟨50175, 1#1, 131071#17, 131071#17⟩)) ∧
    result (.mePositionTc18 0#3 0x010#12 0#1 0#1 1#17 2#17) = some (.payload (.position ⟨-1000, 0#1, 2#17, 1#17⟩)) ∧
    result (.mePositionTc20 0#3 0x080#12 0#1 1#1 65536#17 1#17) = some (.payload (.position ⟨-1200, 1#1, 1#17, 65536#17⟩)) ∧
    result (.mePositionTc22 0#3 0x084#12 0#1 0#1 5#17 6#17) = some (.payload (.position ⟨126700, 0#1, 6#17, 5#17⟩)) := by
  decide

/-- 95_test_vectors.md section 8.2. -/
theorem test_altDecode : [0x010#12, 0x058#12, 0xFFE#12, 0x080#12, 0x2A0#12, 0x7EF#12, 0x084#12, 0x000#12, 0x880#12,
      0xFEF#12].map altFeet =
    [some (-1000), some 0, some 50150, some (-1200), some 2600, some 83900, some 126700, none, none, none] ∧
    result (.altDecode 0xC38#12) = some (.int 38000) ∧ result (.altDecode 0x040#12) = some .absent := by decide

/-- 95_test_vectors.md section 8.2, `0xC38` and `0xB22`. -/
theorem test_altFields : result (.altQ1 0b1100001#7 0b1000#4) = some (.int 38000) ∧
    result (.altQ0 1#1 0#1 1#1 1#1 0#1 0#1 1#1 0#1 0#1 1#1 0#1) = some (.int 11400) := by decide

/-- 95_test_vectors.md section 8.1. -/
theorem test_grayDecode : result (.grayDecode ⟨3, 6⟩) = some (.nat 4) ∧
    result (.grayDecode ⟨9, 0b100000001⟩) = some (.nat 510) ∧
    result (.grayDecode ⟨9, 0b101010101⟩) = some (.nat 409) := by decide

/-- 95_test_vectors.md section 9: a subsonic ground speed, and S2. -/
theorem test_avDecode : result (.avDecode ⟨1#64, 0x8D485020994409940838175B284F#112⟩) =
      some (.message ⟨1#64, 0x485020#24, .velocity (.ground (-8) (-159))⟩) ∧
    result (.avDecode ⟨1#64, 0x8DA05F219B06B6AF189400CBC33F#112⟩) =
      some (.message ⟨1#64, 0xA05F21#24, .velocity (.air 375 1#1 694#10)⟩) := by decide

/-- 95_test_vectors.md section 9: the supersonic subtypes, and the fields that hold no data. -/
theorem test_meVelocity : result (.meVelocitySt2 0#5 0#1 4#10 1#1 5#10 0#21) =
      some (.payload (.velocity (.ground 12 (-16)))) ∧
    result (.meVelocitySt1 0#5 1#1 1023#10 1#1 1023#10 0#21) = some (.payload (.velocity (.ground (-1022) (-1022)))) ∧
    result (.meVelocitySt1 0#5 0#1 10#10 0#1 0#10 0#21) = some .absent ∧
    result (.meVelocitySt4 0#5 1#1 512#10 0#1 1023#10 0#21) = some (.payload (.velocity (.air 4088 1#1 512#10))) ∧
    result (.meVelocitySt3 0#5 0#1 694#10 0#1 376#10 0#21) = some (.payload (.velocity (.air 375 0#1 694#10))) ∧
    angleOf (.air 375 0#1 694#10) = .ofHeading 0 := by decide

/-- 95_test_vectors.md sections 4 and 9: the payloads that are not decoded. -/
theorem test_meRest : [Instr.meVelocitySt0 5#48, .meVelocitySt5 5#48, .meVelocitySt6 5#48, .meVelocitySt7 5#48, .meTc0 5#51,
      .meTc8 5#51, .meTc23 5#51, .meTc31 5#51].map result = List.replicate 8 (some .absent) := by decide

/-- 49_cpr.md R238 and the thresholds of R239: 0, -87.1875, 87, -45 and 84.375 degrees. -/
theorem test_cprNl : [(0, 1), (-31, 128), (29, 120), (-1, 8), (15, 64)].map (fun t => result (.cprNl ⟨t.1, t.2⟩)) =
    [some (.nat 59), some (.nat 1), some (.nat 2), some (.nat 42), some (.nat 5)] := by decide +kernel

/-- 95_test_vectors.md section 10: the source's example, the southern hemisphere, one zone, the pole itself. -/
theorem test_cprDecode : result (.cprDecode 111600#17 94445#17 108865#17 77558#17 0#1) =
      some (.geo ⟨89192898#32, 552659081#32⟩) ∧
    result (.cprDecode 76022#17 45875#17 20972#17 58218#17 1#1) =
      some (.geo ⟨1803886592#32, BitVec.ofInt 32 (-404442650)⟩) ∧
    result (.cprDecode 87381#17 43691#17 87381#17 75730#17 0#1) =
      some (.geo ⟨BitVec.ofInt 32 (-1431666688), BitVec.ofInt 32 (-1049880713)⟩) ∧
    result (.cprDecode 5000#17 0#17 4000#17 0#17 0#1) = some (.geo ⟨2776949#32, 0#32⟩) ∧
    result (.cprDecode 101945#17 106387#17 101945#17 89107#17 0#1) = some .absent ∧
    result (.cprDecode 0#17 0#17 0#17 98304#17 0#1) = some .absent := by decide +kernel

/-- The machine after `ACC.UPDATE` of one position message of aircraft 5, and then of another. -/
def updated (t1 t2 : BitVec 64) : Option AircraftState :=
  Mem.read? (after (.accUpdate ⟨t2, 5#24, .position ⟨38000, 1#1, 108865#17, 77558#17⟩⟩)
    (after (.accUpdate ⟨t1, 5#24, .position ⟨38000, 0#1, 111600#17, 94445#17⟩⟩) State.reset)).aircraft 5

/-- 95_test_vectors.md program P4: a pair 500000000 ns apart gives a position; one exactly 1000000000 ns apart does not. -/
theorem test_accUpdate :
    (updated 1100000000#64 1600000000#64).map AircraftState.position = some (some ⟨89182208#32, 552647316#32⟩) ∧
    (updated 1600000000#64 2600000000#64).map AircraftState.position = some none := by decide +kernel

/-- The host's own acts: an aircraft silent for longer than a minute is purged (R275); a nine-character call sign is refused
(R257). -/
theorem test_hostActs :
    (purge 60000000002 (after (.accUpdate ⟨1#64, 5#24, .velocity (.ground 0 0)⟩) State.reset)).aircraft = [] ∧
    (purge 60000000001 (after (.accUpdate ⟨1#64, 5#24, .velocity (.ground 0 0)⟩) State.reset)).aircraft ≠ [] ∧
    callSignOk (List.replicate 9 65#8) = false := by decide

/-! ## Streams -/

/-- A stream of `n` pairs: `I` is 1024 where the envelope has a pulse, else 0; `Q` is 0 (R42, R61, R112). -/
def streamOf (pulse : Nat → Bool) (n : Nat) : List Byte :=
  (List.range (4 * n)).map fun k =>
    if k % 4 = 1 then (if pulse (k / 4) then 0x0C#8 else 0x08#8) else if k % 4 = 3 then 0x08#8 else 0x00#8

/-- The `I` sample of a pair of such a stream. -/
def envelope (pulse : Nat → Bool) (k : Int) : Int := if k < 0 then 0 else if pulse k.toNat then 1024 else 0

/-- The power sequence of such a stream (R117). -/
def envelopePower (pulse : Nat → Bool) (k : Nat) : Int :=
  (envelope pulse ((k : Int) - 3) - envelope pulse ((k : Int) - 2) + envelope pulse ((k : Int) - 1) - envelope pulse k) ^ 2

section

variable (pulse : Nat → Bool) (n : Nat)

@[simp] theorem streamOf_length : (streamOf pulse n).length = 4 * n := by simp [streamOf]

@[simp] theorem powerCount_streamOf : powerCount (streamOf pulse n) = n := by simp [powerCount]

theorem byteAt_streamOf (k : Nat) (h : k < 4 * n) : byteAt (streamOf pulse n) k =
    if k % 4 = 1 then (if pulse (k / 4) then 12 else 8) else if k % 4 = 3 then 8 else 0 := by
  rw [byteAt, streamOf, List.getD_eq_getElem?_getD, List.getElem?_map, List.getElem?_range h]
  simp only [Option.map_some, Option.getD_some]
  repeat' split
  all_goals rfl

theorem sampleAt_streamOf (j : Int) (h : j < 2 * n) :
    sampleAt (streamOf pulse n) j = if j % 2 = 0 then envelope pulse (j / 2) else 0 := by
  unfold sampleAt envelope
  by_cases hneg : j < 0
  · rw [if_pos hneg]
    split
    · rw [if_pos (by omega)]
    · rfl
  · have h0 : ¬(2 * j.toNat) % 4 = 1 ∧ ¬(2 * j.toNat) % 4 = 3 := by omega
    rw [if_neg hneg, byteAt_streamOf pulse n (2 * j.toNat + 1) (by omega), byteAt_streamOf pulse n (2 * j.toNat) (by omega)]
    simp only [h0.1, h0.2, if_false, show ¬j / 2 < 0 by omega]
    by_cases hj : j % 2 = 0
    · have h1 : (2 * j.toNat + 1) % 4 = 1 := by omega
      have h2 : (2 * j.toNat + 1) / 4 = (j / 2).toNat := by omega
      simp only [hj, h1, h2, if_true]
      split <;> rfl
    · have h1 : (2 * j.toNat + 1) % 4 = 3 := by omega
      simp [hj, h1]

theorem powerAt_streamOf (k : Nat) (h : k < n) : powerAt (streamOf pulse n) k = envelopePower pulse k := by
  have even : ∀ d : Int, d ≤ 0 → sampleAt (streamOf pulse n) (2 * (k : Int) + 2 * d) = envelope pulse ((k : Int) + d) := by
    intro d hd
    rw [sampleAt_streamOf _ _ _ (by omega), if_pos (by omega)]
    congr 1
    omega
  have odd : ∀ d : Int, d ≤ 0 → sampleAt (streamOf pulse n) (2 * (k : Int) + (2 * d + 1)) = 0 := by
    intro d hd
    rw [sampleAt_streamOf _ _ _ (by omega), if_neg (by omega)]
  unfold powerAt envelopePower
  have e3 := even (-3) (by decide)
  have e2 := even (-2) (by decide)
  have e1 := even (-1) (by decide)
  have e0 := even 0 (by decide)
  have o3 := odd (-3) (by decide)
  have o2 := odd (-2) (by decide)
  have o1 := odd (-1) (by decide)
  have o0 := odd 0 (by decide)
  norm_num at e3 e2 e1 e0 o3 o2 o1 o0 ⊢
  rw [e3, e2, e1, e0, o3, o2, o1, o0]
  simp [sub_eq_add_neg]

end

/-- The frame of 95_test_vectors.md S1. -/
def frameS1 : Frame := 0x8D4B17E5F8210002004BB8B1F1AC#112

/-- One transmission of the frame at position 0: preamble pulses at 0, 10, 35 and 45, and for each data bit a pulse in its early or
its late half; a one is late (R64, R152). -/
def transmission (k : Nat) : Bool :=
  k ∈ [0, 1, 10, 11, 35, 36, 45, 46] ||
    (80 ≤ k && k < 1200 &&
      (if frameS1.getLsbD (111 - (k - 80) / 10) then (k - 80) % 10 == 5 || (k - 80) % 10 == 6
        else (k - 80) % 10 == 0 || (k - 80) % 10 == 1))

/-- A transmission that fills the window exactly. -/
def streamS1 : List Byte := streamOf transmission 1200

/-- Silence, one power value more than the window. -/
def silence : List Byte := streamOf (fun _ => false) 1201

theorem power_transmission {n : Nat} (hn : 1200 ≤ n) (k : Nat) (h : k < 1200) :
    powerAt (streamOf transmission n) k = envelopePower transmission k :=
  powerAt_streamOf _ _ k (by omega)

theorem power_streamS1 (k : Nat) (h : k < 1200) : powerAt streamS1 k = envelopePower transmission k :=
  power_transmission le_rfl k h

theorem power_silence (k : Nat) (h : k < 1201) : powerAt silence k = 0 := by
  rw [silence, powerAt_streamOf _ _ k h]
  simp [envelopePower, envelope]

/-- The scores and the decision at position 0 of a transmission (R146 to R149). -/
theorem scores_transmission {n : Nat} (hn : 1200 ≤ n) :
    spAt (streamOf transmission n) 0 = 4194304 ∧ svAt (streamOf transmission n) 0 = 0 ∧ spAt (streamOf transmission n) 1 = 0 ∧
      detectAt (streamOf transmission n) 0 = true := by
  have h : spAt (streamOf transmission n) 0 = 4194304 ∧ svAt (streamOf transmission n) 0 = 0 ∧
      spAt (streamOf transmission n) 1 = 0 := by
    unfold spAt svAt
    have power := power_transmission hn
    simp only [power _ (show 0 < 1200 by decide), power _ (show 0 + 5 < 1200 by decide), power _ (show 0 + 10 < 1200 by decide),
      power _ (show 0 + 15 < 1200 by decide), power _ (show 0 + 20 < 1200 by decide), power _ (show 0 + 25 < 1200 by decide),
      power _ (show 0 + 30 < 1200 by decide), power _ (show 0 + 35 < 1200 by decide), power _ (show 0 + 40 < 1200 by decide),
      power _ (show 0 + 45 < 1200 by decide), power _ (show 1 < 1200 by decide), power _ (show 1 + 10 < 1200 by decide),
      power _ (show 1 + 35 < 1200 by decide), power _ (show 1 + 45 < 1200 by decide)]
    decide
  refine ⟨h.1, h.2.1, h.2.2, ?_⟩
  unfold detectAt sppAt
  rw [h.1, h.2.1, h.2.2]
  decide

theorem test_scores : spAt streamS1 0 = 4194304 ∧ svAt streamS1 0 = 0 ∧ spAt streamS1 1 = 0 ∧ detectAt streamS1 0 = true :=
  scores_transmission le_rfl

/-- The frame sliced at position 0 is the one transmitted (R152, R153). -/
theorem slice_transmission {n : Nat} (hn : 1200 ≤ n) : sliceAt true (streamOf transmission n) 0 = frameS1 := by
  have h : sliceAt true (streamOf transmission n) 0 = packBits (fun i =>
      decide (envelopePower transmission (0 + 80 + 10 * i) < envelopePower transmission (0 + 85 + 10 * i))) 112 := by
    refine packBits_congr 112 fun i hi => ?_
    dsimp only
    rw [if_pos rfl, power_transmission hn _ (by omega), power_transmission hn _ (by omega)]
  rw [h]
  decide +kernel

theorem test_slice : sliceAt true streamS1 0 = frameS1 := slice_transmission le_rfl

/-- The chain accepts that frame (R154). -/
theorem test_accepts : accepts State.reset.crc frameS1 = true := by decide +kernel

/-- A demodulator constructed on a stream. -/
def demodulating (bytes : List Byte) : State :=
  let r := PowerWindow.construct 0 1200 2 [⟨bytes, 0, 0, [], false⟩]
  { State.reset with
    dm := { State.reset.dm with window := r.window }
    sources := r.sources }

theorem demodulating_shows (bytes : List Byte) : (demodulating bytes).dm.window.Shows bytes (demodulating bytes).sources :=
  (PowerWindow.shows_construct (sources := [⟨bytes, 0, 0, [], false⟩]) (source := 0) (windowSize := 1200) 2 (by decide) (by decide) rfl).2

theorem demodulating_size (bytes : List Byte) : (demodulating bytes).dm.window.windowSize = 1200 :=
  PowerWindow.refill_windowSize ..

theorem demodulating_position (bytes : List Byte) : (demodulating bytes).dm.window.position = 0#64 :=
  PowerWindow.refill_position ..

theorem demodulating_params (bytes : List Byte) : (demodulating bytes).params = Params.default := rfl

theorem demodulating_crc (bytes : List Byte) : (demodulating bytes).crc = State.reset.crc := rfl

theorem demodulating_spPrev (bytes : List Byte) : (demodulating bytes).dm.spPrev = 0 := rfl

theorem demodulating_full : (demodulating streamS1).dm.window.isFull = true := by
  rw [(demodulating_shows _).isFull, demodulating_size, demodulating_position, streamS1, powerCount_streamOf]
  exact decide_eq_true (by decide)

theorem demodulating_value (i : Nat) (h : i < 1200) :
    (demodulating streamS1).dm.window.value i = envelopePower transmission i := by
  have hpos : (demodulating streamS1).dm.window.position.toNat + i = i := by rw [demodulating_position]; simp
  rw [PowerWindow.value, (demodulating_shows _).entry_toInt (by rw [demodulating_size]; exact h)
    (by rw [hpos, streamS1, powerCount_streamOf]; exact h), hpos, power_streamS1 i h]

/-- `DM.DETECT` and `DM.SLICE` on the transmission (R149, R152): the preamble is declared, and the frame is the one transmitted. -/
theorem test_dmDetect : (demodulating streamS1).dm.detects = true ∧ slice true (demodulating streamS1).dm.window = frameS1 := by
  constructor
  · unfold Demodulator.detects PowerWindow.sp PowerWindow.sv
    rw [demodulating_spPrev]
    simp only [demodulating_value _ (show 0 < 1200 by decide), demodulating_value _ (show 0 + 10 < 1200 by decide),
      demodulating_value _ (show 0 + 35 < 1200 by decide), demodulating_value _ (show 0 + 45 < 1200 by decide),
      demodulating_value _ (show 1 < 1200 by decide), demodulating_value _ (show 1 + 10 < 1200 by decide),
      demodulating_value _ (show 1 + 35 < 1200 by decide), demodulating_value _ (show 1 + 45 < 1200 by decide),
      demodulating_value _ (show 5 < 1200 by decide), demodulating_value _ (show 15 < 1200 by decide),
      demodulating_value _ (show 20 < 1200 by decide), demodulating_value _ (show 25 < 1200 by decide),
      demodulating_value _ (show 30 < 1200 by decide), demodulating_value _ (show 40 < 1200 by decide)]
    decide
  · rw [← test_slice]
    refine packBits_congr 112 fun i hi => ?_
    unfold sliceBit
    rw [demodulating_value _ (by omega), demodulating_value _ (by omega)]
    dsimp only
    rw [power_streamS1 _ (by omega), power_streamS1 _ (by omega), show 0 + 80 + 10 * i = 80 + 10 * i by omega,
      show 0 + 85 + 10 * i = 85 + 10 * i by omega]

/-- `DM.NEXT` on a window that shows a stream and holds an acceptable frame at its position 0 (R155), with the default
parameters. -/
theorem dmNext_accepts {s : State} {bytes : List Byte} {f : Frame} (hparams : s.params = Params.default)
    (hshows : s.dm.window.Shows bytes s.sources) (hpos : s.dm.window.position = 0#64) (hfull : s.dm.window.isFull = true)
    (hdet : s.dm.detects = true) (hslice : slice true s.dm.window = f) (hacc : accepts s.crc f = true) :
    ∃ t, exec .dmNext s = .next t ∧ t.response = .raw ⟨0#64, f⟩ ∧ t.dm.window.position = 1200#64 := by
  have h1 := hshows.advanceBy 1199 (by rw [hpos]; simp)
  have h2 := h1.2.2.1.advance (by rw [h1.2.1, hpos]; simp)
  have hend := h2.2.1
  rw [h1.2.1, hpos] at hend
  have hturn : Scan.turn Params.default ⟨s.dm, s.crc, s.sources⟩ =
      .stop ((Scan.sliced Params.default ⟨s.dm, s.crc, s.sources⟩).jump .trueSequence ⟨0#64, f⟩).1
        ((Scan.sliced Params.default ⟨s.dm, s.crc, s.sources⟩).jump .trueSequence ⟨0#64, f⟩).2 := by
    have hcand : Scan.candidate Params.default ⟨s.dm, s.crc, s.sources⟩ = f := hslice
    have hts : timestampOf s.dm.window.position = 0#64 := by
      rw [hpos]
      decide
    rcases Scan.turn_cases Params.default ⟨s.dm, s.crc, s.sources⟩ with ⟨e, hf, -⟩ | ⟨-, hf, -⟩ | ⟨-, -, -, -, ht⟩ |
      ⟨-, -, -, hf, -⟩ | ⟨-, -, hf, -⟩
    · exact absurd (hshows.unfaulted.symm.trans hf) (by simp)
    · exact absurd (hfull.symm.trans hf) (by simp)
    · rw [ht, hcand, hts]
      rfl
    · rw [hcand] at hf
      exact absurd (hacc.symm.trans hf) (by simp)
    · exact absurd (hdet.symm.trans hf) (by simp)
  have hjump : ((Scan.sliced Params.default ⟨s.dm, s.crc, s.sources⟩).jump .trueSequence ⟨0#64, f⟩).2 = .raw ⟨0#64, f⟩ ∧
      ((Scan.sliced Params.default ⟨s.dm, s.crc, s.sources⟩).jump .trueSequence ⟨0#64, f⟩).1.dm.window.position = 1200#64 := by
    unfold Scan.jump
    simp only [Scan.sliced, Scan.scored, h1.1, h2.1]
    exact ⟨trivial, BitVec.eq_of_toNat_eq hend⟩
  have hexec : exec .dmNext s =
      answer ((Scan.sliced Params.default ⟨s.dm, s.crc, s.sources⟩).jump .trueSequence ⟨0#64, f⟩).2 { s with
        dm := ((Scan.sliced Params.default ⟨s.dm, s.crc, s.sources⟩).jump .trueSequence ⟨0#64, f⟩).1.dm
        crc := ((Scan.sliced Params.default ⟨s.dm, s.crc, s.sources⟩).jump .trueSequence ⟨0#64, f⟩).1.crc
        sources := ((Scan.sliced Params.default ⟨s.dm, s.crc, s.sources⟩).jump .trueSequence ⟨0#64, f⟩).1.sources } := by
    show execDmNext s = _
    rw [execDmNext, scanFuel, hparams, Scan.loop_succ, hturn]
  exact ⟨_, hexec, hjump⟩

/-- `DM.NEXT` on the transmission: the frame, timestamped with position 0, and the window 1200 positions on. -/
theorem test_dmNext : ∃ t, exec .dmNext (demodulating streamS1) = .next t ∧ t.response = .raw ⟨0#64, frameS1⟩ ∧
    t.dm.window.position = 1200#64 :=
  dmNext_accepts (demodulating_params _) (demodulating_shows _) (demodulating_position _) demodulating_full test_dmDetect.1
    test_dmDetect.2 (by rw [demodulating_crc]; exact test_accepts)

/-! ## Witnesses: the hypotheses of the statements are met together -/

/-- `DecodeOfEncode`: operands at the ends of their ranges. -/
theorem witness_DecodeOfEncode : List.map Instr.wellFormed
    [.bfExtract (BitVec.allOnes 64) (-1) 65, .pwAdvanceby 0, .cprNl ⟨-5, 1⟩, .frameOther 16#5 7#3 0#24 0#56 0#24,
      .grayDecode ⟨9, 511⟩, .accUpdate ⟨0#64, 0#24, .identification ⟨255#8, List.replicate 8 90#8⟩⟩] =
    List.replicate 6 true := by decide

/-- `DecodedWordsAreCarriedWhole` and `NoWordTraps`: the greatest word of each format. -/
theorem witness_words : List.map (fun f : Format => (decode (.word f (f.layout (2 ^ f.width - 1)))).toOption)
    [.sample16, .alt12, .me56, .frame112, .replay176, .char6] =
    [some (.sample 15#4 0xFFF#12), some (.altQ1 127#7 15#4), some (.meTc31 (BitVec.allOnes 51)),
      some (.frameOther 31#5 7#3 (BitVec.allOnes 24) (BitVec.allOnes 56) (BitVec.allOnes 24)),
      some (.replayRecord (BitVec.allOnes 64) (BitVec.allOnes 112)), some .char63] := by decide

/-- A sound state that is not the reset state. -/
def soundState : State :=
  { State.reset with
    aircraft := [(5, { AircraftState.created with lastSeenNs := some 7#64 })]
    response := .done
    queue := [.call .bfTest [0x10, 64]] }

/-- `StepRunsDecodedRequest`: a request that expresses an operation, and a port without a request. -/
theorem witness_StepRunsDecodedRequest : soundState.queue = .call .bfTest [0x10, 64] :: [] ∧
    (decode (.call .bfTest [0x10, 64])).toOption = some (.bfTest 0x10#64 64) ∧ State.reset.queue = [] := by decide

/-- `StepRunsDecodedRequest`, the word placed at the port: the least and the greatest character code. -/
theorem witness_StepRunsDecodedWord : decodeTableWord 8 0 = some .char0 ∧ decodeTableWord 8 63 = some .char63 := by decide

theorem soundState_sound : soundState.Sound where
  crc := Crc24.built_crcTableOf Config.generator 0#24
  decoder := by decide
  computer := by unfold PowerComputer.Legal; decide
  window := ⟨by decide, by decide, .nil, .nil, by simp [soundState, State.reset, PowerWindow.onEmptySource],
    by simp [soundState, State.reset, PowerWindow.onEmptySource], by decide, by decide, fun _ h => by cases h⟩
  demodulator := ⟨by decide, by decide, .nil, .nil, by simp [soundState, State.reset, PowerWindow.onEmptySource],
    by simp [soundState, State.reset, PowerWindow.onEmptySource], by decide, by decide, fun _ h => by cases h⟩
  demodulatorSize := rfl
  aircraft := ⟨by decide, by decide, by simp [soundState, AircraftState.Sound, AircraftState.created]⟩
  oneReader := fun u v => by cases u <;> cases v <;> decide
  rawMessage := fun _ h => by cases h

/-- `StepKeepsSound`, and `ErrorsOnlyWhereNamed` with an error. -/
theorem witness_StepKeepsSound : soundState.Sound ∧ ∃ t, step soundState = .next t ∧
    exec (.bfTest 0x10#64 64) soundState = .next (soundState.respond (.error ⟨.rangeError, [64]⟩)) ∧
    t.response = .error ⟨.rangeError, [64]⟩ :=
  ⟨soundState_sound, _, rfl, rfl, rfl⟩

/-- `OperationsReturn`: an operation that constructs nothing, and a construction on a source that no other unit reads; a window
whose counters fit; and constructions on a source in use, refused and with a wrong size. -/
theorem witness_OperationsReturn : (Instr.pwAdvance ≠ .dmNext ∧ ∀ u h, ¬Constructs u h .pwAdvance) ∧
    (Constructs .dm 0 (.dmNew 0) ∧ soundState.sourceInUse .dm 0 = false) ∧
    soundState.dm.window.Fits soundState.sources ∧
    (Constructs .pw 3 (.pwNew 3 1) ∧ soundState.sourceInUse .pw 3 = true) ∧
    exec (.pwNew 3 0) soundState = .next (soundState.respond (.error ⟨.configError, [0]⟩)) :=
  ⟨⟨nofun, fun _ _ h => nomatch h⟩, ⟨.dmNew 0, by decide⟩, show 0 + 0 + 131072 < 2 ^ 64 by simp, ⟨.pwNew 3 1, by decide⟩, rfl⟩

/-- `StatelessUnitsReadNoState`, at both ends of the table's data rows. -/
theorem witness_StatelessUnitsReadNoState : ¬UsesState (.sample 0#4 0#12) ∧ ¬UsesState .char63 := ⟨nofun, nofun⟩

/-- `UnitsKeepToThemselves`: each kind of state is changed by an operation named for it. -/
theorem witness_UnitsKeepToThemselves :
    (after (.crcBuild 1#24) State.reset).crc.generator ≠ State.reset.crc.generator ∧
    (after (.crcCrc [1#8]) State.reset).crc.crcReg ≠ State.reset.crc.crcReg ∧
    (after (.pwNew 0 1) State.reset).windowsBuilt ≠ State.reset.windowsBuilt ∧
    (after (.sdNew 0 1) State.reset).sd ≠ State.reset.sd ∧ (after (.pcNew 0 8) State.reset).pc ≠ State.reset.pc ∧
    (after .pwAdvance State.reset).pw ≠ State.reset.pw ∧ (after (.dmNew 0) State.reset).dm ≠ State.reset.dm ∧
    (after (.accUpdate ⟨1#64, 5#24, .velocity (.ground 0 0)⟩) State.reset).aircraft ≠ State.reset.aircraft ∧
    (after .sdReadbatch State.reset).sources ≠ State.reset.sources := by decide +kernel

/-- `SourcesAreReadOnce`: a full read and a short one, a read of a source that has ended, and a step that reads. -/
theorem witness_SourcesAreReadOnce :
    srcRead 1 0 [⟨[1#8, 2#8], 1, 1, [], false⟩] = (.ok [2#8], [⟨[1#8, 2#8], 2, 2, [], false⟩]) ∧
    srcRead 2 0 [⟨[1#8, 2#8], 1, 1, [], false⟩] = (.ok [2#8], [⟨[1#8, 2#8], 2, 2, [], true⟩]) ∧
    srcRead 2 0 [⟨[1#8, 2#8], 2, 2, [⟨2, 7, 0⟩], true⟩] = (.ok [], [⟨[1#8, 2#8], 2, 3, [⟨2, 7, 0⟩], true⟩]) ∧
    ∃ t, step { onStream streamF with queue := [.call .sdReadbatch []] } = .next t ∧
      (onStream streamF).sources[3]? = some ⟨streamF, 0, 0, [], false⟩ ∧ 0 ≤ streamF.length ∧
      t.sources[3]? = some ⟨streamF, 4, 1, [], false⟩ :=
  ⟨rfl, rfl, rfl, _, rfl, rfl, by decide, by decide⟩

/-- `BfExtractResult`: the ends of each range; a wrong size is found before a wrong start. -/
theorem witness_BfExtractResult : List.map (fun c : Int × Int => result (.bfExtract 0x8000000000000001#64 c.1 c.2))
    [(0, 1), (63, 1), (0, 32), (32, 32), (0, 0), (0, 33), (-1, 0), (-1, 1), (33, 32), (64, 1)] =
    [some (.u32 1#32), some (.u32 1#32), some (.u32 1#32), some (.u32 0x80000000#32), some (.error ⟨.rangeError, [0]⟩),
      some (.error ⟨.rangeError, [33]⟩), some (.error ⟨.rangeError, [0]⟩), some (.error ⟨.rangeError, [-1, 1]⟩),
      some (.error ⟨.rangeError, [33, 32]⟩), some (.error ⟨.rangeError, [64, 1]⟩)] := by decide

/-- `BfProperties`: a field that is split at the top of the word; an index. -/
theorem witness_BfProperties : 1 ≤ 1 ∧ 1 ≤ 31 ∧ 1 + 31 ≤ 32 ∧ 32 + 1 + 31 ≤ 64 ∧ (0 : Int) ≤ 63 ∧ (63 : Int) < 64 ∧
    result (.bfExtract 0xC000000100000000#64 32 32) = some (.u32 0xC0000001#32) ∧
    result (.bfExtract 0xC000000100000000#64 33 31) = some (.u32 0x60000000#32) ∧
    result (.bfExtract 0xC000000100000000#64 32 1) = some (.u32 1#32) := by decide

/-- `BfTestResult`: the ends of the range and their outer neighbours. -/
theorem witness_BfTestResult : List.map (fun k : Int => result (.bfTest 0x8000000000000000#64 k)) [0, 63, -1, 64] =
    [some (.bool false), some (.bool true), some (.error ⟨.rangeError, [-1]⟩), some (.error ⟨.rangeError, [64]⟩)] := by decide

/-- `CrcCrcResult`, `CrcIsPolynomialRemainder` and `CrcValidFrames`: a built table, the default generator, which is odd, a frame with
CRC zero and its last bit. -/
theorem witness_Crc : State.reset.crc.Built ∧ State.reset.crc.generator = 0xFFF409#24 ∧
    State.reset.crc.generator.getLsbD 0 = true ∧ State.reset.crc.run (frameBytes frameS1) = 0#24 ∧
    State.reset.crc.run (frameBytes 0#112) = 0#24 ∧ 111 < 112 :=
  ⟨Crc24.built_crcTableOf Config.generator 0#24, rfl, by decide, by decide +kernel, by decide +kernel, by decide⟩

/-- `FrontEndConstructors`: the ends of each range; a source in use, of the power computer and of the sample decoder. -/
theorem witness_FrontEndConstructors : State.reset.sourceInUse .sd 0 = false ∧ State.reset.sourceInUse .sd 2 = true ∧
    State.reset.sourceInUse .pc 0 = false ∧ State.reset.sourceInUse .pc 3 = true ∧ List.map result [.sdNew 0 (-1), .sdNew 0 0, .sdNew 0 1, .pcNew 0 (-8), .pcNew 0 0, .pcNew 0 7,
      .pcNew 0 8] =
    [some (.error ⟨.configError, [-1]⟩), some (.error ⟨.configError, [0]⟩), some .done, some (.error ⟨.configError, [-8]⟩),
      some (.error ⟨.configError, [0]⟩), some (.error ⟨.configError, [7]⟩), some .done] := by decide

/-- A failure of the first read. -/
def failing : IoFailure := ⟨0, 7, 1⟩

/-- `SdReadbatchResult`: a source that delivers, one that fails at this read, and one that has ended. -/
theorem witness_SdReadbatchResult :
    (onStream streamF).sources[(onStream streamF).sd.source]? = some ⟨streamF, 0, 0, [], false⟩ ∧
    (([] : List IoFailure).find? fun f => f.atCall == 0) = none ∧
    { onStream streamF with sd := ⟨1, 2⟩ }.sources[1]? = some ⟨[1#8], 0, 0, [failing], false⟩ ∧
    ([failing].find? fun f => f.atCall == 0) = some failing ∧
    { State.reset with sd := ⟨0, 2⟩ }.sources[0]? = some ⟨[], 0, 1, [], true⟩ := ⟨rfl, rfl, rfl, rfl, rfl⟩

/-- `PcReadbatchSlicesPower`, second clause: a source of the power computer that fails at its first read. -/
theorem witness_PcReadbatchFails :
    { onStream streamF with pc := PowerComputer.fresh 1 8 }.sources[1]? = some ⟨[1#8], 0, 0, [failing], false⟩ ∧
    ([failing].find? fun f => f.atCall == 0) = some failing ∧
    (after .pcReadbatch { onStream streamF with pc := PowerComputer.fresh 1 8 }).response = .error ⟨.ioError, [7]⟩ :=
  ⟨rfl, rfl, rfl⟩

/-- `PcReadbatchSlicesPower`, first clause: a computer at the start of a stream. -/theorem witness_PcReadbatchSlicesPower : (onStream streamF).pc.Legal ∧
    (onStream streamF).pc.AtIndex streamF 0 (onStream streamF).sources := by
  refine ⟨by unfold PowerComputer.Legal; decide, ⟨0, rfl⟩, fun k => ?_⟩
  rw [sampleAt, if_pos (by simp; omega)]
  revert k
  decide

/-- `PwNewResult` and the first clause of `WindowShowsStream`: the ends of the range are in `test_pwNew` and here; a fresh source, one
that fails, and one in use. -/
theorem witness_PwNewResult : FreshSource (onStream streamF).sources 0 streamF ∧
    (onStream streamF).sourceInUse .pw 0 = false ∧ (onStream streamF).sourceInUse .pw 3 = true ∧
    (onStream streamF).sources[1]? = some ⟨[1#8], 0, 0, [failing], false⟩ ∧
    (after (.pwNew 0 1) (onStream streamF)).pw.avail = 6 ∧ result (.pwNew 1 65536) = some .done :=
  ⟨rfl, by decide, by decide, rfl, by decide, by decide⟩

/-- A window at the `PW` port constructed on a stream. -/
def windowed (bytes : List Byte) (size : Nat) : State :=
  let r := PowerWindow.construct 0 size 2 [⟨bytes, 0, 0, [], false⟩]
  { State.reset with
    pw := r.window
    sources := r.sources }

theorem windowed_shows (bytes : List Byte) (size : Nat) (h : 1 ≤ size) (h' : size ≤ 65536) :
    (windowed bytes size).pw.Shows bytes (windowed bytes size).sources :=
  (PowerWindow.shows_construct (sources := [⟨bytes, 0, 0, [], false⟩]) (source := 0) (windowSize := size) 2 h h' rfl).2

theorem windowed_size (bytes : List Byte) (size : Nat) : (windowed bytes size).pw.windowSize = size :=
  PowerWindow.refill_windowSize ..

theorem windowed_position (bytes : List Byte) (size : Nat) : (windowed bytes size).pw.position = 0#64 :=
  PowerWindow.refill_position ..

/-- `PwAccessorsRead`, `WindowShowsStream` and the first clause of `PwGetReadsPower`: an unfaulted window that shows a stream and is
full, and one a single entry too large to be. -/
theorem witness_WindowShowsStream : ((windowed silence 1201).pw.Shows silence (windowed silence 1201).sources ∧
      (windowed silence 1201).pw.fault = none ∧ (windowed silence 1201).pw.position.toNat + 1201 ≤ powerCount silence ∧
      (windowed silence 1201).pw.position.toNat + 1 < 2 ^ 64) ∧
    ((windowed silence 1202).pw.Shows silence (windowed silence 1202).sources ∧
      powerCount silence < (windowed silence 1202).pw.position.toNat + (windowed silence 1202).pw.windowSize ∧
      (windowed silence 1202).pw.position.toNat + 1 < 2 ^ 64) := by
  refine ⟨⟨windowed_shows _ _ (by decide) (by decide), (windowed_shows _ _ (by decide) (by decide)).unfaulted, ?_, ?_⟩,
    windowed_shows _ _ (by decide) (by decide), ?_, ?_⟩
  all_goals simp only [windowed_position, windowed_size, silence, powerCount_streamOf]; decide

/-- The reset state with other windows on other sources is sound, when they are and only one of them still reads, from handle 0. -/
theorem resetWith_sound {w d : PowerWindow} (sources : List ByteSource) (queue : List Request) (hw : w.Sound) (hd : d.Sound)
    (hsize : d.windowSize = 1200) (hws : w.mayRead = true → w.computer.decoder.source = 0)
    (hds : d.mayRead = true → d.computer.decoder.source = 0) (hone : w.mayRead = true → d.mayRead = true → False) :
    { State.reset with
      pw := w
      dm := { State.reset.dm with window := d }
      sources := sources
      queue := queue }.Sound where
  crc := Crc24.built_crcTableOf Config.generator 0#24
  decoder := soundState_sound.decoder
  computer := soundState_sound.computer
  window := hw
  demodulator := hd
  demodulatorSize := hsize
  aircraft := ⟨List.Pairwise.nil, fun _ h => absurd h List.not_mem_nil, fun _ h => absurd h List.not_mem_nil⟩
  oneReader := fun u v hne hu hv => by
    cases u <;> cases v
    case sd.sd | pc.pc | pw.pw | dm.dm => exact absurd rfl hne
    case sd.pc => exact (by decide : (3 : Nat) ≠ 2)
    case pc.sd => exact (by decide : (2 : Nat) ≠ 3)
    case sd.pw => exact fun h => absurd (h.trans (hws hv)) (by decide : (3 : Nat) ≠ 0)
    case pc.pw => exact fun h => absurd (h.trans (hws hv)) (by decide : (2 : Nat) ≠ 0)
    case pw.sd => exact fun h => absurd (h.symm.trans (hws hu)) (by decide : (3 : Nat) ≠ 0)
    case pw.pc => exact fun h => absurd (h.symm.trans (hws hu)) (by decide : (2 : Nat) ≠ 0)
    case sd.dm => exact fun h => absurd (h.trans (hds hv)) (by decide : (3 : Nat) ≠ 0)
    case pc.dm => exact fun h => absurd (h.trans (hds hv)) (by decide : (2 : Nat) ≠ 0)
    case dm.sd => exact fun h => absurd (h.symm.trans (hds hu)) (by decide : (3 : Nat) ≠ 0)
    case dm.pc => exact fun h => absurd (h.symm.trans (hds hu)) (by decide : (2 : Nat) ≠ 0)
    case pw.dm => exact (hone hu hv).elim
    case dm.pw => exact (hone hv hu).elim
  rawMessage := fun _ h => by cases h

/-- `WindowShowsStream`, every step: a window and a demodulator that show a stream, in a sound state, and a step that is none of
their own. -/
theorem witness_WindowKeepsShowing :
    let s := { windowed silence 1201 with queue := [.call .bfTest [0x10, 64]] }
    let d := { demodulating silence with queue := [.call .bfTest [0x10, 64]] }
    (s.Sound ∧ s.pw.Shows silence s.sources ∧ ∃ t, step s = .next t) ∧
    (d.Sound ∧ d.dm.window.Shows silence d.sources ∧ powerCount silence + 1200 < 2 ^ 64 ∧ ∃ t, step d = .next t) ∧
    (decode (.call .bfTest [0x10, 64])).toOption = some (.bfTest 0x10#64 64) :=
  ⟨⟨resetWith_sound _ _ (PowerWindow.sound_construct (by decide) (by decide)) soundState_sound.demodulator rfl
      (fun _ => (PowerWindow.refill_mayRead ..).1) nofun (fun _ h => nomatch h),
      windowed_shows _ _ (by decide) (by decide), _, rfl⟩,
    ⟨resetWith_sound _ _ soundState_sound.window (PowerWindow.sound_construct (by decide) (by decide))
      (PowerWindow.refill_windowSize ..) nofun (fun _ => (PowerWindow.refill_mayRead ..).1) nofun,
      demodulating_shows _, by rw [silence, powerCount_streamOf]; decide, _, rfl⟩, by decide⟩

/-- `PwGetReadsPower`: the indices at the ends of a window of seven on a stream of six power values. -/
theorem witness_PwGetReadsPower : (after (.pwNew 0 7) (onStream streamF)).pw.fault = none ∧
    List.map (fun i => (after (.pwGet i) (after (.pwNew 0 7) (onStream streamF))).response) [-1, 7, 0, 5] =
      [.error ⟨.rangeError, [-1]⟩, .error ⟨.rangeError, [7]⟩, .i32 500#32, .i32 20800#32] ∧
    ∃ v, (after (.pwGet 6) (after (.pwNew 0 7) (onStream streamF))).response = .i32 v :=
  ⟨by decide, by decide, _, rfl⟩

/-- A window whose next step refills, on a source with no byte or on one that fails. -/
def refilling (source : Nat) : State :=
  { onStream [] with pw := { PowerWindow.fresh source 65536 0 with avail := 65536 } }

/-- `PwAdvanceEffect`: a step without a refill, one after the end of the stream, one that refills and one whose refill fails. -/
theorem witness_PwAdvanceEffect : ((0#64 + 1#64).toNat + 1200 - 1) % 65536 ≠ 0 ∧ State.reset.pw.windowSize = 1200 ∧
    State.reset.pw.eos = true ∧ (refilling 0).pw.fault = none ∧ (refilling 0).pw.eos = false ∧
    (((refilling 0).pw.position + 1#64).toNat + (refilling 0).pw.windowSize - 1) % 65536 = 0 ∧
    (∃ powers computer sources, (refilling 0).pw.computer.readBatch (refilling 0).sources = (.ok (powers, computer), sources)) ∧
    (∃ e sources, (refilling 1).pw.computer.readBatch (refilling 1).sources = (.error e, sources)) :=
  ⟨by decide, rfl, rfl, rfl, rfl, by decide, ⟨_, _, _, rfl⟩, _, _, rfl⟩

/-- `PwAdvancebyRepeats`: a step that succeeds and one that fails. -/
theorem witness_PwAdvancebyRepeats : (∃ t, exec .pwAdvance (refilling 0) = .next t ∧ t.response = .done) ∧
    (∃ t, exec .pwAdvance (refilling 1) = .next t ∧ t.response = .error ⟨.ioError, [7]⟩) ∧
    ∃ t, exec (.pwAdvanceby 2) State.reset = .next t ∧ t.response = .done :=
  ⟨⟨_, rfl, rfl⟩, ⟨_, rfl, rfl⟩, _, rfl, rfl⟩

/-- `FaultedInstanceRaisesAgain`: a window and a demodulator with a recorded error. -/
theorem witness_FaultedInstanceRaisesAgain :
    (after (.pwNew 1 4) (onStream [])).pw.fault = some ⟨.ioError, [7]⟩ ∧
    (after (.dmNew 1) (onStream [])).dm.window.fault = some ⟨.ioError, [7]⟩ := by decide

/-- `DmNewResult`: the handles of `witness_PwNewResult`, at the demodulator. -/
theorem witness_DmNewResult : FreshSource (onStream streamF).sources 0 streamF ∧
    (onStream streamF).sourceInUse .dm 0 = false ∧ (onStream streamF).sourceInUse .dm 1 = false ∧
    (onStream streamF).sourceInUse .dm 3 = true ∧
    (after (.dmNew 0) (onStream streamF)).dm.window.avail = 6 ∧
    (after (.dmNew 1) (onStream streamF)).response = .error ⟨.ioError, [7]⟩ :=
  ⟨rfl, by decide, by decide, by decide, by decide, by decide⟩

/-- `DM.NEW` clears `sp_prev`, also where the first fill fails (R28). -/
theorem test_dmNew_clears :
    [0, 1].map (fun source => (after (.dmNew source) { onStream streamF with dm := { State.reset.dm with spPrev := 5 } }).dm.spPrev) =
      [0, 0] := by decide

/-- `DmScoresAndDecision` and `DmSliceBits`: a full window of 1200 that shows a stream. -/
theorem witness_DmScoresAndDecision :
    (demodulating streamS1).dm.window.Shows streamS1 (demodulating streamS1).sources ∧
    (demodulating streamS1).dm.window.fault = none ∧ (demodulating streamS1).dm.window.windowSize = 1200 ∧
    (demodulating streamS1).dm.window.position.toNat + 1200 ≤ powerCount streamS1 := by
  refine ⟨demodulating_shows _, (demodulating_shows _).unfaulted, demodulating_size _, ?_⟩
  rw [demodulating_position, streamS1, powerCount_streamOf]
  decide

/-- `DmSliceBits`, second clause: an operation on a state with another frame in the register. -/
theorem witness_frameRegister : exec .dmSlice { State.reset with dm := { State.reset.dm with frame := 1#112 } } =
      exec .dmSlice State.reset ∧ ∃ t, exec .dmSlice State.reset = .next t ∧ t.response = .done := ⟨rfl, _, rfl, rfl⟩

/-- `DmNextFindsFirstAccepted`, first clause: the transmission is accepted at the first position. -/
theorem witness_DmNextFindsFirstAccepted : powerCount streamS1 + 1200 < 2 ^ 64 ∧ 0 + 1200 ≤ powerCount streamS1 ∧
    (detect (demodulating streamS1).dm.spPrev (spAt streamS1 0) (spAt streamS1 1) (svAt streamS1 0) &&
      accepts (demodulating streamS1).crc (sliceAt (demodulating streamS1).params.ppmOneIsLate streamS1 0)) = true := by
  refine ⟨by rw [streamS1, powerCount_streamOf]; decide, by rw [streamS1, powerCount_streamOf], ?_⟩
  rw [demodulating_spPrev, demodulating_crc, demodulating_params, test_scores.1, test_scores.2.1, test_scores.2.2.1,
    show Params.default.ppmOneIsLate = true from rfl, test_slice, test_accepts]
  decide

/-- `DmNextFindsFirstAccepted`, first clause with its register: 1245 power values, so that the score before the next position is that of
the stream. -/
theorem witness_DmNextRegister : Params.default.spPrevAfterAccept = .trueSequence ∧
    0 + 1245 ≤ powerCount (streamOf transmission 1245) ∧
    (detect (demodulating (streamOf transmission 1245)).dm.spPrev (spAt (streamOf transmission 1245) 0)
        (spAt (streamOf transmission 1245) 1) (svAt (streamOf transmission 1245) 0) &&
      accepts State.reset.crc (sliceAt true (streamOf transmission 1245) 0)) = true := by
  have h := scores_transmission (n := 1245) (by decide)
  refine ⟨rfl, by rw [powerCount_streamOf], ?_⟩
  rw [demodulating_spPrev, h.1, h.2.1, h.2.2.1, slice_transmission (by decide), test_accepts]
  decide

/-- `DmNextFindsFirstAccepted`, first clause under the other setting of `SP_PREV_AFTER_ACCEPT`: the same transmission. -/
theorem witness_DmNextZero :
    let s := { demodulating streamS1 with params := { Params.default with spPrevAfterAccept := .zero } }
    s.params.spPrevAfterAccept = .zero ∧ s.dm.window.Shows streamS1 s.sources ∧ s.dm.window.windowSize = 1200 ∧
    s.dm.window.position.toNat = 0 ∧ (detect s.dm.spPrev (spAt streamS1 0) (spAt streamS1 1) (svAt streamS1 0) &&
      accepts s.crc (sliceAt s.params.ppmOneIsLate streamS1 0)) = true := by
  have h := witness_DmNextFindsFirstAccepted.2.2
  rw [demodulating_params] at h
  exact ⟨rfl, demodulating_shows _, demodulating_size _, by rw [demodulating_position]; rfl, h⟩

/-- `DmNextFindsFirstAccepted`, second clause: in silence no position is accepted, and two positions fill the window. -/
theorem witness_DmNextFindsNone : powerCount silence = 1201 ∧ ∀ r : Nat, r + 1200 ≤ powerCount silence →
    (detect (if r = 0 then (demodulating silence).dm.spPrev else spAt silence (r - 1)) (spAt silence r) (spAt silence (r + 1))
      (svAt silence r) && accepts (demodulating silence).crc
        (sliceAt (demodulating silence).params.ppmOneIsLate silence r)) = false := by
  have hcount : powerCount silence = 1201 := powerCount_streamOf _ _
  refine ⟨hcount, fun r hr => ?_⟩
  have hsp : ∀ q, q + 46 ≤ 1201 → spAt silence q = 0 := by
    intro q hq
    simp [spAt, power_silence q (by omega), power_silence (q + 10) (by omega), power_silence (q + 35) (by omega),
      power_silence (q + 45) (by omega)]
  rw [demodulating_spPrev, hsp r (by omega), hsp (r + 1) (by omega)]
  simp [detect]

/-- A demodulator that stands 1200 positions before the end of its first block on a source that fails, so that its next step fails;
the power values from its position on are those of an envelope, as far as the scores and the slicer read them. -/
def beforeFailure (pulse : Nat → Bool) : State :=
  { State.reset with
    dm := { State.reset.dm with
      window := { PowerWindow.fresh 1 1200 0 with
        position := 64336#64
        avail := 65536
        blk0 := ((List.range 1200).filter fun k => k % 5 ≤ 1).map fun k =>
          (64336 + k, BitVec.ofInt 32 (envelopePower pulse k)) } }
    sources := (onStream []).sources }

/-- Whether a frame is found at the demodulator's position. -/
def foundHere (s : State) : Bool :=
  detect s.dm.spPrev (s.dm.window.sp 0) (s.dm.window.sp 1) s.dm.window.sv &&
    accepts s.crc (slice s.params.ppmOneIsLate s.dm.window)

/-- `DmNextFailedRefill`: silence, and a transmission, before a refill that fails. -/
theorem witness_DmNextFailedRefill :
    (∀ s ∈ [beforeFailure fun _ => false, beforeFailure transmission], s.dm.window.fault = none ∧
      s.dm.window.position.toNat + s.dm.window.windowSize ≤ s.dm.window.avail ∧
      (s.dm.window.advance s.sources).error = some ⟨.ioError, [7]⟩) ∧
    foundHere (beforeFailure fun _ => false) = false ∧ foundHere (beforeFailure transmission) = true :=
  ⟨by decide +kernel, by decide +kernel, by decide +kernel⟩

/-- `DM.NEXT` there: the error is returned, with the accepted frame in the frame register, and no step has been made (R258 (c)). -/
theorem test_dmNext_failedRefill :
    (after .dmNext (beforeFailure transmission)).response = .error ⟨.ioError, [7]⟩ ∧
    (after .dmNext (beforeFailure transmission)).dm.frame = frameS1 ∧
    (after .dmNext (beforeFailure transmission)).dm.window.position = 64336#64 := by decide +kernel

/-- `DmNextAbsentStays`: a scan that finds nothing. -/
theorem witness_DmNextAbsentStays : ∃ t, exec .dmNext State.reset = .next t ∧ t.response = .absent := ⟨_, rfl, rfl⟩

/-- `DmNextMessagesInOrder`: a scan that finds a message. -/
theorem witness_DmNextMessagesInOrder : (demodulating streamS1).dm.window.Shows streamS1 (demodulating streamS1).sources ∧
    (demodulating streamS1).dm.window.windowSize = 1200 ∧ (powerCount streamS1 + 1200) * 100 < 2 ^ 64 ∧
    ∃ t, exec .dmNext (demodulating streamS1) = .next t ∧ t.response = .raw ⟨0#64, frameS1⟩ :=
  ⟨demodulating_shows _, demodulating_size _, by rw [streamS1, powerCount_streamOf]; decide,
    test_dmNext.imp fun _ h => ⟨h.1, h.2.1⟩⟩

/-- `MpParseDispatches`: the type codes at both ends of every range. -/
theorem witness_MpParseDispatches :
    [0, 1, 4, 5, 8, 9, 18, 19, 20, 22, 23, 31].map (fun tc => (BitVec.ofNat 112 (tc * 2 ^ 75)).toNat / 2 ^ 75 % 32) =
      [0, 1, 4, 5, 8, 9, 18, 19, 20, 22, 23, 31] := by decide

/-- `CallSignTable` and `PayloadWordsAreParsed`: the tables have rows. -/
theorem witness_rows : 63 < charRows.length ∧ (31#5, Instr.meTc31) ∈ restRows ∧ (7#3, Instr.meVelocitySt7) ∈ velocityRestRows :=
  ⟨by decide, List.mem_of_getLast? rfl, List.mem_of_getLast? rfl⟩

/-- `IdDecodeResult`: codes that are all valid, and codes of which one is not. -/
theorem witness_IdDecodeResult : [1#6, 26#6, 32#6, 48#6, 57#6, 32#6, 1#6, 32#6].map cslut =
      [0x41#8, 0x5A#8, 0x20#8, 0x30#8, 0x39#8, 0x20#8, 0x41#8, 0x20#8].map some ∧
    none ∈ [1#6, 26#6, 32#6, 48#6, 57#6, 32#6, 1#6, 58#6].map cslut ∧ (4#5, Instr.meIdentTc4) ∈ identRows :=
  ⟨by decide, by decide, List.mem_of_getLast? rfl⟩

/-- `ApDecodeResult`: an altitude that is absent and the lowest and highest ones, in a payload and in a row. -/
theorem witness_ApDecodeResult : altFeet ((0x000000000000#56 : Me).extractLsb' 36 12) = none ∧
    altFeet ((0x080000000000#56 : Me).extractLsb' 36 12) = some (-1200) ∧ altFeet 0x084#12 = some 126700 ∧
    (22#5, Instr.mePositionTc22) ∈ positionRows := ⟨by decide, by decide, by decide, List.mem_of_getLast? rfl⟩

/-- `AltDecodeResult`: a field with `Q` = 1, and one for each value of the 100-ft group with `Q` = 0. -/
theorem witness_AltDecodeResult : (0x010#12).getLsbD 4 = true ∧
    [0x000#12, 0x080#12, 0x200#12, 0x280#12, 0x800#12, 0x880#12, 0xA00#12, 0xA80#12].map (fun alt : BitVec 12 =>
      (alt.getLsbD 4, (alt.getLsbD 11).toNat * 4 + (alt.getLsbD 9).toNat * 2 + (alt.getLsbD 7).toNat)) =
    [(false, 0), (false, 1), (false, 2), (false, 3), (false, 4), (false, 5), (false, 6), (false, 7)] := by decide

/-- `GillhamScale`: two neighbours at the lower end of the scale. -/
theorem witness_GillhamScale : (0x080#12).getLsbD 4 = false ∧ (0x280#12).getLsbD 4 = false ∧
    altFeet 0x080#12 = some (-1200) ∧ altFeet 0x280#12 = some (-1200 + 100) := by decide

/-- `AvDecodeResult`: every subtype, with and without data, in a payload; and the rows. -/
theorem witness_AvDecodeResult : ((List.range 8).map fun st =>
      let me : Me := BitVec.ofNat 56 (st * 2 ^ 48 + 2 ^ 32 + 2 ^ 21)
      ((me.extractLsb' 48 3).toNat, (me.extractLsb' 32 10).toNat, (me.extractLsb' 21 10).toNat)) =
      [(0, 1, 1), (1, 1, 1), (2, 1, 1), (3, 1, 1), (4, 1, 1), (5, 1, 1), (6, 1, 1), (7, 1, 1)] ∧
    (0#56 : Me).extractLsb' 32 10 = 0#10 ∧ (0#56 : Me).extractLsb' 21 10 = 0#10 ∧
    (2#3, 4, Instr.meVelocitySt2) ∈ groundRows ∧ (4#3, 4, Instr.meVelocitySt4) ∈ airRows :=
  ⟨by decide, by decide, by decide, List.mem_of_getLast? rfl, List.mem_of_getLast? rfl⟩

/-- `RealResults`: a component in each direction, and a vector that is not zero. -/
theorem witness_RealResults : (0 : Int) ≤ 0 ∧ (0 : Int) < 1 ∧ (-1 : Int) < 0 ∧ ((3 : Int) ≠ 0 ∨ (4 : Int) ≠ 0) ∧
    speedOf (.ground 3 4) = ⟨25⟩ := by decide

/-- `CprNlIsTheFormula`: two latitudes between the digits that R239 prints of `L_59` = 10.470471299968774..., which lie on either
side of it, and the least and the greatest latitude of a fine grid. -/
theorem witness_CprNlIsTheFormula : 10470471299969 * 120 < 29 * 360000000000000 ∧ 1 * 120 < 29 * 4294967296 ∧
    1037950429 * 120 < 29 * 4294967296 ∧
    [⟨10470471299968, 360000000000000⟩, ⟨10470471299969, 360000000000000⟩, ⟨1, 4294967296⟩, ⟨-1037950429, 4294967296⟩].map
      (fun phi => result (.cprNl phi)) = [some (.nat 59), some (.nat 58), some (.nat 59), some (.nat 2)] := by decide +kernel

/-- `CprNlFollowsTable`: 87 degrees on the even grid, whose tie point is a parameter, and what lies next to it. -/
theorem witness_CprNlFollowsTable : State.reset.params.nlAt87DegreesIs2 = true ∧ 1900544 * 120 = 29 * 7864320 ∧
    [1900544, -1900544, 1900545, 1900543, 0, 1].map (fun k => result (.cprNl ⟨k, 7864320⟩)) =
      [some (.nat 2), some (.nat 2), some (.nat 1), some (.nat 2), some (.nat 59), some (.nat 59)] := by decide +kernel

/-- `CprCandidateRanges`: the least and the greatest zone count; the longitude 0.75 of R234's example with one zone; and with two
zones the index -2, whose odd candidate is a step below 0. -/
theorem witness_CprCandidateRanges : (1 ≤ 1 ∧ 60 ≤ 60) ∧ (longitudes .halfUp 1 98304#17 0#17).even = ⟨-32768, 131072⟩ ∧
    zoneIndex .halfUp 2 0#17 131071#17 = -2 ∧ (longitudes .halfUp 2 0#17 131071#17).odd = ⟨-1, 131072⟩ := by decide

/-- `CprDecodeResult`: a pair whose zone counts differ, one whose latitude leaves the range, and one with a position
(95_test_vectors.md section 10). -/
theorem witness_CprDecodeResult :
    zoneCount Params.default (candidates .halfUp 60 106387#17 89107#17).even ≠
      zoneCount Params.default (candidates .halfUp 60 106387#17 89107#17).odd ∧
    zoneCount Params.default (candidates .halfUp 60 0#17 98304#17).even =
      zoneCount Params.default (candidates .halfUp 60 0#17 98304#17).odd ∧
    toT32 .halfUp (candidates .halfUp 60 0#17 98304#17).even = 2 ^ 30 ∧
    zoneCount Params.default (candidates .halfUp 60 94445#17 77558#17).even =
      zoneCount Params.default (candidates .halfUp 60 94445#17 77558#17).odd ∧
    -2 ^ 30 < toT32 .halfUp (candidates .halfUp 60 94445#17 77558#17).even ∧
    toT32 .halfUp (candidates .halfUp 60 94445#17 77558#17).even < 2 ^ 30 := by decide +kernel

/-- `RoundingAtTies`: a half above zero, a half below it, and no half. -/
theorem witness_RoundingAtTies : (0 : Nat) < 2 ∧ ((2 * 1 + 2) % (2 * 2) : Int) = 0 ∧ ((2 * (-1) + 2) % (2 * 2) : Int) = 0 ∧
    ((2 * 1 + 3) % (2 * 3) : Int) ≠ 0 ∧ roundQuotient .halfEven 1 2 = 0 ∧ roundQuotient .halfAway (-1) 2 = -1 ∧
    roundQuotient .halfUp (-1) 2 = 0 := by decide

/-- `AccUpdateFolds`: a pair of messages of both parities, 999999999 ns apart. -/
theorem witness_AccUpdateFolds :
    (updated 1000000000#64 1999999999#64).map AircraftState.position = some (some ⟨89182208#32, 552647316#32⟩) := by
  decide +kernel

/-- `PurgeEvictsSilent`: a canonical map with an aircraft, and a purge at the port. -/
theorem witness_PurgeEvictsSilent : Mem.Wf soundState.aircraft ∧
    { soundState with queue := [.purge 60000000007] }.queue = .purge 60000000007 :: [] ∧
    (purge 60000000007 soundState).aircraft ≠ [] ∧ (purge 60000000008 soundState).aircraft = [] := by decide

/-- `HostConstructors`: a call sign of eight characters from both ends of each class and a wrong character next to each end; an
ICAO address; a text that is too long, and one with a character that is no digit. -/
theorem witness_HostConstructors : callSignOk [65#8, 90#8, 48#8, 57#8, 32#8, 65#8, 65#8, 65#8] = true ∧
    [64#8, 91#8, 47#8, 58#8, 31#8, 33#8, 97#8].map (fun c => callSignOk [c]) = List.replicate 7 false ∧
    icaoOfText (icaoText 0x4B17E5#24) = some 0x4B17E5#24 ∧ icaoOfText (List.replicate 7 48#8) = none ∧
    icaoOfText [48#8, 48#8, 48#8, 48#8, 48#8, 71#8] = none := by decide

end Sys2Proof.Machine.Tests
end

