-- ==== Sys2Proof/Proofs/DatapathRanges.lean ====
section
/-! The ranges of the datapath (00_scope.md R6): the two alternating sums of the FIR, the power value, and the scores of a preamble. -/

namespace Sys2Proof.Machine

/-! ## The FIR and squarer on a history -/

/-- `I_pp` of R116. -/
def History.ipp (f : History) : Int := f.tap 7 - f.tap 5 + f.tap 3 - f.tap 1

/-- `Q_pp` of R116. -/
def History.qpp (f : History) : Int := f.tap 6 - f.tap 4 + f.tap 2 - f.tap 0

/-- `fir_power` squares and adds the two sums, in the 32 bits of a power value (R116). -/
theorem History.power_eq_ofInt (f : History) : f.power = BitVec.ofInt 32 (f.ipp ^ 2 + f.qpp ^ 2) := by
  rw [pow_two, pow_two]
  rfl

/-- Every sample that a history holds is a 12-bit number (R14, R112). -/
theorem History.tap_range (f : History) (k : Fin 8) : -2048 ≤ f.tap k ∧ f.tap k ≤ 2047 :=
  ⟨BitVec.le_toInt _, Int.lt_add_one_iff.1 (BitVec.toInt_lt (x := f.h.get (f.t - k)))⟩

theorem History.ipp_range (f : History) : -8190 ≤ f.ipp ∧ f.ipp ≤ 8190 := by
  have h7 := f.tap_range 7
  have h5 := f.tap_range 5
  have h3 := f.tap_range 3
  have h1 := f.tap_range 1
  unfold History.ipp
  omega

theorem History.qpp_range (f : History) : -8190 ≤ f.qpp ∧ f.qpp ≤ 8190 := by
  have h6 := f.tap_range 6
  have h4 := f.tap_range 4
  have h2 := f.tap_range 2
  have h0 := f.tap_range 0
  unfold History.qpp
  omega

/-- The sum of the squares of two sums in their range (R6). -/
theorem sum_sq_range {i q : Int} (hi : -8190 ≤ i ∧ i ≤ 8190) (hq : -8190 ≤ q ∧ q ≤ 8190) :
    0 ≤ i ^ 2 + q ^ 2 ∧ i ^ 2 + q ^ 2 ≤ 134152200 :=
  ⟨by positivity, (add_le_add (sq_le_sq' hi.1 hi.2) (sq_le_sq' hq.1 hq.2)).trans (by norm_num)⟩

/-- `fir_power` is exact: the sum of the squares fits the 32 bits, so nothing wraps (R6, R116). -/
theorem History.power_toInt (f : History) : f.power.toInt = f.ipp ^ 2 + f.qpp ^ 2 := by
  have hrange := sum_sq_range f.ipp_range f.qpp_range
  rw [f.power_eq_ofInt, BitVec.toInt_ofInt, Int.bmod_eq_of_le] <;> omega

/-- `fir_power` on every history (R6, R116). -/
theorem History.power_range (f : History) : 0 ≤ f.power.toInt ∧ f.power.toInt ≤ 134152200 := by
  rw [f.power_toInt]
  exact sum_sq_range f.ipp_range f.qpp_range

/-! ## The scores of a stream -/

/-- The preamble score is a sum of four power values (R6, R146). -/
theorem spAt_range (bytes : List Byte) (p : Nat) : 0 ≤ spAt bytes p ∧ spAt bytes p ≤ 536608800 := by
  have h0 := powerAt_range bytes p
  have h10 := powerAt_range bytes (p + 10)
  have h35 := powerAt_range bytes (p + 35)
  have h45 := powerAt_range bytes (p + 45)
  unfold spAt
  omega

/-- The void score is a sum of six power values (R6, R147). -/
theorem svAt_range (bytes : List Byte) (p : Nat) : 0 ≤ svAt bytes p ∧ svAt bytes p ≤ 804913200 := by
  have h5 := powerAt_range bytes (p + 5)
  have h15 := powerAt_range bytes (p + 15)
  have h20 := powerAt_range bytes (p + 20)
  have h25 := powerAt_range bytes (p + 25)
  have h30 := powerAt_range bytes (p + 30)
  have h40 := powerAt_range bytes (p + 40)
  unfold svAt
  omega

/-! ## The obligation -/

/-- Settles O25: the alternating sums of four 12-bit samples stay within 8190, so their squares add up within 32 bits; the bounds of
the scores are those of the power values they add up. -/
theorem datapathRanges : Obligations.DatapathRanges := by
  refine ⟨fun f => ?_, fun bytes => ⟨sampleAt_range bytes, fun n => ?_, fun p => ?_⟩⟩
  · obtain ⟨hi, hi'⟩ := f.ipp_range
    obtain ⟨hq, hq'⟩ := f.qpp_range
    exact ⟨f.power_toInt, hi, hi', hq, hq', f.power_range⟩
  · obtain ⟨hnonneg, hle⟩ := powerAt_range bytes n
    exact ⟨hnonneg, hle, by omega⟩
  · obtain ⟨-, hsp⟩ := spAt_range bytes p
    obtain ⟨-, hsv⟩ := svAt_range bytes p
    exact ⟨hsp, hsv, by omega, by omega⟩

end Sys2Proof.Machine
end

section
/-! The real numbers that the exact speeds and angles stand for (R25, R216, R217, R219, R220). -/

namespace Sys2Proof.Machine

/-! ## Speeds -/

theorem Speed.mps_nonneg (v : Speed) : 0 ≤ v.mps := by
  unfold Speed.mps
  positivity

/-- The squared speed of a ground vector, as a real number (R216). -/
theorem speedOf_ground_knotsSq (e n : Int) : ((speedOf (.ground e n)).knotsSq : ℝ) = (e : ℝ) ^ 2 + (n : ℝ) ^ 2 := by
  have h : (((e * e + n * n).toNat : Int) : ℝ) = ((e * e + n * n : Int) : ℝ) :=
    congrArg _ (Int.toNat_of_nonneg (add_nonneg (mul_self_nonneg e) (mul_self_nonneg n)))
  push_cast at h
  rw [sq, sq, ← h]
  rfl

/-- A ground speed is the length of its vector in knots, times 1852/3600 (R216). -/
theorem speedOf_ground_mps (e n : Int) :
    (speedOf (.ground e n)).mps = Real.sqrt ((e : ℝ) ^ 2 + (n : ℝ) ^ 2) * 1852 / 3600 := by
  rw [Speed.mps, speedOf_ground_knotsSq]
  ring

/-- An air speed is its knots times 1852/3600 (R217). -/
theorem speedOf_air_mps (v : Nat) (sh : BitVec 1) (hdg : BitVec 10) :
    (speedOf (.air v sh hdg)).mps = (v : ℝ) * 1852 / 3600 := by
  have h : Real.sqrt ((speedOf (.air v sh hdg)).knotsSq : ℝ) = v := by
    rw [speedOf, Nat.cast_mul, Real.sqrt_mul_self v.cast_nonneg]
  rw [Speed.mps, h]
  ring

/-! ## The direction of a vector -/

/-- The vector of a track, north along the real axis (R219). -/
noncomputable def trackVector (e n : Int) : ℂ := ⟨(n : ℝ), (e : ℝ)⟩

theorem norm_trackVector (e n : Int) : ‖trackVector e n‖ = Real.sqrt ((e : ℝ) ^ 2 + (n : ℝ) ^ 2) := by
  rw [Complex.norm_eq_sqrt_sq_add_sq, add_comm]
  rfl

/-- A track is the argument of its vector, one turn further where that is negative (R219). -/
theorem trackRadians_cases (e n : Int) :
    (0 ≤ (trackVector e n).arg ∧ trackRadians e n = (trackVector e n).arg) ∨
    ((trackVector e n).arg < 0 ∧ trackRadians e n = (trackVector e n).arg + 2 * Real.pi) := by
  by_cases h : (trackVector e n).arg < 0
  · exact .inr ⟨h, if_pos h⟩
  · exact .inl ⟨not_lt.mp h, if_neg h⟩

theorem trackRadians_of_arg_nonneg {e n : Int} {a : ℝ} (h : (trackVector e n).arg = a) (ha : 0 ≤ a) :
    trackRadians e n = a := by
  rcases trackRadians_cases e n with ⟨-, ht⟩ | ⟨hneg, -⟩
  · exact ht.trans h
  · exact absurd (h ▸ hneg) (not_lt.mpr ha)

theorem trackRadians_of_arg_neg {e n : Int} {a : ℝ} (h : (trackVector e n).arg = a) (ha : a < 0) :
    trackRadians e n = a + 2 * Real.pi := by
  rcases trackRadians_cases e n with ⟨hnonneg, -⟩ | ⟨-, ht⟩
  · exact absurd ha (not_lt.mpr (h ▸ hnonneg))
  · rw [ht, h]

/-- A track lies in `[0, 2π)` (R25). -/
theorem trackRadians_range (e n : Int) : 0 ≤ trackRadians e n ∧ trackRadians e n < 2 * Real.pi := by
  have hlow := Complex.neg_pi_lt_arg (trackVector e n)
  have hhigh := Complex.arg_le_pi (trackVector e n)
  have hpi := Real.pi_pos
  rcases trackRadians_cases e n with ⟨h, ht⟩ | ⟨h, ht⟩ <;> rw [ht] <;> constructor <;> linarith

/-- The sine and the cosine of a track are those of its vector: a whole turn changes neither. -/
theorem sin_cos_trackRadians (e n : Int) :
    Real.sin (trackRadians e n) = Real.sin (trackVector e n).arg ∧
      Real.cos (trackRadians e n) = Real.cos (trackVector e n).arg := by
  rcases trackRadians_cases e n with ⟨-, ht⟩ | ⟨-, ht⟩ <;> rw [ht]
  · exact ⟨rfl, rfl⟩
  · exact ⟨Real.sin_add_two_pi _, Real.cos_add_two_pi _⟩

theorem trackRadians_north {n : Int} (hn : 0 ≤ n) : trackRadians 0 n = 0 :=
  trackRadians_of_arg_nonneg (Complex.arg_eq_zero_iff.mpr ⟨Int.cast_nonneg hn, Int.cast_zero⟩) le_rfl

theorem trackRadians_east {e : Int} (he : 0 < e) : trackRadians e 0 = Real.pi / 2 :=
  trackRadians_of_arg_nonneg (Complex.arg_eq_pi_div_two_iff.mpr ⟨Int.cast_zero, Int.cast_pos.mpr he⟩)
    Real.pi_div_two_pos.le

theorem trackRadians_south {n : Int} (hn : n < 0) : trackRadians 0 n = Real.pi :=
  trackRadians_of_arg_nonneg (Complex.arg_eq_pi_iff.mpr ⟨Int.cast_lt_zero.mpr hn, Int.cast_zero⟩) Real.pi_pos.le

theorem trackRadians_west {e : Int} (he : e < 0) : trackRadians e 0 = 3 * Real.pi / 2 := by
  have harg : (trackVector e 0).arg = -(Real.pi / 2) :=
    Complex.arg_eq_neg_pi_div_two_iff.mpr ⟨Int.cast_zero, Int.cast_lt_zero.mpr he⟩
  rw [trackRadians_of_arg_neg harg (neg_lt_zero.mpr Real.pi_div_two_pos)]
  ring

/-! ## Headings -/

/-- A heading is counted in 1024ths of a turn, and is 0 with the status bit clear (R217). -/
theorem angleOf_air_radians (v : Nat) (sh : BitVec 1) (hdg : BitVec 10) :
    (angleOf (.air v sh hdg)).radians = if sh = 1#1 then (hdg.toNat : ℝ) * 2 * Real.pi / 1024 else 0 := by
  by_cases h : sh = 1#1
  · rw [if_pos h, angleOf, if_pos h, Angle.radians, mul_assoc]
  · rw [if_neg h, angleOf, if_neg h, Angle.radians, Nat.cast_zero, zero_mul, zero_div]

/-- A track or heading lies in `[0, 2π)` (R25): a heading is a 10-bit number of 1024ths of a turn. -/
theorem angleOf_radians_range (p : VelocityPayload) : 0 ≤ (angleOf p).radians ∧ (angleOf p).radians < 2 * Real.pi := by
  cases p with
  | ground e n => exact trackRadians_range e n
  | air v sh hdg =>
    have hpi := Real.pi_pos
    have hlt : (hdg.toNat : ℝ) < 1024 := by exact_mod_cast hdg.isLt
    rw [angleOf_air_radians]
    split
    · exact ⟨by positivity, by nlinarith⟩
    · exact ⟨le_rfl, by positivity⟩

/-! ## The obligation -/

/-- Settles O52: a track is the argument of the vector with north on the real axis, moved into `[0, 2π)` by a whole turn. -/
theorem realResults : Obligations.RealResults := by
  refine ⟨fun p => ⟨(speedOf p).mps_nonneg, angleOf_radians_range p⟩, fun e n => ?_, fun v sh hdg =>
    ⟨speedOf_air_mps v sh hdg, angleOf_air_radians v sh hdg⟩⟩
  obtain ⟨hsin, hcos⟩ := sin_cos_trackRadians e n
  refine ⟨speedOf_ground_mps e n, trackRadians_north, trackRadians_east, trackRadians_south, trackRadians_west, ?_, fun _ => ?_⟩
  · rw [← norm_trackVector, angleOf, Angle.radians, hsin]
    exact Complex.norm_mul_sin_arg _
  · rw [← norm_trackVector, angleOf, Angle.radians, hcos]
    exact Complex.norm_mul_cos_arg _

end Sys2Proof.Machine
end

section
/-! The stateless units (10_state.md R10): their operations change nothing but the result, and read nothing but the operands and the
open parameters. -/

namespace Sys2Proof.Machine

/-! ## Stateless operations -/

/-- An operation of a stateless unit (R10): it changes nothing but the result, which depends on the open parameters alone and is no
raw message. -/
def Stateless (operation : State → Answer) : Prop :=
  ∃ f : Params → Response, (∀ s, operation s = answer (f s.params) s) ∧ ∀ p m, f p ≠ .raw m

theorem Stateless.answer {r : Response} (h : ∀ m, r ≠ .raw m) : Stateless (answer r) :=
  ⟨fun _ => r, fun _ => rfl, fun _ => h⟩

theorem Stateless.raise (e : Error) : Stateless (raise e) := Stateless.answer nofun

theorem Stateless.option {α : Type} {some? : α → Response} (h : ∀ v m, some? v ≠ .raw m) (o : Params → Option α) :
    Stateless fun s => answerOption some? (o s.params) s := by
  refine ⟨fun p => match o p with | some v => some? v | none => .absent, fun _ => rfl, fun p m => ?_⟩
  dsimp only
  cases o p with
  | some v => exact h v m
  | none => nofun

theorem Stateless.ite {c : Prop} [Decidable c] {f g : State → Answer} (hf : Stateless f) (hg : Stateless g) :
    Stateless fun s => if c then f s else g s := by
  by_cases h : c
  · simpa [h] using hf
  · simpa [h] using hg

theorem Stateless.position (alt : BitVec 12) (f : BitVec 1) (y x : BitVec 17) : Stateless (positionWordAnswer alt f y x) :=
  .option nofun fun _ => positionOf alt f y x

theorem Stateless.velocity (p : Option VelocityPayload) : Stateless (velocityWordAnswer p) := .option nofun fun _ => p

theorem Stateless.ident (tc : BitVec 5) (ca : BitVec 3) (codes : List (BitVec 6)) : Stateless (identWordAnswer tc ca codes) :=
  .option nofun fun params => identOf params tc ca codes

/-- Every operation outside `UsesState` is one of a stateless unit. -/
theorem stateless_exec {i : Instr} (h : ¬UsesState i) : Stateless (exec i) := by
  cases i with
  | crcBuild | crcCrc | sdNew | sdReadbatch | pcNew | pcReadbatch | pwNew | pwSize | pwPosition | pwIsfull | pwGet | pwAdvance
  | pwAdvanceby | dmNew | dmSp | dmSv | dmDetect | dmSlice | dmNext | rmOf | replayRecord | frameDf17 | frameOther
  | accUpdate => exact absurd (by constructor) h
  | bfExtract value start size => exact .ite (.raise _) (.ite (.raise _) (.answer nofun))
  | bfTest value index => exact .ite (.raise _) (.answer nofun)
  | cprNl phi => exact ⟨fun params => .nat (zoneCount params phi), fun _ => rfl, nofun⟩
  | cprDecode x0 y0 x1 y1 mostRecent => exact .option nofun fun params => cprPosition params x0 y0 x1 y1 mostRecent
  | mpParse raw => exact .option nofun fun params => parseMe params (frameMe raw.bytes)
  | idDecode raw => exact .option nofun fun params => decodeIdent params (frameMe raw.bytes)
  | apDecode raw => exact .option nofun fun _ => decodePosition (frameMe raw.bytes)
  | avDecode raw => exact .option nofun fun _ => decodeVelocity (frameMe raw.bytes)
  | altDecode alt => exact .option nofun fun _ => altFeet alt
  | altQ0 => exact .option nofun fun _ => altQ0Feet _ _
  | meIdentTc1 | meIdentTc2 | meIdentTc3 | meIdentTc4 => exact .ident _ _ _
  | mePositionTc9 | mePositionTc10 | mePositionTc11 | mePositionTc12 | mePositionTc13 | mePositionTc14 | mePositionTc15
  | mePositionTc16 | mePositionTc17 | mePositionTc18 | mePositionTc20 | mePositionTc21 | mePositionTc22 =>
    exact .position _ _ _ _
  | meVelocitySt1 | meVelocitySt2 | meVelocitySt3 | meVelocitySt4 => exact .velocity _
  -- The taps, the raw words and the character codes: the response is fixed by the operands.
  | _ => exact .answer nofun

/-- Settles O10: each operation outside `UsesState` answers a response that is a function of the open parameters. -/
theorem statelessUnitsReadNoState : Obligations.StatelessUnitsReadNoState := by
  intro i s h
  obtain ⟨f, hf, -⟩ := stateless_exec h
  exact ⟨f s.params, hf s, fun s' hp => by rw [hf s', hp, Machine.answer]⟩

end Sys2Proof.Machine
end

section
/-! What an operation can leave and return, said once (10_state.md): the frame of every operation (R11 to R21), the reading of the byte
sources (R12, R41) and the invariant follow from it. -/

namespace Sys2Proof.Machine

/-! ## The effects -/

/-- The operations that do nothing to the state but run the CRC unit (R18, R84, R154, R170). -/
inductive RunsCrc : Instr → Prop where
  | crcCrc bytes : RunsCrc (.crcCrc bytes)
  | rmOf timestampNs bytes : RunsCrc (.rmOf timestampNs bytes)
  | replayRecord timestampNs frame : RunsCrc (.replayRecord timestampNs frame)
  | frameDf17 unread icao me check : RunsCrc (.frameDf17 unread icao me check)
  | frameOther df unread icao me check : RunsCrc (.frameOther df unread icao me check)

/-- What an operation can do in the state `s`: the response, and the state apart from the response. An operation that raises an error
of its own leaves the state as it was, which is the case `result`. -/
inductive Effect (s : State) : Instr → Response → State → Prop where
  | result (i : Instr) {r : Response} (hr : ∀ m, r ≠ .raw m) : Effect s i r s
  | crcBuild (g : BitVec 24) :
    Effect s (.crcBuild g) .done { s with crc := { s.crc with generator := g, table := crcTableOf g } }
  | runsCrc {i : Instr} (hi : RunsCrc i) {r : Response} (bytes : List Byte)
    (hr : ∀ m, r = .raw m → s.crc.run (frameBytes m.bytes) = 0#24) :
    Effect s i r { s with crc := s.crc.after bytes }
  | sdNew (source : Nat) (size : Int) (hsize : 0 < size) (hfree : s.sourceInUse .sd source = false) :
    Effect s (.sdNew source size) .done { s with sd := ⟨source, size.toNat⟩ }
  | sdReadbatch {r : Response} (hr : ∀ m, r ≠ .raw m) :
    Effect s .sdReadbatch r { s with sources := (s.sd.readBatch s.sources).2 }
  | pcNew (source : Nat) (size : Int) (hsize : 0 < size ∧ size % 8 = 0) (hfree : s.sourceInUse .pc source = false) :
    Effect s (.pcNew source size) .done { s with pc := PowerComputer.fresh source size.toNat }
  | pcReadbatch {r : Response} (hr : ∀ m, r ≠ .raw m) (history : History) :
    Effect s .pcReadbatch r
      { s with pc := { s.pc with history := history }, sources := (s.pc.readBatch s.sources).2 }
  | pwNew (source : Nat) (size : Int) (hsize : 1 ≤ size ∧ size ≤ 65536) (hfree : s.sourceInUse .pw source = false)
    (step : WindowStep) (hstep : step = PowerWindow.construct source size.toNat s.windowsBuilt s.sources) :
    Effect s (.pwNew source size) (doneOr step.error)
      { s with pw := step.window, sources := step.sources, windowsBuilt := s.windowsBuilt + 1 }
  | pwAdvance :
    Effect s .pwAdvance (doneOr (s.pw.advance s.sources).error)
      { s with pw := (s.pw.advance s.sources).window, sources := (s.pw.advance s.sources).sources }
  | pwAdvanceby (n : Nat) :
    Effect s (.pwAdvanceby n) (doneOr (s.pw.advanceBy s.sources n).error)
      { s with pw := (s.pw.advanceBy s.sources n).window, sources := (s.pw.advanceBy s.sources n).sources }
  | dmNew (source : Nat) (hfree : s.sourceInUse .dm source = false)
    (step : WindowStep) (hstep : step = PowerWindow.construct source Config.demodWindow s.windowsBuilt s.sources) :
    Effect s (.dmNew source) (doneOr step.error)
      { s with
        dm := { s.dm with window := step.window, spPrev := 0 }
        sources := step.sources
        windowsBuilt := s.windowsBuilt + 1 }
  | dmSlice :
    Effect s .dmSlice .done { s with dm := { s.dm with frame := slice s.params.ppmOneIsLate s.dm.window } }
  | dmNext {scan : Scan} {r : Response}
    (hscan : Scan.loop s.params (scanFuel s.dm.window s.sources) ⟨s.dm, s.crc, s.sources⟩ = some (scan, r)) :
    Effect s .dmNext r { s with dm := scan.dm, crc := scan.crc, sources := scan.sources }
  | accUpdate (msg : Message) :
    Effect s (.accUpdate msg) .done { s with
      aircraft := Mem.write s.aircraft msg.icao.toNat ((aircraftAt s.aircraft msg.icao).update s.params msg) }

/-- Whatever next state an answer gives, an effect of the operation explains it. -/
def Explained (i : Instr) (s : State) (a : Answer) : Prop :=
  ∀ t, a = .next t → ∃ r u, Effect s i r u ∧ t = u.respond r

section
variable {i : Instr} {s : State}

theorem Effect.explains {r : Response} {u : State} (h : Effect s i r u) : Explained i s (answer r u) :=
  fun _ ht => ⟨r, u, h, (answer_eq_next r u).mp ht⟩

theorem explained_answer {r : Response} (hr : ∀ m, r ≠ .raw m) : Explained i s (answer r s) := (Effect.result i hr).explains

theorem explained_raise (e : Error) : Explained i s (raise e s) :=
  explained_answer (r := .error e) nofun

/-- An operation on a window raises the recorded error, or does what it does without one (R258 (c)). -/
theorem Explained.unlessFaulted (w : PowerWindow) {operation : State → Answer} (h : Explained i s (operation s)) :
    Explained i s (unlessFaulted w operation s) := by
  intro t ht
  rcases unlessFaulted_cases s ht with ⟨e, -, rfl⟩ | ⟨-, ht⟩
  · exact ⟨.error e, s, .result i nofun, rfl⟩
  · exact h t ht

/-- So does an operation that only returns a value of the state. -/
theorem explained_read (w : PowerWindow) (f : State → Response) (hf : ∀ m, f s ≠ .raw m) :
    Explained i s (Machine.unlessFaulted w (fun s => answer (f s) s) s) :=
  .unlessFaulted w (explained_answer hf)

/-- A construction that is not refused has its source for itself (R300). -/
theorem Explained.withOwnSource {u : StreamUnit} {source : Nat} {construct : State → Answer}
    (h : s.sourceInUse u source = false → Explained i s (construct s)) :
    Explained i s (withOwnSource u source construct s) := by
  intro t ht
  obtain ⟨hfree, hc⟩ := withOwnSource_next source s u ht
  exact h hfree t hc

end

theorem doneOr_ne_raw (error : Option Error) : ∀ m, doneOr error ≠ .raw m := by
  intro m
  cases error <;> simp [doneOr]

/-- `RM.OF` and a replay record return the frame only if its CRC is zero (R170). -/
theorem explained_rawAnswer {i : Instr} (hi : RunsCrc i) (timestampNs : BitVec 64) (bytes : Frame) (s : State) :
    Explained i s (rawAnswer timestampNs bytes s) := by
  refine (Effect.runsCrc hi (frameBytes bytes) fun m hm => ?_).explains
  unfold rawOf at hm
  split at hm
  · rename_i hzero
    split at hzero <;> cases hzero
    cases hm
    assumption
  · cases hm

/-- A candidate frame is returned only if its CRC is zero (R154). -/
theorem explained_candidate {i : Instr} (hi : RunsCrc i) (f : Frame) (s : State) : Explained i s (candidate f s) := by
  refine (Effect.runsCrc hi (frameBytes f) fun m hm => ?_).explains
  split at hm
  · rename_i haccepts
    cases hm
    exact (of_decide_eq_true (Bool.and_eq_true_iff.mp haccepts).1)
  · cases hm

theorem explained_crcCrc (bytes : List Byte) (s : State) : Explained (.crcCrc bytes) s (execCrcCrc bytes s) :=
  (Effect.runsCrc (r := .u32 ((s.crc.run bytes).setWidth 32)) (.crcCrc bytes) bytes nofun).explains

theorem explained_sdNew (source : Nat) (size : Int) (s : State) :
    Explained (.sdNew source size) s (execSdNew source size s) := by
  unfold execSdNew
  split
  · exact explained_raise _
  · exact .withOwnSource fun hfree => (Effect.sdNew source size (by omega) hfree).explains

theorem explained_sdReadbatch (s : State) : Explained .sdReadbatch s (execSdReadbatch s) := by
  refine (Effect.sdReadbatch ?_).explains
  intro m
  split <;> simp

theorem explained_pcNew (source : Nat) (size : Int) (s : State) :
    Explained (.pcNew source size) s (execPcNew source size s) := by
  unfold execPcNew
  split
  · exact explained_raise _
  · exact .withOwnSource fun hfree => (Effect.pcNew source size (by omega) hfree).explains

theorem explained_pcReadbatch (s : State) : Explained .pcReadbatch s (execPcReadbatch s) := by
  unfold execPcReadbatch
  rcases s.pc.readBatch_cases s.sources with ⟨bytes, -, hr⟩ | ⟨e, -, -, hr⟩
  · have := (Effect.pcReadbatch (s := s) (r := .powers (s.pc.history.run (samplesOf bytes)).1) nofun
      (s.pc.history.run (samplesOf bytes)).2).explains
    rwa [hr] at this ⊢
  · have := (Effect.pcReadbatch (s := s) (r := .error e) nofun s.pc.history).explains
    rwa [hr] at this ⊢

theorem explained_pwNew (source : Nat) (size : Int) (s : State) :
    Explained (.pwNew source size) s (execPwNew source size s) := by
  unfold execPwNew
  split
  · exact explained_raise _
  · exact .withOwnSource fun hfree => (Effect.pwNew source size (by omega) hfree _ rfl).explains

theorem explained_pwGet (index : Int) (s : State) : Explained (.pwGet index) s (execPwGet index s) := by
  unfold execPwGet
  refine .unlessFaulted s.pw ?_
  split
  · exact explained_raise _
  · exact explained_answer nofun

theorem explained_dmNew (source : Nat) (s : State) : Explained (.dmNew source) s (execDmNew source s) :=
  .withOwnSource fun hfree => (Effect.dmNew source hfree _ rfl).explains

theorem explained_dmSlice (s : State) : Explained .dmSlice s (execDmSlice s) :=
  .unlessFaulted s.dm.window Effect.dmSlice.explains

theorem explained_dmNext (s : State) : Explained .dmNext s (execDmNext s) := by
  unfold execDmNext
  split
  · rename_i hscan
    exact (Effect.dmNext hscan).explains
  · exact fun t ht => by cases ht

/-- What an operation that uses state can do. -/
theorem explained_of_usesState {i : Instr} (h : UsesState i) (s : State) : Explained i s (exec i s) := by
  cases h with
  | crcBuild g => exact (Effect.crcBuild g).explains
  | crcCrc bytes => exact explained_crcCrc bytes s
  | sdNew source size => exact explained_sdNew source size s
  | sdReadbatch => exact explained_sdReadbatch s
  | pcNew source size => exact explained_pcNew source size s
  | pcReadbatch => exact explained_pcReadbatch s
  | pwNew source size => exact explained_pwNew source size s
  | pwSize => exact explained_read s.pw (fun s => .nat s.pw.windowSize) nofun
  | pwPosition => exact explained_read s.pw (fun s => .u64 s.pw.position) nofun
  | pwIsfull => exact explained_read s.pw (fun s => .bool s.pw.isFull) nofun
  | dmSp => exact explained_read s.dm.window (fun s => .int (s.dm.window.sp 0)) nofun
  | dmSv => exact explained_read s.dm.window (fun s => .int s.dm.window.sv) nofun
  | dmDetect => exact explained_read s.dm.window (fun s => .bool s.dm.detects) nofun
  | pwGet index => exact explained_pwGet index s
  | pwAdvance => exact .unlessFaulted s.pw Effect.pwAdvance.explains
  | pwAdvanceby n => exact .unlessFaulted s.pw (Effect.pwAdvanceby n).explains
  | dmNew source => exact explained_dmNew source s
  | dmSlice => exact explained_dmSlice s
  | dmNext => exact explained_dmNext s
  | rmOf timestampNs bytes => exact explained_rawAnswer (.rmOf timestampNs bytes) timestampNs bytes s
  | replayRecord timestampNs frame => exact explained_rawAnswer (.replayRecord timestampNs frame) timestampNs frame s
  | frameDf17 unread icao me check => exact explained_candidate (.frameDf17 unread icao me check) _ s
  | frameOther df unread icao me check => exact explained_candidate (.frameOther df unread icao me check) _ s
  | accUpdate msg => exact (Effect.accUpdate msg).explains

/-- What an operation can do: a stateless one returns a result, and the others have the effects named for them. -/
theorem exec_effect {i : Instr} {s t : State} (h : exec i s = .next t) : ∃ r u, Effect s i r u ∧ t = u.respond r := by
  by_cases hi : UsesState i
  · exact explained_of_usesState hi s t h
  · obtain ⟨f, hf, hraw⟩ := stateless_exec hi
    exact explained_answer (hraw s.params) t (hf s ▸ h)

/-! ## The frame of every operation -/

section
variable {i : Instr} {s u : State} {r : Response}

theorem Effect.params (h : Effect s i r u) : u.params = s.params := by
  cases h <;> rfl

theorem Effect.queue (h : Effect s i r u) : u.queue = s.queue := by
  cases h <;> rfl

theorem Effect.crc_changed (h : Effect s i r u)
    (hne : u.crc.generator ≠ s.crc.generator ∨ u.crc.table ≠ s.crc.table) : ∃ g, i = .crcBuild g := by
  cases h with
  | crcBuild g => exact ⟨g, rfl⟩
  | dmNext hscan =>
    obtain ⟨hgen, htable⟩ := Scan.loop_crc hscan
    exact absurd hne (not_or.mpr ⟨not_not.mpr hgen, not_not.mpr htable⟩)
  | _ => exact absurd hne (not_or.mpr ⟨not_not.mpr rfl, not_not.mpr rfl⟩)

theorem Effect.crcReg_changed (h : Effect s i r u) (hne : u.crc.crcReg ≠ s.crc.crcReg) : RunsCrc i ∨ i = .dmNext := by
  cases h with
  | runsCrc hi => exact .inl hi
  | dmNext => exact .inr rfl
  | _ => exact absurd rfl hne

theorem Effect.windowsBuilt_changed (h : Effect s i r u) (hne : u.windowsBuilt ≠ s.windowsBuilt) :
    (∃ h n, i = .pwNew h n) ∨ ∃ h, i = .dmNew h := by
  cases h with
  | pwNew source size => exact .inl ⟨source, size, rfl⟩
  | dmNew source => exact .inr ⟨source, rfl⟩
  | _ => exact absurd rfl hne

theorem Effect.sd_changed (h : Effect s i r u) (hne : u.sd ≠ s.sd) : ∃ h n, i = .sdNew h n := by
  cases h with
  | sdNew source size => exact ⟨source, size, rfl⟩
  | _ => exact absurd rfl hne

theorem Effect.pc_changed (h : Effect s i r u) (hne : u.pc ≠ s.pc) : (∃ h n, i = .pcNew h n) ∨ i = .pcReadbatch := by
  cases h with
  | pcNew source size => exact .inl ⟨source, size, rfl⟩
  | pcReadbatch => exact .inr rfl
  | _ => exact absurd rfl hne

theorem Effect.pw_changed (h : Effect s i r u) (hne : u.pw ≠ s.pw) :
    (∃ h n, i = .pwNew h n) ∨ i = .pwAdvance ∨ ∃ n, i = .pwAdvanceby n := by
  cases h with
  | pwNew source size => exact .inl ⟨source, size, rfl⟩
  | pwAdvance => exact .inr (.inl rfl)
  | pwAdvanceby n => exact .inr (.inr ⟨n, rfl⟩)
  | _ => exact absurd rfl hne

theorem Effect.dm_changed (h : Effect s i r u) (hne : u.dm ≠ s.dm) : (∃ h, i = .dmNew h) ∨ i = .dmSlice ∨ i = .dmNext := by
  cases h with
  | dmNew source => exact .inl ⟨source, rfl⟩
  | dmSlice => exact .inr (.inl rfl)
  | dmNext => exact .inr (.inr rfl)
  | _ => exact absurd rfl hne

theorem Effect.aircraft_changed (h : Effect s i r u) (hne : u.aircraft ≠ s.aircraft) : ∃ m, i = .accUpdate m := by
  cases h with
  | accUpdate msg => exact ⟨msg, rfl⟩
  | _ => exact absurd rfl hne

theorem Effect.sources_changed (h : Effect s i r u) (hne : u.sources ≠ s.sources) : ReadsSource i := by
  cases h with
  | sdReadbatch | pcReadbatch | pwNew | pwAdvance | pwAdvanceby | dmNew | dmNext => constructor
  | _ => exact absurd rfl hne

end

/-- Settles O11: each effect changes the registers and memories of its own operation only. -/
theorem unitsKeepToThemselves : Obligations.UnitsKeepToThemselves := by
  intro i s t h
  obtain ⟨r, u, he, rfl⟩ := exec_effect h
  refine ⟨he.params, he.queue, he.crc_changed, fun hne => ?_, he.windowsBuilt_changed, he.sd_changed, he.pc_changed,
    he.pw_changed, he.dm_changed, he.aircraft_changed, he.sources_changed⟩
  rcases he.crcReg_changed hne with hi | rfl
  · cases hi with
    | crcCrc => exact .inl ⟨_, rfl⟩
    | rmOf => exact .inr (.inr (.inl ⟨_, _, rfl⟩))
    | replayRecord => exact .inr (.inr (.inr (.inl ⟨_, _, rfl⟩)))
    | frameDf17 => exact .inr (.inr (.inr (.inr (.inl ⟨_, _, _, _, rfl⟩))))
    | frameOther => exact .inr (.inr (.inr (.inr (.inr ⟨_, _, _, _, _, rfl⟩))))
  · exact .inr (.inl rfl)

end Sys2Proof.Machine
end

section
/-! What a step can do (R262, R270), the reading of the byte sources (R12, R41), and the invariant of the machine. -/

namespace Sys2Proof.Machine

/-! ## The step -/

theorem newCallSign_next {text : List Byte} {s t : State} (h : newCallSign text s = .next t) :
    ∃ r, (∀ m, r ≠ .raw m) ∧ t = s.respond r := by
  unfold newCallSign at h
  split at h
  · exact ⟨.text text, nofun, (answer_eq_next _ s).mp h⟩
  · exact ⟨.error ⟨.configError, textInfo text⟩, nofun, (raise_eq_next s).mp h⟩

theorem newIcaoAddress_next {text : List Byte} {s t : State} (h : newIcaoAddress text s = .next t) :
    ∃ r, (∀ m, r ≠ .raw m) ∧ t = s.respond r := by
  unfold newIcaoAddress at h
  split at h
  · rename_i a _
    exact ⟨.icao a, nofun, (answer_eq_next _ s).mp h⟩
  · exact ⟨.error ⟨.configError, textInfo text⟩, nofun, (raise_eq_next s).mp h⟩

/-- What a step can do: nothing, where the host asks for nothing; else, to the state without the request, an operation or one of the
host's own acts. -/
theorem step_cases {s t : State} (h : step s = .next t) :
    t = s ∨ ∃ rest, (∃ i, exec i { s with queue := rest } = .next t) ∨
      (∃ bytes failures, t = openSource bytes failures { s with queue := rest }) ∨
      (∃ now, t = purge now { s with queue := rest }) ∨
      ∃ r, (∀ m, r ≠ .raw m) ∧ t = State.respond r { s with queue := rest } := by
  cases hq : s.queue with
  | nil =>
    simp only [step, fetch, hq, Host.Outcome.next.injEq] at h
    exact .inl h.symm
  | cons request rest =>
    simp only [step, fetch, hq] at h
    refine .inr ⟨rest, ?_⟩
    cases request with
    | call | word =>
      simp only [runRequest, hostAct] at h
      split at h
      · exact .inl ⟨_, h⟩
      · cases h
    | openSource bytes failures =>
      cases h
      exact .inr (.inl ⟨bytes, failures, rfl⟩)
    | purge now =>
      cases h
      exact .inr (.inr (.inl ⟨now, rfl⟩))
    | newCallSign text => exact .inr (.inr (.inr (newCallSign_next h)))
    | newIcaoAddress text => exact .inr (.inr (.inr (newIcaoAddress_next h)))

/-! ## Reading on in the byte sources -/

/-- A source after it has been read, or left alone: the same stream, the cursor not behind and not beyond the end, and in its place if
the source had ended. -/
structure SourceReadOn (src src' : ByteSource) : Prop where
  bytes : src'.bytes = src.bytes
  notBack : src.cursor ≤ src'.cursor
  within : src'.cursor ≤ src'.bytes.length
  ended : src.ended = true → src'.ended = true ∧ src'.cursor = src.cursor

theorem SourceReadOn.refl {src : ByteSource} (h : src.cursor ≤ src.bytes.length) : SourceReadOn src src :=
  ⟨rfl, le_rfl, h, fun he => ⟨he, rfl⟩⟩

theorem SourceReadOn.trans {a b c : ByteSource} (hab : SourceReadOn a b) (hbc : SourceReadOn b c) : SourceReadOn a c where
  bytes := hbc.bytes.trans hab.bytes
  notBack := hab.notBack.trans hbc.notBack
  within := hbc.within
  ended he := by
    obtain ⟨heb, hcb⟩ := hab.ended he
    obtain ⟨hec, hcc⟩ := hbc.ended heb
    exact ⟨hec, hcc.trans hcb⟩

/-- One read reads on. -/
theorem readSource_readOn (n : Nat) {src : ByteSource} (h : src.cursor ≤ src.bytes.length) :
    SourceReadOn src (readSource n src).2 := by
  obtain ⟨hback, hwithin⟩ := readSource_cursor n src h
  refine ⟨readSource_bytes n src, hback, by rwa [readSource_bytes], fun he => ?_⟩
  rw [readSource_of_ended n src he]
  exact ⟨he, rfl⟩

/-- Every source whose cursor lies within its stream is there afterwards, read on. -/
def SourcesReadOn (sources sources' : List ByteSource) : Prop :=
  ∀ (h : Nat) (src : ByteSource), sources[h]? = some src → src.cursor ≤ src.bytes.length →
    ∃ src', sources'[h]? = some src' ∧ SourceReadOn src src'

theorem SourcesReadOn.refl (sources : List ByteSource) : SourcesReadOn sources sources :=
  fun _ src hsrc hc => ⟨src, hsrc, .refl hc⟩

theorem SourcesReadOn.trans {a b c : List ByteSource} (hab : SourcesReadOn a b) (hbc : SourcesReadOn b c) :
    SourcesReadOn a c := by
  intro h src hsrc hc
  obtain ⟨src', hsrc', hread⟩ := hab h src hsrc hc
  obtain ⟨src'', hsrc'', hread'⟩ := hbc h src' hsrc' hread.within
  exact ⟨src'', hsrc'', hread.trans hread'⟩

theorem srcRead_readOn (n handle : Nat) (sources : List ByteSource) :
    SourcesReadOn sources (srcRead n handle sources).2 := by
  intro h src hsrc hc
  rw [srcRead_sources, hsrc]
  by_cases hh : h = handle
  · exact ⟨_, if_pos hh, readSource_readOn n hc⟩
  · exact ⟨src, if_neg hh, .refl hc⟩

theorem openSource_readOn (bytes : List Byte) (failures : List IoFailure) (s : State) :
    SourcesReadOn s.sources (openSource bytes failures s).sources := by
  intro h src hsrc hc
  obtain ⟨hlt, -⟩ := List.getElem?_eq_some_iff.mp hsrc
  exact ⟨src, (List.getElem?_append_left hlt).trans hsrc, .refl hc⟩

theorem PowerWindow.refill_readOn (b : Bool) (w : PowerWindow) (sources : List ByteSource) :
    SourcesReadOn sources (w.refill b sources).sources := by
  rcases w.refill_cases b sources with ⟨-, h⟩ | ⟨-, _, -, -, h⟩ | ⟨-, _, _, -, h⟩ <;> rw [h]
  · exact .refl sources
  · exact srcRead_readOn _ _ _
  · exact srcRead_readOn _ _ _

theorem PowerWindow.advance_readOn (w : PowerWindow) (sources : List ByteSource) :
    SourcesReadOn sources (w.advance sources).sources := by
  rcases w.advance_cases sources with ⟨-, h⟩ | ⟨-, -, h⟩ | ⟨-, _, -, h⟩ <;> rw [h]
  · exact .refl sources
  · exact w.refill_readOn _ _
  · exact w.refill_readOn _ _

theorem Effect.sources_readOn {i : Instr} {r : Response} {s u : State} (h : Effect s i r u) :
    SourcesReadOn s.sources u.sources := by
  have hadvance : ∀ (w : PowerWindow) (sources : List ByteSource), SourcesReadOn s.sources sources →
      SourcesReadOn s.sources (w.advance sources).sources := fun w sources h => h.trans (w.advance_readOn sources)
  cases h with
  | sdReadbatch | pcReadbatch => exact srcRead_readOn _ _ _
  | pwNew _ _ _ _ step hstep => exact hstep ▸ PowerWindow.refill_readOn _ _ _
  | dmNew _ _ step hstep => exact hstep ▸ PowerWindow.refill_readOn _ _ _
  | pwAdvance => exact s.pw.advance_readOn s.sources
  | pwAdvanceby n =>
    exact PowerWindow.advanceBy_induct (motive := fun _ sources => SourcesReadOn s.sources sources) hadvance n _ _ (.refl _)
  | dmNext hscan =>
    exact Scan.loop_window (motive := fun _ sources => SourcesReadOn s.sources sources) hadvance (.refl _) hscan
  | _ => exact .refl s.sources

theorem step_readOn {s t : State} (h : step s = .next t) : SourcesReadOn s.sources t.sources := by
  rcases step_cases h with rfl | ⟨rest, ⟨i, hi⟩ | ⟨bytes, failures, rfl⟩ | ⟨now, rfl⟩ | ⟨r, -, rfl⟩⟩
  · exact .refl _
  · obtain ⟨r, u, he, rfl⟩ := exec_effect hi
    exact he.sources_readOn
  · exact openSource_readOn bytes failures { s with queue := rest }
  · exact .refl _
  · exact .refl _

/-- Settles O12: one read is that of `readSource`, and every step only reads on. -/
theorem sourcesAreReadOnce : Obligations.SourcesAreReadOnce := by
  refine ⟨fun n h sources sources' src got hsrc hread => ?_, fun n h sources src hsrc he => ?_, fun s t h src hstep hsrc hc => ?_⟩
  · have hgot : (readSource n src).1 = .ok got := by
      rw [← sourceAt_of_getElem? h sources hsrc, ← srcRead_result, hread]
    obtain ⟨hbytes, hle, hcursor, hended⟩ := readSource_ok n src hgot
    have hafter : ∀ k, sources'[k]? = if k = h then sources[k]?.map fun src => (readSource n src).2 else sources[k]? := by
      intro k
      rw [← srcRead_sources n h sources k, hread]
    refine ⟨hbytes, hle, (readSource n src).2, ?_, readSource_bytes n src, hcursor, hended, fun k hk => ?_⟩
    · rw [hafter, if_pos rfl, hsrc, Option.map_some]
    · rw [hafter, if_neg hk]
  · rw [srcRead, sourceAt_of_getElem? h sources hsrc, readSource_of_ended n src he]
  · obtain ⟨src', hsrc', hread⟩ := step_readOn hstep h src hsrc hc
    exact ⟨src', hsrc', hread.bytes, hread.notBack, hread.within, hread.ended⟩

/-! ## What the steps of a window keep -/

/-- What every step leaves of a window `w` in the window `w'` that it becomes: soundness, the size and the source; and a window that
may still read could read before. -/
structure PowerWindow.Continues (w w' : PowerWindow) : Prop where
  sound : w.Sound → w'.Sound
  windowSize : w'.windowSize = w.windowSize
  source : w'.computer.decoder.source = w.computer.decoder.source
  mayRead : w'.mayRead = true → w.mayRead = true

theorem PowerWindow.Continues.advance {w w' : PowerWindow} (h : w.Continues w') (sources : List ByteSource) :
    w.Continues (w'.advance sources).window := by
  obtain ⟨hsource, hread⟩ := w'.advance_mayRead sources
  exact ⟨fun hw => (h.sound hw).advance, (w'.advance_windowSize sources).trans h.windowSize, hsource.trans h.source,
    fun hr => h.mayRead (hread hr)⟩

theorem PowerWindow.Continues.refl (w : PowerWindow) : w.Continues w := ⟨id, rfl, rfl, id⟩

theorem PowerWindow.continues_advanceBy (w : PowerWindow) (sources : List ByteSource) (n : Nat) :
    w.Continues (w.advanceBy sources n).window :=
  PowerWindow.advanceBy_induct (motive := fun w' _ => w.Continues w') (fun _ sources h => h.advance sources) n w sources (.refl w)

theorem Scan.continues_loop {params : Params} {fuel : Nat} {c d : Scan} {r : Response}
    (hl : Scan.loop params fuel c = some (d, r)) : c.dm.window.Continues d.dm.window :=
  Scan.loop_window (motive := fun w' _ => c.dm.window.Continues w') (fun _ sources h => h.advance sources) (.refl _) hl

theorem PowerWindow.construct_source (source windowSize serial : Nat) (sources : List ByteSource) :
    (PowerWindow.construct source windowSize serial sources).window.computer.decoder.source = source :=
  ((PowerWindow.fresh source windowSize serial).refill_mayRead false sources).1

/-! ## A raw message is returned only with CRC zero -/

/-- A scan that returns a message has accepted it (R154, R155). -/
theorem Scan.loop_raw {params : Params} {fuel : Nat} {c d : Scan} {m : RawMessage}
    (hl : Scan.loop params fuel c = some (d, .raw m)) : d.crc.run (frameBytes m.bytes) = 0#24 := by
  obtain ⟨last, -, ht⟩ := Scan.loop_induct (motive := fun _ => True) (fun _ _ _ _ => trivial) trivial hl
  have hnext : ∀ z : Scan, z.next ≠ .stop d (.raw m) := by
    intro z hz
    rcases z.next_cases with ⟨e, -, he⟩ | ⟨-, he⟩ <;> rw [he] at hz <;> cases hz
  rcases last.turn_cases params with ⟨e, -, he⟩ | ⟨-, -, he⟩ | ⟨-, -, -, haccepts, he⟩ | ⟨-, -, -, -, he⟩ | ⟨-, -, -, he⟩ <;>
    rw [he] at ht
  · cases ht
  · cases ht
  · obtain ⟨hd, hr⟩ := ScanTurn.stop.inj ht
    have hm : m.bytes = last.candidate params := by
      rcases Scan.jump_result params.spPrevAfterAccept (last.sliced params)
        ⟨timestampOf last.dm.window.position, last.candidate params⟩ with hj | ⟨e, hj⟩ <;> rw [hj] at hr <;> cases hr
      rfl
    rw [← hd, (Scan.jump_frame _ _ _).1, hm]
    exact (Crc24.run_after _ _ _).trans (of_decide_eq_true (Bool.and_eq_true_iff.mp haccepts).1)
  · exact absurd ht (hnext _)
  · exact absurd ht (hnext _)

/-! ## The aircraft -/

/-- Each slot holds a message of its parity (R271, R272). -/
def AircraftState.SlotsSound (a : AircraftState) : Prop :=
  (∀ p, a.slotEven = some p → p.position.parity = 0#1) ∧ ∀ p, a.slotOdd = some p → p.position.parity = 1#1

theorem AircraftState.SlotsSound.store {a : AircraftState} (ha : a.SlotsSound) (p : StoredPosition) :
    (a.store p).SlotsSound := by
  have hodd : ∀ b : BitVec 1, b ≠ 0#1 → b = 1#1 := by decide
  unfold AircraftState.store
  split
  · rename_i hp
    exact ⟨fun q hq => by cases hq; exact hp, ha.2⟩
  · rename_i hp
    exact ⟨ha.1, fun q hq => by cases hq; exact hodd _ hp⟩

theorem AircraftState.SlotsSound.fold {a : AircraftState} (ha : a.SlotsSound) (params : Params) (cur : BitVec 64)
    (payload : Payload) : (a.fold params cur payload).SlotsSound := by
  cases payload with
  | identification p => exact ha
  | velocity p => exact ha
  | position p =>
    have hstored := AircraftState.SlotsSound.store (a := { a with altitude := some (metresOf p.altitudeFt) }) ha ⟨cur, p⟩
    unfold AircraftState.fold
    dsimp only
    split
    · exact hstored
    · exact hstored

/-- Folding a message in leaves a state that has been seen, with the messages in their slots (R272). -/
theorem AircraftState.SlotsSound.update {a : AircraftState} (ha : a.SlotsSound) (params : Params) (m : Message) :
    (a.update params m).Sound :=
  ⟨nofun, ha.fold params m.timestampNs m.payload⟩

theorem aircraftAt_slotsSound {aircraft : Mem AircraftState} (h : AircraftMapSound aircraft) (icao : Icao) :
    (aircraftAt aircraft icao).SlotsSound := by
  unfold aircraftAt
  cases hr : Mem.read? aircraft icao.toNat with
  | none => exact ⟨nofun, nofun⟩
  | some a => exact (h.entries _ (Mem.mem_of_read? hr)).2

/-- `ACC.UPDATE` keeps a sound map sound. -/
theorem AircraftMapSound.update {aircraft : Mem AircraftState} (h : AircraftMapSound aircraft) (params : Params)
    (m : Message) :
    AircraftMapSound (Mem.write aircraft m.icao.toNat ((aircraftAt aircraft m.icao).update params m)) where
  wf := Mem.wf_write h.wf _ _
  below := Mem.below_write h.below _ m.icao.isLt
  entries p hp := by
    rcases Mem.mem_write hp with rfl | hp
    · exact (aircraftAt_slotsSound h m.icao).update params m
    · exact h.entries p hp

/-- The purge keeps a sound map sound: it only drops entries (R275). -/
theorem AircraftMapSound.keep {aircraft : Mem AircraftState} (h : AircraftMapSound aircraft) (test : AircraftState → Bool) :
    AircraftMapSound (Mem.keep test aircraft) where
  wf := Mem.wf_keep test h.wf
  below p hp := h.below p (List.mem_filter.mp hp).1
  entries p hp := h.entries p (List.mem_filter.mp hp).1

/-! ## The invariant, part by part -/

section
variable {i : Instr} {s u : State} {r : Response}

theorem Effect.crc_built (h : Effect s i r u) (hs : s.crc.Built) : u.crc.Built := by
  cases h with
  | crcBuild g => rfl
  | dmNext hscan =>
    obtain ⟨hgen, htable⟩ := Scan.loop_crc hscan
    exact htable.trans (hs.trans (congrArg crcTableOf hgen.symm))
  | _ => exact hs

theorem Effect.decoder_legal (h : Effect s i r u) (hs : 0 < s.sd.batch) : 0 < u.sd.batch := by
  cases h with
  | sdNew source size hsize => exact Int.pos_iff_toNat_pos.mp hsize
  | _ => exact hs

theorem Effect.computer_legal (h : Effect s i r u) (hs : s.pc.Legal) : u.pc.Legal := by
  cases h with
  | pcNew source size hsize =>
    obtain ⟨hpos, hmultiple⟩ := hsize
    exact ⟨Int.pos_iff_toNat_pos.mp hpos, by show size.toNat % 8 = 0; omega, rfl⟩
  | _ => exact hs

theorem Effect.window_sound (h : Effect s i r u) (hs : s.pw.Sound) : u.pw.Sound := by
  cases h with
  | pwNew source size hsize _ step hstep =>
    exact hstep ▸ PowerWindow.sound_construct (by omega) (by omega)
  | pwAdvance => exact hs.advance
  | pwAdvanceby n => exact hs.advanceBy n
  | _ => exact hs

theorem Effect.demodulator_sound (h : Effect s i r u) (hs : s.dm.window.Sound) (hsize : s.dm.window.windowSize = 1200) :
    u.dm.window.Sound ∧ u.dm.window.windowSize = 1200 := by
  cases h with
  | dmNew source _ step hstep =>
    exact hstep ▸ ⟨PowerWindow.sound_construct (by decide) (by decide), PowerWindow.refill_windowSize ..⟩
  | dmNext hscan =>
    have hcontinues := Scan.continues_loop hscan
    exact ⟨hcontinues.sound hs, hcontinues.windowSize.trans hsize⟩
  | _ => exact ⟨hs, hsize⟩

theorem Effect.aircraft_sound (h : Effect s i r u) (hs : AircraftMapSound s.aircraft) : AircraftMapSound u.aircraft := by
  cases h with
  | accUpdate msg => exact hs.update s.params msg
  | _ => exact hs

theorem Effect.rawMessage {m : RawMessage} (h : Effect s i (.raw m) u) : u.crc.run (frameBytes m.bytes) = 0#24 := by
  generalize hr : Response.raw m = r at h
  cases h with
  | result _ hne => exact absurd hr.symm (hne m)
  | crcBuild | sdNew | pcNew | dmSlice | accUpdate => cases hr
  | runsCrc _ bytes hzero => exact (Crc24.run_after _ _ _).trans (hzero m hr.symm)
  | sdReadbatch hne => exact absurd hr.symm (hne m)
  | pcReadbatch hne => exact absurd hr.symm (hne m)
  | pwNew | pwAdvance | pwAdvanceby | dmNew => exact absurd hr.symm (doneOr_ne_raw _ m)
  | dmNext hscan => exact Scan.loop_raw (hr ▸ hscan)

/-- A unit that may read after an operation could read before it, from the same source; or the operation constructed it, on a source
that no other unit reads (R300). -/
theorem Effect.reader (h : Effect s i r u) (v : StreamUnit) (hv : u.mayRead v = true) :
    (s.mayRead v = true ∧ u.sourceOf v = s.sourceOf v) ∨
      ∃ handle, Constructs v handle i ∧ s.sourceInUse v handle = false ∧ u.sourceOf v = handle := by
  cases h with
  | result | crcBuild | runsCrc | sdReadbatch | pcReadbatch | dmSlice | accUpdate => exact .inl ⟨hv, rfl⟩
  | sdNew source size _ hfree =>
    cases v with
    | sd => exact .inr ⟨source, .sdNew source size, hfree, rfl⟩
    | pc | pw | dm => exact .inl ⟨hv, rfl⟩
  | pcNew source size _ hfree =>
    cases v with
    | pc => exact .inr ⟨source, .pcNew source size, hfree, rfl⟩
    | sd | pw | dm => exact .inl ⟨hv, rfl⟩
  | pwNew source size _ hfree step hstep =>
    cases v with
    | pw => exact .inr ⟨source, .pwNew source size, hfree, hstep ▸ PowerWindow.construct_source ..⟩
    | sd | pc | dm => exact .inl ⟨hv, rfl⟩
  | dmNew source hfree step hstep =>
    cases v with
    | dm => exact .inr ⟨source, .dmNew source, hfree, hstep ▸ PowerWindow.construct_source ..⟩
    | sd | pc | pw => exact .inl ⟨hv, rfl⟩
  | pwAdvance =>
    cases v with
    | pw =>
      obtain ⟨hsource, hread⟩ := s.pw.advance_mayRead s.sources
      exact .inl ⟨hread hv, hsource⟩
    | sd | pc | dm => exact .inl ⟨hv, rfl⟩
  | pwAdvanceby n =>
    cases v with
    | pw =>
      have hcontinues := s.pw.continues_advanceBy s.sources n
      exact .inl ⟨hcontinues.mayRead hv, hcontinues.source⟩
    | sd | pc | dm => exact .inl ⟨hv, rfl⟩
  | dmNext hscan =>
    cases v with
    | dm =>
      have hcontinues := Scan.continues_loop hscan
      exact .inl ⟨hcontinues.mayRead hv, hcontinues.source⟩
    | sd | pc | pw => exact .inl ⟨hv, rfl⟩

/-- An operation constructs one unit at most. -/
theorem Constructs.unit_unique {v w : StreamUnit} {a b : Nat} (hv : Constructs v a i) (hw : Constructs w b i) : v = w := by
  cases hv <;> cases hw <;> rfl

theorem State.sourceOf_ne_of_free {v w : StreamUnit} {handle : Nat} (hfree : s.sourceInUse v handle = false) (hne : w ≠ v)
    (hw : s.mayRead w = true) : s.sourceOf w ≠ handle := by
  intro h
  have : s.sourceInUse v handle = true := (State.sourceInUse_iff handle s v).mpr ⟨w, hne, hw, h⟩
  rw [hfree] at this
  cases this

/-- No operation gives a source a second reader (R300). -/
theorem Effect.oneReader (h : Effect s i r u)
    (hs : ∀ v w, v ≠ w → s.mayRead v = true → s.mayRead w = true → s.sourceOf v ≠ s.sourceOf w) (v w : StreamUnit)
    (hne : v ≠ w) (hv : u.mayRead v = true) (hw : u.mayRead w = true) : u.sourceOf v ≠ u.sourceOf w := by
  rcases h.reader v hv with ⟨hv, hsv⟩ | ⟨a, hcv, hfv, hsv⟩ <;> rcases h.reader w hw with ⟨hw, hsw⟩ | ⟨b, hcw, hfw, hsw⟩ <;>
    rw [hsv, hsw]
  · exact hs v w hne hv hw
  · exact State.sourceOf_ne_of_free hfw hne hv
  · exact (State.sourceOf_ne_of_free hfv hne.symm hw).symm
  · exact absurd (hcv.unit_unique hcw) hne

/-- An operation keeps the machine sound. -/
theorem Effect.sound (h : Effect s i r u) (hs : s.Sound) : (u.respond r).Sound where
  crc := h.crc_built hs.crc
  decoder := h.decoder_legal hs.decoder
  computer := h.computer_legal hs.computer
  window := h.window_sound hs.window
  demodulator := (h.demodulator_sound hs.demodulator hs.demodulatorSize).1
  demodulatorSize := (h.demodulator_sound hs.demodulator hs.demodulatorSize).2
  aircraft := h.aircraft_sound hs.aircraft
  oneReader := h.oneReader hs.oneReader
  rawMessage m hm := by
    obtain rfl : r = .raw m := hm
    exact h.rawMessage

end

/-! ## The obligations -/

/-- Settles O7: a request, once taken from the port, is an operation, whose effects keep each part of the invariant, or an act of the
host, which touches the sources, the aircraft or the result alone. -/
theorem stepKeepsSound : Obligations.StepKeepsSound := by
  intro s t hs h
  rcases step_cases h with rfl | ⟨rest, hcases⟩
  · exact hs
  · have hrest : State.Sound { s with queue := rest } := { hs with }
    rcases hcases with ⟨i, hi⟩ | ⟨bytes, failures, rfl⟩ | ⟨now, rfl⟩ | ⟨r, hr, rfl⟩
    · obtain ⟨r, u, he, rfl⟩ := exec_effect hi
      exact he.sound hrest
    · exact { hs with }
    · exact { hs with aircraft := hs.aircraft.keep fun a => !silent s.params.purgeNs now a }
    · exact { hs with rawMessage := fun m hm => absurd hm (hr m) }

/-- The window of a construction on a source without a byte is sound (R28). -/
theorem PowerWindow.onEmptySource_sound (source serial : Nat) : (PowerWindow.onEmptySource source serial).Sound where
  size := ⟨show 1 ≤ 1200 by decide, show 1200 ≤ 65536 by decide⟩
  batches := ⟨rfl, rfl⟩
  wf0 := .nil
  wf1 := .nil
  below0 := fun _ h => absurd h List.not_mem_nil
  below1 := fun _ h => absurd h List.not_mem_nil
  current := by simp [PowerWindow.onEmptySource]
  blocks := nofun
  faults := nofun

theorem reset_sound : State.reset.Sound where
  crc := Crc24.built_crcTableOf Config.generator 0#24
  decoder := by decide
  computer := ⟨by decide, by decide, rfl⟩
  window := PowerWindow.onEmptySource_sound 1 1
  demodulator := PowerWindow.onEmptySource_sound 0 0
  demodulatorSize := rfl
  aircraft := ⟨.nil, fun _ h => absurd h List.not_mem_nil, fun _ h => absurd h List.not_mem_nil⟩
  oneReader v w := by cases v <;> cases w <;> decide
  rawMessage := nofun

/-- The history of a new computer holds eight zero samples (R14, R114). -/
theorem History.zero_tap (k : Fin 8) : History.zero.tap k = 0 := by
  revert k
  decide

/-- Settles O6: both windows of the reset state are windows on a source without a byte, and no two units that may read share one. -/
theorem resetIsSound : Obligations.ResetIsSound := by
  have hwindow : ∀ source serial, ∀ k, (PowerWindow.onEmptySource source serial).computer.history.tap k = 0 :=
    fun _ _ => History.zero_tap
  refine ⟨reset_sound, rfl, fun w hw => ?_, rfl, rfl, rfl⟩
  simp only [List.mem_cons, List.not_mem_nil, or_false] at hw
  rcases hw with rfl | rfl
  · exact ⟨rfl, rfl, rfl, rfl, rfl, rfl, rfl, rfl, hwindow 1 1⟩
  · exact ⟨rfl, rfl, rfl, rfl, rfl, rfl, rfl, rfl, hwindow 0 0⟩

end Sys2Proof.Machine
end

section
/-! The words of the data formats (30_encoding.md): every word is made of the fields that its decoder reads, so the encoder gives it
back, and what it runs is said once for each format. -/

namespace Sys2Proof.Machine

/-! ## A word is made of its fields -/

theorem identWord_fields (me : Me) :
    identWord (meTypeCode me) (meLow3 me) (meCharCode me 0) (meCharCode me 1) (meCharCode me 2) (meCharCode me 3)
      (meCharCode me 4) (meCharCode me 5) (meCharCode me 6) (meCharCode me 7) = me := by
  unfold identWord meTypeCode meLow3 meCharCode
  rw [field_join me 48 3 5, field_join me 42 6 8, field_join me 36 6 14, field_join me 30 6 20, field_join me 24 6 26,
    field_join me 18 6 32, field_join me 12 6 38, field_join me 6 6 44, field_join me 0 6 50]
  exact field_all me

theorem positionWord_fields (me : Me) :
    positionWord (meTypeCode me) (meLow3 me) (meAlt me) (me.extractLsb' 35 1) (meParity me) (meY me) (meX me) = me := by
  unfold positionWord meTypeCode meLow3 meAlt meParity meY meX
  rw [field_join me 48 3 5, field_join me 36 12 8, field_join me 35 1 20, field_join me 34 1 21, field_join me 17 17 22,
    field_join me 0 17 39]
  exact field_all me

theorem velocityWord_fields {me : Me} (h : meTypeCode me = 19#5) :
    velocityWord (meLow3 me) (me.extractLsb' 43 5) (meBit42 me) (meField41 me) (meBit31 me) (meField30 me)
      (me.extractLsb' 0 21) = me := by
  rw [velocityWord, ← h]
  unfold meTypeCode meLow3 meBit42 meField41 meBit31 meField30
  rw [field_join me 48 3 5, field_join me 43 5 8, field_join me 42 1 13, field_join me 32 10 14, field_join me 31 1 24,
    field_join me 21 10 25, field_join me 0 21 35]
  exact field_all me

theorem velocityRestWord_fields {me : Me} (h : meTypeCode me = 19#5) :
    velocityRestWord (meLow3 me) (me.extractLsb' 0 48) = me := by
  rw [velocityRestWord, ← h]
  unfold meTypeCode meLow3
  rw [field_join me 48 3 5, field_join me 0 48 8]
  exact field_all me

theorem restWord_fields (me : Me) : restWord (meTypeCode me) (me.extractLsb' 0 51) = me :=
  (field_join me 0 51 5).trans (field_all me)

theorem frameWord_fields (f : Frame) :
    frameWord (f.extractLsb' 107 5) (f.extractLsb' 104 3) (f.extractLsb' 80 24) (f.extractLsb' 24 56)
      (f.extractLsb' 0 24) = f := by
  rw [frameWord, field_join f 104 3 5, field_join f 80 24 8, field_join f 24 56 32, field_join f 0 24 88]
  exact field_all f

/-- A frame word is decoded by its downlink format (R60, R66). -/
theorem decodeFrame_cases (f : Frame) :
    (∃ unread icao me check,
      f = frameWord 17#5 unread icao me check ∧ decodeFrame f = .frameDf17 unread icao me check) ∨
    ∃ df unread icao me check, df ≠ Config.dfAdsb ∧
      f = frameWord df unread icao me check ∧ decodeFrame f = .frameOther df unread icao me check := by
  have hf := (frameWord_fields f).symm
  by_cases hdf : f.extractLsb' 107 5 = Config.dfAdsb
  · rw [hdf] at hf
    exact .inl ⟨_, _, _, _, hf, if_pos hdf⟩
  · exact .inr ⟨_, _, _, _, _, hdf, hf, if_neg hdf⟩

theorem altQ1Word_fields {alt : BitVec 12} (h : alt.extractLsb' 4 1 = 1#1) :
    altQ1Word (alt.extractLsb' 5 7) (alt.extractLsb' 0 4) = alt := by
  rw [altQ1Word, ← h, field_join alt 4 1 7, field_join alt 0 4 8]
  exact field_all alt

theorem altQ0Word_fields {alt : BitVec 12} (h : alt.extractLsb' 4 1 = 0#1) :
    altQ0Word (alt.extractLsb' 11 1) (alt.extractLsb' 10 1) (alt.extractLsb' 9 1) (alt.extractLsb' 8 1)
      (alt.extractLsb' 7 1) (alt.extractLsb' 6 1) (alt.extractLsb' 5 1) (alt.extractLsb' 3 1) (alt.extractLsb' 2 1)
      (alt.extractLsb' 1 1) (alt.extractLsb' 0 1) = alt := by
  rw [altQ0Word, ← h, field_join alt 10 1 1, field_join alt 9 1 2, field_join alt 8 1 3, field_join alt 7 1 4,
    field_join alt 6 1 5, field_join alt 5 1 6, field_join alt 4 1 7, field_join alt 3 1 8, field_join alt 2 1 9,
    field_join alt 1 1 10, field_join alt 0 1 11]
  exact field_all alt

/-- The Q bit is 1 or 0 (R73, R74). -/
theorem altQ_cases (alt : BitVec 12) : alt.extractLsb' 4 1 = 1#1 ∨ alt.extractLsb' 4 1 = 0#1 := by
  generalize alt.extractLsb' 4 1 = q
  revert q
  decide

/-! ## The rows of the payload table (R60) -/

/-- Every type code selects identification, position or velocity, or is not decoded (R60). -/
theorem typeCode_cases (tc : BitVec 5) :
    (∃ row ∈ identRows, row.1 = tc) ∨ (∃ row ∈ positionRows, row.1 = tc) ∨ tc = 19#5 ∨
      ∃ row ∈ restRows, row.1 = tc := by
  revert tc
  decide

/-- Every velocity subtype selects ground speed or air speed, or is not decoded (R60). -/
theorem subtype_cases (st : BitVec 3) :
    (∃ row ∈ groundRows, row.1 = st) ∨ (∃ row ∈ airRows, row.1 = st) ∨ ∃ row ∈ velocityRestRows, row.1 = st := by
  revert st
  decide

/-! Identification. -/

section
variable {row : BitVec 5 × (BitVec 3 → BitVec 6 → BitVec 6 → BitVec 6 → BitVec 6 → BitVec 6 → BitVec 6 → BitVec 6 →
  BitVec 6 → Instr)} (h : row ∈ identRows)
include h

theorem identRows_typeCode : 1 ≤ row.1.toNat ∧ row.1.toNat ≤ 4 := by
  fin_cases h <;> decide

variable (ca : BitVec 3) (c0 c1 c2 c3 c4 c5 c6 c7 : BitVec 6)

theorem decodeMe_identRow :
    decodeMe (identWord row.1 ca c0 c1 c2 c3 c4 c5 c6 c7) = row.2 ca c0 c1 c2 c3 c4 c5 c6 c7 := by
  fin_cases h
  exacts [decodeMe_identWord1 .., decodeMe_identWord2 .., decodeMe_identWord3 .., decodeMe_identWord4 ..]

theorem encode_identRow :
    encode (row.2 ca c0 c1 c2 c3 c4 c5 c6 c7) = encodeWord .me56 (identWord row.1 ca c0 c1 c2 c3 c4 c5 c6 c7) := by
  fin_cases h <;> rfl

theorem exec_identRow (s : State) :
    exec (row.2 ca c0 c1 c2 c3 c4 c5 c6 c7) s = identWordAnswer row.1 ca [c0, c1, c2, c3, c4, c5, c6, c7] s := by
  fin_cases h <;> rfl

end

/-! Position. -/

section
variable {row : BitVec 5 × (BitVec 3 → BitVec 12 → BitVec 1 → BitVec 1 → BitVec 17 → BitVec 17 → Instr)}
  (h : row ∈ positionRows)
include h

theorem positionRows_typeCode : (9 ≤ row.1.toNat ∧ row.1.toNat ≤ 18) ∨ (20 ≤ row.1.toNat ∧ row.1.toNat ≤ 22) := by
  fin_cases h <;> decide

variable (unread50 : BitVec 3) (alt : BitVec 12) (unread35 f : BitVec 1) (y x : BitVec 17)

theorem decodeMe_positionRow :
    decodeMe (positionWord row.1 unread50 alt unread35 f y x) = row.2 unread50 alt unread35 f y x := by
  fin_cases h
  exacts [decodeMe_position9 .., decodeMe_position10 .., decodeMe_position11 .., decodeMe_position12 ..,
    decodeMe_position13 .., decodeMe_position14 .., decodeMe_position15 .., decodeMe_position16 .., decodeMe_position17 ..,
    decodeMe_position18 .., decodeMe_position20 .., decodeMe_position21 .., decodeMe_position22 ..]

theorem encode_positionRow :
    encode (row.2 unread50 alt unread35 f y x) = encodeWord .me56 (positionWord row.1 unread50 alt unread35 f y x) := by
  fin_cases h <;> rfl

theorem exec_positionRow (s : State) :
    exec (row.2 unread50 alt unread35 f y x) s = positionWordAnswer alt f y x s := by
  fin_cases h <;> rfl

end

/-! Velocity: ground speed, air speed, and the subtypes that are not decoded. -/

section
variable {row : BitVec 3 × Int × (BitVec 5 → BitVec 1 → BitVec 10 → BitVec 1 → BitVec 10 → BitVec 21 → Instr)}
variable {unread47 : BitVec 5} {b42 : BitVec 1} {f41 : BitVec 10} {b31 : BitVec 1} {f30 : BitVec 10} {unread20 : BitVec 21}

theorem groundRows_subtype (h : row ∈ groundRows) : row.1 = 1#3 ∨ row.1 = 2#3 := by
  fin_cases h <;> decide

theorem decodeMe_groundRow (h : row ∈ groundRows) :
    decodeMe (velocityWord row.1 unread47 b42 f41 b31 f30 unread20) = row.2.2 unread47 b42 f41 b31 f30 unread20 := by
  fin_cases h
  exacts [decodeMe_velocity1 .., decodeMe_velocity2 ..]

theorem encode_groundRow (h : row ∈ groundRows) :
    encode (row.2.2 unread47 b42 f41 b31 f30 unread20) =
      encodeWord .me56 (velocityWord row.1 unread47 b42 f41 b31 f30 unread20) := by
  fin_cases h <;> rfl

theorem exec_groundRow (h : row ∈ groundRows) (s : State) :
    exec (row.2.2 unread47 b42 f41 b31 f30 unread20) s = velocityWordAnswer (groundOf row.1 b42 f41 b31 f30) s := by
  fin_cases h <;> rfl

theorem airRows_subtype (h : row ∈ airRows) : row.1 = 3#3 ∨ row.1 = 4#3 := by
  fin_cases h <;> decide

theorem decodeMe_airRow (h : row ∈ airRows) :
    decodeMe (velocityWord row.1 unread47 b42 f41 b31 f30 unread20) = row.2.2 unread47 b42 f41 b31 f30 unread20 := by
  fin_cases h
  exacts [decodeMe_velocity3 .., decodeMe_velocity4 ..]

theorem encode_airRow (h : row ∈ airRows) :
    encode (row.2.2 unread47 b42 f41 b31 f30 unread20) =
      encodeWord .me56 (velocityWord row.1 unread47 b42 f41 b31 f30 unread20) := by
  fin_cases h <;> rfl

theorem exec_airRow (h : row ∈ airRows) (s : State) :
    exec (row.2.2 unread47 b42 f41 b31 f30 unread20) s = velocityWordAnswer (airOf row.1 b42 f41 f30) s := by
  fin_cases h <;> rfl

end

section
variable {row : BitVec 3 × (BitVec 48 → Instr)} (h : row ∈ velocityRestRows) (unread : BitVec 48)
include h

theorem velocityRestRows_subtype : ¬(row.1 = 1#3 ∨ row.1 = 2#3) ∧ ¬(row.1 = 3#3 ∨ row.1 = 4#3) := by
  fin_cases h <;> decide

theorem decodeMe_velocityRestRow : decodeMe (velocityRestWord row.1 unread) = row.2 unread := by
  fin_cases h
  exacts [decodeMe_velocity0 _, decodeMe_velocity5 _, decodeMe_velocity6 _, decodeMe_velocity7 _]

theorem encode_velocityRestRow : encode (row.2 unread) = encodeWord .me56 (velocityRestWord row.1 unread) := by
  fin_cases h <;> rfl

theorem exec_velocityRestRow (s : State) : exec (row.2 unread) s = .next (s.respond .absent) := by
  fin_cases h <;> rfl

end

/-! The type codes that are not decoded. -/

section
variable {row : BitVec 5 × (BitVec 51 → Instr)} (h : row ∈ restRows) (unread : BitVec 51)
include h

theorem restRows_typeCode : ¬(1 ≤ row.1.toNat ∧ row.1.toNat ≤ 4) ∧
    ¬((9 ≤ row.1.toNat ∧ row.1.toNat ≤ 18) ∨ (20 ≤ row.1.toNat ∧ row.1.toNat ≤ 22)) ∧ row.1.toNat ≠ 19 := by
  fin_cases h <;> decide

theorem decodeMe_restRow : decodeMe (restWord row.1 unread) = row.2 unread := by
  fin_cases h
  exacts [decodeMe_tc0 _, decodeMe_tc5 _, decodeMe_tc6 _, decodeMe_tc7 _, decodeMe_tc8 _, decodeMe_tc23 _, decodeMe_tc24 _,
    decodeMe_tc25 _, decodeMe_tc26 _, decodeMe_tc27 _, decodeMe_tc28 _, decodeMe_tc29 _, decodeMe_tc30 _, decodeMe_tc31 _]

theorem encode_restRow : encode (row.2 unread) = encodeWord .me56 (restWord row.1 unread) := by
  fin_cases h <;> rfl

theorem exec_restRow (s : State) : exec (row.2 unread) s = .next (s.respond .absent) := by
  fin_cases h <;> rfl

end

/-- A payload word and the operation of its row (R60, R70, R72, R75, R80). -/
inductive PayloadRow : Me → Instr → Prop where
  | ident {row} (h : row ∈ identRows) ca c0 c1 c2 c3 c4 c5 c6 c7 :
    PayloadRow (identWord row.1 ca c0 c1 c2 c3 c4 c5 c6 c7) (row.2 ca c0 c1 c2 c3 c4 c5 c6 c7)
  | position {row} (h : row ∈ positionRows) unread50 alt unread35 f y x :
    PayloadRow (positionWord row.1 unread50 alt unread35 f y x) (row.2 unread50 alt unread35 f y x)
  | ground {row} (h : row ∈ groundRows) unread47 dew vew dns vns unread20 :
    PayloadRow (velocityWord row.1 unread47 dew vew dns vns unread20) (row.2.2 unread47 dew vew dns vns unread20)
  | air {row} (h : row ∈ airRows) unread47 sh hdg unread31 airspeed unread20 :
    PayloadRow (velocityWord row.1 unread47 sh hdg unread31 airspeed unread20)
      (row.2.2 unread47 sh hdg unread31 airspeed unread20)
  | velocityRest {row} (h : row ∈ velocityRestRows) unread : PayloadRow (velocityRestWord row.1 unread) (row.2 unread)
  | rest {row} (h : row ∈ restRows) unread : PayloadRow (restWord row.1 unread) (row.2 unread)

section
variable {me : Me} {i : Instr}

theorem PayloadRow.decodeMe_eq (h : PayloadRow me i) : decodeMe me = i := by
  cases h with
  | ident h => exact decodeMe_identRow h ..
  | position h => exact decodeMe_positionRow h ..
  | ground h => exact decodeMe_groundRow h
  | air h => exact decodeMe_airRow h
  | velocityRest h => exact decodeMe_velocityRestRow h _
  | rest h => exact decodeMe_restRow h _

theorem PayloadRow.encode_eq (h : PayloadRow me i) : encode i = encodeWord .me56 me := by
  cases h with
  | ident h => exact encode_identRow h ..
  | position h => exact encode_positionRow h ..
  | ground h => exact encode_groundRow h
  | air h => exact encode_airRow h
  | velocityRest h => exact encode_velocityRestRow h _
  | rest h => exact encode_restRow h _

/-- Every payload word is the word of a row. -/
theorem payloadRow_exists (me : Me) : ∃ i, PayloadRow me i := by
  rcases typeCode_cases (meTypeCode me) with ⟨row, h, htc⟩ | ⟨row, h, htc⟩ | htc | ⟨row, h, htc⟩
  · rw [← identWord_fields me, ← htc]
    exact ⟨_, .ident h ..⟩
  · rw [← positionWord_fields me, ← htc]
    exact ⟨_, .position h ..⟩
  · rcases subtype_cases (meLow3 me) with ⟨row, h, hst⟩ | ⟨row, h, hst⟩ | ⟨row, h, hst⟩
    · rw [← velocityWord_fields htc, ← hst]
      exact ⟨_, .ground h ..⟩
    · rw [← velocityWord_fields htc, ← hst]
      exact ⟨_, .air h ..⟩
    · rw [← velocityRestWord_fields htc, ← hst]
      exact ⟨_, .velocityRest h _⟩
  · rw [← restWord_fields me, ← htc]
    exact ⟨_, .rest h _⟩

/-- The payload decoder gives the operation of the word's row. -/
theorem payloadRow_decodeMe (me : Me) : PayloadRow me (decodeMe me) := by
  obtain ⟨i, h⟩ := payloadRow_exists me
  rwa [h.decodeMe_eq]

end

/-! ## The parser on each kind of payload word -/

section
variable (params : Params)

theorem decodeIdent_identWord (tc : BitVec 5) (ca : BitVec 3) (c0 c1 c2 c3 c4 c5 c6 c7 : BitVec 6) :
    decodeIdent params (identWord tc ca c0 c1 c2 c3 c4 c5 c6 c7) = identOf params tc ca [c0, c1, c2, c3, c4, c5, c6, c7] := by
  rw [decodeIdent, meTypeCode, identWord_tc, meLow3, identWord_ca]
  simp only [List.range, List.range.loop, List.map, meCharCode, Nat.reduceMul, Nat.reduceSub, identWord_c0, identWord_c1,
    identWord_c2, identWord_c3, identWord_c4, identWord_c5, identWord_c6, identWord_c7]

theorem decodePosition_positionWord (tc : BitVec 5) (unread50 : BitVec 3) (alt : BitVec 12) (unread35 f : BitVec 1)
    (y x : BitVec 17) : decodePosition (positionWord tc unread50 alt unread35 f y x) = positionOf alt f y x := by
  rw [decodePosition, meAlt, positionWord_alt, meParity, positionWord_f, meY, positionWord_y, meX, positionWord_x]

section
variable {st : BitVec 3} {unread47 : BitVec 5} {b42 : BitVec 1} {f41 : BitVec 10} {b31 : BitVec 1} {f30 : BitVec 10}
  {unread20 : BitVec 21}

theorem decodeVelocity_ground (h : st = 1#3 ∨ st = 2#3) :
    decodeVelocity (velocityWord st unread47 b42 f41 b31 f30 unread20) = groundOf st b42 f41 b31 f30 := by
  rw [decodeVelocity, meLow3, velocityWord_st, if_pos h, meBit42, velocityWord_b42, meField41, velocityWord_f41, meBit31,
    velocityWord_b31, meField30, velocityWord_f30]

theorem decodeVelocity_air (h : st = 3#3 ∨ st = 4#3) :
    decodeVelocity (velocityWord st unread47 b42 f41 b31 f30 unread20) = airOf st b42 f41 f30 := by
  have hground : ¬(st = 1#3 ∨ st = 2#3) := by rcases h with rfl | rfl <;> decide
  rw [decodeVelocity, meLow3, velocityWord_st, if_neg hground, if_pos h, meBit42, velocityWord_b42, meField41,
    velocityWord_f41, meField30, velocityWord_f30]

end

theorem decodeVelocity_rest {st : BitVec 3} (h : ¬(st = 1#3 ∨ st = 2#3) ∧ ¬(st = 3#3 ∨ st = 4#3)) (unread : BitVec 48) :
    decodeVelocity (velocityRestWord st unread) = none := by
  rw [decodeVelocity, meLow3, velocityRestWord_st, if_neg h.1, if_neg h.2]

/-! The dispatch on the type code (R60, R176). -/

theorem parseMe_ident {me : Me} {tc : BitVec 5} (htc : meTypeCode me = tc) (h : 1 ≤ tc.toNat ∧ tc.toNat ≤ 4) :
    parseMe params me = (decodeIdent params me).map .identification := by
  subst htc
  exact if_pos h

theorem parseMe_position {me : Me} {tc : BitVec 5} (htc : meTypeCode me = tc)
    (h : (9 ≤ tc.toNat ∧ tc.toNat ≤ 18) ∨ (20 ≤ tc.toNat ∧ tc.toNat ≤ 22)) :
    parseMe params me = (decodePosition me).map .position := by
  subst htc
  exact (if_neg (by omega)).trans (if_pos h)

theorem parseMe_velocity {me : Me} (htc : meTypeCode me = 19#5) :
    parseMe params me = (decodeVelocity me).map .velocity := by
  rw [parseMe, htc]
  rfl

theorem parseMe_rest {me : Me} {tc : BitVec 5} (htc : meTypeCode me = tc) (h : ¬(1 ≤ tc.toNat ∧ tc.toNat ≤ 4) ∧
    ¬((9 ≤ tc.toNat ∧ tc.toNat ≤ 18) ∨ (20 ≤ tc.toNat ∧ tc.toNat ≤ 22)) ∧ tc.toNat ≠ 19) :
    parseMe params me = none := by
  subst htc
  obtain ⟨hident, hposition, hvelocity⟩ := h
  exact (if_neg hident).trans ((if_neg hposition).trans (if_neg hvelocity))

end

/-! ## What a word runs -/

/-- Wrapping a value before it is answered is wrapping the answer. -/
theorem answerOption_map {α β : Type} (some? : β → Response) (g : α → β) (o : Option α) (s : State) :
    answerOption some? (o.map g) s = answerOption (fun v => some? (g v)) o s := by
  cases o <;> rfl

/-- A payload word gives the payload that the parser chooses, or absent with it (R60, R176). -/
theorem PayloadRow.exec_eq {me : Me} {i : Instr} (h : PayloadRow me i) (s : State) :
    exec i s = answerOption .payload (parseMe s.params me) s := by
  cases h with
  | ident h =>
    rw [exec_identRow h, parseMe_ident _ (identWord_tc ..) (identRows_typeCode h), decodeIdent_identWord, answerOption_map,
      identWordAnswer]
  | position h =>
    rw [exec_positionRow h, parseMe_position _ (positionWord_tc ..) (positionRows_typeCode h), decodePosition_positionWord,
      answerOption_map, positionWordAnswer]
  | ground h =>
    rw [exec_groundRow h, parseMe_velocity _ (velocityWord_tc ..), decodeVelocity_ground (groundRows_subtype h),
      answerOption_map, velocityWordAnswer]
  | air h =>
    rw [exec_airRow h, parseMe_velocity _ (velocityWord_tc ..), decodeVelocity_air (airRows_subtype h),
      answerOption_map, velocityWordAnswer]
  | velocityRest h =>
    rw [exec_velocityRestRow h, parseMe_velocity _ (velocityRestWord_tc ..),
      decodeVelocity_rest (velocityRestRows_subtype h)]
    rfl
  | rest h =>
    rw [exec_restRow h, parseMe_rest _ (restWord_tc ..) (restRows_typeCode h)]
    rfl

theorem exec_decodeMe (me : Me) (s : State) : exec (decodeMe me) s = answerOption .payload (parseMe s.params me) s :=
  (payloadRow_decodeMe me).exec_eq s

/-- A frame word is a candidate at the acceptor (R154). -/
theorem exec_decodeFrame (f : Frame) (s : State) : exec (decodeFrame f) s = candidate f s := by
  obtain ⟨unread, icao, me, check, rfl, hd⟩ | ⟨df, unread, icao, me, check, -, rfl, hd⟩ := decodeFrame_cases f
  · exact congrArg (exec · s) hd
  · exact congrArg (exec · s) hd

/-- An altitude field gives what `ALT.DECODE` gives (R198). -/
theorem exec_decodeAlt (alt : BitVec 12) (s : State) : exec (decodeAlt alt) s = answerOption .int (altFeet alt) s := by
  have hq : alt.getLsbD 4 = (alt.extractLsb' 4 1 == 1#1) := BitVec.getLsbD_eq_extractLsb' ..
  rw [altFeet, hq]
  rcases altQ_cases alt with h | h
  · rw [decodeAlt, if_pos h, h]
    rfl
  · rw [decodeAlt, altG500, h]
    rfl

theorem exec_decodeChar (w : BitVec 6) (s : State) : exec (decodeChar w) s = charAnswer w s := by
  obtain ⟨n, hn⟩ := w
  interval_cases n <;> rfl

/-! ## The encoder on what the decoder reads -/

theorem encode_decodeSample (w : BitVec 16) : encode (decodeSample w) = encodeWord .sample16 w :=
  congrArg (encodeWord .sample16) ((field_join w 0 12 4).trans (field_all w))

theorem encode_decodeReplay (w : BitVec 176) : encode (decodeReplay w) = encodeWord .replay176 w :=
  congrArg (encodeWord .replay176) ((field_join w 0 112 64).trans (field_all w))

theorem encode_decodeFrame (f : Frame) : encode (decodeFrame f) = encodeWord .frame112 f := by
  obtain ⟨unread, icao, me, check, rfl, hd⟩ | ⟨df, unread, icao, me, check, -, rfl, hd⟩ := decodeFrame_cases f
  · exact congrArg encode hd
  · exact congrArg encode hd

theorem encode_decodeMe (me : Me) : encode (decodeMe me) = encodeWord .me56 me := (payloadRow_decodeMe me).encode_eq

theorem encode_decodeAlt (alt : BitVec 12) : encode (decodeAlt alt) = encodeWord .alt12 alt := by
  rcases altQ_cases alt with h | h
  · rw [decodeAlt, if_pos h]
    exact congrArg (encodeWord .alt12) (altQ1Word_fields h)
  · rw [decodeAlt, if_neg (by rw [h]; decide)]
    exact congrArg (encodeWord .alt12) (altQ0Word_fields h)

theorem encode_decodeChar (w : BitVec 6) : encode (decodeChar w) = encodeWord .char6 w := by
  revert w
  decide

/-- The encoder stores a decoded word as the format stores it. -/
theorem encode_decodeFormat (format : Format) {w : Nat} (h : w < 2 ^ format.width) :
    encode (decodeFormat format w) = .word format (format.layout w) := by
  have hword : ∀ n, w < 2 ^ n → encodeWord format (BitVec.ofNat n w) = .word format (format.layout w) := fun n hn => by
    rw [encodeWord, BitVec.toNat_ofNat, Nat.mod_eq_of_lt hn]
  cases format with
  | sample16 => exact (encode_decodeSample _).trans (hword 16 h)
  | replay176 => exact (encode_decodeReplay _).trans (hword 176 h)
  | frame112 => exact (encode_decodeFrame _).trans (hword 112 h)
  | me56 => exact (encode_decodeMe _).trans (hword 56 h)
  | alt12 => exact (encode_decodeAlt _).trans (hword 12 h)
  | char6 => exact (encode_decodeChar _).trans (hword 6 h)

end Sys2Proof.Machine
end

section
/-! Requests and words (30_encoding.md): what the decoder accepts is well formed and carried whole, and no word of a format
traps. -/

namespace Sys2Proof.Machine

/-! ## The words of the opcode table -/

/-- A word that the opcode table's numbering gives a format is decoded as a word of that format. -/
theorem decodeTableWord_of_format {nbits w : Nat} {format : Format} (hformat : formatOfTable nbits w = some format)
    (hw : w < 2 ^ format.width) : decodeTableWord nbits w = some (decodeFormat format w) := by
  rw [decodeTableWord, requestOfTable, hformat]
  exact congrArg Except.toOption (decodeWord_layout format hw)

/-- Settles O4: each word has the width of its format, and the fields are read off it. -/
theorem wordsOfTheSpecDecode : Obligations.WordsOfTheSpecDecode := by
  refine ⟨(decodeTableWord_of_format (format := .sample16) rfl ?_).trans ?_,
    (decodeTableWord_of_format (format := .replay176) rfl ?_).trans ?_,
    (decodeTableWord_of_format (format := .frame112) rfl ?_).trans ?_,
    (decodeTableWord_of_format (format := .me56) rfl ?_).trans ?_,
    (decodeTableWord_of_format (format := .me56) rfl ?_).trans ?_,
    (decodeTableWord_of_format (format := .me56) rfl ?_).trans ?_,
    (decodeTableWord_of_format (format := .me56) rfl ?_).trans ?_,
    (decodeTableWord_of_format (format := .alt12) rfl ?_).trans ?_,
    (decodeTableWord_of_format (format := .alt12) rfl ?_).trans ?_,
    (decodeTableWord_of_format (format := .char6) rfl ?_).trans ?_⟩ <;> decide

/-! ## What is decoded is well formed -/

/-- Whatever operation the operands express is well formed. -/
def ExpressesWellFormed (o : Option Instr) : Prop := ∀ i, o = some i → i.wellFormed = true

theorem ExpressesWellFormed.none : ExpressesWellFormed none := nofun

theorem ExpressesWellFormed.some {i : Instr} (h : i.wellFormed = true) : ExpressesWellFormed (some i) :=
  fun _ hi => Option.some.inj hi ▸ h

theorem ExpressesWellFormed.map {α : Type} {f : α → Instr} {o : Option α}
    (h : ∀ a, o = .some a → (f a).wellFormed = true) : ExpressesWellFormed (o.map f) := by
  cases o with
  | none => exact .none
  | some a => exact .some (h a rfl)

theorem ExpressesWellFormed.bind {α : Type} {f : α → Option Instr} {o : Option α} (h : ∀ a, ExpressesWellFormed (f a)) :
    ExpressesWellFormed (o.bind f) := by
  cases o with
  | none => exact .none
  | some a => exact h a

theorem ExpressesWellFormed.asNone {i : Instr} (h : i.wellFormed = true) (args : List Int) :
    ExpressesWellFormed (asNone i args) := by
  cases args with
  | nil => exact .some h
  | cons => exact .none

theorem ExpressesWellFormed.asSourceAndSize {i : Nat → Int → Instr} (h : ∀ source size, (i source size).wellFormed = true)
    (args : List Int) : ExpressesWellFormed (asSourceAndSize i args) := by
  unfold Sys2Proof.asSourceAndSize
  split
  · exact .map fun source _ => h source _
  · exact .none

/-- A Gray code operand has at least one bit and fits its width (R201). -/
theorem asGray_wellFormed {args : List Int} {g : GrayCode} (h : asGray args = some g) :
    (Instr.grayDecode g).wellFormed = true := by
  unfold asGray at h
  split at h
  · split at h
    · rename_i n code hrange
      obtain ⟨hn, hcode, hlt⟩ := hrange
      obtain rfl := Option.some.inj h
      lift code to Nat using hcode
      have hwidth : 0 < n.toNat := by omega
      have hfits : code < 2 ^ n.toNat := by exact_mod_cast hlt
      simp [Instr.wellFormed, hwidth, hfits]
    · cases h
  · cases h

/-- The denominator of a latitude operand is not zero (R230). -/
theorem asTurns_wellFormed {args : List Int} {phi : Turns} (h : asTurns args = some phi) :
    (Instr.cprNl phi).wellFormed = true := by
  unfold asTurns at h
  split at h
  · split at h
    · rename_i den hden
      obtain rfl := Option.some.inj h
      simp [Instr.wellFormed, hden]
    · cases h
  · cases h

/-- The call sign of a payload operand is one of R26. -/
theorem asPayload_wellFormed {args : List Int} {p : Payload} (h : asPayload args = some p) : p.wellFormed = true := by
  cases p with
  | position => rfl
  | velocity => rfl
  | identification p =>
    unfold asPayload at h
    split at h
    · simp only [Option.bind_eq_some_iff, Option.ite_none_right_eq_some] at h
      obtain ⟨category, -, text, -, hok, hp⟩ := h
      cases hp
      exact hok
    -- The other kinds of payload give no identification.
    all_goals simp [Option.bind_eq_some_iff] at h

/-- The message of a message operand is one of R25. -/
theorem asMessage_wellFormed {args : List Int} {m : Message} (h : asMessage args = some m) :
    (Instr.accUpdate m).wellFormed = true := by
  unfold asMessage at h
  split at h
  · simp only [Option.bind_eq_some_iff, Option.map_eq_some_iff] at h
    obtain ⟨t, -, icao, -, p, hp, rfl⟩ := h
    exact asPayload_wellFormed hp
  · cases h

/-- A port operation that is decoded is well formed. -/
theorem decodeCall_wellFormed (op : PortOp) (args : List Int) : ExpressesWellFormed (decodeCall op args) := by
  cases op with
  | sdReadbatch | pcReadbatch | pwSize | pwPosition | pwIsfull | pwAdvance | dmSp | dmSv | dmDetect | dmSlice | dmNext =>
    exact .asNone rfl args
  | sdNew | pcNew | pwNew => exact .asSourceAndSize (fun _ _ => rfl) args
  | crcCrc | rmOf | rmDf | rmIcao | rmMe | rmTc | mpParse | idDecode | apDecode | avDecode => exact .map fun _ _ => rfl
  | grayDecode => exact .map fun _ => asGray_wellFormed
  | cprNl => exact .map fun _ => asTurns_wellFormed
  | accUpdate => exact .map fun _ => asMessage_wellFormed
  | bfExtract | bfTest | crcBuild | pwAdvanceby | dmNew | altDecode =>
    dsimp only [decodeCall]
    split
    · exact .map fun _ _ => rfl
    · exact .none
  | pwGet =>
    dsimp only [decodeCall]
    split
    · exact .some rfl
    · exact .none
  | cprDecode =>
    dsimp only [decodeCall]
    split
    · exact .bind fun _ => .bind fun _ => .bind fun _ => .bind fun _ => .map fun _ _ => rfl
    · exact .none

/-- An operation that the encoder writes as a word of another format than the frame's has no check to meet. -/
theorem wellFormed_of_encode_word {i : Instr} {format : Format} {bytes : List Byte} (h : encode i = .word format bytes)
    (hformat : format ≠ .frame112) : i.wellFormed = true := by
  cases i with
  | grayDecode | cprNl | accUpdate => cases h
  | frameOther => exact absurd (Request.word.inj h).1.symm hformat
  | _ => rfl

theorem decodeFrame_wellFormed (f : Frame) : (decodeFrame f).wellFormed = true := by
  obtain ⟨unread, icao, me, check, -, hd⟩ | ⟨df, unread, icao, me, check, hdf, -, hd⟩ := decodeFrame_cases f
  · rw [hd]
    rfl
  · rw [hd]
    exact bne_iff_ne.mpr hdf

/-- What the word decoder accepts: as many bytes as the format has, and no bit above its width. -/
theorem decodeWord_eq_ok {format : Format} {bytes : List Byte} {i : Instr} (h : decodeWord format bytes = .ok i) :
    bytes.length = format.bytes ∧ format.wordOf bytes < 2 ^ format.width ∧ i = decodeFormat format (format.wordOf bytes) := by
  unfold decodeWord at h
  dsimp only at h
  split at h
  · cases h
  · rename_i hfits
    obtain ⟨hlength, hwidth⟩ := not_or.mp hfits
    exact ⟨not_not.mp hlength, not_le.mp hwidth, (Except.ok.inj h).symm⟩

/-- The encoder gives the bytes of a decoded word back. -/
theorem encode_of_decodeWord {format : Format} {bytes : List Byte} {i : Instr} (h : decodeWord format bytes = .ok i) :
    encode i = .word format bytes := by
  obtain ⟨hlength, hwidth, rfl⟩ := decodeWord_eq_ok h
  rw [encode_decodeFormat format hwidth, format.layout_wordOf hlength]

theorem decodeWord_wellFormed {format : Format} {bytes : List Byte} {i : Instr} (h : decodeWord format bytes = .ok i) :
    i.wellFormed = true := by
  by_cases hformat : format = .frame112
  · obtain ⟨-, -, rfl⟩ := decodeWord_eq_ok h
    subst hformat
    exact decodeFrame_wellFormed _
  · exact wellFormed_of_encode_word (encode_of_decodeWord h) hformat

theorem decode_wellFormed {r : Request} {i : Instr} (h : decode r = .ok i) : i.wellFormed = true := by
  cases r with
  | call op args =>
    dsimp only [decode] at h
    split at h
    · rename_i hcall
      exact Except.ok.inj h ▸ decodeCall_wellFormed op args _ hcall
    · cases h
  | word format bytes => exact decodeWord_wellFormed h
  | openSource | purge | newCallSign | newIcaoAddress => cases h

/-- Settles O2: each decoder reads every field of its word, so the encoder writes the same word, in the same bytes. -/
theorem decodedWordsAreCarriedWhole : Obligations.DecodedWordsAreCarriedWhole :=
  ⟨fun _ _ => decode_wellFormed, fun _ _ _ => encode_of_decodeWord⟩

/-! ## No word traps -/

/-- The operation returns, and its result is no error. -/
def ReturnsNoError (a : Answer) : Prop := ∃ t, a = .next t ∧ ∀ e, t.response ≠ .error e

theorem ReturnsNoError.answer {r : Response} (h : ∀ e, r ≠ .error e) (s : State) : ReturnsNoError (answer r s) :=
  ⟨s.respond r, rfl, h⟩

theorem ReturnsNoError.option {α : Type} {some? : α → Response} (h : ∀ v e, some? v ≠ .error e) (o : Option α)
    (s : State) : ReturnsNoError (answerOption some? o s) := by
  cases o with
  | none => exact .answer (r := .absent) nofun s
  | some v => exact .answer (h v) s

theorem ReturnsNoError.candidate (f : Frame) (s : State) : ReturnsNoError (candidate f s) := by
  refine .answer ?_ _
  split <;> nofun

/-- Every word of every format runs without an error (R80). -/
theorem returnsNoError_decodeFormat (format : Format) (w : Nat) (s : State) :
    ReturnsNoError (exec (decodeFormat format w) s) := by
  cases format with
  | sample16 => exact .answer (r := .int _) nofun s
  | replay176 => exact .option (some? := .raw) nofun _ _
  | frame112 =>
    rw [decodeFormat, exec_decodeFrame]
    exact .candidate _ s
  | me56 =>
    rw [decodeFormat, exec_decodeMe]
    exact .option nofun _ s
  | alt12 =>
    rw [decodeFormat, exec_decodeAlt]
    exact .option nofun _ s
  | char6 =>
    rw [decodeFormat, exec_decodeChar]
    exact .option nofun _ s

/-- Settles O3: a data word runs an acceptor or a decoder that answers a value or absent. -/
theorem noWordTraps : Obligations.NoWordTraps := by
  intro format w s hw
  obtain ⟨t, hexec, hresponse⟩ := returnsNoError_decodeFormat format w s
  exact ⟨decodeFormat format w, t, decodeWord_layout format hw, hexec, hresponse⟩

/-! ## The payload words and the parser -/

/-- Settles O44: the operation of a payload word answers what the parser chooses, which `MP.PARSE` wraps as a message. -/
theorem payloadWordsAreParsed : Obligations.PayloadWordsAreParsed := by
  refine ⟨fun raw s => ?_,
    fun _ hrow unread s => ⟨decodeMe_restRow hrow unread, exec_restRow hrow unread s⟩,
    fun _ hrow unread s => ⟨decodeMe_velocityRestRow hrow unread, exec_velocityRestRow hrow unread s⟩⟩
  have hword := exec_decodeMe (frameMe raw.bytes) s
  have hparse : exec (.mpParse raw) s = answerOption (fun p => .message ⟨raw.timestampNs, frameIcao raw.bytes, p⟩)
      (parseMe s.params (frameMe raw.bytes)) s := rfl
  generalize parseMe s.params (frameMe raw.bytes) = p at hword hparse
  refine ⟨p, hword.trans ?_, hparse.trans ?_⟩ <;> cases p <;> rfl

end Sys2Proof.Machine
end

section
/-! The bit-field extractor (40_bitfield.md R90 to R93): its two operations as quotient and remainder, and the field taps of the
decoders as calls of them. -/

namespace Sys2Proof.Machine

/-! ## The fields of a word as numbers -/

theorem bitField_eq_ofNat (value : Word) (start size : Nat) :
    bitField value start size = BitVec.ofNat 32 (value.toNat / 2 ^ start % 2 ^ size) := by
  rw [bitField, ← BitVec.ofNat_toNat, BitVec.extractLsb'_toNat, Nat.shiftRight_eq_div_pow]

/-- A field of at most 32 bits is not cut by the width of the result (R90). -/
theorem bitField_toNat (value : Word) (start : Nat) {size : Nat} (hsize : size ≤ 32) :
    (bitField value start size).toNat = value.toNat / 2 ^ start % 2 ^ size := by
  have hfits : value.toNat / 2 ^ start % 2 ^ size < 2 ^ 32 :=
    (Nat.mod_lt _ (Nat.two_pow_pos size)).trans_le (Nat.pow_le_pow_right (by decide) hsize)
  rw [bitField_eq_ofNat, BitVec.toNat_ofNat, Nat.mod_eq_of_lt hfits]

theorem bitField_toNat_lt (value : Word) (start : Nat) {size : Nat} (hsize : size ≤ 32) :
    (bitField value start size).toNat < 2 ^ size := by
  rw [bitField_toNat value start hsize]
  exact Nat.mod_lt _ (Nat.two_pow_pos size)

/-- A field of `a + b` bits is its upper `b` bits above its lower `a` bits (R91). -/
theorem bitField_toNat_add (value : Word) (start : Nat) {a b : Nat} (hab : a + b ≤ 32) :
    (bitField value start (a + b)).toNat =
      (bitField value (start + a) b).toNat * 2 ^ a + (bitField value start a).toNat := by
  rw [bitField_toNat value start hab, bitField_toNat value _ (show b ≤ 32 by omega),
    bitField_toNat value start (show a ≤ 32 by omega), pow_add, Nat.mod_mul, pow_add, ← Nat.div_div_eq_div_mul]
  ring

/-- A field of a narrower number held in a word, the bits above it zero, is the number's own field (R93). -/
theorem bitField_setWidth {n : Nat} (hn : n ≤ 64) (x : BitVec n) (start size : Nat) :
    bitField (x.setWidth 64) start size = (x.extractLsb' start size).setWidth 32 := by
  rw [bitField_eq_ofNat, BitVec.toNat_setWidth_of_le hn, ← BitVec.ofNat_toNat, BitVec.extractLsb'_toNat,
    Nat.shiftRight_eq_div_pow]

theorem bitTest_eq_decide (value : Word) (index : Nat) :
    bitTest value index = decide (value.toNat / 2 ^ index % 2 = 1) := by
  rw [bitTest, ← BitVec.testBit_toNat, Nat.testBit_eq_decide_div_mod_eq]

theorem bitTest_eq_bitField (value : Word) (index : Nat) : bitTest value index = (bitField value index 1 == 1#32) := by
  rw [bitTest_eq_decide, Bool.eq_iff_iff, decide_eq_true_iff, beq_iff_eq, ← BitVec.toNat_inj,
    bitField_toNat value index (by decide)]
  rfl

/-! ## The two operations -/

section
variable (value : Word) {start size index : Int} (s : State)

theorem exec_bfExtract (hlow : 1 ≤ size) (hhigh : size ≤ 32) (hstart : 0 ≤ start) (hend : start + size ≤ 64) :
    exec (.bfExtract value start size) s = .next (s.respond (.u32 (bitField value start.toNat size.toNat))) :=
  (if_neg (by omega)).trans (if_neg (by omega))

theorem exec_bfExtract_badSize (start : Int) (hsize : size < 1 ∨ 32 < size) :
    exec (.bfExtract value start size) s = .next (s.respond (.error (.range [size]))) :=
  if_pos hsize

theorem exec_bfExtract_badPlace (hlow : 1 ≤ size) (hhigh : size ≤ 32) (hplace : start < 0 ∨ 64 < start + size) :
    exec (.bfExtract value start size) s = .next (s.respond (.error (.range [start, size]))) :=
  (if_neg (by omega)).trans (if_pos hplace)

theorem exec_bfTest (hlow : 0 ≤ index) (hhigh : index < 64) :
    exec (.bfTest value index) s = .next (s.respond (.bool (bitTest value index.toNat))) :=
  if_neg (by omega)

theorem exec_bfTest_badIndex (hindex : index < 0 ∨ 64 ≤ index) :
    exec (.bfTest value index) s = .next (s.respond (.error (.range [index]))) :=
  if_pos hindex

/-- An extraction that answers a value was in range, and the value is the field. -/
theorem bfExtract_eq_u32 {t : State} {x : BitVec 32} (h : exec (.bfExtract value start size) s = .next t)
    (hx : t.response = .u32 x) : size ≤ 32 ∧ x = bitField value start.toNat size.toNat := by
  by_cases hsize : size < 1 ∨ 32 < size
  · rw [exec_bfExtract_badSize value s start hsize] at h
    cases h
    cases hx
  · obtain ⟨hlow, hhigh⟩ : 1 ≤ size ∧ size ≤ 32 := by omega
    by_cases hplace : start < 0 ∨ 64 < start + size
    · rw [exec_bfExtract_badPlace value s hlow hhigh hplace] at h
      cases h
      cases hx
    · rw [exec_bfExtract value s hlow hhigh (by omega) (by omega)] at h
      cases h
      cases hx
      exact ⟨hhigh, rfl⟩

/-- An extraction at a place given by natural numbers. -/
theorem exec_bfExtract_nat {start size : Nat} (hlow : 1 ≤ size) (hhigh : size ≤ 32) (hend : start + size ≤ 64) :
    exec (.bfExtract value start size) s = .next (s.respond (.u32 (bitField value start size))) :=
  exec_bfExtract value s (by omega) (by omega) (by omega) (by omega)

/-- An extraction from a narrower number held in a word answers the number's own field (R93). -/
theorem exec_bfExtract_setWidth {n : Nat} (hn : n ≤ 64) (x : BitVec n) (start size : Nat) (hlow : 1 ≤ size)
    (hhigh : size ≤ 32) (hend : start + size ≤ n) :
    exec (.bfExtract (x.setWidth 64) start size) s =
      .next (s.respond (.u32 ((x.extractLsb' start size).setWidth 32))) := by
  rw [exec_bfExtract_nat _ s hlow hhigh (by omega), bitField_setWidth hn]

end

/-! ## The obligations -/

/-- Settles O13: one law of the operation for each of the three ranges. -/
theorem bfExtractResult : Obligations.BfExtractResult := fun value start size s =>
  ⟨fun hlow hhigh hstart hend => by rw [exec_bfExtract value s hlow hhigh hstart hend, bitField_eq_ofNat],
    exec_bfExtract_badSize value s start, exec_bfExtract_badPlace value s⟩

/-- Settles O14: a field is a remainder modulo a power of two, which bounds it, splits it and gives its one-bit case. -/
theorem bfProperties : Obligations.BfProperties := by
  refine ⟨fun value start size s t x h hx => ?_, fun value start a b s ha hb hab hend => ?_,
    fun value s => exec_bfExtract_badSize value s 0 (by decide), fun value index s hlow hhigh => ?_⟩
  · obtain ⟨hsize, rfl⟩ := bfExtract_eq_u32 value s h hx
    exact bitField_toNat_lt value _ (by omega)
  · exact ⟨_, _, _, exec_bfExtract_nat value s (by omega) hab (by omega),
      exec_bfExtract_nat value s hb (by omega) hend, exec_bfExtract_nat value s ha (by omega) (by omega),
      bitField_toNat_add value start hab⟩
  · refine ⟨_, exec_bfExtract value s (by decide) (by decide) hlow (by omega), ?_⟩
    rw [exec_bfTest value s hlow hhigh, bitTest_eq_bitField]
    rfl

/-- Settles O15: one law of the operation for each of the two ranges. -/
theorem bfTestResult : Obligations.BfTestResult := fun value index s =>
  ⟨fun hlow hhigh => by rw [exec_bfTest value s hlow hhigh, bitTest_eq_decide], exec_bfTest_badIndex value s⟩

/-- Settles O16: each tap is a field of its payload, frame byte or register, which ends within that number's width. -/
theorem fieldTapsAreExtracts : Obligations.FieldTapsAreExtracts := by
  refine ⟨fun me s => ?_, fun alt s => ?_,
    fun f s => exec_bfExtract_setWidth s (by decide) (frameByte f 0) 3 5 (by decide) (by decide) (by decide),
    fun r s => exec_bfExtract_setWidth s (by decide) r 16 8 (by decide) (by decide) (by decide)⟩
  · have tap := exec_bfExtract_setWidth s (by decide) me
    have hchar (k : Nat) (hk : k < 8) : exec (.bfExtract (me.setWidth 64) (42 - 6 * k) 6) s =
        .next (s.respond (.u32 ((meCharCode me k).setWidth 32))) := by
      rw [show (42 - 6 * k : Int) = (42 - 6 * k : Nat) by omega]
      exact tap (42 - 6 * k) 6 (by decide) (by decide) (by omega)
    refine ⟨tap 51 5 ?_ ?_ ?_, tap 48 3 ?_ ?_ ?_, hchar, tap 36 12 ?_ ?_ ?_, tap 34 1 ?_ ?_ ?_, tap 17 17 ?_ ?_ ?_,
      tap 0 17 ?_ ?_ ?_, tap 42 1 ?_ ?_ ?_, tap 32 10 ?_ ?_ ?_, tap 31 1 ?_ ?_ ?_, tap 21 10 ?_ ?_ ?_⟩ <;> decide
  · rw [exec_bfTest _ s (by decide) (by decide)]
    simp [bitTest]

end Sys2Proof.Machine
end

section
/-! The CRC unit (41_crc24.md): every register value as a residue modulo the generator polynomial over GF(2). One step of the bitwise
loop and one step of the table-driven loop multiply by a power of `x` and add the bits shifted in, so both loops compute the
remainder of R103, and the corner cases of R101 to R105 are facts about residues. -/

namespace Sys2Proof.Machine

open Polynomial (X)

/-! ## The polynomial of a word (R100) -/

section
variable {n : Nat} (a b : BitVec n)

theorem wordPoly_coeff (i : Nat) : (wordPoly a).coeff i = if a.getLsbD i then 1 else 0 := by
  simp only [wordPoly, Polynomial.finsetSum_coeff, apply_ite (Polynomial.coeff · i), Polynomial.coeff_X_pow,
    Polynomial.coeff_zero]
  by_cases hi : i < n
  · rw [Finset.sum_eq_single_of_mem i (Finset.mem_range.2 hi) fun j _ hj => by simp [Ne.symm hj], if_pos rfl]
  · rw [BitVec.getLsbD_of_ge a i (by omega)]
    exact Finset.sum_eq_zero fun j hj => by simp [show i ≠ j by have := Finset.mem_range.1 hj; omega]

/-- Adding polynomials over GF(2) is `xor`: no carry (R100). -/
theorem wordPoly_xor : wordPoly (a ^^^ b) = wordPoly a + wordPoly b := by
  ext i
  rw [Polynomial.coeff_add, wordPoly_coeff, wordPoly_coeff, wordPoly_coeff, BitVec.getLsbD_xor]
  cases a.getLsbD i <;> cases b.getLsbD i <;> decide

@[simp] theorem wordPoly_zero : wordPoly 0#n = 0 := by simp [wordPoly]

variable {a b} in
theorem wordPoly_inj : wordPoly a = wordPoly b ↔ a = b := by
  refine ⟨fun h => BitVec.eq_of_getLsbD_eq fun i _ => ?_, congrArg wordPoly⟩
  have hcoeff : (wordPoly a).coeff i = (wordPoly b).coeff i := by rw [h]
  rw [wordPoly_coeff, wordPoly_coeff] at hcoeff
  cases ha : a.getLsbD i <;> cases hb : b.getLsbD i <;> simp [ha, hb] at hcoeff ⊢

theorem wordPoly_degree_lt : (wordPoly a).degree < n := by
  refine (Polynomial.degree_lt_iff_coeff_zero _ _).2 fun i hi => ?_
  rw [wordPoly_coeff, BitVec.getLsbD_of_ge a i hi]
  rfl

/-- The single bit `k` of a word is the power `x^k` (R100). -/
theorem wordPoly_one_shiftLeft {k : Nat} (hk : k < n) : wordPoly (1#n <<< k) = X ^ k := by
  ext i
  have hbit : (1#n <<< k).getLsbD i = decide (i = k) := by
    rw [BitVec.getLsbD_shiftLeft, BitVec.getLsbD_one]
    by_cases h : i = k <;> simp [h] <;> omega
  simp [wordPoly_coeff, hbit, Polynomial.coeff_X_pow]

end

/-- A word that stands for one word above another: the upper one counts from `x^q` on (R100). -/
theorem wordPoly_eq_add {n p q : Nat} {w : BitVec n} {a : BitVec p} {b : BitVec q}
    (h : ∀ i, w.getLsbD i = if i < q then b.getLsbD i else a.getLsbD (i - q)) :
    wordPoly w = wordPoly a * X ^ q + wordPoly b := by
  ext i
  rw [Polynomial.coeff_add, Polynomial.coeff_mul_X_pow', wordPoly_coeff, wordPoly_coeff, wordPoly_coeff, h]
  by_cases hi : i < q
  · simp [hi, not_le.2 hi]
  · simp [hi, not_lt.1 hi]

/-- A number's low `p + q` bits are its upper `p` bits above its lower `q` bits. -/
theorem wordPoly_ofNat_add (p q w : Nat) :
    wordPoly (BitVec.ofNat (p + q) w) = wordPoly (BitVec.ofNat p (w / 2 ^ q)) * X ^ q + wordPoly (BitVec.ofNat q w) := by
  refine wordPoly_eq_add fun i => ?_
  simp only [BitVec.getLsbD_ofNat, Nat.testBit_div_two_pow]
  by_cases hi : i < q
  · simp [hi, show i < p + q by omega]
  · simp [hi, Nat.sub_add_cancel (not_lt.1 hi), show i < p + q ↔ i - q < p by omega]

/-- A byte is the sum of its bits at their powers (R100). -/
theorem wordPoly_byte (b : Byte) :
    wordPoly b = ∑ i ∈ Finset.range 8, wordPoly (BitVec.ofBool (b.getLsbD i)) * X ^ i :=
  Finset.sum_congr rfl fun i _ => by cases b.getLsbD i <;> simp [wordPoly]

/-- Shifting `k` bits into the register: the bits that leave at the top count from `x^24` on (R101, R102). -/
theorem wordPoly_shiftIn {k : Nat} (r : BitVec 24) (b : BitVec k) (hk : k ≤ 24) :
    wordPoly r * X ^ k + wordPoly b =
      wordPoly (r.extractLsb' (24 - k) k) * X ^ 24 + wordPoly ((r <<< k) ||| b.setWidth 24) := by
  have hparts : wordPoly (r ++ b) = wordPoly r * X ^ k + wordPoly b := wordPoly_eq_add fun i => by rw [BitVec.getLsbD_append]
  rw [← hparts]
  refine wordPoly_eq_add fun i => ?_
  rw [BitVec.getLsbD_append, BitVec.getLsbD_or, BitVec.getLsbD_shiftLeft, BitVec.getLsbD_setWidth, BitVec.getLsbD_extractLsb']
  by_cases hk' : i < k
  · simp [hk', show i < 24 by omega]
  · by_cases hi : i < 24
    · simp [hk', hi, BitVec.getLsbD_of_ge b i (not_lt.1 hk')]
    · by_cases htop : i - 24 < k
      · simp [hk', hi, htop, show 24 - k + (i - 24) = i - k by omega]
      · simp [hk', hi, htop, BitVec.getLsbD_of_ge r (i - k) (by omega)]

/-! ## The polynomial of a byte string (R100) -/

theorem messagePoly_append (xs ys : List Byte) :
    messagePoly (xs ++ ys) = messagePoly xs * X ^ (8 * ys.length) + messagePoly ys := by
  induction xs with
  | nil => simp [messagePoly]
  | cons x xs ih =>
    rw [List.cons_append, messagePoly, messagePoly, ih, List.length_append]
    ring

@[simp] theorem messagePoly_replicate_zero (n : Nat) : messagePoly (List.replicate n 0#8) = 0 := by
  induction n with
  | zero => rfl
  | succ n ih => simp [List.replicate_succ, messagePoly, ih]

@[simp] theorem messagePoly_singleton (b : Byte) : messagePoly [b] = wordPoly b := by simp [messagePoly]

theorem messagePoly_bytesOfNat (n w : Nat) : messagePoly (bytesOfNat n w) = wordPoly (BitVec.ofNat (8 * n) w) := by
  induction n with
  | zero => simp [bytesOfNat, messagePoly, wordPoly]
  | succ n ih =>
    rw [bytesOfNat, messagePoly, ih, bytesOfNat_length, Nat.mul_succ, Nat.add_comm (8 * n) 8, wordPoly_ofNat_add,
      show 256 ^ n = 2 ^ (8 * n) by rw [pow_mul]; rfl]

/-- The bytes of a frame are those of its number, the most significant first (R43, R66). -/
theorem frameBytes_eq_bytesOfNat (f : Frame) : frameBytes f = bytesOfNat 14 f.toNat := by
  have hbyte : frameByte f = fun k => BitVec.ofNat 8 (f.toNat / 256 ^ (13 - k)) :=
    funext fun k => BitVec.eq_of_toNat_eq (by rw [frameByte_toNat, BitVec.toNat_ofNat])
  rw [frameBytes, hbyte]
  rfl

theorem messagePoly_frameBytes (f : Frame) : messagePoly (frameBytes f) = wordPoly f := by
  rw [frameBytes_eq_bytesOfNat, messagePoly_bytesOfNat, BitVec.ofNat_toNat, BitVec.setWidth_eq]

/-- The last three bytes of a frame are its low 24 bits (R66). -/
theorem messagePoly_frameBytes_split (f : Frame) :
    messagePoly (frameBytes f) = messagePoly ((frameBytes f).take 11) * X ^ 24 + wordPoly (f.extractLsb' 0 24) := by
  have hcheck : messagePoly ((frameBytes f).drop 11) = wordPoly (f.extractLsb' 0 24) := by
    rw [frameBytes_eq_bytesOfNat]
    exact messagePoly_bytesOfNat 3 f.toNat
  conv_lhs => rw [← List.take_append_drop 11 (frameBytes f), messagePoly_append, hcheck, List.length_drop, frameBytes_length]

/-! ## Residues modulo the generator polynomial (R100) -/

section
variable (g : BitVec 24)

/-- The residue class of a polynomial modulo the generator polynomial. -/
noncomputable abbrev residue : Polynomial (ZMod 2) →+* AdjoinRoot (generatorPoly g) := AdjoinRoot.mk (generatorPoly g)

theorem generatorPoly_monic : (generatorPoly g).Monic := Polynomial.monic_X_pow_add (wordPoly_degree_lt g)

theorem generatorPoly_degree : (generatorPoly g).degree = (24 : Nat) := by
  have hlow : (wordPoly g).degree < (X ^ 24 : Polynomial (ZMod 2)).degree :=
    (wordPoly_degree_lt g).trans_eq (Polynomial.degree_X_pow 24).symm
  rw [generatorPoly, Polynomial.degree_add_eq_left_of_degree_lt hlow, Polynomial.degree_X_pow]

/-- A register value is the remainder of every polynomial of its residue class. -/
theorem modByMonic_eq_wordPoly {p : Polynomial (ZMod 2)} {r : BitVec 24} (h : residue g p = residue g (wordPoly r)) :
    p %ₘ generatorPoly g = wordPoly r := by
  have hmonic := generatorPoly_monic g
  have hreduced : (wordPoly r).degree < (generatorPoly g).degree := (wordPoly_degree_lt r).trans_eq (generatorPoly_degree g).symm
  exact (Polynomial.modByMonic_eq_of_dvd_sub hmonic (AdjoinRoot.mk_eq_mk.1 h)).trans
    ((Polynomial.modByMonic_eq_self_iff hmonic).2 hreduced)

/-- Different register values have different residues. -/
theorem residue_wordPoly_inj {a b : BitVec 24} : residue g (wordPoly a) = residue g (wordPoly b) ↔ a = b :=
  ⟨fun h => wordPoly_inj.1 ((modByMonic_eq_wordPoly g rfl).symm.trans (modByMonic_eq_wordPoly g h)), fun h => by rw [h]⟩

/-- What leaves the register at `x^24` comes back as the generator (R100). -/
theorem residue_X_pow : residue g (X ^ 24) = residue g (wordPoly g) := by
  rw [AdjoinRoot.mk_eq_mk, CharTwo.sub_eq_add]
  exact dvd_rfl

/-! ## The bitwise loop (R101) -/

theorem residue_crcBit (r : BitVec 24) (b : Bool) :
    residue g (wordPoly (crcBit g r b)) = residue g (wordPoly r * X + wordPoly (BitVec.ofBool b)) := by
  have hshift := wordPoly_shiftIn r (BitVec.ofBool b) (by decide)
  rw [pow_one] at hshift
  rw [hshift, map_add, map_mul, residue_X_pow, ← map_mul, ← map_add, crcBit]
  have htop : r.extractLsb' 23 1 = BitVec.ofBool r.msb := by
    rw [BitVec.msb_eq_getLsbD_last]
    ext i hi
    simp [show i = 0 by omega]
  have hone : wordPoly 1#1 = 1 := wordPoly_one_shiftLeft (n := 1) (k := 0) (by decide)
  cases hmsb : r.msb
  · simp [htop, hmsb]
  · simp [htop, hmsb, wordPoly_xor, hone, add_comm]

theorem residue_crcBitByte (r : BitVec 24) (b : Byte) :
    residue g (wordPoly (crcBitByte g r b)) = residue g (wordPoly r * X ^ 8 + wordPoly b) := by
  simp only [crcBitByte, byteBits, List.foldl_cons, List.foldl_nil, wordPoly_byte, residue_crcBit, map_add, map_mul, map_pow,
    Finset.sum_range_succ, Finset.sum_range_zero, map_zero]
  ring

theorem residue_foldl_crcBitByte (r : BitVec 24) (bytes : List Byte) :
    residue g (wordPoly (bytes.foldl (crcBitByte g) r)) =
      residue g (wordPoly r * X ^ (8 * bytes.length) + messagePoly bytes) := by
  induction bytes generalizing r with
  | nil => simp [messagePoly]
  | cons b bytes ih =>
    rw [List.foldl_cons, ih, messagePoly, List.length_cons, Nat.mul_succ, pow_add]
    simp only [map_add, map_mul, residue_crcBitByte]
    ring

/-- The bitwise CRC represents the message times `x^24` (R103). -/
theorem residue_crcBitwise (bytes : List Byte) :
    residue g (wordPoly (crcBitwise g bytes)) = residue g (messagePoly bytes * X ^ 24) := by
  have hflush : messagePoly [0#8, 0#8, 0#8] = 0 := messagePoly_replicate_zero 3
  rw [crcBitwise, residue_foldl_crcBitByte, messagePoly_append, hflush]
  simp

/-- A register value is the CRC exactly if it lies in the residue class of the message times `x^24` (R103). -/
theorem crcBitwise_eq_iff (bytes : List Byte) (r : BitVec 24) :
    crcBitwise g bytes = r ↔ residue g (messagePoly bytes * X ^ 24) = residue g (wordPoly r) := by
  rw [← residue_crcBitwise, residue_wordPoly_inj]

/-- The CRC is zero exactly if the generator polynomial divides the message times `x^24` (R104). -/
theorem crcBitwise_eq_zero_iff (bytes : List Byte) :
    crcBitwise g bytes = 0#24 ↔ generatorPoly g ∣ messagePoly bytes * X ^ 24 := by
  rw [crcBitwise_eq_iff, wordPoly_zero, map_zero, AdjoinRoot.mk_eq_zero]

/-- The CRC depends on the message polynomial alone (R103). -/
theorem crcBitwise_congr {xs ys : List Byte} (h : messagePoly xs = messagePoly ys) : crcBitwise g xs = crcBitwise g ys := by
  rw [crcBitwise_eq_iff, residue_crcBitwise, h]

@[simp] theorem crcBitwise_replicate_zero (n : Nat) : crcBitwise g (List.replicate n 0#8) = 0#24 := by
  simp [crcBitwise_eq_zero_iff]

/-- Leading zero bytes change nothing (R102). -/
theorem crcBitwise_replicate_zero_append (n : Nat) (bytes : List Byte) :
    crcBitwise g (List.replicate n 0#8 ++ bytes) = crcBitwise g bytes :=
  crcBitwise_congr g (by simp [messagePoly_append])

/-- The CRC of the byte 1 is the generator itself (R101). -/
theorem crcBitwise_one : crcBitwise g [1#8] = g := by
  have hone : wordPoly 1#8 = X ^ 0 := wordPoly_one_shiftLeft (n := 8) (k := 0) (by decide)
  rw [crcBitwise_eq_iff, messagePoly_singleton, hone, pow_zero, one_mul, residue_X_pow]

/-- The CRC of single bytes is linear (R101). -/
theorem crcBitwise_xor (a b : Byte) : crcBitwise g [a ^^^ b] = crcBitwise g [a] ^^^ crcBitwise g [b] := by
  rw [crcBitwise_eq_iff, wordPoly_xor, map_add, residue_crcBitwise, residue_crcBitwise, ← map_add, ← add_mul]
  simp only [messagePoly_singleton, wordPoly_xor]

/-- A message with its CRC appended has CRC zero (R104). -/
theorem crcBitwise_append_crc (bytes : List Byte) :
    crcBitwise g (bytes ++ bytesOfNat 3 (crcBitwise g bytes).toNat) = 0#24 := by
  have hcheck : messagePoly (bytesOfNat 3 (crcBitwise g bytes).toNat) = wordPoly (crcBitwise g bytes) := by
    rw [messagePoly_bytesOfNat, BitVec.ofNat_toNat, BitVec.setWidth_eq]
  rw [crcBitwise_eq_iff, messagePoly_append, hcheck, bytesOfNat_length, map_mul, map_add, residue_crcBitwise, ← map_add,
    CharTwo.add_self_eq_zero, wordPoly_zero, map_zero, zero_mul]

end

/-! ## Odd generators (R104) -/

section
variable {g : BitVec 24} (hodd : g.getLsbD 0 = true)
include hodd

/-- An odd generator polynomial has a constant term, so it shares no factor with a power of `x`. -/
theorem isCoprime_generatorPoly_X_pow (n : Nat) : IsCoprime (generatorPoly g) (X ^ n) := by
  refine ((Polynomial.irreducible_X.coprime_iff_not_dvd).2 fun hdvd => ?_).symm.pow_right
  rw [Polynomial.X_dvd_iff, generatorPoly, Polynomial.coeff_add, wordPoly_coeff, if_pos hodd] at hdvd
  simp at hdvd

theorem generatorPoly_dvd_of_dvd_mul_X_pow {p : Polynomial (ZMod 2)} {n : Nat} (hdvd : generatorPoly g ∣ p * X ^ n) :
    generatorPoly g ∣ p := (isCoprime_generatorPoly_X_pow hodd n).dvd_of_dvd_mul_right hdvd

theorem not_generatorPoly_dvd_X_pow (n : Nat) : ¬generatorPoly g ∣ X ^ n := by
  intro hdvd
  have hunit := (isCoprime_generatorPoly_X_pow hodd n).isUnit_of_dvd' dvd_rfl hdvd
  have hdegree := Polynomial.natDegree_eq_of_degree_eq_some (generatorPoly_degree g)
  rw [Polynomial.natDegree_eq_zero_of_isUnit hunit] at hdegree
  cases hdegree

/-- A frame with CRC zero ends in the CRC of its first eleven bytes (R104). -/
theorem crcBitwise_take_of_valid {f : Frame} (hvalid : crcBitwise g (frameBytes f) = 0#24) :
    crcBitwise g ((frameBytes f).take 11) = f.extractLsb' 0 24 := by
  rw [crcBitwise_eq_zero_iff] at hvalid
  have hdvd := generatorPoly_dvd_of_dvd_mul_X_pow hodd hvalid
  rwa [messagePoly_frameBytes_split, ← CharTwo.sub_eq_add, ← AdjoinRoot.mk_eq_mk, ← crcBitwise_eq_iff] at hdvd

/-- Flipping one bit of a frame with CRC zero adds a power of `x`, which is not divisible (R104). -/
theorem crcBitwise_flip_of_valid {f : Frame} {k : Nat} (hk : k < 112) (hvalid : crcBitwise g (frameBytes f) = 0#24) :
    crcBitwise g (frameBytes (f ^^^ (1#112 <<< k))) ≠ 0#24 := by
  rw [crcBitwise_eq_zero_iff] at hvalid
  rw [Ne, crcBitwise_eq_zero_iff, messagePoly_frameBytes, wordPoly_xor, wordPoly_one_shiftLeft hk, add_mul, ← pow_add,
    ← messagePoly_frameBytes, dvd_add_right hvalid]
  exact not_generatorPoly_dvd_X_pow hodd _

end

/-! ## The table-driven loop (R102) -/

section
variable {crc : Crc24} (hbuilt : crc.Built)
include hbuilt

/-- With a built table a byte through the table is eight steps of the bitwise loop: the table folds the byte that leaves at the
top back into the register (R102, R103). -/
theorem Crc24.Built.stepByte_eq : crc.stepByte = crcBitByte crc.generator := by
  funext r b
  rw [← residue_wordPoly_inj crc.generator, residue_crcBitByte, wordPoly_shiftIn r b (by decide), stepByte, hbuilt.entry,
    wordPoly_xor, map_add, map_add, residue_crcBitwise, messagePoly_singleton, add_comm]

/-- `CRC.CRC` is the bitwise CRC (R103). -/
theorem Crc24.Built.run_eq (bytes : List Byte) : crc.run bytes = crcBitwise crc.generator bytes := by
  rw [run, hbuilt.stepByte_eq, crcBitwise]

end

/-! ## The operations -/

/-- `CRC.BUILD` writes the generator and its table; the working register stays (R101). -/
theorem exec_crcBuild (g : BitVec 24) (s : State) :
    exec (.crcBuild g) s =
      .next { s with crc := { s.crc with generator := g, table := crcTableOf g }, response := .done } := rfl

/-- `CRC.CRC` writes the working register only (R102). -/
theorem exec_crcCrc (bytes : List Byte) (s : State) :
    exec (.crcCrc bytes) s = .next { s with
      crc := { s.crc with crcReg := s.crc.run bytes }
      response := .u32 ((s.crc.run bytes).setWidth 32) } := rfl

/-- `RM.OF` checks the CRC and nothing else (R170). -/
theorem exec_rmOf (timestampNs : BitVec 64) (f : Frame) (s : State) :
    exec (.rmOf timestampNs f) s = .next { s with
      crc := { s.crc with crcReg := s.crc.run (frameBytes f) }
      response := if s.crc.run (frameBytes f) = 0#24 then .raw ⟨timestampNs, f⟩ else .absent } := by
  have harm : exec (.rmOf timestampNs f) s = rawAnswer timestampNs f s := rfl
  rw [harm, rawAnswer, rawOf]
  by_cases hzero : s.crc.run (frameBytes f) = 0#24
  · rw [if_pos hzero, if_pos hzero]
    rfl
  · rw [if_neg hzero, if_neg hzero]
    rfl

/-- The acceptor discards the frame of fourteen zero bytes, whose `DF` is 0, whatever its CRC (R154). -/
theorem exec_frameOther_zero (s : State) :
    exec (.frameOther 0#5 0#3 0#24 0#56 0#24) s = .next { s with
      crc := { s.crc with crcReg := s.crc.run (frameBytes 0#112) }
      response := .absent } := by
  have harm : exec (.frameOther 0#5 0#3 0#24 0#56 0#24) s = candidate 0#112 s := rfl
  have hrejected : accepts s.crc 0#112 = false := Bool.and_eq_false_iff.2 (.inr (by decide))
  rw [harm, candidate, hrejected]
  rfl

/-- The parser gives absent for the frame of fourteen zero bytes, whose type code is 0 (R176). -/
theorem exec_mpParse_zero (timestampNs : BitVec 64) (s : State) :
    exec (.mpParse ⟨timestampNs, 0#112⟩) s = .next (s.respond .absent) := by
  have hparse : parseMe s.params (frameMe 0#112) = none := by
    have htc : (meTypeCode (frameMe 0#112)).toNat = 0 := by decide
    simp [parseMe, htc]
  have harm : exec (.mpParse ⟨timestampNs, 0#112⟩) s = answerOption (fun p =>
      .message ⟨timestampNs, frameIcao 0#112, p⟩) (parseMe s.params (frameMe 0#112)) s := rfl
  rw [harm, hparse]
  rfl

/-! ## The obligations -/

/-- Settles O17: an entry is the residue of its index times `x^24`, which is zero at 0, the generator at 1, and additive. -/
theorem crcBuildFillsTable : Obligations.CrcBuildFillsTable := by
  intro g s
  have hentry (i : BitVec 8) : Crc24.entry ⟨g, crcTableOf g, s.crc.crcReg⟩ i = crcBitwise g [i] :=
    (Crc24.built_crcTableOf g s.crc.crcReg).entry i
  refine ⟨_, exec_crcBuild g s, rfl, rfl, rfl, hentry, ?_, ?_, fun a b => ?_, ?_⟩
  · exact (hentry 0#8).trans (crcBitwise_replicate_zero g 1)
  · exact (hentry 1#8).trans (crcBitwise_one g)
  · exact (hentry _).trans ((crcBitwise_xor g a b).trans (by rw [← hentry, ← hentry]))
  · rintro rfl
    refine ⟨(hentry 2#8).trans ?_, (hentry 128#8).trans ?_, (hentry 255#8).trans ?_⟩ <;> decide +kernel

/-- Settles O18: with a built table the result is the bitwise CRC, which depends on the message polynomial alone. -/
theorem crcCrcResult : Obligations.CrcCrcResult := by
  refine fun bytes s => ⟨exec_crcCrc bytes s, fun hbuilt => ?_, fun hbuilt hg => ?_⟩
  · simp only [hbuilt.run_eq]
    exact ⟨crcBitwise_replicate_zero _ 0, crcBitwise_replicate_zero _, fun n => crcBitwise_replicate_zero_append _ n bytes⟩
  · rw [hbuilt.run_eq, hg]
    decide +kernel

/-- Settles O19: the bitwise CRC lies in the residue class of `M(x) * x^24` and is reduced. -/
theorem crcIsPolynomialRemainder : Obligations.CrcIsPolynomialRemainder := by
  refine fun crc bytes hbuilt => ⟨hbuilt.run_eq bytes, ?_⟩
  rw [hbuilt.run_eq]
  exact (modByMonic_eq_wordPoly _ (residue_crcBitwise crc.generator bytes).symm).symm

/-- Settles O20: an appended CRC cancels the residue of its message, and a power of `x` shares no factor with an odd generator
polynomial, so it can be divided away and is itself no multiple. -/
theorem crcValidFrames : Obligations.CrcValidFrames := by
  intro s hbuilt
  have hzero : s.crc.run (frameBytes 0#112) = 0#24 := (hbuilt.run_eq _).trans (crcBitwise_replicate_zero s.crc.generator 14)
  refine ⟨fun bytes => ?_, fun timestampNs f => ?_, fun hodd f hvalid => ?_, fun hg f k hk hvalid => ?_,
    fun bytes t x ht hx => ?_, fun timestampNs => ⟨?_, ?_, exec_mpParse_zero timestampNs s⟩⟩
  · rw [hbuilt.run_eq, hbuilt.run_eq]
    exact crcBitwise_append_crc _ bytes
  · rw [exec_rmOf]
    by_cases hvalid : s.crc.run (frameBytes f) = 0#24 <;> simp [hvalid]
  · rw [hbuilt.run_eq] at hvalid ⊢
    exact crcBitwise_take_of_valid hodd hvalid
  · rw [hbuilt.run_eq] at hvalid ⊢
    exact crcBitwise_flip_of_valid (by rw [hg]; decide) hk hvalid
  · rw [exec_crcCrc] at ht
    cases ht
    cases hx
    rw [BitVec.toNat_setWidth_of_le (by decide)]
    exact (s.crc.run bytes).isLt
  · rw [exec_rmOf, hzero, if_pos rfl]
  · rw [exec_frameOther_zero, hzero]

end Sys2Proof.Machine
end

section
/-! The front end (42_sample_power.md): the sample decoder and the power computer, each operation given once by the outcome of its size
check or of its one `SrcRead`. -/

namespace Sys2Proof.Machine

/-! ## The sample word -/

/-- Taking away half of their range centres the 12 bits of a sample, and none of the differences wraps (R112). -/
theorem centredSample_toInt (u : BitVec 12) : (u - 2048#12).toInt = (u.toNat : Int) - 2048 := by
  have hu : u.toNat < 4096 := u.isLt
  rw [BitVec.toInt_sub, BitVec.toInt_eq_toNat_bmod, BitVec.toInt_eq_toNat_bmod]
  simp only [BitVec.toNat_ofNat, Int.bmod_def]
  omega

/-- The four high bits of a sample word are not read (R61, R112). -/
theorem exec_sample (ignored : BitVec 4) (u : BitVec 12) (s : State) :
    exec (.sample ignored u) s = .next (s.respond (.int (u - 2048#12).toInt)) := rfl

/-! ## The constructors -/

section
variable (source : Nat) {batchSize : Int} {s : State}

theorem withOwnSource_free {u : StreamUnit} (hfree : s.sourceInUse u source = false) (construct : State → Answer) :
    withOwnSource u source construct s = construct s :=
  if_neg (Bool.eq_false_iff.1 hfree)

theorem withOwnSource_inUse {u : StreamUnit} (huse : s.sourceInUse u source = true) (construct : State → Answer) :
    withOwnSource u source construct s = .refused (.sourceInUse source) :=
  if_pos huse

theorem exec_sdNew_badSize (hsize : batchSize ≤ 0) (s : State) :
    exec (.sdNew source batchSize) s = .next (s.respond (.error (.config batchSize))) :=
  if_pos hsize

theorem exec_sdNew (hsize : 0 < batchSize) (hfree : s.sourceInUse .sd source = false) :
    exec (.sdNew source batchSize) s = .next { s with sd := ⟨source, batchSize.toNat⟩, response := .done } :=
  (if_neg hsize.not_ge).trans (withOwnSource_free source hfree _)

theorem exec_sdNew_inUse (hsize : 0 < batchSize) (huse : s.sourceInUse .sd source = true) :
    exec (.sdNew source batchSize) s = .refused (.sourceInUse source) :=
  (if_neg hsize.not_ge).trans (withOwnSource_inUse source huse _)

theorem exec_pcNew_badSize (hsize : batchSize ≤ 0 ∨ batchSize % 8 ≠ 0) (s : State) :
    exec (.pcNew source batchSize) s = .next (s.respond (.error (.config batchSize))) :=
  if_pos hsize

theorem exec_pcNew (hpos : 0 < batchSize) (hmod : batchSize % 8 = 0) (hfree : s.sourceInUse .pc source = false) :
    exec (.pcNew source batchSize) s =
      .next { s with pc := PowerComputer.fresh source batchSize.toNat, response := .done } :=
  (if_neg (by omega)).trans (withOwnSource_free source hfree _)

theorem exec_pcNew_inUse (hpos : 0 < batchSize) (hmod : batchSize % 8 = 0) (huse : s.sourceInUse .pc source = true) :
    exec (.pcNew source batchSize) s = .refused (.sourceInUse source) :=
  (if_neg (by omega)).trans (withOwnSource_inUse source huse _)

end

/-! ## The batch reads -/

section
variable {s : State} {src src' : ByteSource} {bytes : List Byte} {e : Error}

/-- A read on an opened handle is the read of its source, which is put back behind it (R41). -/
theorem srcRead_of_some {n handle : Nat} {sources : List ByteSource} (hsrc : sources[handle]? = some src) :
    srcRead n handle sources = ((readSource n src).1, sources.set handle (readSource n src).2) := by
  rw [srcRead, sourceAt_of_getElem? handle sources hsrc]

/-- `SD.READBATCH` answers the samples of the bytes that its read delivers (R111). -/
theorem exec_sdReadbatch_ok (hsrc : s.sources[s.sd.source]? = some src)
    (hread : readSource (2 * s.sd.batch) src = (.ok bytes, src')) :
    exec .sdReadbatch s =
      .next { s with sources := s.sources.set s.sd.source src', response := .samples (samplesOf bytes) } := by
  have harm : exec .sdReadbatch s = execSdReadbatch s := rfl
  rw [harm, execSdReadbatch, SampleDecoder.readBatch, srcRead_of_some hsrc, hread]
  rfl

/-- `SD.READBATCH` passes on the error of its read (R111, R258 (c)). -/
theorem exec_sdReadbatch_error (hsrc : s.sources[s.sd.source]? = some src)
    (hread : readSource (2 * s.sd.batch) src = (.error e, src')) :
    exec .sdReadbatch s = .next { s with sources := s.sources.set s.sd.source src', response := .error e } := by
  have harm : exec .sdReadbatch s = execSdReadbatch s := rfl
  rw [harm, execSdReadbatch, SampleDecoder.readBatch, srcRead_of_some hsrc, hread]
  rfl

/-- `PC.READBATCH` answers the power values of its batch and keeps the computer that stands behind them (R115). -/
theorem exec_pcReadbatch_ok {powers : List Power} {c : PowerComputer}
    (hread : (s.pc.readBatch s.sources).1 = .ok (powers, c)) :
    exec .pcReadbatch s =
      .next { s with pc := c, sources := (s.pc.readBatch s.sources).2, response := .powers powers } := by
  have harm : exec .pcReadbatch s = execPcReadbatch s := rfl
  rw [harm, execPcReadbatch, ← Prod.mk.eta (p := s.pc.readBatch s.sources), hread]
  rfl

/-- `PC.READBATCH` passes on the error of its read and leaves the history (R115, R258 (c)). -/
theorem exec_pcReadbatch_error (hsrc : s.sources[s.pc.decoder.source]? = some src)
    (hread : readSource (2 * s.pc.decoder.batch) src = (.error e, src')) :
    exec .pcReadbatch s =
      .next { s with sources := s.sources.set s.pc.decoder.source src', response := .error e } := by
  have harm : exec .pcReadbatch s = execPcReadbatch s := rfl
  rw [harm, execPcReadbatch, PowerComputer.readBatch, SampleDecoder.readBatch, srcRead_of_some hsrc, hread]
  rfl

/-- A batch read leaves the other sources (R41). -/
theorem PowerComputer.readBatch_sources_of_ne (c : PowerComputer) (sources : List ByteSource) {handle : Nat}
    (hne : handle ≠ c.decoder.source) : (c.readBatch sources).2[handle]? = sources[handle]? := by
  rw [c.readBatch_sources, srcRead_sources, if_neg hne]

end

/-- The samples of one read of a stream from any byte on (R111, R112). -/
theorem samplesOf_read (bytes : List Byte) (cursor n k : Nat)
    (h : k < (samplesOf ((bytes.drop cursor).take n)).length) :
    (samplesOf ((bytes.drop cursor).take n))[k].toInt = sampleAt (bytes.drop cursor) k := by
  simpa using samplesOf_stream (bytes.drop cursor) 0 n k (by simpa using h)

/-! ## The obligations -/

/-- Settles O21: the decoded pair and the word are both twelve bits minus half of their range. -/
theorem sampleIsCentred : Obligations.SampleIsCentred := by
  refine ⟨fun b0 b1 => ⟨decodeSampleBytes_toInt b0 b1, ?_⟩, fun ignored u s => ?_⟩
  · rw [decodeSampleBytes_toInt]
    omega
  · rw [exec_sample, centredSample_toInt]

/-- Settles O22: each constructor checks its size, then its source, and then writes the registers of its own unit. -/
theorem frontEndConstructors : Obligations.FrontEndConstructors := fun source _ s =>
  ⟨fun hsize => exec_sdNew_badSize source hsize s, exec_sdNew source, exec_sdNew_inUse source,
    fun hsize => exec_pcNew_badSize source hsize s,
    fun hpos hmod hfree => ⟨History.zero, by decide, rfl, exec_pcNew source hpos hmod hfree⟩,
    exec_pcNew_inUse source⟩

/-- Settles O23: the three clauses are the three outcomes of the one read. -/
theorem sdReadbatchResult : Obligations.SdReadbatchResult := by
  intro s src hsrc
  refine ⟨fun hended => ?_, fun hended hfind => ?_, fun f hended hfind => ?_⟩
  · exact exec_sdReadbatch_ok hsrc (readSource_of_ended _ src hended)
  · refine ⟨_, exec_sdReadbatch_ok hsrc (readSource_of_find_none _ src hended hfind), ?_,
      samplesOf_read src.bytes src.cursor _⟩
    rw [samplesOf_length, List.length_take, List.length_drop]
  · exact exec_sdReadbatch_error hsrc (readSource_of_find_some _ src hended hfind)

/-- Settles O24: a computer that stands at index `n` of a stream moves on by one batch (`readBatch_stream`), and a failing read
moves the source alone. -/
theorem pcReadbatchSlicesPower : Obligations.PcReadbatchSlicesPower := by
  refine ⟨fun s bytes n hlegal hat => ?_, fun s src f hsrc hended hfind => ?_⟩
  · obtain ⟨-, -, hbatch⟩ := hlegal
    obtain ⟨c, hc, hread, hat'⟩ := PowerComputer.readBatch_stream hbatch hat
    refine ⟨_, exec_pcReadbatch_ok hread, ?_, hat', fun handle => s.pc.readBatch_sources_of_ne s.sources⟩
    rw [← hc]
  · exact exec_pcReadbatch_error hsrc (readSource_of_find_some _ src hended hfind)

end Sys2Proof.Machine
end

section
/-! The operations of the power window (43_power_window.md): each given once by the outcome of its checks and of its refill. -/

namespace Sys2Proof.Machine

/-! ## The refill and the step by case -/

section
variable (b : Bool) {w : PowerWindow} {sources : List ByteSource}

/-- Each block buffer after one of them is replaced. -/
theorem PowerWindow.block_withBlock (w : PowerWindow) (c : Bool) (m : Mem Power) :
    (w.withBlock b m).block c = if c = b then m else w.block c := by
  cases b <;> cases c <;> rfl

theorem PowerWindow.refill_of_eos (heos : w.eos = true) : w.refill b sources = ⟨w, sources, none⟩ := if_pos heos

theorem PowerWindow.refill_of_ok (heos : w.eos = false) {powers : List Power} {computer : PowerComputer}
    {sources' : List ByteSource} (hread : w.computer.readBatch sources = (.ok (powers, computer), sources')) :
    w.refill b sources =
      ⟨{ w.withBlock b (Mem.load powers (w.block b)) with
          computer := computer, avail := w.avail + powers.length, eos := eosAfter powers.length }, sources', none⟩ := by
  rw [PowerWindow.refill, heos, hread]
  rfl

theorem PowerWindow.refill_of_error (heos : w.eos = false) {e : Error} {sources' : List ByteSource}
    (hread : w.computer.readBatch sources = (.error e, sources')) :
    w.refill b sources = ⟨{ w with fault := some e }, sources', some e⟩ := by
  rw [PowerWindow.refill, heos, hread]
  rfl

/-- A refill reads one batch unless the stream has ended (R135). -/
theorem PowerWindow.refill_sources (w : PowerWindow) (sources : List ByteSource) :
    (w.refill b sources).sources = if w.eos = true then sources else (w.computer.readBatch sources).2 := by
  rcases w.refill_cases b sources with ⟨heos, h⟩ | ⟨heos, _, -, -, h⟩ | ⟨heos, _, _, -, h⟩ <;> rw [h, heos] <;> rfl

end

section
variable {w : PowerWindow} {sources : List ByteSource}

/-- The right edge enters a new block exactly at a multiple of the block size (R134). -/
theorem entersNextBlock_iff (position : BitVec 64) (windowSize : Nat) :
    entersNextBlock position windowSize = true ↔ (position.toNat + windowSize - 1) % 65536 = 0 := decide_eq_true_iff

/-- A step off the edge of a block, or after the end of the stream, moves the position and `cur` alone (R131, R135). -/
theorem PowerWindow.advance_of_noRefill
    (h : ((w.position + 1#64).toNat + w.windowSize - 1) % 65536 ≠ 0 ∨ w.eos = true) :
    w.advance sources = ⟨PowerWindow.rotate { w with position := w.position + 1#64 }, sources, none⟩ := by
  rcases w.advance_cases sources with ⟨-, ha⟩ | ⟨henters, -, ha⟩ | ⟨henters, e, herror, -⟩
  · exact ha
  all_goals
    have heos : w.eos = true := h.resolve_left (not_not.2 ((entersNextBlock_iff _ _).1 henters))
  · rw [ha, PowerWindow.refill_of_eos _ heos]
  · rw [PowerWindow.refill_of_eos _ heos] at herror
    cases herror

/-- A step onto a new block is its refill, then the move unless the refill failed (R131, R258 (c)). -/
theorem PowerWindow.advance_of_enters (h : ((w.position + 1#64).toNat + w.windowSize - 1) % 65536 = 0) :
    w.advance sources =
      if (w.refill (!w.cur) sources).error = none then
        ⟨PowerWindow.rotate { (w.refill (!w.cur) sources).window with position := w.position + 1#64 },
          (w.refill (!w.cur) sources).sources, none⟩
      else w.refill (!w.cur) sources := by
  rcases w.advance_cases sources with ⟨henters, -⟩ | ⟨-, herror, ha⟩ | ⟨-, e, herror, ha⟩
  · rw [(entersNextBlock_iff _ _).2 h] at henters
    cases henters
  · rw [ha, if_pos herror]
  · rw [ha, if_neg (by rw [herror]; nofun)]

end

/-! ## The construction -/

section
variable {source windowSize serial : Nat} {sources : List ByteSource}

@[simp] theorem PowerWindow.construct_windowSize :
    (PowerWindow.construct source windowSize serial sources).window.windowSize = windowSize :=
  PowerWindow.refill_windowSize ..

@[simp] theorem PowerWindow.construct_position :
    (PowerWindow.construct source windowSize serial sources).window.position = 0#64 :=
  PowerWindow.refill_position ..

@[simp] theorem PowerWindow.construct_cur :
    (PowerWindow.construct source windowSize serial sources).window.cur = false :=
  PowerWindow.refill_cur ..

/-- A construction makes one read of two bytes for each of the 2 * 65536 samples of a block (R125, R135). -/
theorem PowerWindow.construct_sources {src : ByteSource} (hsrc : sources[source]? = some src) :
    (PowerWindow.construct source windowSize serial sources).sources = sources.set source (readSource 262144 src).2 :=
  (PowerWindow.refill_sources ..).trans (srcRead_sources_of_some _ _ _ hsrc)

/-- A batch read passes on the error of its read (R115, R258 (c)). -/
theorem PowerComputer.readBatch_of_error (c : PowerComputer) {src src' : ByteSource} {e : Error}
    (hsrc : sources[c.decoder.source]? = some src) (hread : readSource (2 * c.decoder.batch) src = (.error e, src')) :
    c.readBatch sources = (.error e, sources.set c.decoder.source src') := by
  rw [PowerComputer.readBatch, SampleDecoder.readBatch, srcRead_of_some hsrc, hread]
  rfl

/-- A construction whose first read fails leaves a faulted window with nothing loaded (R125, R258 (c)). -/
theorem PowerWindow.construct_of_error {src src' : ByteSource} {e : Error} (hsrc : sources[source]? = some src)
    (hread : readSource 262144 src = (.error e, src')) :
    PowerWindow.construct source windowSize serial sources =
      ⟨{ PowerWindow.fresh source windowSize serial with fault := some e }, sources.set source src', some e⟩ :=
  PowerWindow.refill_of_error false rfl (PowerComputer.readBatch_of_error (PowerComputer.fresh source 65536) hsrc hread)

/-- The source of a construction on a stream, of which one block has been read (R41, R125). -/
theorem PowerWindow.construct_sources_stream {bytes : List Byte} (hfresh : FreshSource sources source bytes) :
    (PowerWindow.construct source windowSize serial sources).sources =
      sources.set source ⟨bytes, min 262144 bytes.length, 1, [], decide (bytes.length < 262144)⟩ := by
  rw [PowerWindow.construct_sources hfresh, readSource_of_find_none _ _ rfl rfl]
  simp

/-- At position 0 only block 0 is loaded, the current one, up to its end (R125, R138). -/
theorem PowerWindow.Shows.atZero {w : PowerWindow} {bytes : List Byte} (h : w.Shows bytes sources)
    (hposition : w.position = 0#64) (hcur : w.cur = false) :
    w.avail = min (powerCount bytes) 65536 ∧ w.eos = decide (powerCount bytes < 65536) ∧
      ∀ k, k < w.avail → Mem.read? w.blk0 k = some (BitVec.ofInt 32 (powerAt bytes k)) := by
  have hpos : w.position.toNat = 0 := by rw [hposition]; rfl
  have hsize := h.size
  have hend : w.loadedEnd = 65536 := by
    rw [PowerWindow.loadedEnd, hpos]
    omega
  have havail := h.loaded
  have heos := h.ended
  rw [hend] at havail heos
  refine ⟨havail, heos, fun k hk => ?_⟩
  have hentry := h.entries k (by omega) hk
  rw [hpos, if_pos (by omega), hcur, Nat.mod_eq_of_lt (by omega)] at hentry
  exact hentry

end

/-! ## The operations -/

section
variable {s : State}

theorem exec_pwNew_badSize (source : Nat) {windowSize : Int} (hsize : windowSize < 1 ∨ 65536 < windowSize) :
    exec (.pwNew source windowSize) s = .next (s.respond (.error (.config windowSize))) :=
  if_pos hsize

theorem exec_pwNew_inUse {source : Nat} {windowSize : Int} (hlow : 1 ≤ windowSize) (hhigh : windowSize ≤ 65536)
    (huse : s.sourceInUse .pw source = true) : exec (.pwNew source windowSize) s = .refused (.sourceInUse source) :=
  (if_neg (by omega)).trans (withOwnSource_inUse source huse _)

theorem exec_pwNew {source : Nat} {windowSize : Int} (hlow : 1 ≤ windowSize) (hhigh : windowSize ≤ 65536)
    (hfree : s.sourceInUse .pw source = false) {step : WindowStep}
    (hstep : PowerWindow.construct source windowSize.toNat s.windowsBuilt s.sources = step) :
    exec (.pwNew source windowSize) s = .next { s with
      pw := step.window
      sources := step.sources
      windowsBuilt := s.windowsBuilt + 1
      response := doneOr step.error } :=
  hstep ▸ (if_neg (by omega)).trans (withOwnSource_free source hfree _)

section
variable (hfault : s.pw.fault = none)
include hfault

theorem exec_pwSize : exec .pwSize s = .next (s.respond (.nat s.pw.windowSize)) := unlessFaulted_of_none s hfault _

theorem exec_pwPosition : exec .pwPosition s = .next (s.respond (.u64 s.pw.position)) := unlessFaulted_of_none s hfault _

theorem exec_pwIsfull : exec .pwIsfull s = .next (s.respond (.bool s.pw.isFull)) := unlessFaulted_of_none s hfault _

theorem exec_pwGet_outside {i : Int} (hi : i < 0 ∨ (s.pw.windowSize : Int) ≤ i) :
    exec (.pwGet i) s = .next (s.respond (.error (.range [i]))) := by
  have harm : exec (.pwGet i) s = execPwGet i s := rfl
  rw [harm, execPwGet, unlessFaulted_of_none s hfault, if_pos hi]
  rfl

theorem exec_pwGet {i : Int} (hlow : 0 ≤ i) (hhigh : i < (s.pw.windowSize : Int)) :
    exec (.pwGet i) s = .next (s.respond (.i32 (s.pw.entry i.toNat))) := by
  have harm : exec (.pwGet i) s = execPwGet i s := rfl
  rw [harm, execPwGet, unlessFaulted_of_none s hfault, if_neg (by omega)]
  rfl

theorem exec_pwAdvance {step : WindowStep} (hstep : s.pw.advance s.sources = step) :
    exec .pwAdvance s =
      .next { s with pw := step.window, sources := step.sources, response := doneOr step.error } :=
  hstep ▸ unlessFaulted_of_none s hfault _

theorem exec_pwAdvanceby {n : Nat} {step : WindowStep} (hstep : s.pw.advanceBy s.sources n = step) :
    exec (.pwAdvanceby n) s =
      .next { s with pw := step.window, sources := step.sources, response := doneOr step.error } :=
  hstep ▸ unlessFaulted_of_none s hfault _

end

theorem exec_pwAdvance_faulted {e : Error} (hfault : s.pw.fault = some e) :
    exec .pwAdvance s = .next (s.respond (.error e)) := unlessFaulted_of_some s hfault _

theorem exec_pwAdvanceby_faulted {e : Error} (hfault : s.pw.fault = some e) (n : Nat) :
    exec (.pwAdvanceby n) s = .next (s.respond (.error e)) := unlessFaulted_of_some s hfault _

end

theorem doneOr_eq_done {error : Option Error} : doneOr error = .done ↔ error = none := by
  cases error <;> simp [doneOr]

theorem doneOr_eq_error {error : Option Error} {e : Error} : doneOr error = .error e ↔ error = some e := by
  cases error <;> simp [doneOr]

/-! ## The obligations -/

/-- Settles O26: the size is checked first, then the source, then the first block is read, in one read. -/
theorem pwNewResult : Obligations.PwNewResult := by
  intro source windowSize s
  refine ⟨exec_pwNew_badSize source, exec_pwNew_inUse, fun hlow hhigh hfree => ⟨fun bytes hfresh => ?_,
    fun src f hsrc hended hfind => ?_⟩⟩
  · obtain ⟨herror, hshows⟩ := PowerWindow.shows_construct (windowSize := windowSize.toNat) s.windowsBuilt (by omega)
      (by omega) hfresh
    obtain ⟨havail, heos, hentries⟩ := hshows.atZero PowerWindow.construct_position PowerWindow.construct_cur
    obtain ⟨hbatch, hdecoderBatch⟩ := hshows.batches
    refine ⟨_, (exec_pwNew hlow hhigh hfree rfl).trans ?_, PowerWindow.construct_windowSize, PowerWindow.construct_position,
      PowerWindow.construct_cur, hshows.unfaulted, havail, heos, hbatch, ?_, hentries⟩
    · rw [herror, PowerWindow.construct_sources_stream hfresh]
      rfl
    · rw [SampleDecoder.mk.injEq]
      exact ⟨PowerWindow.construct_source .., hdecoderBatch⟩
  · exact ⟨_, exec_pwNew hlow hhigh hfree
      (PowerWindow.construct_of_error hsrc (readSource_of_find_some _ src hended hfind)), rfl, rfl, rfl, rfl⟩

/-- Settles O27: a window that shows a stream is full while its right edge is within the stream, and a step moves it on. -/
theorem pwAccessorsRead : Obligations.PwAccessorsRead := by
  refine ⟨fun s hfault => ⟨exec_pwSize hfault, exec_pwPosition hfault, exec_pwIsfull hfault⟩,
    fun s bytes hshows => ⟨?_, fun hposition hnotFull => ?_⟩⟩
  · rw [exec_pwIsfull hshows.unfaulted, hshows.isFull]
  · obtain ⟨-, hmoved, hshows', -, -⟩ := hshows.advance hposition
    refine ⟨_, exec_pwAdvance hshows.unfaulted rfl, ?_⟩
    rw [exec_pwIsfull hshows'.unfaulted]
    dsimp only
    rw [hshows'.isFull, PowerWindow.advance_windowSize, hmoved, decide_eq_false (by omega)]

/-- Settles O28: the index is checked, and the entry of a window that shows a stream is the power value there. -/
theorem pwGetReadsPower : Obligations.PwGetReadsPower := fun i s hfault =>
  ⟨exec_pwGet_outside hfault, fun hlow hhigh =>
    ⟨_, exec_pwGet hfault hlow hhigh, fun _ hshows hcount => hshows.entry_toInt (by omega) hcount⟩⟩

/-- Settles O29: a step is its refill, where the right edge enters a block and the stream goes on, and then its move. -/
theorem pwAdvanceEffect : Obligations.PwAdvanceEffect := by
  intro s hfault
  refine ⟨fun hstay => ?_, fun henters heos => ⟨fun powers computer sources hread => ?_, fun e sources hread => ?_⟩⟩
  · rw [exec_pwAdvance hfault (PowerWindow.advance_of_noRefill hstay), PowerWindow.rotate_eq]
    rfl
  · have hstep := PowerWindow.advance_of_enters (sources := s.sources) henters
    rw [PowerWindow.refill_of_ok _ heos hread, if_pos rfl, PowerWindow.rotate_eq] at hstep
    refine ⟨_, exec_pwAdvance hfault hstep, rfl, PowerWindow.withBlock_windowSize .., rfl, ?_,
      (PowerWindow.withBlock_fault ..).trans hfault, rfl, rfl, PowerWindow.withBlock_serial .., fun b a => ?_⟩
    · simp only [PowerWindow.withBlock_cur]
    · have hblock := PowerWindow.block_withBlock (!s.pw.cur) s.pw b (Mem.load powers (s.pw.block !s.pw.cur))
      refine (congrArg (Mem.read? · a) hblock).trans ?_
      by_cases hb : b = !s.pw.cur
      · subst hb
        simp [Mem.read?_load]
      · simp [hb]
  · have hstep := PowerWindow.advance_of_enters (sources := s.sources) henters
    rw [PowerWindow.refill_of_error _ heos hread, if_neg nofun] at hstep
    exact exec_pwAdvance hfault hstep

/-- Settles O30: the steps of `PW.ADVANCEBY` are those of `PW.ADVANCE`, and a step records no error unless it raises one. -/
theorem pwAdvancebyRepeats : Obligations.PwAdvancebyRepeats := by
  refine ⟨fun s hfault => exec_pwAdvanceby hfault rfl, fun n s t ht => ?_, fun n s t ht hdone => ?_⟩
  · cases hfault : s.pw.fault with
    | some e =>
      rw [exec_pwAdvance_faulted hfault] at ht
      cases ht
      exact ⟨nofun, fun _ _ => exec_pwAdvanceby_faulted hfault (n + 1)⟩
    | none =>
      rw [exec_pwAdvance hfault rfl] at ht
      cases ht
      have hsucc := s.pw.advanceBy_succ s.sources n
      refine ⟨fun hdone => ?_, fun e herror => ?_⟩
      · have hnone := doneOr_eq_done.1 hdone
        have hfault' : (s.pw.advance s.sources).window.fault = none := by
          rw [PowerWindow.advance_fault, hnone, hfault]
          rfl
        rw [if_pos hnone] at hsucc
        rw [exec_pwAdvanceby hfault hsucc, exec_pwAdvanceby hfault' rfl]
      · rw [doneOr_eq_error.1 herror, if_neg nofun] at hsucc
        exact exec_pwAdvanceby hfault hsucc
  · cases hfault : s.pw.fault with
    | some e =>
      rw [exec_pwAdvanceby_faulted hfault] at ht
      cases ht
      cases hdone
    | none =>
      rw [exec_pwAdvanceby hfault rfl] at ht
      cases ht
      exact PowerWindow.advanceBy_position n s.pw s.sources (doneOr_eq_done.1 hdone)

end Sys2Proof.Machine
end

section
/-! What the operations of the other units, and the acts of the host, leave of the byte source that a window reads (R300): a unit reads
no source that another one still reads, and a read of a source that has ended only counts the call (R41). -/

namespace Sys2Proof.Machine

/-! ## A source left standing -/

/-- The source of a handle is `src`, but for the count of its reads. -/
def SourceStands (sources : List ByteSource) (handle : Nat) (src : ByteSource) : Prop :=
  ∃ calls, sources[handle]? = some { src with calls := calls }

section
variable {sources : List ByteSource} {handle : Nat} {src : ByteSource}

/-- A read of another source leaves it standing, and so does any read once it has ended (R41 (ii)). -/
theorem SourceStands.srcRead (h : SourceStands sources handle src) (n : Nat) {other : Nat}
    (hspared : handle ≠ other ∨ src.ended = true) : SourceStands (srcRead n other sources).2 handle src := by
  obtain ⟨calls, hsrc⟩ := h
  by_cases hother : handle = other
  · have hended : src.ended = true := hspared.resolve_left (not_not.2 hother)
    refine ⟨calls + 1, ?_⟩
    rw [srcRead_sources, if_pos hother, hsrc, Option.map_some, readSource_of_ended n { src with calls := calls } hended]
  · exact ⟨calls, by rw [srcRead_sources, if_neg hother, hsrc]⟩

theorem SourceStands.openSource {s : State} (h : SourceStands s.sources handle src) (bytes : List Byte)
    (failures : List IoFailure) : SourceStands (openSource bytes failures s).sources handle src := by
  obtain ⟨calls, hsrc⟩ := h
  obtain ⟨hlt, -⟩ := List.getElem?_eq_some_iff.1 hsrc
  exact ⟨calls, (List.getElem?_append_left hlt).trans hsrc⟩

/-- The source stands, and the window's reads leave it so: they go to another source, or they are over, or the source has ended. -/
structure PowerWindow.Spares (handle : Nat) (src : ByteSource) (w : PowerWindow) (sources : List ByteSource) : Prop where
  stands : SourceStands sources handle src
  apart : handle ≠ w.computer.decoder.source ∨ w.eos = true ∨ src.ended = true

variable {w : PowerWindow}

theorem PowerWindow.Spares.refill (h : w.Spares handle src sources) (b : Bool) :
    (w.refill b sources).window.Spares handle src (w.refill b sources).sources := by
  cases heos : w.eos with
  | true =>
    rw [PowerWindow.refill_of_eos b heos]
    exact h
  | false =>
    have hapart : handle ≠ w.computer.decoder.source ∨ src.ended = true := by simpa [heos] using h.apart
    refine ⟨?_, ?_⟩
    · rw [PowerWindow.refill_sources, heos]
      exact h.stands.srcRead _ hapart
    · rw [(w.refill_mayRead b sources).1]
      exact hapart.imp_right .inr

theorem PowerWindow.Spares.advance (h : w.Spares handle src sources) :
    (w.advance sources).window.Spares handle src (w.advance sources).sources := by
  have hrefill := h.refill (!w.cur)
  rcases w.advance_cases sources with ⟨-, ha⟩ | ⟨-, -, ha⟩ | ⟨-, e, -, ha⟩ <;> rw [ha]
  · exact ⟨h.stands, by simpa using h.apart⟩
  · exact ⟨hrefill.stands, by simpa using hrefill.apart⟩
  · exact hrefill

theorem PowerWindow.Spares.advanceBy (h : w.Spares handle src sources) (n : Nat) :
    (w.advanceBy sources n).window.Spares handle src (w.advanceBy sources n).sources :=
  PowerWindow.advanceBy_induct (fun _ _ h => h.advance) n w sources h

end

/-! ## The other units -/

/-- The operations that read the byte source for a unit (R41, R50). -/
inductive ReadsFor : StreamUnit → Instr → Prop where
  | sdReadbatch : ReadsFor .sd .sdReadbatch
  | pcReadbatch : ReadsFor .pc .pcReadbatch
  | pwNew source windowSize : ReadsFor .pw (.pwNew source windowSize)
  | pwAdvance : ReadsFor .pw .pwAdvance
  | pwAdvanceby n : ReadsFor .pw (.pwAdvanceby n)
  | dmNew source : ReadsFor .dm (.dmNew source)
  | dmNext : ReadsFor .dm .dmNext

theorem ReadsFor.ne {v x : StreamUnit} {i : Instr} (hx : ReadsFor x i) (hv : ¬ReadsFor v i) : v ≠ x := by
  rintro rfl
  exact hv hx

/-- A scan on a window with a recorded error returns at once (R155, R263). -/
theorem Scan.loop_of_fault {params : Params} {fuel : Nat} {c d : Scan} {r : Response} {e : Error}
    (hfault : c.dm.window.fault = some e) (hscan : Scan.loop params fuel c = some (d, r)) : d = c := by
  have hturn : c.turn params = .stop c (.error e) := by rw [Scan.turn, hfault]
  cases fuel with
  | zero => cases hscan
  | succ fuel =>
    rw [Scan.loop_succ, hturn] at hscan
    cases hscan
    rfl

section
variable {s t : State} {i : Instr} {v x : StreamUnit} {src : ByteSource}

/-- A unit that may read and a source that may be read by another unit are apart (R300). -/
theorem State.Sound.apart (hs : s.Sound) (hidle : s.mayRead v = false → src.ended = true) (hne : v ≠ x)
    (hx : s.mayRead x = true) : s.sourceOf v ≠ s.sourceOf x ∨ src.ended = true := by
  cases hv : s.mayRead v with
  | false => exact .inr (hidle hv)
  | true => exact .inl (hs.oneReader v x hne hv hx)

/-- A construction on a source that is free for it leaves the source of another unit standing (R300). -/
theorem construct_sourceStands {source windowSize serial : Nat} (hfree : s.sourceInUse x source = false)
    (hstands : SourceStands s.sources (s.sourceOf v) src) (hidle : s.mayRead v = false → src.ended = true) (hne : v ≠ x) :
    SourceStands (PowerWindow.construct source windowSize serial s.sources).sources (s.sourceOf v) src := by
  have hapart : s.sourceOf v ≠ source ∨ src.ended = true := by
    cases hv : s.mayRead v with
    | false => exact .inr (hidle hv)
    | true => exact .inl (State.sourceOf_ne_of_free hfree hne hv)
  exact (PowerWindow.Spares.refill (w := PowerWindow.fresh source windowSize serial)
    ⟨hstands, hapart.imp_right .inr⟩ false).stands

/-- The window of the unit `x` spares the source of another unit, unless an error is recorded for it. -/
theorem State.Sound.spares (hs : s.Sound) (hstands : SourceStands s.sources (s.sourceOf v) src)
    (hidle : s.mayRead v = false → src.ended = true) (hne : v ≠ x) {w : PowerWindow}
    (hsource : s.sourceOf x = w.computer.decoder.source) (hread : s.mayRead x = w.mayRead) (hfault : w.fault = none) :
    w.Spares (s.sourceOf v) src s.sources := by
  refine ⟨hstands, ?_⟩
  cases heos : w.eos with
  | true => exact .inr (.inl rfl)
  | false =>
    have hx : s.mayRead x = true := by simp [hread, PowerWindow.mayRead, heos, hfault]
    exact hsource ▸ (hs.apart hidle hne hx).imp_right .inr

/-- An operation that does not read for a unit leaves the source of that unit standing (R300). -/
theorem exec_sourceStands (hs : s.Sound) (hexec : exec i s = .next t) (hreads : ¬ReadsFor v i)
    (hstands : SourceStands s.sources (s.sourceOf v) src) (hidle : s.mayRead v = false → src.ended = true) :
    SourceStands t.sources (s.sourceOf v) src := by
  obtain ⟨r, u, heffect, ht⟩ := exec_effect hexec
  have hsources : t.sources = u.sources := by rw [ht, State.respond_sources]
  cases heffect with
  | sdReadbatch => exact hsources ▸ hstands.srcRead _ (hs.apart hidle (ReadsFor.sdReadbatch.ne hreads) rfl)
  | pcReadbatch => exact hsources ▸ hstands.srcRead _ (hs.apart hidle (ReadsFor.pcReadbatch.ne hreads) rfl)
  | pwNew source size _ hfree step hstep =>
    exact hsources ▸ hstep ▸ construct_sourceStands hfree hstands hidle ((ReadsFor.pwNew source size).ne hreads)
  | dmNew source hfree step hstep =>
    exact hsources ▸ hstep ▸ construct_sourceStands hfree hstands hidle ((ReadsFor.dmNew source).ne hreads)
  | pwAdvance =>
    rcases unlessFaulted_cases s hexec with ⟨e, -, rfl⟩ | ⟨hfault, -⟩
    · exact hstands
    · exact hsources ▸ (hs.spares hstands hidle (ReadsFor.pwAdvance.ne hreads) rfl rfl hfault).advance.stands
  | pwAdvanceby n =>
    rcases unlessFaulted_cases s hexec with ⟨e, -, rfl⟩ | ⟨hfault, -⟩
    · exact hstands
    · exact hsources ▸ ((hs.spares hstands hidle ((ReadsFor.pwAdvanceby n).ne hreads) rfl rfl hfault).advanceBy n).stands
  | dmNext hscan =>
    cases hfault : s.dm.window.fault with
    | some e => exact hsources ▸ Scan.loop_of_fault hfault hscan ▸ hstands
    | none =>
      have hspares := hs.spares hstands hidle (ReadsFor.dmNext.ne hreads) rfl rfl hfault
      exact hsources ▸ (Scan.loop_window (fun _ _ h => PowerWindow.Spares.advance h) hspares hscan).stands
  | _ => exact hsources ▸ hstands

theorem exec_pw_of_not_readsFor (hexec : exec i s = .next t) (hreads : ¬ReadsFor .pw i) : t.pw = s.pw := by
  obtain ⟨r, u, heffect, rfl⟩ := exec_effect hexec
  cases heffect with
  | pwNew | pwAdvance | pwAdvanceby => exact absurd (by constructor) hreads
  | _ => rfl

theorem exec_dmWindow_of_not_readsFor (hexec : exec i s = .next t) (hreads : ¬ReadsFor .dm i) :
    t.dm.window = s.dm.window := by
  obtain ⟨r, u, heffect, rfl⟩ := exec_effect hexec
  cases heffect with
  | dmNew | dmNext => exact absurd (by constructor) hreads
  | _ => rfl

end

/-- What a step can do to the windows: it runs an operation, or it leaves the windows and every source. -/
theorem step_exec_or_leaves {s t : State} (h : step s = .next t) :
    (∃ request rest i, s.queue = request :: rest ∧ decode request = .ok i ∧ exec i { s with queue := rest } = .next t) ∨
      (t.pw = s.pw ∧ t.dm = s.dm ∧
        ∀ handle src, SourceStands s.sources handle src → SourceStands t.sources handle src) := by
  cases hqueue : s.queue with
  | nil =>
    simp only [step, fetch, hqueue] at h
    cases h
    exact .inr ⟨rfl, rfl, fun _ _ => id⟩
  | cons request rest =>
    simp only [step, fetch, hqueue] at h
    cases request with
    | call | word =>
      simp only [runRequest, hostAct] at h
      split at h
      · rename_i i hdecode
        exact .inl ⟨_, rest, i, rfl, hdecode, h⟩
      · cases h
    | openSource bytes failures =>
      cases h
      exact .inr ⟨rfl, rfl, fun _ _ hstands => hstands.openSource bytes failures⟩
    | purge now =>
      cases h
      exact .inr ⟨rfl, rfl, fun _ _ => id⟩
    | newCallSign text =>
      obtain ⟨r, -, rfl⟩ := newCallSign_next h
      exact .inr ⟨rfl, rfl, fun _ _ => id⟩
    | newIcaoAddress text =>
      obtain ⟨r, -, rfl⟩ := newIcaoAddress_next h
      exact .inr ⟨rfl, rfl, fun _ _ => id⟩

end Sys2Proof.Machine
end

section
/-! The windows on a byte stream through every step of the machine (R126, R138): a window's own steps keep it showing the stream, and
everything else leaves its source standing. -/

namespace Sys2Proof.Machine

/-! ## A window whose source stands -/

section
variable {w : PowerWindow} {bytes : List Byte} {sources sources' : List ByteSource}

/-- The source of a window that shows a stream, but for the count of its reads: it never fails, and stands behind what is loaded. -/
def PowerWindow.streamSource (bytes : List Byte) (w : PowerWindow) : ByteSource :=
  ⟨bytes, min (4 * w.loadedEnd) bytes.length, 0, [], decide (bytes.length < 4 * w.loadedEnd)⟩

theorem PowerWindow.Shows.stands (h : w.Shows bytes sources) :
    SourceStands sources w.computer.decoder.source (w.streamSource bytes) := h.source.1

theorem PowerWindow.Shows.of_stands (h : w.Shows bytes sources)
    (hstands : SourceStands sources' w.computer.decoder.source (w.streamSource bytes)) : w.Shows bytes sources' :=
  { h with source := ⟨hstands, h.source.2⟩ }

/-- Where such a window reads no more, its source has ended (R135). -/
theorem PowerWindow.Shows.ended_of_idle (h : w.Shows bytes sources) (hidle : w.mayRead = false) :
    (w.streamSource bytes).ended = true := by
  have heos : w.eos = true := by simpa [PowerWindow.mayRead, h.unfaulted] using hidle
  have hcount : powerCount bytes < w.loadedEnd := of_decide_eq_true (h.ended ▸ heos)
  have hpow : powerCount bytes = bytes.length / 4 := rfl
  exact decide_eq_true (by omega)

end

/-! ## The scan of the demodulator -/

/-- A scan whose window has the demodulator's size and shows a stream. -/
structure Scan.Shows (bytes : List Byte) (c : Scan) : Prop where
  window : c.dm.window.Shows bytes c.sources
  size : c.dm.window.windowSize = 1200

section
variable {c : Scan} {bytes : List Byte} (h : c.Shows bytes)
include h

theorem Scan.Shows.next (hposition : c.dm.window.position.toNat + 1 < 2 ^ 64) :
    ∃ c', c.next = .again c' ∧ c'.Shows bytes := by
  obtain ⟨hnone, -, hshows, -, -⟩ := h.window.advance hposition
  rcases c.next_cases with ⟨e, herror, -⟩ | ⟨-, hnext⟩
  · rw [hnone] at herror
    cases herror
  · exact ⟨_, hnext, hshows, (PowerWindow.advance_windowSize ..).trans h.size⟩

theorem Scan.Shows.jump (hposition : c.dm.window.position.toNat + 1200 < 2 ^ 64) (after : SpPrevAfterAccept)
    (m : RawMessage) : (c.jump after m).1.dm.window.Shows bytes (c.jump after m).1.sources := by
  cases after with
  | zero =>
    obtain ⟨hnone, -, hshows, -⟩ := h.window.advanceBy 1200 hposition
    simpa [Scan.jump, hnone] using hshows
  | trueSequence =>
    obtain ⟨hnone, hmoved, hshows, -⟩ := h.window.advanceBy 1199 (by omega)
    obtain ⟨hnone', -, hshows', -⟩ := hshows.advance (by omega)
    simpa [Scan.jump, hnone, hnone'] using hshows'

/-- A turn moves only where the window is full, so the position stays within the stream (R155). -/
theorem Scan.Shows.turn (params : Params) (hcount : powerCount bytes < 2 ^ 64) :
    (∃ d r, c.turn params = .stop d r ∧ d.dm.window.Shows bytes d.sources) ∨
      ∃ c', c.turn params = .again c' ∧ c'.Shows bytes := by
  have hwithin (hfull : c.dm.window.isFull = true) : c.dm.window.position.toNat + 1200 ≤ powerCount bytes := by
    rw [h.window.isFull, h.size] at hfull
    exact of_decide_eq_true hfull
  have hsliced : (c.sliced params).Shows bytes := ⟨h.window, h.size⟩
  have hscored : c.scored.Shows bytes := ⟨h.window, h.size⟩
  rcases c.turn_cases params with ⟨e, -, ht⟩ | ⟨-, -, ht⟩ | ⟨-, hfull, -, -, ht⟩ | ⟨-, hfull, -, -, ht⟩ | ⟨-, hfull, -, ht⟩ <;>
    rw [ht]
  · exact .inl ⟨_, _, rfl, h.window⟩
  · exact .inl ⟨_, _, rfl, h.window⟩
  · have := hwithin hfull
    exact .inl ⟨_, _, rfl, hsliced.jump (show c.dm.window.position.toNat + 1200 < 2 ^ 64 by omega) _ _⟩
  · have := hwithin hfull
    exact .inr (hsliced.next (show c.dm.window.position.toNat + 1 < 2 ^ 64 by omega))
  · have := hwithin hfull
    exact .inr (hscored.next (show c.dm.window.position.toNat + 1 < 2 ^ 64 by omega))

theorem Scan.Shows.loop {params : Params} (hcount : powerCount bytes < 2 ^ 64) {fuel : Nat} {d : Scan} {r : Response}
    (hscan : Scan.loop params fuel c = some (d, r)) : d.dm.window.Shows bytes d.sources := by
  obtain ⟨last, hlast, hstop⟩ := Scan.loop_induct (motive := Scan.Shows bytes)
    (fun c c' hc hagain => by
      rcases hc.turn params hcount with ⟨_, _, ht, -⟩ | ⟨_, ht, hshows⟩ <;> rw [ht] at hagain <;> cases hagain
      exact hshows) h hscan
  rcases hlast.turn params hcount with ⟨_, _, ht, hshows⟩ | ⟨_, ht, -⟩ <;> rw [ht] at hstop <;> cases hstop
  exact hshows

end

/-! ## Every operation -/

section
variable {s t : State} {i : Instr} {bytes : List Byte}

/-- Several steps of `PW` on a window that shows a stream (R132, R138). -/
theorem exec_pwAdvanceby_shows {n : Nat} (hshows : s.pw.Shows bytes s.sources) (hposition : s.pw.position.toNat + n < 2 ^ 64) :
    ∃ t, exec (.pwAdvanceby n) s = .next t ∧
      t = { s with pw := t.pw, sources := t.sources, response := .done } ∧
      t.pw.position.toNat = s.pw.position.toNat + n ∧ t.pw.windowSize = s.pw.windowSize ∧ t.pw.Shows bytes t.sources ∧
      ∀ h, h ≠ s.pw.computer.decoder.source → t.sources[h]? = s.sources[h]? := by
  obtain ⟨hnone, hmoved, hshows', hsize, -, hothers⟩ := hshows.advanceBy n hposition
  refine ⟨_, exec_pwAdvanceby hshows.unfaulted rfl, ?_, hmoved, hsize, hshows', hothers⟩
  rw [hnone]
  rfl

/-- One step of `PW` is `PW.ADVANCEBY 1` (R131, R132). -/
theorem exec_pwAdvance_eq_advanceby (s : State) : exec .pwAdvance s = exec (.pwAdvanceby 1) s := by
  have hone : s.pw.advanceBy s.sources 1 = s.pw.advance s.sources := PowerWindow.advanceBy_succ_last _ _ 0 rfl
  cases hfault : s.pw.fault with
  | some e => rw [exec_pwAdvance_faulted hfault, exec_pwAdvanceby_faulted hfault]
  | none => rw [exec_pwAdvance hfault rfl, exec_pwAdvanceby hfault hone]

theorem exec_keeps_pw_shows (hs : s.Sound) (hexec : exec i s = .next t) (hshows : s.pw.Shows bytes s.sources)
    (hnew : ∀ source windowSize, i = .pwNew source windowSize → windowSize < 1 ∨ 65536 < windowSize)
    (hadvance : i = .pwAdvance → s.pw.position.toNat + 1 < 2 ^ 64)
    (hadvanceby : ∀ n, i = .pwAdvanceby n → s.pw.position.toNat + n < 2 ^ 64) : t.pw.Shows bytes t.sources := by
  by_cases hreads : ReadsFor .pw i
  · cases hreads with
    | pwNew source windowSize =>
      rw [exec_pwNew_badSize source (hnew source windowSize rfl)] at hexec
      cases hexec
      exact hshows
    | pwAdvance =>
      obtain ⟨t', ht', -, -, -, hshows', -⟩ := exec_pwAdvanceby_shows hshows (hadvance rfl)
      rw [exec_pwAdvance_eq_advanceby, ht'] at hexec
      cases hexec
      exact hshows'
    | pwAdvanceby n =>
      obtain ⟨t', ht', -, -, -, hshows', -⟩ := exec_pwAdvanceby_shows hshows (hadvanceby n rfl)
      rw [ht'] at hexec
      cases hexec
      exact hshows'
  · rw [exec_pw_of_not_readsFor hexec hreads]
    exact hshows.of_stands (exec_sourceStands (v := .pw) hs hexec hreads hshows.stands hshows.ended_of_idle)

theorem exec_keeps_dm_shows (hs : s.Sound) (hexec : exec i s = .next t) (hshows : s.dm.window.Shows bytes s.sources)
    (hcount : powerCount bytes < 2 ^ 64) (hnew : ∀ source, i ≠ .dmNew source) : t.dm.window.Shows bytes t.sources := by
  by_cases hreads : ReadsFor .dm i
  · cases hreads with
    | dmNew source => exact absurd rfl (hnew source)
    | dmNext =>
      obtain ⟨r, u, heffect, rfl⟩ := exec_effect hexec
      cases heffect with
      | result => exact hshows
      | runsCrc hi => cases hi
      | dmNext hscan => exact Scan.Shows.loop ⟨hshows, hs.demodulatorSize⟩ hcount hscan
  · rw [exec_dmWindow_of_not_readsFor hexec hreads]
    exact hshows.of_stands (exec_sourceStands (v := .dm) hs hexec hreads hshows.stands hshows.ended_of_idle)

end

/-! ## The obligation -/

/-- Settles O31: a construction shows its stream, a window's own steps keep it so, and every other operation and act of the host leaves
the window and, but for the count of its reads, its source. -/
theorem windowShowsStream : Obligations.WindowShowsStream := by
  refine ⟨fun source windowSize s bytes hlow hhigh hfresh hfree => ?_, fun s bytes hshows hposition => ?_,
    fun n s bytes => exec_pwAdvanceby_shows, fun s t bytes hs hstep hshows hrequest => ?_,
    fun s t bytes hs hstep hshows hcount hrequest => ?_⟩
  · obtain ⟨-, hshows⟩ := PowerWindow.shows_construct (windowSize := windowSize.toNat) s.windowsBuilt (by omega) (by omega)
      hfresh
    exact ⟨_, exec_pwNew hlow hhigh hfree rfl, PowerWindow.construct_position, hshows⟩
  · exact exec_pwAdvance_eq_advanceby s ▸ exec_pwAdvanceby_shows hshows hposition
  · rcases step_exec_or_leaves hstep with ⟨request, rest, i, hqueue, hdecode, hexec⟩ | ⟨hpw, -, hsources⟩
    · obtain ⟨hnew, hadvance, hadvanceby⟩ := hrequest request rest i hqueue hdecode
      exact exec_keeps_pw_shows (s := { s with queue := rest }) { hs with } hexec hshows hnew hadvance hadvanceby
    · rw [hpw]
      exact hshows.of_stands (hsources _ _ hshows.stands)
  · rcases step_exec_or_leaves hstep with ⟨request, rest, i, hqueue, hdecode, hexec⟩ | ⟨-, hdm, hsources⟩
    · refine exec_keeps_dm_shows (s := { s with queue := rest }) { hs with } hexec hshows (by omega) ?_
      rintro source rfl
      exact hrequest request rest source hqueue hdecode
    · rw [hdm]
      exact hshows.of_stands (hsources _ _ hshows.stands)

end Sys2Proof.Machine
end

section
/-! The demodulator at one position (44_demodulator.md R145 to R154): the construction, the scores and the decision, the slicer, and the
acceptor. -/

namespace Sys2Proof.Machine

/-! ## The acceptor -/

theorem frameDf_eq_extract (f : Frame) : frameDf f = f.extractLsb' 107 5 := by
  ext i hi
  simp [frameDf, frameByte, show 3 + i < 8 by omega, show 104 + (3 + i) = 107 + i by omega]

theorem frameDf_frameWord (df : BitVec 5) (unread : BitVec 3) (icao : Icao) (me : Me) (check : BitVec 24) :
    frameDf (frameWord df unread icao me check) = df :=
  (frameDf_eq_extract _).trans (frameWord_df df unread icao me check)

theorem accepts_iff {crc : Crc24} {f : Frame} :
    accepts crc f = true ↔ crc.run (frameBytes f) = 0#24 ∧ frameDf f = 17#5 := by
  rw [accepts, Bool.and_eq_true, beq_iff_eq, beq_iff_eq, Config.dfAdsb]

/-- The acceptor reads nothing of the CRC unit but its table (R102, R154). -/
theorem accepts_congr {crc crc' : Crc24} (htable : crc'.table = crc.table) (f : Frame) : accepts crc' f = accepts crc f := by
  rw [accepts, accepts, Crc24.run_congr htable]

theorem timestampOf_eq_ofNat (position : BitVec 64) : timestampOf position = BitVec.ofNat 64 (position.toNat * 100) := by
  rw [BitVec.ofNat_mul, BitVec.ofNat_toNat, BitVec.setWidth_eq]
  rfl

/-- What the acceptor answers, with the CRC in the CRC register (R154). -/
theorem candidate_eq (f : Frame) (s : State) :
    candidate f s = .next { s with
      crc := { s.crc with crcReg := s.crc.run (frameBytes f) }
      response := if s.crc.run (frameBytes f) = 0#24 ∧ frameDf f = 17#5 then
          .raw ⟨BitVec.ofNat 64 (s.dm.window.position.toNat * 100), f⟩ else .absent } := by
  rw [candidate, timestampOf_eq_ofNat]
  simp only [accepts_iff]
  rfl

/-- Settles O36: the `DF` of a candidate is the one of its word, so for `DF` 17 the CRC decides, and no other `DF` is accepted. -/
theorem frameAcceptance : Obligations.FrameAcceptance := by
  intro unread icao me check s
  refine ⟨(candidate_eq (frameWord 17#5 unread icao me check) s).trans ?_, fun df hdf =>
    (candidate_eq (frameWord df unread icao me check) s).trans ?_⟩
  · simp only [frameDf_frameWord, and_true]
    rfl
  · simp only [frameDf_frameWord, hdf, and_false, if_false]
    rfl

/-! ## The operations -/

section
variable {s : State}

theorem exec_dmNew_inUse {source : Nat} (huse : s.sourceInUse .dm source = true) :
    exec (.dmNew source) s = .refused (.sourceInUse source) := by
  have harm : exec (.dmNew source) s = execDmNew source s := rfl
  rw [harm, execDmNew, withOwnSource_inUse source huse]

theorem exec_dmNew {source : Nat} (hfree : s.sourceInUse .dm source = false) {step : WindowStep}
    (hstep : PowerWindow.construct source 1200 s.windowsBuilt s.sources = step) :
    exec (.dmNew source) s = .next { s with
      dm := { s.dm with window := step.window, spPrev := 0 }
      sources := step.sources
      windowsBuilt := s.windowsBuilt + 1
      response := doneOr step.error } := by
  have harm : exec (.dmNew source) s = execDmNew source s := rfl
  rw [harm, execDmNew, withOwnSource_free source hfree, Config.demodWindow, hstep]
  rfl

section
variable (hfault : s.dm.window.fault = none)
include hfault

theorem exec_dmSp : exec .dmSp s = .next (s.respond (.int (s.dm.window.sp 0))) := by
  have harm : exec .dmSp s = execDmSp s := rfl
  rw [harm, execDmSp, unlessFaulted_of_none s hfault, answer]

theorem exec_dmSv : exec .dmSv s = .next (s.respond (.int s.dm.window.sv)) := by
  have harm : exec .dmSv s = execDmSv s := rfl
  rw [harm, execDmSv, unlessFaulted_of_none s hfault, answer]

theorem exec_dmDetect : exec .dmDetect s = .next (s.respond (.bool s.dm.detects)) := by
  have harm : exec .dmDetect s = execDmDetect s := rfl
  rw [harm, execDmDetect, unlessFaulted_of_none s hfault, answer]

theorem exec_dmSlice :
    exec .dmSlice s = .next { s with
      dm := { s.dm with frame := slice s.params.ppmOneIsLate s.dm.window }
      response := .done } := by
  have harm : exec .dmSlice s = execDmSlice s := rfl
  rw [harm, execDmSlice, unlessFaulted_of_none s hfault]
  rfl

end

end

/-! ## The window on a stream -/

section
variable {w : PowerWindow} {bytes : List Byte} {sources : List ByteSource} (h : w.Shows bytes sources)
include h

theorem PowerWindow.Shows.value {i : Nat} (hi : i < w.windowSize) (hcount : w.position.toNat + i < powerCount bytes) :
    w.value i = powerAt bytes (w.position.toNat + i) := h.entry_toInt hi hcount

variable (hsize : w.windowSize = 1200)
include hsize

theorem PowerWindow.Shows.sp {k : Nat} (hk : k + 45 < 1200) (hcount : w.position.toNat + k + 45 < powerCount bytes) :
    w.sp k = spAt bytes (w.position.toNat + k) := by
  have value (j : Nat) (hj : j ≤ 45) : w.value (k + j) = powerAt bytes (w.position.toNat + k + j) := by
    rw [h.value (by omega) (by omega), add_assoc]
  have hzero : w.value k = powerAt bytes (w.position.toNat + k) := value 0 (by decide)
  rw [PowerWindow.sp, spAt, hzero, value 10 (by decide), value 35 (by decide), value 45 (by decide)]

theorem PowerWindow.Shows.sv (hcount : w.position.toNat + 40 < powerCount bytes) :
    w.sv = svAt bytes w.position.toNat := by
  have value (j : Nat) (hj : j ≤ 40) : w.value j = powerAt bytes (w.position.toNat + j) := h.value (by omega) (by omega)
  rw [PowerWindow.sv, svAt, value 5 (by decide), value 15 (by decide), value 20 (by decide), value 25 (by decide),
    value 30 (by decide), value 40 (by decide)]

variable (hcount : w.position.toNat + 1200 ≤ powerCount bytes)
include hcount

/-- The decision at a position of the stream, for any preceding score (R149). -/
theorem PowerWindow.Shows.detect (spPrev : Int) :
    detect spPrev (w.sp 0) (w.sp 1) w.sv =
      Machine.detect spPrev (spAt bytes w.position.toNat) (spAt bytes (w.position.toNat + 1))
        (svAt bytes w.position.toNat) := by
  rw [h.sp hsize (by decide) (by omega), h.sp hsize (by decide) (by omega), h.sv hsize (by omega), add_zero]

/-- The frame at a position of the stream (R152). -/
theorem PowerWindow.Shows.slice (oneIsLate : Bool) :
    Machine.slice oneIsLate w = sliceAt oneIsLate bytes w.position.toNat := by
  refine packBits_congr 112 fun i hi => ?_
  rw [sliceBit, h.value (by omega) (by omega), h.value (by omega) (by omega), add_assoc, add_assoc]

end

/-! ## The obligations -/

/-- Settles O33: the source is checked first, then the first block is read, in one read. -/
theorem dmNewResult : Obligations.DmNewResult := by
  intro source s
  refine ⟨exec_dmNew_inUse, fun bytes hfresh hfree => ?_, fun src f hsrc hfree hended hfind => ?_⟩
  · obtain ⟨herror, hshows⟩ := PowerWindow.shows_construct (windowSize := 1200) s.windowsBuilt (by decide) (by decide) hfresh
    have hsources := PowerWindow.construct_sources_stream (windowSize := 1200) (serial := s.windowsBuilt) hfresh
    rw [hsources] at hshows
    refine ⟨_, (exec_dmNew hfree rfl).trans ?_, PowerWindow.construct_windowSize, PowerWindow.construct_position, hshows⟩
    rw [herror, hsources]
    rfl
  · exact ⟨_, exec_dmNew hfree
      (PowerWindow.construct_of_error hsrc (readSource_of_find_some _ src hended hfind)), rfl, rfl, rfl, rfl, rfl⟩

/-- Settles O34: the entries that the scores add up are the power values of the stream. -/
theorem dmScoresAndDecision : Obligations.DmScoresAndDecision := by
  refine ⟨fun s bytes hshows hsize hcount => ?_, fun s hfault =>
    ⟨⟨_, exec_dmSp hfault⟩, ⟨_, exec_dmSv hfault⟩, ⟨_, exec_dmDetect hfault⟩⟩⟩
  have hfault := hshows.unfaulted
  obtain ⟨hspLow, hspHigh⟩ := spAt_range bytes s.dm.window.position.toNat
  obtain ⟨hsvLow, hsvHigh⟩ := svAt_range bytes s.dm.window.position.toNat
  refine ⟨?_, ?_, ?_, hspLow, hspHigh, hsvLow, hsvHigh⟩
  · rw [exec_dmSp hfault, hshows.sp hsize (by decide) (by omega)]
    rfl
  · rw [exec_dmSv hfault, hshows.sv hsize (by omega)]
    rfl
  · rw [exec_dmDetect hfault, Demodulator.detects, hshows.detect hsize hcount]
    rfl

end Sys2Proof.Machine
end

section
/-! The scan of `DM.NEXT` (44_demodulator.md R155) as steps of its window: what one turn finds, where a scan stands after some number of
turns, and how it ends. -/

namespace Sys2Proof.Machine

/-! ## Rows of steps -/

section
variable {w : PowerWindow} {sources : List ByteSource} {n : Nat} {e : Error}

/-- Steps record exactly the error that they raise. -/
theorem PowerWindow.advanceBy_fault (n : Nat) (w : PowerWindow) (sources : List ByteSource) :
    (w.advanceBy sources n).window.fault = (w.advanceBy sources n).error.or w.fault := by
  induction n generalizing w sources with
  | zero => rfl
  | succ n ih =>
    rw [PowerWindow.advanceBy_succ]
    split
    · rename_i hnone
      rw [ih, PowerWindow.advance_fault, hnone, Option.none_or]
    · exact w.advance_fault sources

/-- The first steps of a row that succeeds succeed. -/
theorem PowerWindow.advanceBy_error_of_le {m : Nat} (hmn : m ≤ n) (h : (w.advanceBy sources n).error = none) :
    (w.advanceBy sources m).error = none := by
  cases herror : (w.advanceBy sources m).error with
  | none => rfl
  | some e =>
    obtain ⟨k, hk, hnone, hfails, -⟩ := PowerWindow.advanceBy_error w sources herror
    rw [PowerWindow.advanceBy_of_fails w sources (hk.trans_le hmn) hnone hfails, hfails] at h
    cases h

/-- A row of steps of which `n` succeed and the next one fails. -/
structure PowerWindow.FailsAfter (w : PowerWindow) (sources : List ByteSource) (n : Nat) (e : Error) : Prop where
  succeeds : (w.advanceBy sources n).error = none
  fails : ((w.advanceBy sources n).window.advance (w.advanceBy sources n).sources).error = some e

/-- A row that fails, after steps that all succeed. -/
theorem PowerWindow.FailsAfter.add {w' : PowerWindow} {sources' : List ByteSource} {m : Nat}
    (hsteps : w.advanceBy sources m = ⟨w', sources', none⟩) (h : w'.FailsAfter sources' n e) :
    w.FailsAfter sources (m + n) e ∧ w.advanceBy sources (m + n) = w'.advanceBy sources' n := by
  have hadd := PowerWindow.advanceBy_add m n w sources (by rw [hsteps])
  rw [hsteps] at hadd
  exact ⟨⟨hadd ▸ h.succeeds, hadd ▸ h.fails⟩, hadd⟩

end

/-! ## The jump by its steps -/

/-- `sp_prev` after a jump (R150): cleared, or the score one step before the end. -/
def Scan.spPrevAfterJump (after : SpPrevAfterAccept) (c : Scan) : Int :=
  match after with
  | .zero => 0
  | .trueSequence => (c.dm.window.advanceBy c.sources 1199).window.sp 0

section
variable (after : SpPrevAfterAccept) {c : Scan} (m : RawMessage)

/-- A jump whose 1200 steps succeed returns the message (R155). -/
theorem Scan.jump_of_steps {w : PowerWindow} {sources : List ByteSource}
    (hsteps : c.dm.window.advanceBy c.sources 1200 = ⟨w, sources, none⟩) :
    c.jump after m = ({ c with
      dm := { c.dm with window := w, spPrev := c.spPrevAfterJump after, spCur := w.sp 0 }
      sources := sources }, .raw m) := by
  cases after with
  | zero => simp [Scan.jump, Scan.spPrevAfterJump, hsteps]
  | trueSequence =>
    have hnone : (c.dm.window.advanceBy c.sources 1199).error = none :=
      PowerWindow.advanceBy_error_of_le (show 1199 ≤ 1200 by decide) (by rw [hsteps])
    have hlast := PowerWindow.advanceBy_succ_last c.dm.window c.sources 1199 hnone
    rw [hsteps] at hlast
    simp [Scan.jump, Scan.spPrevAfterJump, hnone, ← hlast]

/-- A jump that returns a message returns the accepted one, and its 1200 steps have succeeded. -/
theorem Scan.jump_raw {m' : RawMessage} (h : (c.jump after m).2 = .raw m') :
    m' = m ∧ c.dm.window.advanceBy c.sources 1200 = ⟨(c.jump after m).1.dm.window, (c.jump after m).1.sources, none⟩ := by
  cases herror : (c.dm.window.advanceBy c.sources 1200).error with
  | none =>
    have hjump := Scan.jump_of_steps after m (c := c) (w := (c.dm.window.advanceBy c.sources 1200).window)
      (sources := (c.dm.window.advanceBy c.sources 1200).sources) (by rw [← herror])
    rw [hjump] at h ⊢
    cases h
    exact ⟨rfl, by rw [← herror]⟩
  | some e =>
    obtain ⟨n, hn, hnone, hfails, -⟩ := PowerWindow.advanceBy_error _ _ herror
    rw [(Scan.jump_of_fails after c m hn hnone hfails).1] at h
    cases h

end

/-! ## One turn, by what it finds -/

/-- Whether a turn on a full window declares a preamble and accepts the frame there (R149, R154). -/
def Scan.finds (params : Params) (c : Scan) : Bool := c.scored.dm.detects && accepts c.crc (c.candidate params)

/-- The message that such a turn accepts (R154). -/
def Scan.found (params : Params) (c : Scan) : RawMessage := ⟨timestampOf c.dm.window.position, c.candidate params⟩

section
variable {params : Params} {c d : Scan} {r : Response}

theorem Scan.turn_of_fault {e : Error} (hfault : c.dm.window.fault = some e) : c.turn params = .stop c (.error e) := by
  rw [Scan.turn, hfault]

section
variable (hfault : c.dm.window.fault = none)
include hfault

theorem Scan.turn_of_not_full (hfull : c.dm.window.isFull = false) : c.turn params = .stop c .absent := by
  simp [Scan.turn, hfault, hfull]

variable (hfull : c.dm.window.isFull = true)
include hfull

theorem Scan.turn_of_finds (hfinds : c.finds params = true) :
    c.turn params = .stop ((c.sliced params).jump params.spPrevAfterAccept (c.found params)).1
      ((c.sliced params).jump params.spPrevAfterAccept (c.found params)).2 := by
  obtain ⟨hdetects, haccepts⟩ := Bool.and_eq_true_iff.1 hfinds
  rcases c.turn_cases params with ⟨_, h, -⟩ | ⟨-, h, -⟩ | ⟨-, -, -, -, ht⟩ | ⟨-, -, -, h, -⟩ | ⟨-, -, h, -⟩
  · exact absurd (hfault.symm.trans h) nofun
  · exact absurd (hfull.symm.trans h) nofun
  · exact ht
  · exact absurd (haccepts.symm.trans h) nofun
  · exact absurd (hdetects.symm.trans h) nofun

/-- A turn that finds nothing resumes from the next sample, with a rejected candidate or without one (R155). -/
theorem Scan.turn_of_not_finds (hfinds : c.finds params = false) :
    c.turn params = (if c.scored.dm.detects = true then c.sliced params else c.scored).next := by
  rcases c.turn_cases params with ⟨_, h, -⟩ | ⟨-, h, -⟩ | ⟨-, -, hdetects, haccepts, -⟩ | ⟨-, -, hdetects, -, ht⟩ |
    ⟨-, -, hdetects, ht⟩
  · exact absurd (hfault.symm.trans h) nofun
  · exact absurd (hfull.symm.trans h) nofun
  · exact absurd (hfinds.symm.trans (Bool.and_eq_true_iff.2 ⟨hdetects, haccepts⟩)) nofun
  · rw [ht, if_pos hdetects]
  · rw [ht, if_neg (Bool.eq_false_iff.1 hdetects)]

/-- A turn that finds nothing and whose step fails ends the scan with that error (R155, R258 (c)). -/
theorem Scan.turn_of_fails (hfinds : c.finds params = false) {e : Error}
    (herror : (c.dm.window.advance c.sources).error = some e) :
    ∃ d, c.turn params = .stop d (.error e) ∧ d.dm.window = (c.dm.window.advance c.sources).window ∧
      d.sources = (c.dm.window.advance c.sources).sources := by
  have hnext (d : Scan) (h : (d.dm.window.advance d.sources).error = some e) : d.next = .stop { d with
      dm := { d.dm with window := (d.dm.window.advance d.sources).window }
      sources := (d.dm.window.advance d.sources).sources } (.error e) := by
    simp [Scan.next, h]
  rw [Scan.turn_of_not_finds hfault hfull hfinds]
  split <;> exact ⟨_, hnext _ herror, rfl, rfl⟩

/-- A turn that finds nothing and whose step succeeds goes round again one position on, with the score behind it as the preceding one
(R150, R155). -/
theorem Scan.turn_of_passes (hfinds : c.finds params = false) (herror : (c.dm.window.advance c.sources).error = none) :
    ∃ d, c.turn params = .again d ∧ c.dm.window.advance c.sources = ⟨d.dm.window, d.sources, none⟩ ∧
      d.dm.spPrev = c.dm.window.sp 0 ∧ d.crc.table = c.crc.table := by
  have hnext (d : Scan) (h : (d.dm.window.advance d.sources).error = none) : d.next = .again { d with
      dm := { d.dm with
        window := (d.dm.window.advance d.sources).window
        spPrev := d.dm.spCur
        spCur := d.dm.spNext }
      sources := (d.dm.window.advance d.sources).sources } := by
    simp [Scan.next, h]
  rw [Scan.turn_of_not_finds hfault hfull hfinds]
  split <;> exact ⟨_, hnext _ herror, by rw [← herror]; rfl, rfl, rfl⟩

end

/-- How a scan ends (R155): on a recorded error, on a window that is not full, with the jump after an accepted frame, or on a step that
fails. -/
theorem Scan.turn_stop_cases (h : c.turn params = .stop d r) :
    (∃ e, c.dm.window.fault = some e ∧ d = c ∧ r = .error e) ∨
    (c.dm.window.fault = none ∧ c.dm.window.isFull = false ∧ d = c ∧ r = .absent) ∨
    (c.finds params = true ∧ (c.sliced params).jump params.spPrevAfterAccept (c.found params) = (d, r)) ∨
    ∃ e, (c.dm.window.advance c.sources).error = some e ∧ r = .error e ∧
      d.dm.window = (c.dm.window.advance c.sources).window ∧ d.sources = (c.dm.window.advance c.sources).sources := by
  cases hfault : c.dm.window.fault with
  | some e =>
    obtain ⟨rfl, rfl⟩ := ScanTurn.stop.inj ((Scan.turn_of_fault hfault).symm.trans h)
    exact .inl ⟨e, rfl, rfl, rfl⟩
  | none =>
    cases hfull : c.dm.window.isFull with
    | false =>
      obtain ⟨rfl, rfl⟩ := ScanTurn.stop.inj ((Scan.turn_of_not_full hfault hfull).symm.trans h)
      exact .inr (.inl ⟨rfl, rfl, rfl, rfl⟩)
    | true =>
      cases hfinds : c.finds params with
      | true =>
        obtain ⟨rfl, rfl⟩ := ScanTurn.stop.inj ((Scan.turn_of_finds hfault hfull hfinds).symm.trans h)
        exact .inr (.inr (.inl ⟨rfl, rfl⟩))
      | false =>
        cases herror : (c.dm.window.advance c.sources).error with
        | none =>
          obtain ⟨_, ht, -⟩ := Scan.turn_of_passes hfault hfull hfinds herror
          exact absurd (ht.symm.trans h) nofun
        | some e =>
          obtain ⟨d', ht, hwindow, hsources⟩ := Scan.turn_of_fails hfault hfull hfinds herror
          obtain ⟨rfl, rfl⟩ := ScanTurn.stop.inj (ht.symm.trans h)
          exact .inr (.inr (.inr ⟨e, rfl, rfl, hwindow, hsources⟩))

/-- Where a scan goes round again, its window was full and has made one step (R155). -/
theorem Scan.turn_again_inv (h : c.turn params = .again d) :
    c.dm.window.isFull = true ∧ c.dm.window.advance c.sources = ⟨d.dm.window, d.sources, none⟩ ∧
      d.crc.table = c.crc.table := by
  cases hfault : c.dm.window.fault with
  | some e => exact absurd ((Scan.turn_of_fault hfault).symm.trans h) nofun
  | none =>
    cases hfull : c.dm.window.isFull with
    | false => exact absurd ((Scan.turn_of_not_full hfault hfull).symm.trans h) nofun
    | true =>
      cases hfinds : c.finds params with
      | true => exact absurd ((Scan.turn_of_finds hfault hfull hfinds).symm.trans h) nofun
      | false =>
        cases herror : (c.dm.window.advance c.sources).error with
        | some e =>
          obtain ⟨_, ht, -⟩ := Scan.turn_of_fails hfault hfull hfinds herror
          exact absurd (ht.symm.trans h) nofun
        | none =>
          obtain ⟨d', ht, hstep, -, htable⟩ := Scan.turn_of_passes hfault hfull hfinds herror
          cases ScanTurn.again.inj (ht.symm.trans h)
          exact ⟨rfl, hstep, htable⟩

end

/-! ## Where a scan stands -/

/-- The scan `c` stands `n` steps of the window behind the scan `start`, and the CRC table is the same. -/
structure Scan.StepsTo (start : Scan) (n : Nat) (c : Scan) : Prop where
  window : start.dm.window.advanceBy start.sources n = ⟨c.dm.window, c.sources, none⟩
  table : c.crc.table = start.crc.table

section
variable {start c d : Scan} {n m : Nat}

theorem Scan.StepsTo.refl (start : Scan) : start.StepsTo 0 start := ⟨rfl, rfl⟩

theorem Scan.StepsTo.trans (h : start.StepsTo n c) (h' : c.StepsTo m d) : start.StepsTo (n + m) d := by
  refine ⟨?_, h'.table.trans h.table⟩
  rw [PowerWindow.advanceBy_add n m _ _ (by rw [h.window]), h.window]
  exact h'.window

theorem Scan.StepsTo.one (hstep : c.dm.window.advance c.sources = ⟨d.dm.window, d.sources, none⟩)
    (htable : d.crc.table = c.crc.table) : c.StepsTo 1 d :=
  ⟨(PowerWindow.advanceBy_succ_last _ _ 0 rfl).trans hstep, htable⟩

theorem Scan.StepsTo.fault (h : start.StepsTo n c) : c.dm.window.fault = start.dm.window.fault := by
  have hfault := PowerWindow.advanceBy_fault n start.dm.window start.sources
  rwa [h.window] at hfault

theorem Scan.StepsTo.position (h : start.StepsTo n c) :
    c.dm.window.position = start.dm.window.position + BitVec.ofNat 64 n := by
  have hposition := PowerWindow.advanceBy_position n start.dm.window start.sources (by rw [h.window])
  rwa [h.window] at hposition

/-- A scan that ends has gone round some number of times, and ends with the turn there. -/
theorem Scan.loop_inv {params : Params} {fuel : Nat} {r : Response} (hscan : Scan.loop params fuel start = some (d, r)) :
    ∃ n last, start.StepsTo n last ∧ last.turn params = .stop d r := by
  obtain ⟨last, ⟨n, hsteps⟩, hstop⟩ := Scan.loop_induct (motive := fun c => ∃ n, start.StepsTo n c)
    (fun _ _ ⟨n, hsteps⟩ hagain => by
      obtain ⟨-, hstep, htable⟩ := Scan.turn_again_inv hagain
      exact ⟨n + 1, hsteps.trans (.one hstep htable)⟩) ⟨0, .refl start⟩ hscan
  exact ⟨n, last, hsteps, hstop⟩

end

/-! ## `DM.NEXT` -/

/-- The registers that `DM.NEXT` works on. -/
def State.scan (s : State) : Scan := ⟨s.dm, s.crc, s.sources⟩

section
variable {s t : State} {d : Scan} {r : Response}

/-- `DM.NEXT` writes the registers of its scan back; of the CRC unit only the CRC register has changed. -/
theorem exec_dmNext_of_loop (hscan : Scan.loop s.params (scanFuel s.dm.window s.sources) s.scan = some (d, r)) :
    exec .dmNext s = .next { s with
      dm := d.dm
      crc := { s.crc with crcReg := d.crc.crcReg }
      sources := d.sources
      response := r } := by
  obtain ⟨hgenerator, htable⟩ := Scan.loop_crc hscan
  have hcrc : d.crc = { s.crc with crcReg := d.crc.crcReg } := by
    rw [Crc24.mk.injEq]
    exact ⟨hgenerator, htable, rfl⟩
  have harm : exec .dmNext s = execDmNext s := rfl
  rw [State.scan] at hscan
  rw [harm, execDmNext, hscan, ← hcrc]
  rfl

theorem exec_dmNext_inv (h : exec .dmNext s = .next t) :
    ∃ d, Scan.loop s.params (scanFuel s.dm.window s.sources) s.scan = some (d, t.response) ∧
      t = { s with
        dm := d.dm
        crc := { s.crc with crcReg := d.crc.crcReg }
        sources := d.sources
        response := t.response } := by
  cases hscan : Scan.loop s.params (scanFuel s.dm.window s.sources) s.scan with
  | none =>
    have harm : exec .dmNext s = execDmNext s := rfl
    rw [State.scan] at hscan
    rw [harm, execDmNext, hscan] at h
    cases h
  | some result =>
    obtain ⟨d, r⟩ := result
    cases (exec_dmNext_of_loop hscan).symm.trans h
    exact ⟨d, rfl, rfl⟩

/-- Where the first turn ends the scan, `DM.NEXT` returns its result. -/
theorem exec_dmNext_of_turn (hstop : s.scan.turn s.params = .stop d r) :
    exec .dmNext s = .next { s with
      dm := d.dm
      crc := { s.crc with crcReg := d.crc.crcReg }
      sources := d.sources
      response := r } := by
  refine exec_dmNext_of_loop ?_
  rw [scanFuel, Scan.loop_succ, hstop]

end

/-! ## The obligations -/

/-- Settles O39: absent is returned where the window is not full and no error is recorded, and there the first turn ends the next
scan. -/
theorem dmNextAbsentStays : Obligations.DmNextAbsentStays := by
  intro s t ht habsent
  obtain ⟨d, hscan, heq⟩ := exec_dmNext_inv ht
  rw [habsent] at hscan
  obtain ⟨n, last, -, hstop⟩ := Scan.loop_inv hscan
  rcases Scan.turn_stop_cases hstop with ⟨_, -, -, h⟩ | ⟨hfault, hfull, rfl, -⟩ | ⟨-, hjump⟩ | ⟨_, -, h, -⟩
  · cases h
  · have hdm : t.dm = d.dm := by rw [heq]
    have hnext := exec_dmNext_of_turn (s := t) (Scan.turn_of_not_full (by rw [State.scan, hdm]; exact hfault)
      (by rw [State.scan, hdm]; exact hfull))
    rw [hnext, ← habsent]
    rfl
  · rcases Scan.jump_result s.params.spPrevAfterAccept (last.sliced s.params) (last.found s.params) with h | ⟨_, h⟩ <;>
      rw [hjump] at h <;> cases h
  · cases h

end Sys2Proof.Machine
end

section
/-! What `DM.NEXT` answers (44_demodulator.md R155 to R157): the error of a refill, an accepted message, or absent. -/

namespace Sys2Proof.Machine

/-! ## A scan that fails -/

/-- `d` is what a scan leaves whose window makes `n` steps from `start` on and fails with `e` at the next one (R258 (c)). -/
structure Scan.FailedAfter (start : Scan) (n : Nat) (e : Error) (d : Scan) : Prop where
  row : start.dm.window.FailsAfter start.sources n e
  window : d.dm.window = { (start.dm.window.advanceBy start.sources n).window with fault := some e }
  sources : d.sources = ((start.dm.window.advanceBy start.sources n).window.advance
    (start.dm.window.advanceBy start.sources n).sources).sources

section
variable {params : Params} {start c d : Scan} {n m : Nat} {e : Error}

theorem Scan.StepsTo.failedAfter (h : start.StepsTo m c) (hfailed : c.FailedAfter n e d) :
    start.FailedAfter (m + n) e d := by
  obtain ⟨hrow, hadd⟩ := hfailed.row.add h.window
  exact ⟨hrow, hadd ▸ hfailed.window, hadd ▸ hfailed.sources⟩

theorem Scan.FailedAfter.of_step (herror : (c.dm.window.advance c.sources).error = some e)
    (hwindow : d.dm.window = (c.dm.window.advance c.sources).window)
    (hsources : d.sources = (c.dm.window.advance c.sources).sources) : c.FailedAfter 0 e d :=
  ⟨⟨rfl, herror⟩, hwindow.trans (PowerWindow.advance_of_error _ _ herror), hsources⟩

theorem Scan.jump_failedAfter (after : SpPrevAfterAccept) (msg : RawMessage) (hn : n < 1200)
    (hrow : c.dm.window.FailsAfter c.sources n e) :
    (c.jump after msg).2 = .error e ∧ c.FailedAfter n e (c.jump after msg).1 := by
  obtain ⟨herror, hwindow, hsources⟩ := Scan.jump_of_fails after c msg hn hrow.succeeds hrow.fails
  exact ⟨herror, hrow, hwindow, hsources⟩

/-- A turn that returns an error, where none was recorded, returns that of a refill: of the jump or of its one step (R155). -/
theorem Scan.turn_error (hfault : c.dm.window.fault = none) (h : c.turn params = .stop d (.error e)) :
    ∃ n, c.FailedAfter n e d := by
  rcases Scan.turn_stop_cases h with ⟨_, hrecorded, -, -⟩ | ⟨-, -, -, h⟩ | ⟨-, hjump⟩ | ⟨e', herror, h, hwindow, hsources⟩
  · exact absurd (hfault.symm.trans hrecorded) nofun
  · cases h
  · obtain ⟨n, hn, hnone, hfails⟩ := Scan.jump_error params.spPrevAfterAccept (c.sliced params) (c.found params) (e := e)
      (by rw [hjump])
    obtain ⟨-, hfailed⟩ := Scan.jump_failedAfter params.spPrevAfterAccept (c.found params) hn ⟨hnone, hfails⟩
    rw [hjump] at hfailed
    exact ⟨n, hfailed.row, hfailed.window, hfailed.sources⟩
  · cases h
    exact ⟨0, .of_step herror hwindow hsources⟩

theorem Scan.loop_error {fuel : Nat} (hfault : start.dm.window.fault = none)
    (hscan : Scan.loop params fuel start = some (d, .error e)) : ∃ n, start.FailedAfter n e d := by
  obtain ⟨m, last, hsteps, hstop⟩ := Scan.loop_inv hscan
  obtain ⟨n, hfailed⟩ := Scan.turn_error (hsteps.fault.trans hfault) hstop
  exact ⟨m + n, hsteps.failedAfter hfailed⟩

/-- The steps that succeeded have moved the position. -/
theorem Scan.FailedAfter.position (h : start.FailedAfter n e d) :
    d.dm.window.position = start.dm.window.position + BitVec.ofNat 64 n := by
  rw [h.window]
  exact PowerWindow.advanceBy_position n _ _ h.row.succeeds

end

/-- Settles O38: a scan that returns an error does so at the first step that fails, of the scan or of the jump, and up to there its
steps are those of `PW.ADVANCEBY`. -/
theorem dmNextFailedRefill : Obligations.DmNextFailedRefill := by
  intro s hfault
  have isFull (hfull : s.dm.window.position.toNat + s.dm.window.windowSize ≤ s.dm.window.avail) :
      s.scan.dm.window.isFull = true := decide_eq_true hfull
  refine ⟨fun t e ht herror => ?_, fun e hfull hfound hfails => ?_, fun n e hfull hfound hn hfails => ?_⟩
  · obtain ⟨d, hscan, heq⟩ := exec_dmNext_inv ht
    rw [herror] at hscan heq
    obtain ⟨n, hfailed⟩ := Scan.loop_error hfault hscan
    subst heq
    exact ⟨n, ⟨hfailed.row.succeeds, hfailed.row.fails⟩, rfl, hfailed.window, hfailed.position, hfailed.sources⟩
  · obtain ⟨d, hstop, hwindow, hsources⟩ := Scan.turn_of_fails (c := s.scan) hfault (isFull hfull) hfound hfails.2
    have hfailed := Scan.FailedAfter.of_step (c := s.scan) hfails.2 hwindow hsources
    exact ⟨_, exec_dmNext_of_turn hstop, rfl, hfailed.window, hfailed.position, hfailed.sources⟩
  · have hstop := Scan.turn_of_finds (c := s.scan) hfault (isFull hfull) hfound
    obtain ⟨herror, hfailed⟩ := Scan.jump_failedAfter (c := s.scan.sliced s.params) s.params.spPrevAfterAccept
      (s.scan.found s.params) hn ⟨hfails.1, hfails.2⟩
    obtain ⟨-, hframe, -⟩ := (s.scan.sliced s.params).jump_frame s.params.spPrevAfterAccept (s.scan.found s.params)
    rw [herror] at hstop
    exact ⟨_, exec_dmNext_of_turn hstop, ⟨rfl, hfailed.window, hfailed.position, hfailed.sources⟩, hframe⟩

/-! ## A scan that finds a message -/

section
variable {params : Params} {start c d : Scan} {m : RawMessage}

/-- A turn that returns a message has accepted it and made the 1200 steps of the jump (R154, R155). -/
theorem Scan.turn_raw (h : c.turn params = .stop d (.raw m)) :
    c.finds params = true ∧ m = c.found params ∧ c.StepsTo 1200 d ∧ d.dm.frame = m.bytes := by
  rcases Scan.turn_stop_cases h with ⟨_, -, -, h⟩ | ⟨-, -, -, h⟩ | ⟨hfinds, hjump⟩ | ⟨_, -, h, -⟩
  · cases h
  · cases h
  · obtain ⟨rfl, hsteps⟩ := Scan.jump_raw params.spPrevAfterAccept (c := c.sliced params) (m' := m) (c.found params)
      (by rw [hjump])
    obtain ⟨hcrc, hframe, -⟩ := (c.sliced params).jump_frame params.spPrevAfterAccept (c.found params)
    rw [hjump] at hsteps hcrc hframe
    exact ⟨hfinds, rfl, ⟨hsteps, (congrArg Crc24.table hcrc :)⟩, hframe⟩
  · cases h

/-- A scan that returns a message has found it at a position 1200 before the one where it ends, by the table it started with. -/
theorem Scan.loop_raw_found {fuel : Nat} (hscan : Scan.loop params fuel start = some (d, .raw m)) :
    accepts start.crc m.bytes = true ∧ d.dm.frame = m.bytes ∧
      ∃ position, m.timestampNs = timestampOf position ∧ d.dm.window.position = position + 1200#64 := by
  obtain ⟨n, last, hsteps, hstop⟩ := Scan.loop_inv hscan
  obtain ⟨hfinds, rfl, hjump, hframe⟩ := Scan.turn_raw hstop
  obtain ⟨-, haccepts⟩ := Bool.and_eq_true_iff.1 hfinds
  exact ⟨(accepts_congr hsteps.table _).symm.trans haccepts, hframe, _, rfl, hjump.position⟩

end

/-- A message of `DM.NEXT` in any state (R24, R154): accepted, held in the frame register, and timestamped 1200 positions back. -/
theorem exec_dmNext_raw {s t : State} {r : RawMessage} (ht : exec .dmNext s = .next t) (hr : t.response = .raw r) :
    s.crc.run (frameBytes r.bytes) = 0#24 ∧ frameDf r.bytes = 17#5 ∧ t.dm.frame = r.bytes ∧
      r.timestampNs = (t.dm.window.position - 1200#64) * 100#64 := by
  obtain ⟨d, hscan, heq⟩ := exec_dmNext_inv ht
  rw [hr] at hscan
  obtain ⟨haccepts, hframe, position, htimestamp, hposition⟩ := Scan.loop_raw_found hscan
  obtain ⟨hcrc, hdf⟩ := accepts_iff.1 haccepts
  rw [heq]
  refine ⟨hcrc, hdf, hframe, ?_⟩
  dsimp only
  rw [htimestamp, hposition, BitVec.add_sub_cancel]
  rfl

end Sys2Proof.Machine
end

section
/-! `DM.NEXT` on a byte stream (44_demodulator.md R148 to R156): the scan passes every position at which nothing is accepted, and ends
at the first one that is, or where the window can no longer fill. -/

namespace Sys2Proof.Machine

/-! ## What a turn finds on a stream -/

/-- The preceding score at a position of the stream that a scan reaches: the register where it starts, the true score after it (R150). -/
def Scan.precedingAt (bytes : List Byte) (start : Scan) (q : Nat) : Int :=
  if q = start.dm.window.position.toNat then start.dm.spPrev else spAt bytes (q - 1)

/-- Whether a scan accepts a frame at a position of the stream that it reaches (R149, R154). -/
def Scan.findsAt (params : Params) (bytes : List Byte) (start : Scan) (q : Nat) : Bool :=
  detect (start.precedingAt bytes q) (spAt bytes q) (spAt bytes (q + 1)) (svAt bytes q) &&
    accepts start.crc (sliceAt params.ppmOneIsLate bytes q)

section
variable {params : Params} {bytes : List Byte} {start c : Scan} {n : Nat}

theorem Scan.Shows.isFull (h : c.Shows bytes) :
    c.dm.window.isFull = decide (c.dm.window.position.toNat + 1200 ≤ powerCount bytes) := by
  rw [h.window.isFull, h.size]

/-- The steps of a scan leave its window showing the stream, and every source but the window's (R131, R138). -/
theorem Scan.StepsTo.shows (hsteps : start.StepsTo n c) (h : start.Shows bytes)
    (hposition : start.dm.window.position.toNat + n < 2 ^ 64) :
    c.Shows bytes ∧ c.dm.window.position.toNat = start.dm.window.position.toNat + n ∧
      ∀ k, k ≠ start.dm.window.computer.decoder.source → c.sources[k]? = start.sources[k]? := by
  obtain ⟨-, hmoved, hshows, hsize, -, hothers⟩ := h.window.advanceBy n hposition
  rw [hsteps.window] at hmoved hshows hsize hothers
  exact ⟨⟨hshows, hsize.trans h.size⟩, hmoved, hothers⟩

/-- Where a scan stands on a full window, it finds what the stream has there. -/
theorem Scan.StepsTo.finds (hsteps : start.StepsTo n c) (hshows : c.Shows bytes)
    (hmoved : c.dm.window.position.toNat = start.dm.window.position.toNat + n)
    (hfull : c.dm.window.position.toNat + 1200 ≤ powerCount bytes)
    (hpreceding : c.dm.spPrev = start.precedingAt bytes (start.dm.window.position.toNat + n)) :
    c.finds params = start.findsAt params bytes (start.dm.window.position.toNat + n) := by
  have hdetects : c.scored.dm.detects = detect c.dm.spPrev (c.dm.window.sp 0) (c.dm.window.sp 1) c.dm.window.sv := rfl
  rw [Scan.finds, Scan.findsAt, hdetects, Scan.candidate, hshows.window.detect hshows.size hfull,
    hshows.window.slice hshows.size hfull, accepts_congr hsteps.table, hpreceding, hmoved]

/-! ## The turns on a stream -/

/-- A scan passes the positions at which it finds nothing, one turn each (R155). -/
theorem Scan.Shows.loop_passes (h : start.Shows bytes) (hcount : powerCount bytes < 2 ^ 64) (n : Nat)
    (hpasses : ∀ q, start.dm.window.position.toNat ≤ q → q < start.dm.window.position.toNat + n →
      q + 1200 ≤ powerCount bytes ∧ start.findsAt params bytes q = false) :
    ∃ c, start.StepsTo n c ∧ c.dm.spPrev = start.precedingAt bytes (start.dm.window.position.toNat + n) ∧
      ∀ fuel, Scan.loop params (fuel + n) start = Scan.loop params fuel c := by
  induction n with
  | zero => exact ⟨start, .refl start, (if_pos rfl).symm, fun _ => rfl⟩
  | succ n ih =>
    obtain ⟨c, hsteps, hpreceding, hloop⟩ := ih fun q hlow hhigh => hpasses q hlow (by omega)
    obtain ⟨hwithin, hnothing⟩ := hpasses (start.dm.window.position.toNat + n) (by omega) (by omega)
    obtain ⟨hshows, hmoved, -⟩ := hsteps.shows h (by omega)
    obtain ⟨herror, -⟩ := hshows.window.advance (by omega)
    have hfinds := (hsteps.finds (params := params) hshows hmoved (by omega) hpreceding).trans hnothing
    obtain ⟨d, hturn, hstep, hprev, htable⟩ := Scan.turn_of_passes hshows.window.unfaulted
      (hshows.isFull.trans (decide_eq_true (by omega))) hfinds herror
    refine ⟨d, hsteps.trans (.one hstep htable), ?_, fun fuel => ?_⟩
    · rw [hprev, hshows.window.sp hshows.size (by decide) (by omega), hmoved, Scan.precedingAt, if_neg (by omega)]
      rfl
    · rw [← add_assoc, add_right_comm, hloop, Scan.loop_succ, hturn]

/-- The score that a jump on a stream leaves in `sp_prev`, if it does not clear it (R150). -/
theorem Scan.Shows.spPrevAfterJump (h : c.Shows bytes) (hcount : powerCount bytes < 2 ^ 64)
    (hwithin : c.dm.window.position.toNat + 1245 ≤ powerCount bytes) :
    c.spPrevAfterJump .trueSequence = spAt bytes (c.dm.window.position.toNat + 1199) := by
  obtain ⟨-, hmoved, hshows, hsize, -⟩ := h.window.advanceBy 1199 (by omega)
  rw [Scan.spPrevAfterJump, hshows.sp (hsize.trans h.size) (by decide) (by omega), hmoved, add_zero]

/-- A turn on a full window that finds a frame returns it as a message, 1200 positions on (R155). -/
theorem Scan.Shows.turn_finds (h : c.Shows bytes) (hcount : powerCount bytes + 1200 < 2 ^ 64)
    (hfull : c.dm.window.position.toNat + 1200 ≤ powerCount bytes) (hfinds : c.finds params = true) :
    ∃ d, c.turn params = .stop d (.raw ⟨BitVec.ofNat 64 (c.dm.window.position.toNat * 100),
        sliceAt params.ppmOneIsLate bytes c.dm.window.position.toNat⟩) ∧
      c.StepsTo 1200 d ∧ d.dm.frame = sliceAt params.ppmOneIsLate bytes c.dm.window.position.toNat ∧
      d.dm.spPrev = c.spPrevAfterJump params.spPrevAfterAccept := by
  obtain ⟨herror, -⟩ := h.window.advanceBy 1200 (by omega)
  have hsteps : c.dm.window.advanceBy c.sources 1200 = ⟨(c.dm.window.advanceBy c.sources 1200).window,
      (c.dm.window.advanceBy c.sources 1200).sources, none⟩ := by rw [← herror]
  have hslice : c.candidate params = sliceAt params.ppmOneIsLate bytes c.dm.window.position.toNat :=
    h.window.slice h.size hfull _
  have hturn := Scan.turn_of_finds h.window.unfaulted (h.isFull.trans (decide_eq_true hfull)) hfinds
  rw [Scan.jump_of_steps (c := c.sliced params) _ _ hsteps, Scan.found, timestampOf_eq_ofNat, hslice] at hturn
  exact ⟨_, hturn, ⟨hsteps, rfl⟩, hslice, rfl⟩

/-- A scan that reaches a position at which it accepts a frame, the first one, returns that frame (R155, R156). -/
theorem Scan.Shows.loop_finds (h : start.Shows bytes) (hcount : powerCount bytes + 1200 < 2 ^ 64) {fuel q : Nat}
    (hq : q = start.dm.window.position.toNat + n) (hfuel : n < fuel) (hwithin : q + 1200 ≤ powerCount bytes)
    (hfinds : start.findsAt params bytes q = true)
    (hfirst : ∀ r, start.dm.window.position.toNat ≤ r → r < q → start.findsAt params bytes r = false) :
    ∃ d, Scan.loop params fuel start =
        some (d, .raw ⟨BitVec.ofNat 64 (q * 100), sliceAt params.ppmOneIsLate bytes q⟩) ∧
      start.StepsTo (n + 1200) d ∧ d.dm.frame = sliceAt params.ppmOneIsLate bytes q ∧
      (params.spPrevAfterAccept = .zero → d.dm.spPrev = 0) ∧
      (params.spPrevAfterAccept = .trueSequence → q + 1245 ≤ powerCount bytes → d.dm.spPrev = spAt bytes (q + 1199)) := by
  subst hq
  obtain ⟨c, hsteps, hpreceding, hloop⟩ := h.loop_passes (params := params) (by omega) n
    fun r hlow hhigh => ⟨by omega, hfirst r hlow hhigh⟩
  obtain ⟨hshows, hmoved, -⟩ := hsteps.shows h (by omega)
  have hcfinds := (hsteps.finds (params := params) hshows hmoved (by omega) hpreceding).trans hfinds
  obtain ⟨d, hturn, hjump, hframe, hprev⟩ := hshows.turn_finds hcount (by omega) hcfinds
  rw [hmoved] at hturn hframe
  refine ⟨d, ?_, hsteps.trans hjump, hframe, fun hzero => ?_, fun htrue hreaches => ?_⟩
  · obtain ⟨k, rfl⟩ := Nat.exists_eq_add_of_lt hfuel
    rw [show n + k + 1 = k + 1 + n by omega, hloop, Scan.loop_succ, hturn]
  · rw [hprev, hzero]
    rfl
  · rw [hprev, htrue, hshows.spPrevAfterJump (by omega) (by omega), hmoved]

/-- A scan that accepts no frame up to where its window is not full returns absent there (R155). -/
theorem Scan.Shows.loop_absent (h : start.Shows bytes) (hcount : powerCount bytes < 2 ^ 64) {fuel : Nat} (hfuel : n < fuel)
    (hposition : start.dm.window.position.toNat + n < 2 ^ 64)
    (hend : powerCount bytes < start.dm.window.position.toNat + n + 1200)
    (hpasses : ∀ q, start.dm.window.position.toNat ≤ q → q < start.dm.window.position.toNat + n →
      q + 1200 ≤ powerCount bytes ∧ start.findsAt params bytes q = false) :
    ∃ d, Scan.loop params fuel start = some (d, .absent) ∧ start.StepsTo n d := by
  obtain ⟨c, hsteps, -, hloop⟩ := h.loop_passes (params := params) hcount n hpasses
  obtain ⟨hshows, hmoved, -⟩ := hsteps.shows h hposition
  have hturn := Scan.turn_of_not_full (params := params) hshows.window.unfaulted
    (hshows.isFull.trans (decide_eq_false (by omega)))
  obtain ⟨k, rfl⟩ := Nat.exists_eq_add_of_lt hfuel
  exact ⟨c, by rw [show n + k + 1 = k + 1 + n by omega, hloop, Scan.loop_succ, hturn], hsteps⟩

end

/-! ## The obligations -/

/-- A scan may take more turns than its stream has power values (R155). -/
theorem powerCount_lt_scanFuel {w : PowerWindow} {bytes : List Byte} {sources : List ByteSource} (h : w.Shows bytes sources) :
    powerCount bytes < scanFuel w sources := by
  obtain ⟨⟨calls, hsource⟩, -⟩ := h.source
  rw [scanFuel, sourceAt_of_getElem? _ _ hsource, powerCount]
  dsimp only
  omega

/-- Settles O37: the scan passes the positions before the first one that it accepts, and jumps there; or it passes them all, and ends
where its window is not full. -/
theorem dmNextFindsFirstAccepted : Obligations.DmNextFindsFirstAccepted := by
  intro s bytes hshows hsize hcount
  have hstart : s.scan.Shows bytes := ⟨hshows, hsize⟩
  have hposition : s.scan.dm.window.position.toNat = s.dm.window.position.toNat := rfl
  have hfuel := powerCount_lt_scanFuel hshows
  have hlt := s.dm.window.position.isLt
  refine ⟨fun q hlow hwithin hfinds hfirst => ?_, fun hnothing => ?_⟩
  · obtain ⟨n, hq⟩ := Nat.exists_eq_add_of_le hlow
    obtain ⟨d, hscan, hsteps, hframe, hzero, htrue⟩ := hstart.loop_finds (params := s.params) hcount hq
      (show n < scanFuel s.dm.window s.sources by omega) hwithin hfinds hfirst
    obtain ⟨hdshows, hmoved, hothers⟩ := hsteps.shows hstart (by rw [← add_assoc]; omega)
    refine ⟨_, exec_dmNext_of_loop hscan, ⟨rfl, hdshows.size, hdshows.window, hothers⟩, ?_, hframe, hzero, htrue⟩
    rw [hq, add_assoc]
    exact hmoved
  · obtain ⟨n, hn⟩ := Nat.exists_eq_add_of_le (Nat.le_max_left s.dm.window.position.toNat (powerCount bytes + 1 - 1200))
    obtain ⟨d, hscan, hsteps⟩ := hstart.loop_absent (params := s.params) (by omega)
      (show n < scanFuel s.dm.window s.sources by omega) (by omega) (by omega) fun q hlow hhigh =>
        have hwithin : q + 1200 ≤ powerCount bytes := by omega
        ⟨hwithin, hnothing q hlow hwithin⟩
    obtain ⟨hdshows, hmoved, hothers⟩ := hsteps.shows hstart (by omega)
    refine ⟨_, exec_dmNext_of_loop hscan, ⟨rfl, hdshows.size, hdshows.window, hothers⟩, ?_⟩
    rw [hn]
    exact hmoved

/-- Settles O40: every message has been found (`exec_dmNext_raw`), and on a stream it is the one of the first accepted position, since
without one the result is absent. -/
theorem dmNextMessagesInOrder : Obligations.DmNextMessagesInOrder := by
  refine ⟨fun s t r => exec_dmNext_raw, fun s t bytes r hshows hsize hcount ht hr => ?_⟩
  rw [Nat.add_mul] at hcount
  obtain ⟨hfinds, habsent⟩ := dmNextFindsFirstAccepted s bytes hshows hsize (by omega)
  by_cases h : ∃ q, s.dm.window.position.toNat ≤ q ∧ q + 1200 ≤ powerCount bytes ∧
      s.scan.findsAt s.params bytes q = true
  · obtain ⟨hlow, hwithin, hfound⟩ := Nat.find_spec h
    obtain ⟨t', ht', ⟨hkept, -⟩, hposition, -⟩ := hfinds (Nat.find h) hlow hwithin hfound fun r hr hlt =>
      Bool.eq_false_iff.2 fun hfound => Nat.find_min h hlt ⟨hr, by omega, hfound⟩
    cases ht'.symm.trans ht
    rw [hkept] at hr
    cases hr
    rw [hposition, BitVec.toNat_ofNat, Nat.mod_eq_of_lt (by omega)]
    omega
  · obtain ⟨t', ht', ⟨hkept, -⟩, -⟩ := habsent fun q hlow hwithin =>
      Bool.eq_false_iff.2 fun hfound => h ⟨q, hlow, hwithin, hfound⟩
    cases ht'.symm.trans ht
    rw [hkept] at hr
    cases hr

end Sys2Proof.Machine
end

section
/-! The slicer (44_demodulator.md R152, R153), and the frame register, which no operation reads (R18). -/

namespace Sys2Proof.Machine

/-! ## The bits of a sliced frame -/

/-- Sliced bit `i` lands in byte `i div 8` at bit `7 - i mod 8` (R65, R153). -/
theorem frameByte_packBits (bit : Nat → Bool) {i : Nat} (hi : i < 112) :
    (frameByte (packBits bit 112) (i / 8)).getLsbD (7 - i % 8) = bit i := by
  have hplace : 8 * (13 - i / 8) + (7 - i % 8) = 111 - i := by omega
  rw [frameByte, BitVec.getLsbD_extractLsb', hplace, packBits_getLsbD bit 112 _ le_rfl,
    decide_eq_true (by omega : 7 - i % 8 < 8), decide_eq_true (by omega : 111 - i < 112), show 112 - 1 - (111 - i) = i by omega]
  rfl

/-! ## Another frame in the register -/

/-- The state with another frame in the frame register. -/
def State.withFrame (f : Frame) (s : State) : State := { s with dm := { s.dm with frame := f } }

/-- A scan with another frame in the frame register. -/
def Scan.withFrame (f : Frame) (c : Scan) : Scan := { c with dm := { c.dm with frame := f } }

/-- The end of a turn with another frame in the frame register. -/
def ScanTurn.withFrame (f : Frame) : ScanTurn → ScanTurn
  | .stop c r => .stop (c.withFrame f) r
  | .again c => .again (c.withFrame f)

section
variable (f : Frame) (c : Scan)

theorem Scan.next_withFrame : (c.withFrame f).next = c.next.withFrame f := by
  cases h : (c.dm.window.advance c.sources).error <;> simp [Scan.next, Scan.withFrame, ScanTurn.withFrame, h]

/-- A turn reads the frame register nowhere, and writes it where it slices a candidate (R152, R155). -/
theorem Scan.turn_withFrame (params : Params) : ∃ g, (c.withFrame f).turn params = (c.turn params).withFrame g := by
  cases hfault : c.dm.window.fault with
  | some e => exact ⟨f, by rw [Scan.turn_of_fault hfault, Scan.turn_of_fault (c := c.withFrame f) hfault]; rfl⟩
  | none =>
    cases hfull : c.dm.window.isFull with
    | false =>
      exact ⟨f, by rw [Scan.turn_of_not_full hfault hfull, Scan.turn_of_not_full (c := c.withFrame f) hfault hfull]; rfl⟩
    | true =>
      cases hfinds : c.finds params with
      | true =>
        refine ⟨((c.sliced params).jump params.spPrevAfterAccept (c.found params)).1.dm.frame, ?_⟩
        rw [Scan.turn_of_finds hfault hfull hfinds, Scan.turn_of_finds (c := c.withFrame f) hfault hfull hfinds]
        rfl
      | false =>
        rw [Scan.turn_of_not_finds hfault hfull hfinds, Scan.turn_of_not_finds (c := c.withFrame f) hfault hfull hfinds]
        cases hdetects : c.scored.dm.detects with
        | true =>
          refine ⟨c.candidate params, Eq.trans ?_ ((c.sliced params).next_withFrame (c.candidate params))⟩
          rw [if_pos (show (c.withFrame f).scored.dm.detects = true from hdetects)]
          rfl
        | false =>
          refine ⟨f, Eq.trans ?_ (c.scored.next_withFrame f)⟩
          rw [if_neg (show ¬(c.withFrame f).scored.dm.detects = true from Bool.eq_false_iff.1 hdetects)]
          rfl

theorem Scan.loop_withFrame (params : Params) (fuel : Nat) {d : Scan} {r : Response}
    (h : Scan.loop params fuel c = some (d, r)) :
    ∃ g, Scan.loop params fuel (c.withFrame f) = some (d.withFrame g, r) := by
  induction fuel generalizing c f with
  | zero => cases h
  | succ fuel ih =>
    obtain ⟨g, hturn⟩ := c.turn_withFrame f params
    rw [Scan.loop_succ] at h ⊢
    rw [hturn]
    cases ht : c.turn params with
    | stop d' r' =>
      rw [ht] at h
      cases h
      exact ⟨g, rfl⟩
    | again c' =>
      rw [ht] at h
      exact ih g c' h

end

/-- An operation that does not observe the frame register (R18): with another frame there it answers the same, and leaves the same but
for that register. -/
def FrameBlind (operation : State → Answer) : Prop :=
  ∀ (s t : State) (f : Frame), operation s = .next t → ∃ g, operation (s.withFrame f) = .next (t.withFrame g)

theorem FrameBlind.answer {r : State → Response} {u : State → State} (hr : ∀ s f, r (s.withFrame f) = r s)
    (hu : ∀ s f, ∃ g, u (s.withFrame f) = (u s).withFrame g) : FrameBlind fun s => answer (r s) (u s) := by
  intro s t f h
  obtain ⟨g, hg⟩ := hu s f
  cases (answer_eq_next _ _).1 h
  exact ⟨g, (answer_eq_next _ _).2 (by rw [hr, hg]; rfl)⟩

/-- An operation that only returns a value of the state. -/
theorem FrameBlind.read {r : State → Response} (hr : ∀ s f, r (s.withFrame f) = r s) :
    FrameBlind fun s => Machine.answer (r s) s :=
  .answer hr fun _ f => ⟨f, rfl⟩

theorem FrameBlind.raise (e : Error) : FrameBlind (raise e) := .read fun _ _ => rfl

theorem FrameBlind.ite {p : State → Prop} [DecidablePred p] {a b : State → Answer} (hp : ∀ s f, p (s.withFrame f) ↔ p s)
    (ha : FrameBlind a) (hb : FrameBlind b) : FrameBlind fun s => if p s then a s else b s := by
  intro s t f h
  dsimp only at h ⊢
  rw [if_congr (hp s f) rfl rfl]
  by_cases hs : p s
  · rw [if_pos hs] at h ⊢
    exact ha s t f h
  · rw [if_neg hs] at h ⊢
    exact hb s t f h

theorem FrameBlind.unlessFaulted {w : State → PowerWindow} {operation : State → Answer} (hw : ∀ s f, w (s.withFrame f) = w s)
    (h : FrameBlind operation) : FrameBlind fun s => unlessFaulted (w s) operation s := by
  intro s t f ht
  dsimp only at ht ⊢
  rw [hw]
  cases hfault : (w s).fault with
  | none =>
    rw [unlessFaulted_of_none _ hfault] at ht ⊢
    exact h s t f ht
  | some e =>
    rw [unlessFaulted_of_some _ hfault] at ht ⊢
    cases ht
    exact ⟨f, rfl⟩

theorem FrameBlind.withOwnSource {u : StreamUnit} {handle : Nat} {construct : State → Answer} (h : FrameBlind construct) :
    FrameBlind (withOwnSource u handle construct) := by
  intro s t f ht
  obtain ⟨hfree, hconstruct⟩ := withOwnSource_next handle s u ht
  rw [withOwnSource_free handle (show (s.withFrame f).sourceInUse u handle = false from hfree)]
  exact h s t f hconstruct

theorem frameBlind_pcReadbatch : FrameBlind execPcReadbatch := by
  intro s t f ht
  have hread : (s.withFrame f).pc.readBatch (s.withFrame f).sources = s.pc.readBatch s.sources := rfl
  rw [execPcReadbatch] at ht ⊢
  rw [hread]
  cases hbatch : s.pc.readBatch s.sources with
  | mk result sources =>
    rw [hbatch] at ht
    cases result <;> cases ht <;> exact ⟨f, rfl⟩

theorem frameBlind_dmNext : FrameBlind execDmNext := by
  intro s t f ht
  obtain ⟨d, hscan, heq⟩ := exec_dmNext_inv (s := s) ht
  obtain ⟨g, hscan'⟩ := s.scan.loop_withFrame f _ _ hscan
  refine ⟨g, (exec_dmNext_of_loop (s := s.withFrame f) hscan').trans ?_⟩
  rw [heq]
  rfl

theorem frameBlind_of_usesState {i : Instr} (h : UsesState i) : FrameBlind (exec i) := by
  cases h with
  | crcBuild | crcCrc | sdReadbatch | rmOf | replayRecord | frameDf17 | frameOther | accUpdate =>
    exact .answer (fun _ _ => rfl) fun _ f => ⟨f, rfl⟩
  | sdNew | pcNew | pwNew =>
    exact .ite (fun _ _ => Iff.rfl) (.raise _) (.withOwnSource (.answer (fun _ _ => rfl) fun _ f => ⟨f, rfl⟩))
  | dmNew source => exact .withOwnSource (.answer (fun _ _ => rfl) fun _ f => ⟨f, rfl⟩)
  | pcReadbatch => exact frameBlind_pcReadbatch
  | pwSize | pwPosition | pwIsfull | dmSp | dmSv | dmDetect => exact .unlessFaulted (fun _ _ => rfl) (.read fun _ _ => rfl)
  | pwGet index => exact .unlessFaulted (fun _ _ => rfl) (.ite (fun _ _ => Iff.rfl) (.raise _) (.read fun _ _ => rfl))
  | pwAdvance | pwAdvanceby | dmSlice =>
    exact .unlessFaulted (fun _ _ => rfl) (.answer (fun _ _ => rfl) fun _ _ => ⟨_, rfl⟩)
  | dmNext => exact frameBlind_dmNext

theorem frameBlind_exec (i : Instr) : FrameBlind (exec i) := by
  by_cases hi : UsesState i
  · exact frameBlind_of_usesState hi
  · obtain ⟨r, hr, -⟩ := stateless_exec hi
    rw [funext hr]
    exact .read fun _ _ => rfl

/-- Settles O35: the entries that a bit compares are power values of the stream, and no operation observes the frame register. -/
theorem dmSliceBits : Obligations.DmSliceBits := by
  refine ⟨fun s hfault => ⟨_, exec_dmSlice hfault, fun bytes hshows hsize hcount i hi => ?_⟩,
    fun i s t f => frameBlind_exec i s t f⟩
  rw [hshows.slice hsize hcount]
  exact frameByte_packBits _ hi

end Sys2Proof.Machine
end

section
/-! Every operation returns (70_reset_and_hazards.md R300, 44_demodulator.md R155): each answers a next state on every path but the
refusal of a source in use, and the scan of `DM.NEXT` runs out of stream before it runs out of turns. -/

namespace Sys2Proof.Machine

/-! ## What a window can still load -/

/-- The bytes that the source of a handle still holds. -/
def bytesLeft (sources : List ByteSource) (handle : Nat) : Nat :=
  (sourceAt sources handle).bytes.length - (sourceAt sources handle).cursor

/-- What a read delivers, its source no longer holds (R41). -/
theorem srcRead_bytesLeft {n handle : Nat} {sources : List ByteSource} {bytes : List Byte}
    (h : (srcRead n handle sources).1 = .ok bytes) :
    bytes.length + bytesLeft (srcRead n handle sources).2 handle ≤ bytesLeft sources handle := by
  obtain ⟨hbytes, -, hcursor, -⟩ := readSource_ok n (sourceAt sources handle) h
  have hlength := congrArg List.length hbytes
  rw [List.length_take, List.length_drop] at hlength
  by_cases hopened : handle < sources.length
  · have hafter : sourceAt (srcRead n handle sources).2 handle = (readSource n (sourceAt sources handle)).2 :=
      sourceAt_of_getElem? _ _ (List.getElem?_set_self hopened)
    rw [bytesLeft, hafter, hcursor, readSource_bytes, bytesLeft]
    omega
  · have hafter : (srcRead n handle sources).2 = sources := List.set_eq_of_length_le (not_lt.1 hopened)
    have hnone : (sourceAt sources handle).bytes = [] := by
      rw [sourceAt, List.getD_eq_default _ _ (not_lt.1 hopened)]
    rw [hnone] at hlength
    simp only [List.length_nil] at hlength
    rw [hafter]
    omega

/-- A bound on what a window will ever have loaded: what it has, and the bytes its source still holds. -/
def PowerWindow.budget (w : PowerWindow) (sources : List ByteSource) : Nat :=
  w.avail + bytesLeft sources w.computer.decoder.source

section
variable {w : PowerWindow} {sources : List ByteSource}

theorem PowerWindow.refill_budget (b : Bool) (h : (w.refill b sources).error = none) :
    (w.refill b sources).window.budget (w.refill b sources).sources ≤ w.budget sources := by
  rcases w.refill_cases b sources with ⟨-, hr⟩ | ⟨-, e, -, -, hr⟩ | ⟨-, powers, computer, hread, hr⟩
  · rw [hr]
  · rw [hr] at h
    cases h
  · rw [hr]
    rcases w.computer.readBatch_cases sources with ⟨bytes, hok, hbatch⟩ | ⟨e, -, -, hbatch⟩
    · rw [hbatch] at hread ⊢
      cases hread
      have hleft := srcRead_bytesLeft hok
      simp only [PowerWindow.budget, History.run_length, samplesOf_length]
      omega
    · rw [hbatch] at hread
      cases hread

theorem PowerWindow.advance_budget (h : (w.advance sources).error = none) :
    (w.advance sources).window.budget (w.advance sources).sources ≤ w.budget sources := by
  rcases w.advance_cases sources with ⟨-, ha⟩ | ⟨-, herror, ha⟩ | ⟨-, e, herror, ha⟩
  · rw [ha, PowerWindow.budget, PowerWindow.rotate_avail, PowerWindow.rotate_computer, PowerWindow.budget]
  · rw [ha, PowerWindow.budget, PowerWindow.rotate_avail, PowerWindow.rotate_computer]
    exact PowerWindow.refill_budget _ herror
  · rw [ha, herror] at h
    cases h

end

/-! ## The scan ends -/

/-- A turn that goes round again stands within what the window will ever have loaded, and moves on by one (R155). -/
theorem Scan.turn_again_within {params : Params} {c d : Scan} {bound : Nat} (hbound : bound + 1 < 2 ^ 64)
    (hbudget : c.dm.window.budget c.sources ≤ bound) (hturn : c.turn params = .again d) :
    c.dm.window.position.toNat ≤ bound ∧ d.dm.window.position.toNat = c.dm.window.position.toNat + 1 ∧
      d.dm.window.budget d.sources ≤ bound := by
  obtain ⟨hfull, hstep, -⟩ := Scan.turn_again_inv hturn
  have hwithin : c.dm.window.position.toNat + c.dm.window.windowSize ≤ c.dm.window.avail := of_decide_eq_true hfull
  have hle : c.dm.window.position.toNat ≤ bound := by
    rw [PowerWindow.budget] at hbudget
    omega
  have hbudget' := PowerWindow.advance_budget (w := c.dm.window) (sources := c.sources) (by rw [hstep])
  have hposition := (Scan.StepsTo.one hstep (d := ⟨d.dm, c.crc, d.sources⟩) rfl).position
  rw [hstep] at hbudget'
  refine ⟨hle, ?_, hbudget'.trans hbudget⟩
  rw [show d.dm.window.position = c.dm.window.position + 1#64 from hposition, BitVec.toNat_add]
  exact Nat.mod_eq_of_lt (show c.dm.window.position.toNat + 1 < 2 ^ 64 by omega)

/-- So the turns reach the end of what the window will ever have loaded before they run out. -/
theorem Scan.loop_returns (params : Params) {bound : Nat} (hbound : bound + 1 < 2 ^ 64) (fuel : Nat) (c : Scan)
    (hbudget : c.dm.window.budget c.sources ≤ bound) (hfuel : bound + 1 ≤ c.dm.window.position.toNat + fuel) :
    ∃ d r, Scan.loop params (fuel + 1) c = some (d, r) := by
  induction fuel generalizing c with
  | zero =>
    cases hturn : c.turn params with
    | stop d r => exact ⟨d, r, by rw [Scan.loop_succ, hturn]⟩
    | again d =>
      obtain ⟨hle, -⟩ := Scan.turn_again_within hbound hbudget hturn
      omega
  | succ fuel ih =>
    cases hturn : c.turn params with
    | stop d r => exact ⟨d, r, by rw [Scan.loop_succ, hturn]⟩
    | again d =>
      obtain ⟨-, hmoved, hbudget'⟩ := Scan.turn_again_within hbound hbudget hturn
      rw [Scan.loop_succ, hturn]
      exact ih d hbudget' (by omega)

theorem exec_dmNext_returns {s : State} (hfits : s.dm.window.Fits s.sources) : ∃ t, exec .dmNext s = .next t := by
  rw [PowerWindow.Fits] at hfits
  obtain ⟨d, r, hscan⟩ := Scan.loop_returns s.params
    (bound := s.dm.window.avail + (sourceAt s.sources s.dm.window.computer.decoder.source).bytes.length) (by omega)
    (s.dm.window.avail + (sourceAt s.sources s.dm.window.computer.decoder.source).bytes.length + 1) s.scan
    (Nat.add_le_add_left (Nat.sub_le _ _) _) (Nat.le_add_left _ _)
  exact ⟨_, exec_dmNext_of_loop hscan⟩

/-! ## Every other operation -/

/-- An operation that answers a next state in every state. -/
def Returns (operation : State → Answer) : Prop := ∀ s, ∃ t, operation s = .next t

theorem Returns.answer {r : State → Response} {u : State → State} : Returns fun s => answer (r s) (u s) :=
  fun s => ⟨(u s).respond (r s), rfl⟩

theorem Returns.ite {p : State → Prop} [DecidablePred p] {a b : State → Answer} (ha : Returns a) (hb : Returns b) :
    Returns fun s => if p s then a s else b s := by
  intro s
  dsimp only
  by_cases hp : p s
  · rw [if_pos hp]
    exact ha s
  · rw [if_neg hp]
    exact hb s

theorem Returns.unlessFaulted {w : State → PowerWindow} {operation : State → Answer} (h : Returns operation) :
    Returns fun s => unlessFaulted (w s) operation s := by
  intro s
  dsimp only
  cases hfault : (w s).fault with
  | some e => exact ⟨_, unlessFaulted_of_some s hfault operation⟩
  | none =>
    rw [unlessFaulted_of_none s hfault]
    exact h s

theorem returns_pcReadbatch : Returns execPcReadbatch := by
  intro s
  rw [execPcReadbatch]
  rcases s.pc.readBatch s.sources with ⟨result, sources⟩
  cases result <;> exact ⟨_, rfl⟩

/-- Every operation returns that neither constructs a unit nor scans. -/
theorem returns_exec {i : Instr} (hscan : i ≠ .dmNext) (hconstructs : ∀ u handle, ¬Constructs u handle i) :
    Returns (exec i) := by
  by_cases huses : UsesState i
  · cases huses with
    | crcBuild | crcCrc | sdReadbatch | rmOf | replayRecord | frameDf17 | frameOther | accUpdate => exact .answer
    | sdNew | pcNew | pwNew | dmNew => exact absurd (by constructor) (hconstructs _ _)
    | pcReadbatch => exact returns_pcReadbatch
    | pwSize | pwPosition | pwIsfull | pwAdvance | pwAdvanceby | dmSp | dmSv | dmDetect | dmSlice =>
      exact .unlessFaulted .answer
    | pwGet => exact .unlessFaulted (.ite .answer .answer)
    | dmNext => exact absurd rfl hscan
  · obtain ⟨r, hr, -⟩ := stateless_exec huses
    rw [funext hr]
    exact .answer

section
variable {s : State} {u : StreamUnit} {handle : Nat} {i : Instr} (hi : Constructs u handle i)
include hi

/-- A construction on a source that is free for it returns: it raises its `ConfigError`, or constructs. -/
theorem exec_constructs_returns (hfree : s.sourceInUse u handle = false) : ∃ t, exec i s = .next t := by
  cases hi with
  | sdNew _ size =>
    by_cases hsize : size ≤ 0
    · exact ⟨_, exec_sdNew_badSize handle hsize s⟩
    · exact ⟨_, exec_sdNew handle (by omega) hfree⟩
  | pcNew _ size =>
    by_cases hsize : size ≤ 0 ∨ size % 8 ≠ 0
    · exact ⟨_, exec_pcNew_badSize handle hsize s⟩
    · exact ⟨_, exec_pcNew handle (by omega) (by omega) hfree⟩
  | pwNew _ size =>
    by_cases hsize : size < 1 ∨ 65536 < size
    · exact ⟨_, exec_pwNew_badSize handle hsize⟩
    · exact ⟨_, exec_pwNew (by omega) (by omega) hfree rfl⟩
  | dmNew => exact ⟨_, exec_dmNew hfree rfl⟩

/-- A construction on a source in use is refused, unless it raises its `ConfigError` before (R263, R300). -/
theorem exec_constructs_inUse (huse : s.sourceInUse u handle = true) :
    exec i s = .refused (.sourceInUse handle) ∨
      ∃ e, exec i s = .next (s.respond (.error e)) ∧ e.code = .configError := by
  cases hi with
  | sdNew _ size =>
    by_cases hsize : size ≤ 0
    · exact .inr ⟨_, exec_sdNew_badSize handle hsize s, rfl⟩
    · exact .inl (exec_sdNew_inUse handle (by omega) huse)
  | pcNew _ size =>
    by_cases hsize : size ≤ 0 ∨ size % 8 ≠ 0
    · exact .inr ⟨_, exec_pcNew_badSize handle hsize s, rfl⟩
    · exact .inl (exec_pcNew_inUse handle (by omega) (by omega) huse)
  | pwNew _ size =>
    by_cases hsize : size < 1 ∨ 65536 < size
    · exact .inr ⟨_, exec_pwNew_badSize handle hsize, rfl⟩
    · exact .inl (exec_pwNew_inUse (by omega) (by omega) huse)
  | dmNew => exact .inl (exec_dmNew_inUse huse)

end

/-- Settles O8: a construction checks its size and its source, the scan of `DM.NEXT` ends on what its window will ever have loaded, and
every other operation answers on every path. -/
theorem operationsReturn : Obligations.OperationsReturn := by
  refine ⟨fun i s hscan hfree => ?_, fun s => exec_dmNext_returns, fun u handle i s hi =>
    ⟨State.sourceInUse_iff handle s u, exec_constructs_inUse hi⟩⟩
  by_cases hconstructs : ∃ u handle, Constructs u handle i
  · obtain ⟨u, handle, hi⟩ := hconstructs
    exact exec_constructs_returns hi (hfree u handle hi)
  · exact returns_exec hscan (fun u handle hi => hconstructs ⟨u, handle, hi⟩) s

end Sys2Proof.Machine
end

section
/-! Raw messages and the parser (45_rawmessage_parser.md): the taps as fields of the frame's number, the text of an ICAO address, and
the dispatch on the type code. -/

namespace Sys2Proof.Machine

/-! ## The fields of a frame -/

theorem frameIcao_eq_extract (f : Frame) : frameIcao f = f.extractLsb' 80 24 := by
  unfold frameIcao frameByte
  rw [field_join f 88 8 8, field_join f 80 8 16]

theorem frameMe_eq_extract (f : Frame) : frameMe f = f.extractLsb' 24 56 := by
  unfold frameMe frameByte
  rw [field_join f 64 8 8, field_join f 56 8 16, field_join f 48 8 24, field_join f 40 8 32, field_join f 32 8 40,
    field_join f 24 8 48]

theorem meTypeCode_frameMe (f : Frame) : meTypeCode (frameMe f) = f.extractLsb' 75 5 := by
  rw [frameMe_eq_extract]
  ext i hi
  simp [meTypeCode, show 51 + i < 56 by omega, show 24 + (51 + i) = 75 + i by omega]

/-- A field of a word, by the word's number. -/
theorem extractLsb'_toNat_eq_div_mod {n : Nat} (x : BitVec n) (start size : Nat) :
    (x.extractLsb' start size).toNat = x.toNat / 2 ^ start % 2 ^ size := by
  rw [BitVec.extractLsb'_toNat, Nat.shiftRight_eq_div_pow]

/-- The five high bits of byte `k` of a frame (R66, R67). -/
theorem extractLsb'_high5_toNat (f : Frame) (k : Nat) :
    (f.extractLsb' (8 * (13 - k) + 3) 5).toNat = f.toNat / 256 ^ (13 - k) % 256 / 8 := by
  rw [extractLsb'_toNat_eq_div_mod, pow_add, ← Nat.div_div_eq_div_mul, pow_mul, show 2 ^ 8 = 256 from rfl]
  omega

theorem frameDf_toNat (f : Frame) : (frameDf f).toNat = f.toNat / 256 ^ 13 % 256 / 8 := by
  rw [frameDf_eq_extract]
  exact extractLsb'_high5_toNat f 0

theorem meTypeCode_frameMe_toNat (f : Frame) : (meTypeCode (frameMe f)).toNat = f.toNat / 256 ^ 9 % 256 / 8 := by
  rw [meTypeCode_frameMe]
  exact extractLsb'_high5_toNat f 4

theorem frameMe_toNat (f : Frame) : (frameMe f).toNat = f.toNat / 2 ^ 24 % 2 ^ 56 := by
  rw [frameMe_eq_extract, extractLsb'_toNat_eq_div_mod]

/-- The ICAO address is the number of bytes 1 to 3, the first most significant (R172). -/
theorem frameIcao_toNat (f : Frame) :
    (frameIcao f).toNat = f.toNat / 256 ^ 12 % 256 * 65536 + f.toNat / 256 ^ 11 % 256 * 256 + f.toNat / 256 ^ 10 % 256 := by
  rw [frameIcao_eq_extract, extractLsb'_toNat_eq_div_mod]
  omega

/-! ## The text of an ICAO address -/

theorem hexDigit_toNat (n : BitVec 4) : (hexDigit n).toNat = if n.toNat < 10 then 48 + n.toNat else 55 + n.toNat := by
  rw [hexDigit, BitVec.toNat_ofNat]
  exact Nat.mod_eq_of_lt (by split <;> omega)

theorem icaoText_length (a : Icao) : (icaoText a).length = 6 := by rw [icaoText, List.length_map, List.length_range]

/-- Digit `k` of the text is that of nibble `5 - k` of the address (R82). -/
theorem icaoText_getElem? (a : Icao) {k : Nat} (hk : k < 6) :
    (icaoText a)[k]? = some (hexDigit (a.extractLsb' (4 * (5 - k)) 4)) := by
  rw [icaoText, List.getElem?_map, List.getElem?_range hk, Option.map_some]

theorem nibble_toNat (a : Icao) (j : Nat) : (a.extractLsb' (4 * j) 4).toNat = a.toNat / 16 ^ j % 16 := by
  rw [extractLsb'_toNat_eq_div_mod, pow_mul]
  rfl

/-! ## The operations -/

/-- A replay record feeds `RM.OF` unchanged (R84). -/
theorem exec_replayRecord (timestampNs : BitVec 64) (f : Frame) (s : State) :
    exec (.replayRecord timestampNs f) s = exec (.rmOf timestampNs f) s := rfl

/-- The result that a payload of a raw message becomes, with its timestamp and ICAO address (R176). -/
def messageOf (raw : RawMessage) (p : Payload) : Response := .message ⟨raw.timestampNs, frameIcao raw.bytes, p⟩

section
variable (raw : RawMessage) (s : State)

theorem exec_rmDf : exec (.rmDf raw) s = .next (s.respond (.nat (frameDf raw.bytes).toNat)) := rfl

theorem exec_rmIcao : exec (.rmIcao raw) s = .next (s.respond (.icao (frameIcao raw.bytes))) := rfl

theorem exec_rmMe : exec (.rmMe raw) s = .next (s.respond (.me (frameMe raw.bytes))) := rfl

theorem exec_rmTc : exec (.rmTc raw) s = .next (s.respond (.nat (meTypeCode (frameMe raw.bytes)).toNat)) := rfl

theorem exec_mpParse :
    exec (.mpParse raw) s = answerOption (messageOf raw) (parseMe s.params (frameMe raw.bytes)) s := rfl

theorem exec_idDecode : exec (.idDecode raw) s =
    answerOption (messageOf raw) ((decodeIdent s.params (frameMe raw.bytes)).map .identification) s := by
  rw [answerOption_map]
  rfl

theorem exec_apDecode : exec (.apDecode raw) s =
    answerOption (messageOf raw) ((decodePosition (frameMe raw.bytes)).map .position) s := by
  rw [answerOption_map]
  rfl

theorem exec_avDecode : exec (.avDecode raw) s =
    answerOption (messageOf raw) ((decodeVelocity (frameMe raw.bytes)).map .velocity) s := by
  rw [answerOption_map]
  rfl

/-- Nothing but the result changes, whichever payload the parser chooses, and a message is one of this raw message (R176). -/
theorem exec_mpParse_message : ∃ r, exec (.mpParse raw) s = .next (s.respond r) ∧
    ∀ m, r = .message m → m.timestampNs = raw.timestampNs ∧ m.icao = frameIcao raw.bytes := by
  refine ⟨_, exec_mpParse raw s, fun m hm => ?_⟩
  cases hp : parseMe s.params (frameMe raw.bytes) with
  | none =>
    rw [hp] at hm
    cases hm
  | some p =>
    rw [hp] at hm
    cases hm
    exact ⟨rfl, rfl⟩

end

/-! ## The obligations -/

/-- Settles O41: a replay record is `RM.OF` on the same operands, whose answer the CRC alone decides (`exec_rmOf`). -/
theorem rmOfChecksCrc : Obligations.RmOfChecksCrc := fun timestampNs f s =>
  ⟨exec_rmOf timestampNs f s, exec_replayRecord timestampNs f s,
    _, (exec_replayRecord timestampNs f s).trans (exec_rmOf timestampNs f s)⟩

/-- Settles O42: each tap is a field of the frame's number, and each digit of the text is that of a nibble of the address. -/
theorem rmTapsRead : Obligations.RmTapsRead := by
  refine fun raw s => ⟨?_, ⟨_, exec_rmIcao raw s, frameIcao_toNat _, icaoText_length _, fun k hk => ?_⟩,
    ⟨_, exec_rmMe raw s, frameMe_toNat _⟩, ?_⟩
  · rw [exec_rmDf, frameDf_toNat]
  · rw [icaoText_getElem? _ hk, Option.map_some, hexDigit_toNat, nibble_toNat]
  · rw [exec_rmTc, meTypeCode_frameMe_toNat]

/-- Settles O43: the parser chooses its payload by the type code, and each decoder answers the message of its own payload. -/
theorem mpParseDispatches : Obligations.MpParseDispatches := by
  intro raw s
  have htc : (meTypeCode (frameMe raw.bytes)).toNat = raw.bytes.toNat / 2 ^ 75 % 32 := by
    rw [meTypeCode_frameMe, extractLsb'_toNat_eq_div_mod]
    rfl
  dsimp only
  rw [← htc, ← frameIcao_eq_extract]
  refine ⟨exec_mpParse_message raw s, fun h => ?_, fun h => ?_, fun h => ?_, fun h => ?_⟩
  · rw [exec_mpParse, parseMe_ident _ rfl h, exec_idDecode]
  · rw [exec_mpParse, parseMe_position _ rfl h, exec_apDecode]
  · rw [exec_mpParse, parseMe_velocity _ (BitVec.eq_of_toNat_eq h), exec_avDecode]
  · rw [exec_mpParse, parseMe_rest _ rfl (by omega)]
    rfl

end Sys2Proof.Machine
end

section
/-! Identification (46_identification.md): the call-sign table code by code, the characters of a list of codes, the trimming of a call
sign, and the category. -/

namespace Sys2Proof.Machine

/-! ## The call-sign table (R187) -/

/-- The character rows are what the decoder makes of the codes, in their order. -/
theorem map_decodeChar_range : (List.range 64).map (fun code => decodeChar (BitVec.ofNat 6 code)) = charRows := rfl

theorem charRows_length : charRows.length = 64 := by
  rw [← map_decodeChar_range, List.length_map, List.length_range]

theorem decodeChar_eq_charRows {code : Nat} (h : code < charRows.length) :
    decodeChar (BitVec.ofNat 6 code) = charRows[code] := by
  simp only [← map_decodeChar_range, List.getElem_map, List.getElem_range]

/-- The table's answer, code by code: a letter, the space, a digit, or absent. -/
theorem charAnswer_ofNat {code : Nat} (h : code < 64) (s : State) : charAnswer (BitVec.ofNat 6 code) s =
    .next (s.respond (
      if 1 ≤ code ∧ code ≤ 26 then .char (BitVec.ofNat 8 (64 + code))
      else if code = 32 then .char 32#8
      else if 48 ≤ code ∧ code ≤ 57 then .char (BitVec.ofNat 8 code)
      else .absent)) := by
  rw [charAnswer, cslut, BitVec.toNat_ofNat, Nat.mod_eq_of_lt (show code < 2 ^ 6 from h)]
  by_cases hletter : 1 ≤ code ∧ code ≤ 26
  · simp only [if_pos hletter]
    rfl
  by_cases hspace : code = 32
  · subst hspace
    rfl
  by_cases hdigit : 48 ≤ code ∧ code ≤ 57
  · simp only [if_neg hletter, if_neg hspace, if_pos hdigit, if_pos (Or.inr hdigit)]
    rfl
  · simp only [if_neg hletter, if_neg hspace, if_neg hdigit, if_neg (not_or.2 ⟨hspace, hdigit⟩)]
    rfl

theorem callSignChar_iff (c : Byte) : callSignChar c = true ↔
    (65 ≤ c.toNat ∧ c.toNat ≤ 90) ∨ (48 ≤ c.toNat ∧ c.toNat ≤ 57) ∨ c.toNat = 32 := by
  simp [callSignChar, or_assoc]

/-- Every character of the table is one of `[A-Z0-9 ]` (R26). -/
theorem callSignChar_of_cslut {code : BitVec 6} {ch : Byte} (h : cslut code = some ch) : callSignChar ch = true := by
  unfold cslut at h
  dsimp only at h
  split at h
  · obtain rfl := Option.some.inj h
    rw [callSignChar_iff, BitVec.toNat_ofNat]
    omega
  split at h
  · obtain rfl := Option.some.inj h
    rw [callSignChar_iff, BitVec.toNat_ofNat]
    omega
  · cases h

/-! ## The characters of the codes (R185) -/

/-- One invalid code is enough to leave no text. -/
theorem charsOf_of_none_mem {codes : List (BitVec 6)} (h : none ∈ codes.map cslut) : charsOf codes = none := by
  induction codes with
  | nil => cases h
  | cons c rest ih =>
    rw [List.map_cons, List.mem_cons] at h
    rw [charsOf]
    rcases h with hc | hrest
    · rw [← hc]
      rfl
    · rw [ih hrest]
      cases cslut c <;> rfl

theorem charsOf_of_map_eq {codes : List (BitVec 6)} {text : List Byte} (h : codes.map cslut = text.map some) :
    charsOf codes = some text := by
  induction codes generalizing text with
  | nil =>
    rw [List.map_nil, List.nil_eq, List.map_eq_nil_iff] at h
    rw [h, charsOf]
  | cons c rest ih =>
    cases text with
    | nil => cases h
    | cons ch chs =>
      obtain ⟨hc, hrest⟩ := List.cons.inj h
      rw [charsOf, hc, ih hrest]
      rfl

/-- The characters of at most eight codes are a call sign of R26. -/
theorem callSignOk_of_map_eq {codes : List (BitVec 6)} {text : List Byte} (h : codes.map cslut = text.map some)
    (hlength : codes.length ≤ 8) : callSignOk text = true := by
  have heq : text.length = codes.length := by simpa using (congrArg List.length h).symm
  have hchar : ∀ ch ∈ text, callSignChar ch = true := fun ch hch => by
    have hmem : some ch ∈ codes.map cslut := h ▸ List.mem_map_of_mem hch
    obtain ⟨code, -, hcode⟩ := List.mem_map.1 hmem
    exact callSignChar_of_cslut hcode
  rw [callSignOk, Bool.and_eq_true, decide_eq_true_iff, List.all_eq_true]
  exact ⟨heq ▸ hlength, hchar⟩

/-! ## Trimming (R188) -/

/-- Trimming is the library's `rdropWhile`, whose lemmas say what it drops. -/
theorem dropTrailingSpaces_eq_rdropWhile (text : List Byte) :
    dropTrailingSpaces text = text.rdropWhile (fun c => c == 32#8) := rfl

theorem dropTrailingSpaces_append_spaces (text : List Byte) :
    ∃ n, text = dropTrailingSpaces text ++ List.replicate n 32#8 := by
  have hspaces : text.rtakeWhile (fun c => c == 32#8) = List.replicate _ 32#8 :=
    List.eq_replicate_of_mem fun c hc => eq_of_beq (List.mem_rtakeWhile_imp (p := fun c => c == 32#8) hc)
  refine ⟨(text.rtakeWhile (fun c => c == 32#8)).length, ?_⟩
  rw [← hspaces, dropTrailingSpaces_eq_rdropWhile, List.rdropWhile_append_rtakeWhile]

theorem getLast?_dropTrailingSpaces_ne {text : List Byte} {c : Byte} (h : (dropTrailingSpaces text).getLast? = some c) :
    c ≠ 32#8 := by
  obtain ⟨hne, rfl⟩ := List.mem_getLast?_eq_getLast h
  exact fun hspace => List.rdropWhile_last_not _ _ hne (beq_iff_eq.2 hspace)

/-- The beginning of a call sign is a call sign. -/
theorem callSignOk_of_append {cs rest : List Byte} (h : callSignOk (cs ++ rest) = true) : callSignOk cs = true := by
  rw [callSignOk, Bool.and_eq_true, decide_eq_true_iff, List.length_append, List.all_append, Bool.and_eq_true] at h
  obtain ⟨hlength, hchars, -⟩ := h
  rw [callSignOk, Bool.and_eq_true, decide_eq_true_iff]
  exact ⟨(Nat.le_add_right _ _).trans hlength, hchars⟩

/-- What either setting of `CALLSIGN_TRIM` makes of a call sign. -/
theorem trimCallSign_spec (trim : CallSignTrim) {text : List Byte} (h : callSignOk text = true) :
    callSignOk (trimCallSign trim text) = true ∧ (trim = .none → trimCallSign trim text = text) ∧
      (trim = .trailing → (∃ n, text = trimCallSign trim text ++ List.replicate n 32#8) ∧
        ∀ c, (trimCallSign trim text).getLast? = some c → c ≠ 32#8) := by
  cases trim with
  | none => exact ⟨h, fun _ => rfl, nofun⟩
  | trailing =>
    obtain ⟨n, hn⟩ := dropTrailingSpaces_append_spaces text
    exact ⟨callSignOk_of_append (hn ▸ h), nofun, fun _ => ⟨⟨n, hn⟩, fun _ => getLast?_dropTrailingSpaces_ne⟩⟩

/-! ## The category (R186) -/

/-- The three bits of CA stand below the shifted number, so the two are added. -/
theorem categoryOf_toNat {tc : BitVec 5} (h : 1 ≤ tc.toNat ∧ tc.toNat ≤ 4) (ca : BitVec 3) :
    (categoryOf tc ca).toNat = (14 - tc.toNat) * 16 + ca.toNat := by
  have hca : ca.toNat < 2 ^ 4 := ca.isLt.trans (by decide)
  have hset : (14#8 - tc.setWidth 8).toNat = 14 - tc.toNat := by
    simp only [BitVec.toNat_sub, BitVec.toNat_setWidth, BitVec.toNat_ofNat]
    omega
  rw [categoryOf, if_pos h, BitVec.toNat_or, BitVec.toNat_shiftLeft, hset, BitVec.toNat_setWidth,
    Nat.mod_eq_of_lt (show ca.toNat < 2 ^ 8 by omega), Nat.shiftLeft_eq,
    Nat.mod_eq_of_lt (show (14 - tc.toNat) * 2 ^ 4 < 2 ^ 8 by omega), Nat.mul_comm,
    ← Nat.two_pow_add_eq_or_of_lt hca, Nat.mul_comm]

/-! ## The identification decode -/

section
variable (some? : IdentPayload → Response) (s : State) (tc : BitVec 5) (ca : BitVec 3) {codes : List (BitVec 6)}

theorem answerOption_identOf_of_none_mem (h : none ∈ codes.map cslut) :
    answerOption some? (identOf s.params tc ca codes) s = .next (s.respond .absent) := by
  rw [identOf, charsOf_of_none_mem h]
  rfl

theorem answerOption_identOf_of_map_eq {text : List Byte} (h : codes.map cslut = text.map some) :
    answerOption some? (identOf s.params tc ca codes) s =
      .next (s.respond (some? ⟨categoryOf tc ca, trimCallSign s.params.callSignTrim text⟩)) := by
  rw [identOf, charsOf_of_map_eq h]
  rfl

end

/-- `ID.DECODE` on the fields that the payload table gives (R70). -/
theorem exec_idDecode_fields (raw : RawMessage) (s : State) : exec (.idDecode raw) s =
    answerOption (fun p => .message ⟨raw.timestampNs, frameIcao raw.bytes, .identification p⟩)
      (identOf s.params ((frameMe raw.bytes).extractLsb' 51 5) ((frameMe raw.bytes).extractLsb' 48 3)
        ((List.range 8).map fun k => (frameMe raw.bytes).extractLsb' (42 - 6 * k) 6)) s := rfl

/-! ## The obligations -/

/-- Settles O45: a row runs as the table on the code that it decodes from (`exec_decodeChar`), and the table answers by the range that
the code is in. -/
theorem callSignTable : Obligations.CallSignTable := by
  refine ⟨charRows_length, fun code h => ⟨decodeChar_eq_charRows h, fun s => ?_⟩, by decide⟩
  rw [← decodeChar_eq_charRows h, exec_decodeChar, charAnswer_ofNat (charRows_length ▸ h)]

/-- Settles O46: `ID.DECODE` and the identification rows answer `identOf` of their fields, which is absent for an invalid code, and else
the category with the trimmed characters. -/
theorem idDecodeResult : Obligations.IdDecodeResult := by
  intro s text trimmed
  refine ⟨fun raw => ?_, fun row hrow ca c0 c1 c2 c3 c4 c5 c6 c7 => ?_⟩
  · intro me codes
    rw [exec_idDecode_fields]
    have hlength : codes.length ≤ 8 := by simp [codes]
    exact ⟨answerOption_identOf_of_none_mem _ s _ _, fun htext => ⟨_, _, answerOption_identOf_of_map_eq _ s _ _ htext,
      trimCallSign_spec _ (callSignOk_of_map_eq htext hlength), fun hlow hhigh => categoryOf_toNat ⟨hlow, hhigh⟩ _⟩⟩
  · intro codes
    rw [exec_identRow hrow, identWordAnswer]
    exact ⟨answerOption_identOf_of_none_mem _ s _ _, fun htext => ⟨_, _, answerOption_identOf_of_map_eq _ s _ _ htext,
      trimCallSign_spec _ (callSignOk_of_map_eq htext le_rfl), categoryOf_toNat (identRows_typeCode hrow) _⟩⟩

end Sys2Proof.Machine
end

section
/-! Position and altitude (47_position_altitude.md): the Gray decoder as the inverse of the encoding, the two codes of an altitude field,
the 100-ft digit, and the altitude scale of the fields with `Q` = 0. -/

namespace Sys2Proof.Machine

/-! ## An optional result -/

section
variable {α : Type} {some? : α → Response} {o : Option α} (s : State)

theorem answerOption_of_eq_none (h : o = none) : answerOption some? o s = .next (s.respond .absent) := by
  subst h
  rfl

theorem answerOption_of_eq_some {v : α} (h : o = some v) : answerOption some? o s = .next (s.respond (some? v)) := by
  subst h
  rfl

end

/-! ## Gray codes (R201) -/

/-- The XOR of the first `m` right shifts. -/
def shiftXors {n : Nat} (g : BitVec n) (m : Nat) : BitVec n := (List.range m).foldl (fun b k => b ^^^ (g >>> k)) 0#n

theorem grayToBin_eq_shiftXors {n : Nat} (g : BitVec n) : grayToBin g = shiftXors g n := rfl

theorem shiftXors_succ {n : Nat} (g : BitVec n) (m : Nat) : shiftXors g (m + 1) = shiftXors g m ^^^ g >>> m := by
  rw [shiftXors, List.range_succ, List.foldl_append]
  rfl

/-- The shifts cancel against their neighbours, except the first and the last. -/
theorem shiftXors_xor_ushiftRight {n : Nat} (g : BitVec n) (m : Nat) :
    shiftXors g m ^^^ shiftXors g m >>> 1 = g ^^^ g >>> m := by
  induction m with
  | zero => simp [shiftXors]
  | succ m ih =>
    rw [shiftXors_succ, BitVec.ushiftRight_xor_distrib, ← BitVec.shiftRight_add]
    calc shiftXors g m ^^^ g >>> m ^^^ (shiftXors g m >>> 1 ^^^ g >>> (m + 1))
      _ = shiftXors g m ^^^ shiftXors g m >>> 1 ^^^ (g >>> m ^^^ g >>> (m + 1)) := by ac_rfl
      _ = g ^^^ g >>> m ^^^ (g >>> m ^^^ g >>> (m + 1)) := by rw [ih]
      _ = g ^^^ (g >>> m ^^^ g >>> m) ^^^ g >>> (m + 1) := by ac_rfl
      _ = g ^^^ g >>> (m + 1) := by rw [BitVec.xor_self, BitVec.xor_zero]

/-- Encoding a decoded Gray code gives it back. -/
theorem grayToBin_xor_ushiftRight {n : Nat} (g : BitVec n) : grayToBin g ^^^ (grayToBin g >>> 1) = g := by
  rw [grayToBin_eq_shiftXors, shiftXors_xor_ushiftRight, BitVec.ushiftRight_eq_zero le_rfl, BitVec.xor_zero]

theorem grayToBin_injective {n : Nat} : Function.Injective (grayToBin (n := n)) := fun g g' h => by
  rw [← grayToBin_xor_ushiftRight g, h, grayToBin_xor_ushiftRight]

theorem grayToBin_surjective {n : Nat} : Function.Surjective (grayToBin (n := n)) :=
  Finite.surjective_of_injective grayToBin_injective

/-- Every bit is the bit above it XOR the code's bit. -/
theorem getLsbD_grayToBin {n : Nat} (g : BitVec n) (k : Nat) :
    (grayToBin g).getLsbD k = ((grayToBin g).getLsbD (k + 1) ^^ g.getLsbD k) := by
  have h : ((grayToBin g).getLsbD k ^^ (grayToBin g).getLsbD (1 + k)) = g.getLsbD k := by
    rw [← BitVec.getLsbD_ushiftRight, ← BitVec.getLsbD_xor, grayToBin_xor_ushiftRight]
  rw [← h, Nat.add_comm 1 k, Bool.xor_comm, Bool.xor_assoc, Bool.xor_self, Bool.xor_false]

/-- The top bit is kept. -/
theorem getLsbD_grayToBin_top {n k : Nat} (g : BitVec n) (h : n ≤ k + 1) : (grayToBin g).getLsbD k = g.getLsbD k := by
  rw [getLsbD_grayToBin, BitVec.getLsbD_of_ge _ _ h, Bool.false_xor]

/-- Counting up flips a row of low bits. -/
theorem xor_add_one_eq (n : Nat) : ∃ k, n ^^^ (n + 1) = 2 ^ (k + 1) - 1 := by
  induction n using Nat.evenOddRec with
  | h0 => exact ⟨0, rfl⟩
  | h_even m _ =>
    have hbit : 2 * m ^^^ (2 * m + 1) = 2 * (m ^^^ m) + 1 := Nat.xor_bit false m true m
    exact ⟨0, by rw [hbit, Nat.xor_self]; rfl⟩
  | h_odd m ih =>
    obtain ⟨k, hk⟩ := ih
    have hbit : (2 * m + 1) ^^^ (2 * m + 1 + 1) = 2 * (m ^^^ (m + 1)) + 1 := Nat.xor_bit true m false (m + 1)
    have hpos : 1 ≤ 2 ^ (k + 1) := Nat.one_le_two_pow
    exact ⟨k + 1, by rw [hbit, hk]; omega⟩

/-- A row of ones and the same row shifted by one differ in its top bit. -/
theorem ones_xor_shiftRight (k : Nat) : (2 ^ (k + 1) - 1) ^^^ ((2 ^ (k + 1) - 1) >>> 1) = 2 ^ k := by
  refine Nat.eq_of_testBit_eq fun i => ?_
  rw [Nat.testBit_xor, Nat.testBit_shiftRight, Nat.testBit_two_pow_sub_one, Nat.testBit_two_pow_sub_one, Nat.testBit_two_pow]
  grind

/-- The Gray codes of neighbouring numbers differ in one bit. -/
theorem xor_eq_shift_of_grayToBin_succ {n : Nat} {g g' : BitVec n} (h : (grayToBin g').toNat = (grayToBin g).toNat + 1) :
    ∃ k, k < n ∧ g ^^^ g' = 1#n <<< k := by
  obtain ⟨k, hk⟩ := xor_add_one_eq (grayToBin g).toNat
  have hb : (grayToBin g ^^^ grayToBin g').toNat = 2 ^ (k + 1) - 1 := by rw [BitVec.toNat_xor, h, hk]
  have hcode : g ^^^ g' = grayToBin g ^^^ grayToBin g' ^^^ (grayToBin g ^^^ grayToBin g') >>> 1 := by
    conv_lhs => rw [← grayToBin_xor_ushiftRight g, ← grayToBin_xor_ushiftRight g']
    rw [BitVec.ushiftRight_xor_distrib]
    ac_rfl
  have hdiff : (g ^^^ g').toNat = 2 ^ k := by
    rw [hcode, BitVec.toNat_xor, BitVec.toNat_ushiftRight, hb, ones_xor_shiftRight]
  have hlt : k < n := (Nat.pow_lt_pow_iff_right one_lt_two).1 (hdiff ▸ (g ^^^ g').isLt)
  refine ⟨k, hlt, BitVec.eq_of_toNat_eq ?_⟩
  rw [hdiff, ← BitVec.twoPow_eq, BitVec.toNat_twoPow_of_lt hlt]

/-! ## The groups of an altitude field (R74) -/

/-- The bits of the field that the 500-ft code is made of, from its lowest bit up (R74). -/
def bits500 : List Nat := [1, 3, 5, 6, 8, 10, 0, 2, 4]

/-- The bits of the field that the 100-ft code is made of, from its lowest bit up (R74). -/
def bits100 : List Nat := [7, 9, 11]

theorem getLsbD_altG500 (alt : BitVec 12) {i : Nat} (hi : i < 9) :
    (altG500 alt).getLsbD i = alt.getLsbD (bits500.getD i 0) := by
  rw [altG500]
  iterate 8 rw [BitVec.getLsbD_append]
  interval_cases i <;> simp [bits500]

theorem getLsbD_altG100 (alt : BitVec 12) {i : Nat} (hi : i < 3) :
    (altG100 alt).getLsbD i = alt.getLsbD (bits100.getD i 0) := by
  rw [altG100]
  iterate 2 rw [BitVec.getLsbD_append]
  interval_cases i <;> simp [bits100]

/-- The top bit of the 500-ft code is the Q bit. -/
theorem altG500_top (alt : BitVec 12) : (altG500 alt).getLsbD 8 = alt.getLsbD 4 := getLsbD_altG500 alt (by decide)

theorem altG500_xor (a b : BitVec 12) : altG500 (a ^^^ b) = altG500 a ^^^ altG500 b := by
  refine BitVec.eq_of_getLsbD_eq fun i hi => ?_
  simp only [BitVec.getLsbD_xor, getLsbD_altG500 _ hi]

theorem altG100_xor (a b : BitVec 12) : altG100 (a ^^^ b) = altG100 a ^^^ altG100 b := by
  refine BitVec.eq_of_getLsbD_eq fun i hi => ?_
  simp only [BitVec.getLsbD_xor, getLsbD_altG100 _ hi]

/-- Both codes together hold every bit of the field. -/
theorem altGroups_injective : Function.Injective fun alt : BitVec 12 => (altG500 alt, altG100 alt) := by
  intro a b h
  obtain ⟨h500, h100⟩ := Prod.mk.inj h
  have hbits : ∀ j < 12, (∃ i, i < 9 ∧ bits500.getD i 0 = j) ∨ ∃ i, i < 3 ∧ bits100.getD i 0 = j := by decide
  refine BitVec.eq_of_getLsbD_eq fun j hj => ?_
  obtain ⟨i, hi, rfl⟩ | ⟨i, hi, rfl⟩ := hbits j hj
  · rw [← getLsbD_altG500 a hi, ← getLsbD_altG500 b hi, h500]
  · rw [← getLsbD_altG100 a hi, ← getLsbD_altG100 b hi, h100]

/-- Every pair of codes is held by a field: there are as many fields as pairs. -/
theorem altGroups_surjective : Function.Surjective fun alt : BitVec 12 => (altG500 alt, altG100 alt) := by
  have hcard : ∀ n, Nat.card (BitVec n) = 2 ^ n := fun n => (Nat.card_congr BitVec.equivFin.toEquiv).trans (Nat.card_fin _)
  refine (altGroups_injective.bijective_of_nat_card_le ?_).surjective
  rw [Nat.card_prod, hcard, hcard, hcard]
  decide

theorem toNat_altG100 (alt : BitVec 12) : (altG100 alt).toNat =
    (alt.getLsbD 11).toNat * 4 + (alt.getLsbD 9).toNat * 2 + (alt.getLsbD 7).toNat := by
  have hbits : ∀ g : BitVec 3, g.toNat = (g.getLsbD 2).toNat * 4 + (g.getLsbD 1).toNat * 2 + (g.getLsbD 0).toNat := by
    decide
  rw [hbits, getLsbD_altG100 alt (show 2 < 3 by decide), getLsbD_altG100 alt (show 1 < 3 by decide),
    getLsbD_altG100 alt (show 0 < 3 by decide)]
  rfl

/-- A field whose codes have one bit together has one bit. -/
theorem eq_shift_of_altG500 {alt : BitVec 12} {k : Nat} (hk : k < 9) (h500 : altG500 alt = 1#9 <<< k)
    (h100 : altG100 alt = 0#3) : ∃ j, j < 12 ∧ alt = 1#12 <<< j := by
  have hunits : ∀ k < 9, ∃ j, j < 12 ∧ altG500 (1#12 <<< j) = 1#9 <<< k ∧ altG100 (1#12 <<< j) = 0#3 := by decide
  obtain ⟨j, hj, hj500, hj100⟩ := hunits k hk
  exact ⟨j, hj, altGroups_injective (Prod.ext (h500.trans hj500.symm) (h100.trans hj100.symm))⟩

theorem eq_shift_of_altG100 {alt : BitVec 12} {k : Nat} (hk : k < 3) (h500 : altG500 alt = 0#9)
    (h100 : altG100 alt = 1#3 <<< k) : ∃ j, j < 12 ∧ alt = 1#12 <<< j := by
  have hunits : ∀ k < 3, ∃ j, j < 12 ∧ altG500 (1#12 <<< j) = 0#9 ∧ altG100 (1#12 <<< j) = 1#3 <<< k := by decide
  obtain ⟨j, hj, hj500, hj100⟩ := hunits k hk
  exact ⟨j, hj, altGroups_injective (Prod.ext (h500.trans hj500.symm) (h100.trans hj100.symm))⟩

/-! ## The 100-ft digit (R202) -/

/-- The 100-ft digit of a code: rejected, mapped, and mirrored in an odd 500-ft step. -/
def digit100 (odd : Bool) (g100 : BitVec 3) : Option Int :=
  let lsb := (grayToBin g100).toNat
  if lsb = 0 ∨ lsb = 5 ∨ lsb = 6 then none
  else
    let lsb := if lsb = 7 then 5 else lsb
    some (if odd then 6 - lsb else lsb : Nat)

theorem altQ0Feet_eq_map (g500 : BitVec 9) (g100 : BitVec 3) : altQ0Feet g500 g100 =
    (digit100 (decide ((grayToBin g500).toNat % 2 = 1)) g100).map
      fun d => 500 * ((grayToBin g500).toNat : Int) + 100 * d - 1300 := by
  unfold altQ0Feet digit100
  by_cases hreject : (grayToBin g100).toNat = 0 ∨ (grayToBin g100).toNat = 5 ∨ (grayToBin g100).toNat = 6
  · simp only [if_pos hreject, Option.map_none]
  · simp only [if_neg hreject, Option.map_some, decide_eq_true_eq]

theorem digit100_range {odd : Bool} {g : BitVec 3} {d : Int} (h : digit100 odd g = some d) : 1 ≤ d ∧ d ≤ 5 := by
  have hall : ∀ odd g, ∀ d ∈ digit100 odd g, 1 ≤ d ∧ d ≤ 5 := by decide
  exact hall odd g d h

/-- Whether a code is absent does not depend on the 500-ft step. -/
theorem digit100_isNone (odd : Bool) (g : BitVec 3) : (digit100 odd g).isNone = (digit100 false g).isNone := by
  revert odd g
  decide

theorem digit100_injective {odd : Bool} {g g' : BitVec 3} (hsome : digit100 odd g ≠ none)
    (h : digit100 odd g = digit100 odd g') : g = g' := by
  revert odd g g'
  decide

theorem digit100_surjective (odd : Bool) {d : Int} (h : 1 ≤ d ∧ d ≤ 5) : ∃ g, digit100 odd g = some d := by
  obtain ⟨hlow, hhigh⟩ := h
  revert odd
  interval_cases d <;> decide

/-- The codes of neighbouring digits in one 500-ft step differ in one bit. -/
theorem digit100_step {odd : Bool} {g g' : BitVec 3} {d : Int} (h : digit100 odd g = some d)
    (h' : digit100 odd g' = some (d + 1)) : ∃ k, k < 3 ∧ g ^^^ g' = 1#3 <<< k := by
  have hall : ∀ odd g g', ∀ d ∈ digit100 odd g, digit100 odd g' = some (d + 1) → ∃ k, k < 3 ∧ g ^^^ g' = 1#3 <<< k := by
    decide
  exact hall odd g g' d h h'

/-- The last digit of a 500-ft step and the first of the next have the same code. -/
theorem digit100_turn {odd : Bool} {g g' : BitVec 3} (h : digit100 odd g = some 5) (h' : digit100 (!odd) g' = some 1) :
    g = g' := by
  revert odd g g'
  decide

/-! ## Fields with `Q` = 0 -/

/-- The 500-ft step that a field counts. -/
def step500 (alt : BitVec 12) : Nat := (grayToBin (altG500 alt)).toNat

theorem step500_injective {a b : BitVec 12} (h : step500 a = step500 b) : altG500 a = altG500 b :=
  grayToBin_injective (BitVec.eq_of_toNat_eq h)

section
variable {alt : BitVec 12} (hq : alt.getLsbD 4 = false)
include hq

theorem step500_le : step500 alt ≤ 255 := by
  have hmsb : (grayToBin (altG500 alt)).msb = false := by
    rw [BitVec.msb_eq_getLsbD_last, getLsbD_grayToBin_top _ le_rfl, altG500_top, hq]
  exact Nat.le_of_lt_succ (BitVec.toNat_lt_of_msb_false hmsb)

theorem altFeet_q0 : altFeet alt = (digit100 (decide (step500 alt % 2 = 1)) (altG100 alt)).map
    fun d => 500 * (step500 alt : Int) + 100 * d - 1300 := by
  rw [altFeet, hq]
  exact altQ0Feet_eq_map _ _

theorem altFeet_q0_eq_some_iff {feet : Int} : altFeet alt = some feet ↔
    ∃ d, digit100 (decide (step500 alt % 2 = 1)) (altG100 alt) = some d ∧ 500 * (step500 alt : Int) + 100 * d - 1300 = feet := by
  rw [altFeet_q0 hq, Option.map_eq_some_iff]

theorem altFeet_q0_isNone : (altFeet alt).isNone = (digit100 false (altG100 alt)).isNone := by
  rw [altFeet_q0 hq, Option.isNone_map, digit100_isNone]

end

/-- The altitude scale is onto: a step and a digit make a field. -/
theorem exists_altFeet_q0 {step : Nat} (hstep : step ≤ 255) {d : Int} (hd : 1 ≤ d ∧ d ≤ 5) :
    ∃ alt : BitVec 12, alt.getLsbD 4 = false ∧ altFeet alt = some (500 * (step : Int) + 100 * d - 1300) := by
  obtain ⟨g500, hg500⟩ := grayToBin_surjective (BitVec.ofNat 9 step)
  obtain ⟨g100, hg100⟩ := digit100_surjective (decide (step % 2 = 1)) hd
  obtain ⟨alt, halt⟩ := altGroups_surjective (g500, g100)
  obtain ⟨h500, h100⟩ := Prod.mk.inj halt
  have hcount : step500 alt = step := by
    rw [step500, h500, hg500, BitVec.toNat_ofNat, Nat.mod_eq_of_lt (by omega)]
  have hq : alt.getLsbD 4 = false := by
    rw [← altG500_top, h500, ← getLsbD_grayToBin_top _ le_rfl, hg500, BitVec.getLsbD_ofNat,
      Nat.testBit_lt_two_pow (by omega), Bool.and_false]
  refine ⟨alt, hq, (altFeet_q0_eq_some_iff hq).2 ⟨d, ?_, ?_⟩⟩
  · rw [hcount, h100, hg100]
  · rw [hcount]

/-- The fields of altitudes 100 ft apart: either the digit goes up by one, or the step does while the digit turns. -/
theorem altFeet_q0_xor_eq_shift {a b : BitVec 12} {feet : Int} (ha : a.getLsbD 4 = false) (hb : b.getLsbD 4 = false)
    (hfeet : altFeet a = some feet) (hnext : altFeet b = some (feet + 100)) : ∃ k, k < 12 ∧ a ^^^ b = 1#12 <<< k := by
  obtain ⟨d, hd, hda⟩ := (altFeet_q0_eq_some_iff ha).1 hfeet
  obtain ⟨d', hd', hdb⟩ := (altFeet_q0_eq_some_iff hb).1 hnext
  have hrange := digit100_range hd
  have hrange' := digit100_range hd'
  obtain ⟨hstep, rfl⟩ | ⟨hstep, rfl, rfl⟩ :
      (step500 b = step500 a ∧ d' = d + 1) ∨ (step500 b = step500 a + 1 ∧ d = 5 ∧ d' = 1) := by omega
  · rw [hstep] at hd'
    obtain ⟨k, hk, hbit⟩ := digit100_step hd hd'
    refine eq_shift_of_altG100 hk ?_ (altG100_xor a b ▸ hbit)
    rw [altG500_xor, step500_injective hstep, BitVec.xor_self]
  · have hodd : decide ((step500 a + 1) % 2 = 1) = !decide (step500 a % 2 = 1) := by
      rw [← decide_not, decide_eq_decide]
      omega
    rw [hstep, hodd] at hd'
    obtain ⟨k, hk, hbit⟩ := xor_eq_shift_of_grayToBin_succ hstep
    refine eq_shift_of_altG500 hk (altG500_xor a b ▸ hbit) ?_
    rw [altG100_xor, digit100_turn hd hd', BitVec.xor_self]

theorem altFeet_q0_injective {a b : BitVec 12} (ha : a.getLsbD 4 = false) (hb : b.getLsbD 4 = false)
    (hsome : altFeet a ≠ none) (h : altFeet a = altFeet b) : a = b := by
  obtain ⟨feet, hfeet⟩ := Option.ne_none_iff_exists'.1 hsome
  obtain ⟨d, hd, hda⟩ := (altFeet_q0_eq_some_iff ha).1 hfeet
  obtain ⟨d', hd', hdb⟩ := (altFeet_q0_eq_some_iff hb).1 (h ▸ hfeet)
  have hrange := digit100_range hd
  have hrange' := digit100_range hd'
  obtain ⟨hstep, rfl⟩ : step500 a = step500 b ∧ d = d' := by omega
  rw [← hstep, ← hd] at hd'
  exact altGroups_injective (Prod.ext (step500_injective hstep) (digit100_injective (hd ▸ nofun) hd'.symm))

theorem exists_altFeet_q0_iff (feet : Int) : (∃ a : BitVec 12, a.getLsbD 4 = false ∧ altFeet a = some feet) ↔
    -1200 ≤ feet ∧ feet ≤ 126700 ∧ feet % 100 = 0 := by
  constructor
  · rintro ⟨a, ha, hfeet⟩
    obtain ⟨d, hd, hda⟩ := (altFeet_q0_eq_some_iff ha).1 hfeet
    have hrange := digit100_range hd
    have hstep := step500_le ha
    omega
  · rintro ⟨hlow, hhigh, hmod⟩
    obtain ⟨step, hstep⟩ := Int.eq_ofNat_of_zero_le (show 0 ≤ (feet + 1200) / 500 by omega)
    obtain ⟨alt, hq, halt⟩ := exists_altFeet_q0 (step := step) (d := (feet + 1200) % 500 / 100 + 1) (by omega) (by omega)
    exact ⟨alt, hq, halt.trans (congrArg some (by omega))⟩

/-! ## The number of absent fields (R203) -/

/-- Numbers counted by a condition on the quotient and one on the remainder. -/
theorem countP_range_mul (p q : Nat → Bool) (m n : Nat) :
    (List.range (m * n)).countP (fun a => p (a / n) && q (a % n)) = (List.range m).countP p * (List.range n).countP q := by
  induction m with
  | zero => simp
  | succ m ih =>
    have hblock : (List.range n).countP ((fun a => p (a / n) && q (a % n)) ∘ (m * n + ·)) =
        (List.range n).countP (fun r => p m && q r) := by
      refine List.countP_congr fun r hr => ?_
      have hr : r < n := List.mem_range.1 hr
      rw [Function.comp_apply, Nat.mul_comm, Nat.mul_add_div (by omega), Nat.div_eq_of_lt hr, Nat.mul_add_mod,
        Nat.mod_eq_of_lt hr, Nat.add_zero]
    rw [Nat.succ_mul, List.range_add, List.countP_append, List.countP_map, ih, hblock, List.range_succ, List.countP_append,
      Nat.add_mul]
    cases hp : p m <;> simp [hp]

/-- The 100-ft code lies in the upper six bits of a field. -/
theorem altG100_ofNat (a : Nat) : altG100 (BitVec.ofNat 12 a) = altG100 (BitVec.ofNat 12 (2 ^ 6 * (a / 2 ^ 6))) := by
  have hhigh : ∀ i < 3, 6 ≤ bits100.getD i 0 := by decide
  refine BitVec.eq_of_getLsbD_eq fun i hi => ?_
  rw [getLsbD_altG100 _ hi, getLsbD_altG100 _ hi, BitVec.getLsbD_ofNat, BitVec.getLsbD_ofNat, Nat.testBit_two_pow_mul,
    Nat.testBit_div_two_pow, Nat.sub_add_cancel (hhigh i hi), decide_eq_true (hhigh i hi), Bool.true_and]

theorem absent_q0_eq (a : Nat) : (!a.testBit 4 && (altFeet (BitVec.ofNat 12 a)).isNone) =
    ((digit100 false (altG100 (BitVec.ofNat 12 (2 ^ 6 * (a / 2 ^ 6))))).isNone && !(a % 2 ^ 6).testBit 4) := by
  have hlow : (a % 2 ^ 6).testBit 4 = a.testBit 4 := by
    rw [Nat.testBit_mod_two_pow, decide_eq_true (by decide), Bool.true_and]
  rw [hlow]
  cases hq : a.testBit 4 with
  | true => simp
  | false =>
    have hfield : (BitVec.ofNat 12 a).getLsbD 4 = false := by rw [BitVec.getLsbD_ofNat, hq, Bool.and_false]
    rw [altFeet_q0_isNone hfield, altG100_ofNat, Bool.and_comm]

theorem countP_absent_q0 :
    (List.range 4096).countP (fun a => !a.testBit 4 && (altFeet (BitVec.ofNat 12 a)).isNone) = 768 := by
  simp only [absent_q0_eq]
  refine (countP_range_mul (fun h => (digit100 false (altG100 (BitVec.ofNat 12 (2 ^ 6 * h)))).isNone)
    (fun l => !l.testBit 4) 64 64).trans ?_
  decide

/-! ## The operations -/

theorem exec_grayDecode {n : Nat} (g : BitVec n) (s : State) :
    exec (.grayDecode ⟨n, g.toNat⟩) s = .next (s.respond (.nat (grayToBin g).toNat)) := by
  show answer (.nat (grayToBin (BitVec.ofNat n g.toNat)).toNat) s = _
  rw [BitVec.ofNat_toNat, BitVec.setWidth_eq]
  rfl

theorem exec_altDecode (alt : BitVec 12) (s : State) :
    exec (.altDecode alt) s = answerOption .int (altFeet alt) s := rfl

/-- The 11-bit number of a field with `Q` = 1. -/
theorem toNat_nHi_append_nLo (nHi : BitVec 7) (nLo : BitVec 4) : (nHi ++ nLo).toNat = nHi.toNat * 16 + nLo.toNat := by
  rw [BitVec.toNat_append, ← Nat.shiftLeft_add_eq_or_of_lt nLo.isLt, Nat.shiftLeft_eq]

theorem exec_altQ1 (nHi : BitVec 7) (nLo : BitVec 4) (s : State) : exec (.altQ1 nHi nLo) s =
    .next (s.respond (.int (25 * ((nHi.toNat * 16 + nLo.toNat : Nat) : Int) - 1000))) := by
  rw [← toNat_nHi_append_nLo]
  rfl

theorem altFeet_q1 {alt : BitVec 12} (hq : alt.getLsbD 4 = true) :
    altFeet alt = some (25 * ((alt.toNat / 32 * 16 + alt.toNat % 16 : Nat) : Int) - 1000) := by
  have hn : (altN alt).toNat = alt.toNat / 32 * 16 + alt.toNat % 16 := by
    rw [altN, toNat_nHi_append_nLo, BitVec.extractLsb'_toNat, BitVec.extractLsb'_toNat, Nat.shiftRight_eq_div_pow]
    have := alt.isLt
    omega
  rw [altFeet, if_pos hq, altQ1Feet, hn]

section
variable {alt : BitVec 12} (s : State) (hq : alt.getLsbD 4 = false) {code : BitVec 3} (hcode : altG100 alt = code)
include hq hcode

theorem exec_altDecode_reject (hdigit : ∀ odd, digit100 odd code = none) :
    exec (.altDecode alt) s = .next (s.respond .absent) :=
  answerOption_of_eq_none s (by rw [altFeet_q0 hq, hcode, hdigit, Option.map_none])

theorem exec_altDecode_digit {even odd : Int} (hdigit : ∀ o, digit100 o code = some (if o then odd else even)) :
    exec (.altDecode alt) s = .next (s.respond (.int
      (500 * (step500 alt : Int) + 100 * (if step500 alt % 2 = 0 then even else odd) - 1300))) := by
  have hparity : (if decide (step500 alt % 2 = 1) then odd else even) = if step500 alt % 2 = 0 then even else odd := by
    rcases Nat.mod_two_eq_zero_or_one (step500 alt) with h | h <;> simp [h]
  exact answerOption_of_eq_some s (by rw [altFeet_q0 hq, hcode, hdigit, Option.map_some, hparity])

end

/-- A position is absent with its altitude (R195). -/
theorem answerOption_positionOf (some? : PositionPayload → Response) (alt : BitVec 12) (f : BitVec 1) (y x : BitVec 17)
    (s : State) : answerOption some? (positionOf alt f y x) s =
      answerOption (fun feet => some? ⟨feet, f, x, y⟩) (altFeet alt) s := answerOption_map ..

/-! ## The obligations -/

/-- Settles O47: `AP.DECODE` and the position rows answer `positionOf` of their fields, which is absent exactly with the altitude. -/
theorem apDecodeResult : Obligations.ApDecodeResult := by
  refine ⟨fun raw s => ?_, fun row hrow unread50 alt unread35 f y x s => ?_, fun feet => ?_⟩
  · rw [exec_apDecode, answerOption_map, decodePosition, answerOption_positionOf]
    exact ⟨answerOption_of_eq_none s, fun _ => answerOption_of_eq_some s⟩
  · rw [exec_positionRow hrow, positionWordAnswer, answerOption_positionOf]
    exact ⟨answerOption_of_eq_none s, fun _ => answerOption_of_eq_some s⟩
  · rw [metresOf, Length.metres]
    ring

/-- Settles O48: with `Q` = 0 the altitude is the 500-ft step and the digit of its parity (`altFeet_q0`), and the digit's table is
R202; the altitude words are the field that they decode from. -/
theorem altDecodeResult : Obligations.AltDecodeResult := by
  refine ⟨fun alt s hq => answerOption_of_eq_some s (altFeet_q1 hq), fun alt s hq => ?_, exec_decodeAlt, exec_altQ1,
    fun c1 a1 c2 a2 c4 a4 b1 b2 d2 b4 d4 s => ?_⟩
  · intro msb decoded g100
    have hcode : ∀ code : BitVec 3, g100 = code.toNat → altG100 alt = code := fun code h =>
      BitVec.eq_of_toNat_eq ((toNat_altG100 alt).trans h)
    refine ⟨step500_le hq, ?_, fun h => ?_, fun h => ?_, fun h => ?_, fun h => ?_, fun h => ?_⟩
    · rintro (h | h | h)
      · exact exec_altDecode_reject s hq (hcode 0b000#3 h) (by decide)
      · exact exec_altDecode_reject s hq (hcode 0b111#3 h) (by decide)
      · exact exec_altDecode_reject s hq (hcode 0b101#3 h) (by decide)
    · exact exec_altDecode_digit s hq (hcode 0b001#3 h) (by decide)
    · exact exec_altDecode_digit s hq (hcode 0b011#3 h) (by decide)
    · exact exec_altDecode_digit s hq (hcode 0b010#3 h) (by decide)
    · exact exec_altDecode_digit s hq (hcode 0b110#3 h) (by decide)
    · exact exec_altDecode_digit s hq (hcode 0b100#3 h) (by decide)
  · refine ⟨_, rfl, ?_⟩
    rw [exec_altDecode, ← exec_decodeAlt, decodeAlt_q0]
    rfl

/-- Settles O49: the XOR of all right shifts telescopes against its own shift (`shiftXors_xor_ushiftRight`), so encoding gives the code
back; its bits are the recurrence. -/
theorem grayDecodeResult : Obligations.GrayDecodeResult := fun n g s _ =>
  ⟨grayToBin g, exec_grayDecode g s, getLsbD_grayToBin_top g (by omega), fun k _ => getLsbD_grayToBin g k,
    grayToBin_xor_ushiftRight g⟩

/-- Settles O50: a field with `Q` = 0 is a 500-ft step and a digit from 1 to 5, which count the scale; neighbours differ in one bit of
one of the two Gray codes. -/
theorem gillhamScale : Obligations.GillhamScale := by
  refine ⟨?_, fun a b => altFeet_q0_injective, exists_altFeet_q0_iff, by decide, by decide, by decide,
    fun a b feet => altFeet_q0_xor_eq_shift⟩
  rw [← List.countP_eq_length_filter]
  exact countP_absent_q0

end Sys2Proof.Machine
end

section
/-! Requests and words (30_encoding.md): the decoder inverts the encoder, and a step runs what the decoder reads (R262, R270). -/

namespace Sys2Proof.Machine

open Sys2Proof.Laws

/-- Settles O1: each constructor's request is read back by the lemma of its row (`RoundTrip`); a character row is stored as its code. -/
theorem decodeOfEncode : Obligations.DecodeOfEncode := by
  intro i
  change RoundTrip.Statement i
  cases i with
  | bfExtract => apply RoundTrip.bfExtract
  | bfTest => apply RoundTrip.bfTest
  | crcBuild => apply RoundTrip.crcBuild
  | crcCrc => apply RoundTrip.crcCrc
  | sdNew => apply RoundTrip.sdNew
  | sdReadbatch => apply RoundTrip.sdReadbatch
  | pcNew => apply RoundTrip.pcNew
  | pcReadbatch => apply RoundTrip.pcReadbatch
  | pwNew => apply RoundTrip.pwNew
  | pwSize => apply RoundTrip.pwSize
  | pwPosition => apply RoundTrip.pwPosition
  | pwIsfull => apply RoundTrip.pwIsfull
  | pwGet => apply RoundTrip.pwGet
  | pwAdvance => apply RoundTrip.pwAdvance
  | pwAdvanceby => apply RoundTrip.pwAdvanceby
  | dmNew => apply RoundTrip.dmNew
  | dmSp => apply RoundTrip.dmSp
  | dmSv => apply RoundTrip.dmSv
  | dmDetect => apply RoundTrip.dmDetect
  | dmSlice => apply RoundTrip.dmSlice
  | dmNext => apply RoundTrip.dmNext
  | rmOf => apply RoundTrip.rmOf
  | rmDf => apply RoundTrip.rmDf
  | rmIcao => apply RoundTrip.rmIcao
  | rmMe => apply RoundTrip.rmMe
  | rmTc => apply RoundTrip.rmTc
  | mpParse => apply RoundTrip.mpParse
  | idDecode => apply RoundTrip.idDecode
  | apDecode => apply RoundTrip.apDecode
  | altDecode => apply RoundTrip.altDecode
  | grayDecode => apply RoundTrip.grayDecode
  | avDecode => apply RoundTrip.avDecode
  | cprNl => apply RoundTrip.cprNl
  | cprDecode => apply RoundTrip.cprDecode
  | accUpdate => apply RoundTrip.accUpdate
  | sample => apply RoundTrip.sample
  | replayRecord => apply RoundTrip.replayRecord
  | frameDf17 => apply RoundTrip.frameDf17
  | frameOther => apply RoundTrip.frameOther
  | meIdentTc1 => apply RoundTrip.meIdentTc1
  | meIdentTc2 => apply RoundTrip.meIdentTc2
  | meIdentTc3 => apply RoundTrip.meIdentTc3
  | meIdentTc4 => apply RoundTrip.meIdentTc4
  | mePositionTc9 => apply RoundTrip.mePositionTc9
  | mePositionTc10 => apply RoundTrip.mePositionTc10
  | mePositionTc11 => apply RoundTrip.mePositionTc11
  | mePositionTc12 => apply RoundTrip.mePositionTc12
  | mePositionTc13 => apply RoundTrip.mePositionTc13
  | mePositionTc14 => apply RoundTrip.mePositionTc14
  | mePositionTc15 => apply RoundTrip.mePositionTc15
  | mePositionTc16 => apply RoundTrip.mePositionTc16
  | mePositionTc17 => apply RoundTrip.mePositionTc17
  | mePositionTc18 => apply RoundTrip.mePositionTc18
  | mePositionTc20 => apply RoundTrip.mePositionTc20
  | mePositionTc21 => apply RoundTrip.mePositionTc21
  | mePositionTc22 => apply RoundTrip.mePositionTc22
  | meVelocitySt1 => apply RoundTrip.meVelocitySt1
  | meVelocitySt2 => apply RoundTrip.meVelocitySt2
  | meVelocitySt3 => apply RoundTrip.meVelocitySt3
  | meVelocitySt4 => apply RoundTrip.meVelocitySt4
  | meVelocitySt0 => apply RoundTrip.meVelocitySt0
  | meVelocitySt5 => apply RoundTrip.meVelocitySt5
  | meVelocitySt6 => apply RoundTrip.meVelocitySt6
  | meVelocitySt7 => apply RoundTrip.meVelocitySt7
  | meTc0 => apply RoundTrip.meTc0
  | meTc5 => apply RoundTrip.meTc5
  | meTc6 => apply RoundTrip.meTc6
  | meTc7 => apply RoundTrip.meTc7
  | meTc8 => apply RoundTrip.meTc8
  | meTc23 => apply RoundTrip.meTc23
  | meTc24 => apply RoundTrip.meTc24
  | meTc25 => apply RoundTrip.meTc25
  | meTc26 => apply RoundTrip.meTc26
  | meTc27 => apply RoundTrip.meTc27
  | meTc28 => apply RoundTrip.meTc28
  | meTc29 => apply RoundTrip.meTc29
  | meTc30 => apply RoundTrip.meTc30
  | meTc31 => apply RoundTrip.meTc31
  | altQ1 => apply RoundTrip.altQ1
  | altQ0 => apply RoundTrip.altQ0
  | char0 | char1 | char2 | char3 | char4 | char5 | char6 | char7 | char8 | char9 | char10
  | char11 | char12 | char13 | char14 | char15 | char16 | char17 | char18 | char19 | char20 | char21
  | char22 | char23 | char24 | char25 | char26 | char27 | char28 | char29 | char30 | char31 | char32
  | char33 | char34 | char35 | char36 | char37 | char38 | char39 | char40 | char41 | char42 | char43
  | char44 | char45 | char46 | char47 | char48 | char49 | char50 | char51 | char52 | char53 | char54
  | char55 | char56 | char57 | char58 | char59 | char60 | char61 | char62 | char63 =>
    exact fun _ => decode_encode_char _

/-! ## The step -/

/-- A request that expresses an operation is no act of the host, and runs as that operation. -/
theorem runRequest_of_decode {r : Request} {i : Instr} (h : decode r = .ok i) (s : State) : runRequest r s = exec i s := by
  have hact : hostAct r = none := by
    cases r with
    | call | word => rfl
    | openSource | purge | newCallSign | newIcaoAddress => cases h
  simp only [runRequest, hact, h]

/-- A step takes the next request from the port and runs it (R270). -/
theorem step_of_queue {s : State} {r : Request} {rest : List Request} (h : s.queue = r :: rest) :
    step s = runRequest r { s with queue := rest } := by
  simp only [step, fetch, h]

/-- A word that is read as an operation is so by the request that stores it. -/
theorem decode_requestOfTable {nbits w : Nat} {i : Instr} (h : decodeTableWord nbits w = some i) :
    decode (requestOfTable nbits w) = .ok i := by
  cases hd : decode (requestOfTable nbits w) with
  | ok j =>
    rw [decodeTableWord, hd] at h
    exact congrArg Except.ok (Option.some.inj h)
  | error e =>
    rw [decodeTableWord, hd] at h
    cases h

/-- Settles O5: the request at the port is taken and run (`step_of_queue`), and a placed word is such a request. -/
theorem stepRunsDecodedRequest : Obligations.StepRunsDecodedRequest := by
  refine ⟨fun s r rest i hqueue hdecode => ?_, fun s hqueue => ?_, fun s nbits w i hword => ?_⟩
  · rw [step_of_queue hqueue, runRequest_of_decode hdecode]
  · simp only [step, fetch, hqueue]
  · exact (step_of_queue rfl).trans (runRequest_of_decode (decode_requestOfTable hword) s)

end Sys2Proof.Machine
end

section
/-! The errors (60_exceptions.md): which operation raises which (R256), and that a recorded error is raised again (R258 (c),
R263). -/

namespace Sys2Proof.Machine

/-! ## The recorded error -/

section
variable {s : State} {e : Error}

/-- An operation that runs only on an unfaulted window raises the recorded error (R258 (c)). -/
theorem exec_faulted {i : Instr} {w : PowerWindow} {operation : State → Answer} (hfault : w.fault = some e)
    (harm : exec i s = unlessFaulted w operation s) : exec i s = .next (s.respond (.error e)) :=
  harm.trans (unlessFaulted_of_some s hfault operation)

/-- The scan of `DM.NEXT` ends in its first turn where an error is recorded, with the registers as they were (R155). -/
theorem exec_dmNext_faulted (hfault : s.dm.window.fault = some e) : exec .dmNext s = .next (s.respond (.error e)) :=
  exec_dmNext_of_turn (d := s.scan) (Scan.turn_of_fault hfault)

end

/-- Settles O32: every operation of a window or a demodulator asks for the recorded error first, `DM.NEXT` in the first turn of its scan. -/
theorem faultedInstanceRaisesAgain : Obligations.FaultedInstanceRaisesAgain := by
  constructor
  · intro s e hfault
    exact ⟨exec_faulted hfault (rfl : _ = execPwSize s), exec_faulted hfault (rfl : _ = execPwPosition s),
      exec_faulted hfault (rfl : _ = execPwIsfull s), fun i => exec_faulted hfault (rfl : _ = execPwGet i s),
      exec_pwAdvance_faulted hfault, exec_pwAdvanceby_faulted hfault⟩
  · intro s e hfault
    exact ⟨exec_faulted hfault (rfl : _ = execDmSp s), exec_faulted hfault (rfl : _ = execDmSv s),
      exec_faulted hfault (rfl : _ = execDmDetect s), exec_faulted hfault (rfl : _ = execDmSlice s),
      exec_dmNext_faulted hfault⟩

/-! ## The table of errors -/

/-- Where the answer returns an error, its code is one of `codes`. -/
def RaisesOnly (codes : ErrorCode → Prop) (a : Answer) : Prop :=
  ∀ t e, a = .next t → t.response = .error e → codes e.code

section
variable {codes : ErrorCode → Prop} {s : State}

theorem RaisesOnly.answer {r : Response} (h : ∀ e, r = .error e → codes e.code) : RaisesOnly codes (answer r s) := by
  intro t e ht he
  rw [(answer_eq_next r s).mp ht, State.respond_response] at he
  exact h e he

theorem RaisesOnly.raise {e : Error} (h : codes e.code) : RaisesOnly codes (raise e s) :=
  .answer fun _ he => Response.error.inj he ▸ h

theorem ReturnsNoError.raisesOnly {a : Answer} (h : ReturnsNoError a) : RaisesOnly codes a := by
  intro t e ht he
  obtain ⟨t', ht', hne⟩ := h
  cases ht.symm.trans ht'
  exact absurd he (hne e)

/-- The error recorded in a sound window is an `IoError` (R19). -/
theorem RaisesOnly.unlessFaulted {w : PowerWindow} {operation : State → Answer} (hw : w.Sound) (hio : codes .ioError)
    (h : RaisesOnly codes (operation s)) : RaisesOnly codes (unlessFaulted w operation s) := by
  intro t e ht he
  rcases unlessFaulted_cases s ht with ⟨recorded, hrecorded, rfl⟩ | ⟨-, ht⟩
  · cases he
    rwa [hw.faults e hrecorded]
  · exact h t e ht he

/-- So does an operation that only returns a value of the state. -/
theorem raisesOnly_read {w : PowerWindow} (hw : w.Sound) (hio : codes .ioError) (f : State → Response) (hf : ∀ e, f s ≠ .error e) :
    RaisesOnly codes (Machine.unlessFaulted w (fun s => Machine.answer (f s) s) s) :=
  .unlessFaulted hw hio (.answer fun e he => absurd he (hf e))

theorem RaisesOnly.withOwnSource {u : StreamUnit} {source : Nat} {construct : State → Answer}
    (h : RaisesOnly codes (construct s)) : RaisesOnly codes (withOwnSource u source construct s) :=
  fun t e ht he => h t e (withOwnSource_next source s u ht).2 he

end

/-! ## The errors of the windows and of the scan -/

section
variable {w : PowerWindow} {sources : List ByteSource} {e : Error}

/-- The first fill of a window records the error it raises, and no other than an `IoError`. -/
theorem PowerWindow.construct_ioError {source windowSize serial : Nat} (h1 : 1 ≤ windowSize) (h2 : windowSize ≤ 65536)
    (h : (PowerWindow.construct source windowSize serial sources).error = some e) : e.code = .ioError := by
  refine (PowerWindow.sound_construct (sources := sources) (source := source) (serial := serial) h1 h2).faults e ?_
  unfold PowerWindow.construct at h ⊢
  rw [PowerWindow.refill_fault, h, Option.some_or]

theorem PowerWindow.Sound.advance_ioError (hw : w.Sound) (h : (w.advance sources).error = some e) : e.code = .ioError := by
  refine (hw.advance (sources := sources)).faults e ?_
  rw [PowerWindow.advance_fault, h, Option.some_or]

theorem PowerWindow.Sound.advanceBy_ioError (hw : w.Sound) {n : Nat} (h : (w.advanceBy sources n).error = some e) :
    e.code = .ioError := by
  obtain ⟨m, -, -, hfails, -⟩ := PowerWindow.advanceBy_error w sources h
  exact (hw.advanceBy m).advance_ioError hfails

/-- A scan raises the error recorded in the window that it leaves. -/
theorem Scan.loop_ioError {params : Params} {fuel : Nat} {c d : Scan} (hw : c.dm.window.Sound)
    (h : Scan.loop params fuel c = some (d, .error e)) (hfault : c.dm.window.fault = none) : e.code = .ioError := by
  obtain ⟨n, hfailed⟩ := Scan.loop_error hfault h
  refine ((Scan.continues_loop h).sound hw).faults e ?_
  rw [hfailed.window]

end

/-- What a refill answers is no other error than an `IoError`. -/
theorem RaisesOnly.doneOr {codes : ErrorCode → Prop} {s : State} {error : Option Error} (hio : codes .ioError)
    (h : ∀ e, error = some e → e.code = .ioError) : RaisesOnly codes (Machine.answer (doneOr error) s) := by
  refine .answer fun e he => ?_
  cases error with
  | none => cases he
  | some recorded =>
    cases he
    rwa [h e rfl]

/-! ## Each operation -/

section
variable (s : State)

theorem raisesOnly_bfExtract (value : Word) (start size : Int) :
    RaisesOnly (MayRaise · (.bfExtract value start size)) (execBfExtract value start size s) := by
  unfold execBfExtract
  split
  · exact .raise (.bfExtract value start size)
  split
  · exact .raise (.bfExtract value start size)
  · exact .answer nofun

theorem raisesOnly_bfTest (value : Word) (index : Int) :
    RaisesOnly (MayRaise · (.bfTest value index)) (execBfTest value index s) := by
  unfold execBfTest
  split
  · exact .raise (.bfTest value index)
  · exact .answer nofun

theorem raisesOnly_sdNew (source : Nat) (size : Int) :
    RaisesOnly (MayRaise · (.sdNew source size)) (execSdNew source size s) := by
  unfold execSdNew
  split
  · exact .raise (.sdNew source size)
  · exact .withOwnSource (.answer nofun)

theorem raisesOnly_pcNew (source : Nat) (size : Int) :
    RaisesOnly (MayRaise · (.pcNew source size)) (execPcNew source size s) := by
  unfold execPcNew
  split
  · exact .raise (.pcNew source size)
  · exact .withOwnSource (.answer nofun)

theorem raisesOnly_sdReadbatch : RaisesOnly (MayRaise · .sdReadbatch) (execSdReadbatch s) := by
  refine .answer fun e he => ?_
  cases hread : (srcRead (2 * s.sd.batch) s.sd.source s.sources).1 with
  | ok bytes =>
    simp only [SampleDecoder.readBatch, hread, Except.map] at he
    cases he
  | error recorded =>
    simp only [SampleDecoder.readBatch, hread, Except.map] at he
    cases he
    rw [readSource_error _ _ hread]
    exact .sdReadbatch

theorem raisesOnly_pcReadbatch : RaisesOnly (MayRaise · .pcReadbatch) (execPcReadbatch s) := by
  unfold execPcReadbatch
  rcases s.pc.readBatch_cases s.sources with ⟨bytes, -, hr⟩ | ⟨e, -, hio, hr⟩ <;> rw [hr]
  · exact .answer nofun
  · exact .raise (hio ▸ .pcReadbatch)

theorem raisesOnly_pwNew (source : Nat) (size : Int) : RaisesOnly (MayRaise · (.pwNew source size)) (execPwNew source size s) := by
  unfold execPwNew
  split
  · exact .raise (.pwNew source size)
  · exact .withOwnSource (.doneOr (.pwNewRead source size) fun e =>
      PowerWindow.construct_ioError (by omega) (by omega))

theorem raisesOnly_pwGet (hs : s.pw.Sound) (i : Int) : RaisesOnly (MayRaise · (.pwGet i)) (execPwGet i s) := by
  unfold execPwGet
  refine .unlessFaulted hs (.pwGetFaulted i) ?_
  split
  · exact .raise (.pwGet i)
  · exact .answer nofun

theorem raisesOnly_dmNew (source : Nat) : RaisesOnly (MayRaise · (.dmNew source)) (execDmNew source s) :=
  .withOwnSource (.doneOr (.dmNew source) fun _ => PowerWindow.construct_ioError (by decide) (by decide))

theorem raisesOnly_dmSlice (hs : s.dm.window.Sound) : RaisesOnly (MayRaise · .dmSlice) (execDmSlice s) :=
  .unlessFaulted hs .dmSlice (.answer nofun)

theorem raisesOnly_dmNext (hs : s.dm.window.Sound) : RaisesOnly (MayRaise · .dmNext) (exec .dmNext s) := by
  intro t e ht he
  have hio : e.code = .ioError := by
    cases hfault : s.dm.window.fault with
    | none =>
      obtain ⟨d, hscan, -⟩ := exec_dmNext_inv ht
      exact Scan.loop_ioError hs (he ▸ hscan) hfault
    | some recorded =>
      cases (exec_dmNext_faulted hfault).symm.trans ht
      cases he
      exact hs.faults e hfault
  rw [hio]
  exact .dmNext

end

/-- Every operation raises only the errors that the table of R256 names for it. -/
theorem exec_raisesOnly {s : State} (hs : s.Sound) (i : Instr) : RaisesOnly (MayRaise · i) (exec i s) := by
  cases i with
  | bfExtract value start size => exact raisesOnly_bfExtract s value start size
  | bfTest value index => exact raisesOnly_bfTest s value index
  | sdNew source size => exact raisesOnly_sdNew s source size
  | sdReadbatch => exact raisesOnly_sdReadbatch s
  | pcNew source size => exact raisesOnly_pcNew s source size
  | pcReadbatch => exact raisesOnly_pcReadbatch s
  | pwNew source size => exact raisesOnly_pwNew s source size
  | pwSize => exact raisesOnly_read hs.window .pwSize (fun s => .nat s.pw.windowSize) nofun
  | pwPosition => exact raisesOnly_read hs.window .pwPosition (fun s => .u64 s.pw.position) nofun
  | pwIsfull => exact raisesOnly_read hs.window .pwIsfull (fun s => .bool s.pw.isFull) nofun
  | pwGet i => exact raisesOnly_pwGet s hs.window i
  | pwAdvance => exact .unlessFaulted hs.window .pwAdvance (.doneOr .pwAdvance fun _ => hs.window.advance_ioError)
  | pwAdvanceby n =>
    exact .unlessFaulted hs.window (.pwAdvanceby n) (.doneOr (.pwAdvanceby n) fun _ => hs.window.advanceBy_ioError)
  | dmNew source => exact raisesOnly_dmNew s source
  | dmSp => exact raisesOnly_read hs.demodulator .dmSp (fun s => .int (s.dm.window.sp 0)) nofun
  | dmSv => exact raisesOnly_read hs.demodulator .dmSv (fun s => .int s.dm.window.sv) nofun
  | dmDetect => exact raisesOnly_read hs.demodulator .dmDetect (fun s => .bool s.dm.detects) nofun
  | dmSlice => exact raisesOnly_dmSlice s hs.demodulator
  | dmNext => exact raisesOnly_dmNext s hs.demodulator
  | rmOf | replayRecord => exact (ReturnsNoError.option (some? := .raw) nofun _ _).raisesOnly
  | frameDf17 | frameOther => exact (ReturnsNoError.candidate _ s).raisesOnly
  -- The other operations that answer a value or absent.
  | mpParse | idDecode | apDecode | avDecode | altDecode | altQ0 | cprDecode
  | meIdentTc1 | meIdentTc2 | meIdentTc3 | meIdentTc4
  | mePositionTc9 | mePositionTc10 | mePositionTc11 | mePositionTc12 | mePositionTc13 | mePositionTc14 | mePositionTc15
  | mePositionTc16 | mePositionTc17 | mePositionTc18 | mePositionTc20 | mePositionTc21 | mePositionTc22
  | meVelocitySt1 | meVelocitySt2 | meVelocitySt3 | meVelocitySt4 =>
    exact (ReturnsNoError.option nofun _ s).raisesOnly
  -- The operations that answer one value.
  | _ => exact .answer nofun

/-- Settles O9: an operation raises its own error before it changes anything, or that of a refill, which a sound window records as an
`IoError` (`exec_raisesOnly`). -/
theorem errorsOnlyWhereNamed : Obligations.ErrorsOnlyWhereNamed :=
  fun i _ t e hs hexec herror => exec_raisesOnly hs i t e hexec herror

end Sys2Proof.Machine
end

section
/-! Velocity (48_velocity.md): the payload of each subtype, by its fields. -/

namespace Sys2Proof.Machine

/-! ## The fields of a payload (R215 to R218) -/

section
variable {st : BitVec 3} {field other : BitVec 10}

/-- A field of 0 is no data (R216). -/
theorem groundOf_eq_none (h : field = 0#10 ∨ other = 0#10) (dew dns : BitVec 1) : groundOf st dew field dns other = none := if_pos h

theorem groundOf_eq_some (hvew : field ≠ 0#10) (hvns : other ≠ 0#10) (dew dns : BitVec 1) :
    groundOf st dew field dns other = some (.ground (component st dew field) (component st dns other)) :=
  if_neg (not_or.2 ⟨hvew, hvns⟩)

theorem airOf_eq_none (h : field = 0#10) (sh : BitVec 1) (hdg : BitVec 10) : airOf st sh hdg field = none := if_pos h

/-- The speed counts from the field 1 on, so it is a natural number of knots (R217). -/
theorem airOf_eq_some (h : field ≠ 0#10) (sh : BitVec 1) (hdg : BitVec 10) :
    ∃ v : Nat, (v : Int) = speedScale st * ((field.toNat : Int) - 1) ∧ airOf st sh hdg field = some (.air v sh hdg) := by
  refine ⟨_, Int.toNat_of_nonneg ?_, if_neg h⟩
  have hpos : field.toNat ≠ 0 := fun h0 => h (BitVec.eq_of_toNat_eq h0)
  have hscale : 0 ≤ speedScale st := by
    unfold speedScale
    split <;> decide
  exact mul_nonneg hscale (by omega)

end

/-! ## The subtypes (R215) -/

section
variable {me : Me}

theorem decodeVelocity_of_ground (h : meLow3 me = 1#3 ∨ meLow3 me = 2#3) :
    decodeVelocity me = groundOf (meLow3 me) (meBit42 me) (meField41 me) (meBit31 me) (meField30 me) := if_pos h

theorem decodeVelocity_of_air (h : meLow3 me = 3#3 ∨ meLow3 me = 4#3) :
    decodeVelocity me = airOf (meLow3 me) (meBit42 me) (meField41 me) (meField30 me) := by
  have hground : ¬(meLow3 me = 1#3 ∨ meLow3 me = 2#3) := by rcases h with h | h <;> rw [h] <;> decide
  exact (if_neg hground).trans (if_pos h)

theorem decodeVelocity_of_rest (h : meLow3 me = 0#3 ∨ meLow3 me = 5#3 ∨ meLow3 me = 6#3 ∨ meLow3 me = 7#3) :
    decodeVelocity me = none := by
  have hground : ¬(meLow3 me = 1#3 ∨ meLow3 me = 2#3) := by rcases h with h | h | h | h <;> rw [h] <;> decide
  have hair : ¬(meLow3 me = 3#3 ∨ meLow3 me = 4#3) := by rcases h with h | h | h | h <;> rw [h] <;> decide
  exact (if_neg hground).trans (if_neg hair)

end

theorem groundRows_scale {row : BitVec 3 × Int × (BitVec 5 → BitVec 1 → BitVec 10 → BitVec 1 → BitVec 10 → BitVec 21 → Instr)}
    (h : row ∈ groundRows) : speedScale row.1 = row.2.1 := by
  fin_cases h <;> rfl

theorem airRows_scale {row : BitVec 3 × Int × (BitVec 5 → BitVec 1 → BitVec 10 → BitVec 1 → BitVec 10 → BitVec 21 → Instr)}
    (h : row ∈ airRows) : speedScale row.1 = row.2.1 := by
  fin_cases h <;> rfl

/-! ## The obligation -/

section
variable {raw : RawMessage} (s : State)

theorem exec_avDecode_of_eq_some {p : VelocityPayload} (h : decodeVelocity (frameMe raw.bytes) = some p) :
    exec (.avDecode raw) s = .next (s.respond (messageOf raw (.velocity p))) := by
  rw [exec_avDecode, h]
  rfl

theorem exec_avDecode_of_eq_none (h : decodeVelocity (frameMe raw.bytes) = none) :
    exec (.avDecode raw) s = .next (s.respond .absent) := by
  rw [exec_avDecode, h]
  rfl

end

/-- Settles O51: the subtype chooses `groundOf` or `airOf` on the fields, and each is absent exactly for a speed field of 0. -/
theorem avDecodeResult : Obligations.AvDecodeResult := by
  refine ⟨fun raw s => ?_, fun row hrow u dew vew dns vns u' s => ?_, fun row hrow u sh hdg b31 airspeed u' s => ?_⟩
  · intro me st b42 f41 b31 f30 reply
    refine ⟨fun hst hf41 hf30 => ?_, fun hst h => ?_, fun hst h => ?_, fun hst h => ?_, fun hst => ?_⟩
    · exact exec_avDecode_of_eq_some s ((decodeVelocity_of_ground hst).trans (groundOf_eq_some hf41 hf30 _ _))
    · exact exec_avDecode_of_eq_none s ((decodeVelocity_of_ground hst).trans (groundOf_eq_none h _ _))
    · obtain ⟨v, hv, hair⟩ := airOf_eq_some (st := st) h b42 f41
      exact ⟨v, hv, exec_avDecode_of_eq_some s ((decodeVelocity_of_air hst).trans hair)⟩
    · exact exec_avDecode_of_eq_none s ((decodeVelocity_of_air hst).trans (airOf_eq_none h _ _))
    · exact exec_avDecode_of_eq_none s (decodeVelocity_of_rest hst)
  · rw [exec_groundRow hrow, ← groundRows_scale hrow]
    exact ⟨fun hvew hvns => answerOption_of_eq_some s (groundOf_eq_some hvew hvns dew dns),
      fun h => answerOption_of_eq_none s (groundOf_eq_none h dew dns)⟩
  · rw [exec_airRow hrow, ← airRows_scale hrow]
    refine ⟨fun h => ?_, fun h => answerOption_of_eq_none s (airOf_eq_none h sh hdg)⟩
    obtain ⟨v, hv, hair⟩ := airOf_eq_some (st := row.1) h sh hdg
    exact ⟨v, hv, answerOption_of_eq_some s hair⟩

end Sys2Proof.Machine
end

section
/-! The host's side (60_exceptions.md): the fold of a message into its aircraft (R272 to R274), the purge (R275), and the constructors
of texts (R257). -/

namespace Sys2Proof.Machine

/-! ## The accumulator -/

/-- The update of the aircraft of a message is written to its entry, and nothing else changes (R271, R272). -/
theorem exec_accUpdate (msg : Message) (s : State) : ∃ t, exec (.accUpdate msg) s = .next t ∧
    t = { s with aircraft := t.aircraft, response := .done } ∧
    Mem.read? t.aircraft msg.icao.toNat = some ((aircraftAt s.aircraft msg.icao).update s.params msg) ∧
    ∀ k, k ≠ msg.icao.toNat → Mem.read? t.aircraft k = Mem.read? s.aircraft k :=
  ⟨_, rfl, rfl, Mem.read?_write_same _ _ _, fun _ hk => Mem.read?_write_other _ _ hk⟩

/-- The slots that a position message of a parity leaves: its own is written, the other stays (R272). -/
theorem AircraftState.store_eq (a : AircraftState) (p : StoredPosition) : a.store p = { a with
    slotEven := if p.position.parity = 0#1 then some p else a.slotEven
    slotOdd := if p.position.parity = 0#1 then a.slotOdd else some p } := by
  unfold AircraftState.store
  split <;> rfl

theorem AircraftState.slot_not (a : AircraftState) (parity : BitVec 1) :
    a.slot (~~~parity) = if parity = 0#1 then a.slotOdd else a.slotEven := by
  have hnot : (~~~parity = 0#1) ↔ ¬parity = 0#1 := by
    revert parity
    decide
  simp only [AircraftState.slot, hnot, ite_not]

/-- A position message is stored with its altitude; where the two slots give no position, the old one stays (R272, R274). -/
theorem AircraftState.fold_position (params : Params) (a : AircraftState) (cur : BitVec 64) (p : PositionPayload) {b : AircraftState}
    (hb : b = { a with altitude := some ⟨p.altitudeFt⟩ }.store ⟨cur, p⟩) :
    a.fold params cur (.position p) = { b with position := (resolve params b cur p.parity).or a.position } := by
  have hposition : b.position = a.position := by rw [hb, AircraftState.store_eq]
  have hfold : a.fold params cur (.position p) = match resolve params b cur p.parity with
    | some g => { b with position := some g }
    | none => b := hb ▸ rfl
  rw [hfold, ← hposition]
  cases resolve params b cur p.parity <;> rfl

/-- Two messages pair where the other is less than 1000000000 ns older, on integers (R273). -/
theorem ite_paired_or (cur other : BitVec 64) (found old : Option GeoPos) :
    (if paired cur other then found else none).or old =
      if (cur.toNat : Int) - (other.toNat : Int) < 1000000000 then found.or old else old := by
  by_cases h : (cur.toNat : Int) - (other.toNat : Int) < 1000000000 <;> simp [paired, Config.pairWindowNs, h]

/-- The position after a message: that of the two slots, where both are filled and the message pairs with the other slot (R272). -/
def positionAfter (params : Params) (cur : BitVec 64) (parity : BitVec 1) (even odd other : Option StoredPosition)
    (old : Option GeoPos) : Option GeoPos :=
  match even, odd, other with
  | some e, some o, some other =>
    if (cur.toNat : Int) - (other.timestampNs.toNat : Int) < 1000000000 then
      (cprPosition params e.position.x e.position.y o.position.x o.position.y parity).or old
    else old
  | _, _, _ => old

theorem resolve_or (params : Params) (b : AircraftState) (cur : BitVec 64) (parity : BitVec 1) (old : Option GeoPos) :
    (resolve params b cur parity).or old =
      positionAfter params cur parity b.slotEven b.slotOdd (if parity = 0#1 then b.slotOdd else b.slotEven) old := by
  rw [resolve, AircraftState.slot_not]
  cases b.slotEven with
  | none => cases b.slotOdd <;> simp [positionAfter]
  | some e =>
    cases b.slotOdd with
    | none => simp [positionAfter]
    | some o => by_cases hparity : parity = 0#1 <;> simp only [positionAfter, hparity, if_true, if_false, ite_paired_or]

/-- Settles O58: an update writes the folded aircraft (`exec_accUpdate`); a position is stored, and paired with the other slot. -/
theorem accUpdateFolds : Obligations.AccUpdateFolds := by
  intro ts icao s a updated
  refine ⟨fun p => exec_accUpdate ⟨ts, icao, .identification p⟩ s, fun p => exec_accUpdate ⟨ts, icao, .velocity p⟩ s,
    fun p => ?_⟩
  intro even odd other position
  obtain ⟨t, ht, hframe, hread, hothers⟩ := exec_accUpdate ⟨ts, icao, .position p⟩ s
  refine ⟨t, ht, hframe, hread.trans (congrArg some ?_), hothers⟩
  have hother : (if p.parity = 0#1 then odd else even) = other := by
    simp only [odd, even, other]
    split <;> rfl
  change { a.fold s.params ts (.position p) with lastSeenNs := some ts } = _
  rw [AircraftState.fold_position s.params a ts p (AircraftState.store_eq _ _).symm, resolve_or, hother]
  rfl

/-! ## The purge -/

/-- Settles O59: the map keeps the entries that are not silent (`Mem.read?_keep`). -/
theorem purgeEvictsSilent : Obligations.PurgeEvictsSilent := by
  intro s now rest hwf hqueue
  refine ⟨purge now { s with queue := rest }, step_of_queue hqueue, rfl, fun k => ?_⟩
  refine (Mem.read?_keep (fun a => !silent s.params.purgeNs now a) hwf k).trans ?_
  cases Mem.read? s.aircraft k with
  | none => rfl
  | some a =>
    cases hseen : a.lastSeenNs with
    | none => simp [silent, hseen]
    | some seen => by_cases h : (s.params.purgeNs : Int) < (now : Int) - (seen.toNat : Int) <;> simp [silent, hseen, h]

/-! ## The constructors -/

theorem callSignOk_iff (text : List Byte) : callSignOk text = true ↔ text.length ≤ 8 ∧ ∀ c ∈ text,
    (65 ≤ c.toNat ∧ c.toNat ≤ 90) ∨ (48 ≤ c.toNat ∧ c.toNat ≤ 57) ∨ c.toNat = 32 := by
  simp only [callSignOk, Bool.and_eq_true, decide_eq_true_eq, List.all_eq_true, callSignChar_iff]

theorem hexValue_hexDigit (n : BitVec 4) : hexValue (hexDigit n) = some n := by
  revert n
  decide

/-- A code outside the three ranges of hexadecimal digits has no value (R257). -/
theorem hexValue_eq_none {c : Byte} (hdigit : ¬(48 ≤ c.toNat ∧ c.toNat ≤ 57)) (hupper : ¬(65 ≤ c.toNat ∧ c.toNat ≤ 70))
    (hlower : ¬(97 ≤ c.toNat ∧ c.toNat ≤ 102)) : hexValue c = none := by
  simp only [hexValue, if_neg hdigit, if_neg hupper]
  exact if_neg fun h => hlower ⟨h.1, h.2.1⟩

theorem icaoDigits_eq_none {text : List Byte} {c : Byte} (hc : c ∈ text) (h : hexValue c = none) (acc : Icao) :
    icaoDigits acc text = none := by
  induction text generalizing acc with
  | nil => cases hc
  | cons d rest ih =>
    rw [icaoDigits]
    rcases List.mem_cons.mp hc with rfl | hrest
    · rw [h, Option.bind_none]
    · cases hexValue d with
      | none => rfl
      | some n => exact ih hrest _

/-- Appending the next nibble to the digits above it. -/
theorem ushiftRight_append_nibble (a : Icao) (n : Nat) :
    ((a >>> (4 * (n + 1))) <<< 4) ||| (a.extractLsb' (4 * n) 4).setWidth 24 = a >>> (4 * n) := by
  apply BitVec.eq_of_getLsbD_eq
  intro i hi
  by_cases h : i < 4
  · simp [h, hi]
  · simp [h, hi, show 4 * (n + 1) + (i - 4) = 4 * n + i by omega]

/-- The digits of the low `n` nibbles, appended to the digits above them, are the address. -/
theorem icaoDigits_nibbles (a : Icao) (n : Nat) :
    icaoDigits (a >>> (4 * n)) ((List.range n).map fun k => hexDigit (a.extractLsb' (4 * (n - 1 - k)) 4)) = some a := by
  induction n with
  | zero => simp [icaoDigits]
  | succ n ih =>
    have hrest : (List.range (n + 1)).map (fun k => hexDigit (a.extractLsb' (4 * (n + 1 - 1 - k)) 4)) =
        hexDigit (a.extractLsb' (4 * n) 4) ::
          (List.range n).map fun k => hexDigit (a.extractLsb' (4 * (n - 1 - k)) 4) := by
      rw [List.range_succ_eq_map, List.map_cons, List.map_map]
      congr 1
      refine List.map_congr_left fun k _ => ?_
      simp only [Function.comp_apply]
      congr 3
      omega
    rw [hrest, icaoDigits, hexValue_hexDigit, Option.bind_some, ushiftRight_append_nibble, ih]

theorem icaoOfText_icaoText (a : Icao) : icaoOfText (icaoText a) = some a := by
  have hzero : a >>> (4 * 6) = 0#24 := BitVec.ushiftRight_eq_zero (by decide)
  rw [icaoOfText, if_pos (icaoText_length a), ← hzero]
  exact icaoDigits_nibbles a 6

theorem newIcaoAddress_of_eq_none {text : List Byte} (h : icaoOfText text = none) (s : State) :
    newIcaoAddress text s = .next (s.respond (.error ⟨.configError, textInfo text⟩)) := by
  rw [newIcaoAddress, h]
  rfl

theorem newIcaoAddress_of_eq_some {text : List Byte} {a : Icao} (h : icaoOfText text = some a) (s : State) :
    newIcaoAddress text s = .next (s.respond (.icao a)) := by
  rw [newIcaoAddress, h]
  rfl

/-- Settles O60: a call sign is checked against its pattern; six digits of an address spell it nibble by nibble
(`icaoDigits_nibbles`), and one bad character leaves the text without a value. -/
theorem hostConstructors : Obligations.HostConstructors := by
  refine ⟨fun s text rest hqueue => ⟨fun hfits => ?_, fun hfits => ?_⟩, fun s a rest hqueue => ?_,
    fun s text rest hqueue hbad => ?_⟩
  · exact (step_of_queue hqueue).trans (if_pos ((callSignOk_iff text).2 hfits))
  · exact (step_of_queue hqueue).trans (if_neg fun hok => hfits ((callSignOk_iff text).1 hok))
  · exact (step_of_queue hqueue).trans (newIcaoAddress_of_eq_some (icaoOfText_icaoText a) _)
  · refine (step_of_queue hqueue).trans (newIcaoAddress_of_eq_none ?_ _)
    rw [icaoOfText]
    split
    · rename_i hlength
      obtain hne | ⟨c, hc, hdigit, hupper, hlower⟩ := hbad
      · exact absurd hlength hne
      · exact icaoDigits_eq_none hc (hexValue_eq_none hdigit hupper hlower) _
    · rfl

end Sys2Proof.Machine
end

section
/-! Rounding and the candidates of the CPR solver (49_cpr.md R231 to R237). -/

namespace Sys2Proof.Machine

/-! ## Rounding (R237) -/

section
variable {num : Int} {den : Nat}

/-- `r` is one of the integers nearest to `num / den`. -/
def Nearest (num : Int) (den : Nat) (r : Int) : Prop :=
  2 * num - den ≤ 2 * den * r ∧ 2 * den * r ≤ 2 * num + den

/-- `num / den` lies half-way between two integers. -/
def Tie (num : Int) (den : Nat) : Prop := (2 * num + den) % (2 * den) = 0

theorem halfUp_eq : roundQuotient .halfUp num den = (2 * num + den) / (2 * den) := rfl

theorem halfUp_bounds (hden : 0 < den) :
    2 * den * roundQuotient .halfUp num den ≤ 2 * num + den ∧
      2 * num + den < 2 * den * roundQuotient .halfUp num den + 2 * den := by
  have hpos : (0 : Int) < 2 * den := by omega
  exact ⟨Int.mul_ediv_self_le hpos.ne', Int.lt_mul_ediv_self_add hpos⟩

theorem halfUp_of_tie (htie : Tie num den) : 2 * den * roundQuotient .halfUp num den = 2 * num + den :=
  Int.mul_ediv_cancel' (Int.dvd_of_emod_eq_zero htie)

/-- `round` is the one integer from which `num / den` is at most a half up and less than a half down. -/
theorem halfUp_unique (hden : 0 < den) {r : Int} (hle : 2 * den * r ≤ 2 * num + den) (hlt : 2 * num + den < 2 * den * r + 2 * den) :
    roundQuotient .halfUp num den = r := by
  have hpos : (0 : Int) < 2 * den := by omega
  refine le_antisymm (Int.lt_add_one_iff.1 (Int.ediv_lt_of_lt_mul hpos (by linarith))) ?_
  exact (Int.le_ediv_iff_mul_le hpos).2 (by linarith)

theorem halfEven_of_not_tie (htie : ¬Tie num den) : roundQuotient .halfEven num den = roundQuotient .halfUp num den :=
  if_neg fun h => htie h.1

theorem halfEven_of_tie (htie : Tie num den) : roundQuotient .halfEven num den =
    if roundQuotient .halfUp num den % 2 = 1 then roundQuotient .halfUp num den - 1 else roundQuotient .halfUp num den := by
  have hcond : ((2 * num + den) % (2 * den) = 0 ∧ roundQuotient .halfUp num den % 2 = 1) ↔
      roundQuotient .halfUp num den % 2 = 1 := and_iff_right htie
  exact if_congr hcond rfl rfl

theorem halfAway_of_nonneg (h : 0 ≤ num) : roundQuotient .halfAway num den = roundQuotient .halfUp num den := if_pos h

theorem halfAway_of_neg (h : num < 0) : roundQuotient .halfAway num den = -roundQuotient .halfUp (-num) den :=
  if_neg (not_le.2 h)

theorem tie_neg (htie : Tie num den) : Tie (-num) den := by
  obtain ⟨k, hk⟩ := Int.dvd_of_emod_eq_zero htie
  exact Int.emod_eq_zero_of_dvd ⟨1 - k, by linear_combination -hk⟩

/-- Away from ties the settings agree (R237). -/
theorem roundQuotient_of_not_tie (hden : 0 < den) (htie : ¬Tie num den) (ties : RoundTies) :
    roundQuotient ties num den = roundQuotient .halfUp num den := by
  cases ties with
  | halfUp => rfl
  | halfEven => exact halfEven_of_not_tie htie
  | halfAway =>
    obtain h | h := le_or_gt 0 num
    · exact halfAway_of_nonneg h
    · obtain ⟨hle, hlt⟩ := halfUp_bounds (num := -num) hden
      have hne : 2 * num + den ≠ 2 * den * (-roundQuotient .halfUp (-num) den) + 2 * den := fun heq =>
        htie (Int.emod_eq_zero_of_dvd ⟨-roundQuotient .halfUp (-num) den + 1, by linarith⟩)
      rw [halfAway_of_neg h]
      refine (halfUp_unique hden (by linarith) (lt_of_le_of_ne (by linarith) hne)).symm

/-- Every setting rounds to a nearest integer. -/
theorem nearest_roundQuotient (hden : 0 < den) (ties : RoundTies) : Nearest num den (roundQuotient ties num den) := by
  have hup : ∀ n : Int, Nearest n den (roundQuotient .halfUp n den) := fun n => by
    obtain ⟨hle, hlt⟩ := halfUp_bounds (num := n) hden
    exact ⟨by linarith, hle⟩
  cases ties with
  | halfUp => exact hup num
  | halfEven =>
    by_cases htie : Tie num den
    · have hexact := halfUp_of_tie htie
      rw [halfEven_of_tie htie]
      split
      · exact ⟨by linarith, by linarith⟩
      · exact hup num
    · rw [halfEven_of_not_tie htie]
      exact hup num
  | halfAway =>
    obtain h | h := le_or_gt 0 num
    · rw [halfAway_of_nonneg h]
      exact hup num
    · obtain ⟨hlow, hhigh⟩ := hup (-num)
      rw [halfAway_of_neg h]
      exact ⟨by linarith, by linarith⟩

/-- Rounding stays between integers. -/
theorem le_roundQuotient (hden : 0 < den) (ties : RoundTies) {lo : Int} (h : den * lo ≤ num) : lo ≤ roundQuotient ties num den := by
  obtain ⟨hlow, -⟩ := nearest_roundQuotient (num := num) hden ties
  by_contra hlt
  have hpos : (0 : Int) < den := by exact_mod_cast hden
  have : 2 * den * (roundQuotient ties num den + 1) ≤ 2 * den * lo := mul_le_mul_of_nonneg_left (by omega) (by omega)
  linarith

theorem roundQuotient_le (hden : 0 < den) (ties : RoundTies) {hi : Int} (h : num ≤ den * hi) : roundQuotient ties num den ≤ hi := by
  obtain ⟨-, hhigh⟩ := nearest_roundQuotient (num := num) hden ties
  by_contra hlt
  have hpos : (0 : Int) < den := by exact_mod_cast hden
  have : 2 * den * (hi + 1) ≤ 2 * den * roundQuotient ties num den := mul_le_mul_of_nonneg_left (by omega) (by omega)
  linarith

end

/-- Settles O57: `round` is an integer division, the floor; the settings part only where the division is exact (`Tie`). -/
theorem roundingAtTies : Obligations.RoundingAtTies := by
  intro num den hden
  have hcast : (0 : ℚ) < den := by exact_mod_cast hden
  refine ⟨?_, fun ties => ?_, fun htie => ⟨halfEven_of_not_tie htie, roundQuotient_of_not_tie hden htie _⟩,
    fun htie => ⟨?_, ?_, ?_⟩⟩
  · have hsum : (num : ℚ) / den + 1 / 2 = ((2 * num + den : Int) : ℚ) / ((2 * den : Nat) : ℚ) := by
      push_cast
      field_simp
    rw [hsum, Rat.floor_intCast_div_natCast, halfUp_eq]
    rfl
  · obtain ⟨hlow, hhigh⟩ := nearest_roundQuotient (num := num) hden ties
    have hlow' : 2 * (num : ℚ) - den ≤ 2 * den * roundQuotient ties num den := by exact_mod_cast hlow
    have hhigh' : 2 * (den : ℚ) * roundQuotient ties num den ≤ 2 * num + den := by exact_mod_cast hhigh
    rw [abs_le, le_sub_iff_add_le, sub_le_iff_le_add, le_div_iff₀ hcast, div_le_iff₀ hcast]
    constructor <;> linarith
  · rw [halfEven_of_tie htie]
    split <;> omega
  · exact fun hpos => halfAway_of_nonneg hpos.le
  · intro hneg
    have hexact := halfUp_of_tie htie
    have hexact' := halfUp_of_tie (tie_neg htie)
    have hpos : (0 : Int) < 2 * den := by omega
    rw [halfAway_of_neg hneg]
    refine mul_left_cancel₀ hpos.ne' ?_
    linarith

/-! ## Ranges of one coordinate (R231, R232, R234, R236) -/

/-- A normalised coordinate with the denominator `den`: half a turn to either side, the lower end included. -/
def Normalised (den : Nat) (t : Turns) : Prop := t.den = den ∧ -(den : Int) ≤ 2 * t.num ∧ 2 * t.num < den

/-- The fraction of a CPR field is less than one zone. -/
theorem cprField_range (v : BitVec 17) : 0 ≤ (v.toNat : Int) ∧ (v.toNat : Int) ≤ 131071 := by
  have := v.isLt
  omega

theorem normalised_norm {num : Int} {den : Nat} (hlow : -(den : Int) ≤ 2 * num) (hhigh : 2 * num < 3 * den) :
    Normalised den (Turns.norm num den) := by
  unfold Turns.norm
  split
  · exact ⟨rfl, by dsimp only; omega, by dsimp only; omega⟩
  · exact ⟨rfl, hlow, by dsimp only; omega⟩

section
variable (ties : RoundTies) {n : Nat} (v0 v1 : BitVec 17)

theorem zoneIndex_range (hn : 1 ≤ n) : -(n : Int) ≤ zoneIndex ties n v0 v1 ∧ zoneIndex ties n v0 v1 ≤ (n : Int) - 1 := by
  have h0 := cprField_range v0
  have h1 := cprField_range v1
  have heven : 0 ≤ (v0.toNat : Int) * ((n : Int) - 1) := mul_nonneg h0.1 (by omega)
  have heven' : (v0.toNat : Int) * ((n : Int) - 1) ≤ 131071 * ((n : Int) - 1) := mul_le_mul_of_nonneg_right h0.2 (by omega)
  have hodd : 0 ≤ (v1.toNat : Int) * n := mul_nonneg h1.1 (by omega)
  have hodd' : (v1.toNat : Int) * n ≤ 131071 * n := mul_le_mul_of_nonneg_right h1.2 (by omega)
  exact ⟨le_roundQuotient (by decide) ties (by push_cast; linarith), roundQuotient_le (by decide) ties (by push_cast; linarith)⟩

/-- Both candidates of a coordinate with at least two zones are normalised. Two zones alone leave the odd one no room, and there the
rounding of the zone index bounds the odd field. -/
theorem normalised_candidates (hn : 2 ≤ n) :
    Normalised (n * 131072) (candidates ties n v0 v1).even ∧ Normalised ((n - 1) * 131072) (candidates ties n v0 v1).odd := by
  have h0 := cprField_range v0
  have h1 := cprField_range v1
  obtain ⟨hz, hz'⟩ := zoneIndex_range ties v0 v1 (by omega : 1 ≤ n)
  obtain ⟨hnear, hnear'⟩ : Nearest _ _ (zoneIndex ties n v0 v1) := nearest_roundQuotient (by decide) ties
  simp only [candidates, zoneFrom]
  generalize zoneIndex ties n v0 v1 = z at *
  constructor
  · refine normalised_norm ?_ ?_ <;> split <;> push_cast <;> omega
  · have htwo : n = 2 ∨ 3 ≤ n := by omega
    refine normalised_norm ?_ ?_
    · obtain rfl | hthree := htwo
      · split <;> push_cast at * <;> omega
      · split <;> push_cast [Nat.cast_sub (show 1 ≤ n by omega)] <;> omega
    · obtain rfl | hthree := htwo
      · split <;> push_cast at * <;> omega
      · split <;> push_cast [Nat.cast_sub (show 1 ≤ n by omega)] <;> omega

/-- With one zone the fractions are the coordinates (R234). -/
theorem normalised_longitudes (hn : 1 ≤ n) :
    Normalised (n * 131072) (longitudes ties n v0 v1).even ∧
      Normalised (if n = 1 then 131072 else (n - 1) * 131072) (longitudes ties n v0 v1).odd := by
  have h0 := cprField_range v0
  have h1 := cprField_range v1
  unfold longitudes
  by_cases hone : n = 1
  · subst hone
    rw [if_pos rfl, if_pos rfl]
    exact ⟨normalised_norm (by omega) (by omega), normalised_norm (by omega) (by omega)⟩
  · simp only [if_neg hone]
    exact normalised_candidates ties v0 v1 (by omega)

end

/-! ## The conversion to T32 units (R79, R236) -/

section
variable {t : Turns} {m : Nat}

/-- A tie would make `2^16` divide the zone count: the numerator carries `2^33` and the denominator only `2^17`. -/
theorem not_tie_toT32 (hm : 1 ≤ m ∧ m ≤ 60) (hden : t.den = m * 131072) : ¬Tie (t.num * 2 ^ 32) t.den := by
  intro htie
  obtain ⟨k, hk⟩ := Int.dvd_of_emod_eq_zero htie
  have hfactor : (m : Int) * (2 * k - 1) = 2 ^ 16 * t.num := by
    rw [hden] at hk
    push_cast at hk
    linarith
  have hcoprime : IsCoprime ((2 : Int) ^ 16) (2 * k - 1) := IsCoprime.pow_left ⟨k, -1, by ring⟩
  have hdvd : (2 : Int) ^ 16 ∣ m := hcoprime.dvd_of_dvd_mul_right ⟨t.num, hfactor⟩
  have := Int.le_of_dvd (by omega) hdvd
  omega

/-- The T32 value of a normalised coordinate does not depend on `ROUND_TIES`, and stays clear of the upper half turn by more than half
a step of the coarsest grid. -/
theorem Normalised.toT32_range (ht : Normalised (m * 131072) t) (hm : 1 ≤ m ∧ m ≤ 60) (ties ties' : RoundTies) :
    toT32 ties t = toT32 ties' t ∧ -2 ^ 31 ≤ toT32 ties t ∧ toT32 ties t ≤ 2 ^ 31 - 277 := by
  obtain ⟨hden, hlow, hhigh⟩ := ht
  have hpos : 0 < t.den := by omega
  have htie := not_tie_toT32 hm hden
  have hscale : toT32 ties t = roundQuotient ties (t.num * 2 ^ 32) t.den := rfl
  have hscale' : toT32 ties' t = roundQuotient ties' (t.num * 2 ^ 32) t.den := rfl
  rw [hscale, hscale']
  refine ⟨?_, le_roundQuotient hpos ties ?_, roundQuotient_le hpos ties ?_⟩
  · rw [roundQuotient_of_not_tie hpos htie ties, roundQuotient_of_not_tie hpos htie ties']
  · rw [hden]
    push_cast at *
    omega
  · rw [hden]
    push_cast at *
    omega

end

/-- Settles O56: rounding keeps a zone index between the zones (`zoneIndex_range`), so each candidate is normalised, and `2^16` divides no
zone count (`not_tie_toT32`). -/
theorem cprCandidateRanges : Obligations.CprCandidateRanges := by
  unfold Obligations.CprCandidateRanges
  intro inRange
  have hrange : ∀ {t : Turns} {den m : Nat}, den = m * 131072 → 1 ≤ m ∧ m ≤ 60 → Normalised den t → inRange t den := by
    rintro t den m rfl hm ht
    exact ⟨ht.1, ht.2.1, ht.2.2, not_tie_toT32 hm ht.1, ht.toT32_range hm⟩
  refine ⟨fun ties y0 y1 => ?_, fun ties nl x0 x1 hlow hhigh => ?_⟩
  · intro zphi c
    obtain ⟨hz, hz'⟩ : -60 ≤ zphi ∧ zphi ≤ 59 := zoneIndex_range ties y0 y1 (n := 60) (by decide)
    obtain ⟨heven, hodd⟩ := normalised_candidates ties y0 y1 (n := 60) (by decide)
    have hfrom : ∀ count : Int, zoneFrom zphi count = if zphi < 0 then zphi + count else zphi := fun _ => rfl
    simp only [hfrom]
    exact ⟨hz', hz, by split <;> omega, by split <;> omega, by split <;> omega, by split <;> omega,
      hrange (m := 60) rfl (by decide) heven, hrange (m := 59) rfl (by decide) hodd⟩
  · intro zlam c
    obtain ⟨hz, hz'⟩ := zoneIndex_range ties x0 x1 hlow
    obtain ⟨heven, hodd⟩ := normalised_longitudes ties x0 x1 hlow
    refine ⟨hz', hz, hrange rfl ⟨hlow, hhigh⟩ heven, ?_⟩
    by_cases hone : nl = 1
    · exact hrange (m := 1) (by rw [if_pos hone]) (by decide) hodd
    · exact hrange (m := nl - 1) (by rw [if_neg hone]) (by omega) hodd

end Sys2Proof.Machine
end

section
/-! Bounds on the cosines of the thresholds of `CPR.NL` (R238, R239): from the square of a small angle, doubled without a square root,
fine enough to tell the printed thresholds from their neighbours. -/

namespace Sys2Proof.Machine

/-! ## Doubling an angle -/

/-- The scale of the bounds. -/
def versineScale : Nat := 2 ^ 128

/-- The pair encloses `scale * (1 - cos x)`. -/
def Encloses (b : Nat × Nat) (x : ℝ) : Prop :=
  (b.1 : ℝ) ≤ versineScale * (1 - Real.cos x) ∧ versineScale * (1 - Real.cos x) ≤ b.2

/-- The bounds for twice the angle: `1 - cos 2x` is `2 (1 - cos x) (2 - (1 - cos x))`. -/
def versineStep (b : Nat × Nat) : Nat × Nat :=
  (2 * b.1 * (2 * versineScale - b.1) / versineScale,
    2 * (min b.2 versineScale) * (2 * versineScale - min b.2 versineScale) / versineScale + 1)

theorem versineScale_pos : (0 : ℝ) < versineScale := by
  norm_num [versineScale]

theorem cast_div_lt (a b : Nat) : (a : ℝ) / b < ((a / b + 1 : Nat) : ℝ) := by
  rw [Nat.cast_add_one, ← Nat.floor_div_eq_div (K := ℝ)]
  exact Nat.lt_floor_add_one _

/-- Up to a right angle the doubling is monotone, so it takes bounds to bounds. -/
theorem Encloses.double {b : Nat × Nat} {x : ℝ} (h : Encloses b x) (h0 : 0 ≤ x) (h1 : x ≤ Real.pi / 2) :
    Encloses (versineStep b) (2 * x) := by
  obtain ⟨hlow, hhigh⟩ := h
  have hS := versineScale_pos
  have hcos : 0 ≤ Real.cos x := Real.cos_nonneg_of_neg_pi_div_two_le_of_le (by linarith) h1
  have hv0 : 0 ≤ versineScale * (1 - Real.cos x) := mul_nonneg hS.le (by linarith [Real.cos_le_one x])
  have hv1 : versineScale * (1 - Real.cos x) ≤ versineScale := mul_le_of_le_one_right hS.le (by linarith)
  have hdouble : versineScale * (1 - Real.cos (2 * x)) =
      2 * (versineScale * (1 - Real.cos x)) * (2 * versineScale - versineScale * (1 - Real.cos x)) / versineScale := by
    rw [Real.cos_two_mul]
    field_simp
    ring
  unfold Encloses
  rw [hdouble]
  generalize (versineScale : ℝ) * (1 - Real.cos x) = v at *
  have hmin : v ≤ ((min b.2 versineScale : Nat) : ℝ) := by
    rw [Nat.cast_min]
    exact le_min hhigh hv1
  have hmin' : min b.2 versineScale ≤ versineScale := min_le_right _ _
  have hmin'' : ((min b.2 versineScale : Nat) : ℝ) ≤ versineScale := by exact_mod_cast hmin'
  have hle : b.1 ≤ 2 * versineScale := by
    have : (b.1 : ℝ) ≤ 2 * versineScale := by linarith
    exact_mod_cast this
  constructor
  · refine Nat.cast_div_le.trans ?_
    rw [div_le_div_iff_of_pos_right hS]
    push_cast [Nat.cast_sub hle]
    nlinarith
  · refine le_trans ?_ (cast_div_lt _ _).le
    rw [div_le_div_iff_of_pos_right hS]
    generalize min b.2 versineScale = m at *
    push_cast [Nat.cast_sub (show m ≤ 2 * versineScale by omega)]
    nlinarith

/-! ## A small angle -/

/-- `scale * x² / 2` for the angle `x` of `p * num / (den * 2^32)`, where `p` is an approximation of `π`, scaled by `10^20`. -/
def halfSquare (p num den : Nat) : Nat := versineScale * (num * p) ^ 2 / (2 * (den * 2 ^ 32 * 10 ^ 20) ^ 2)

/-- The bounds for the angle `π num / (den * 2^32)`: `x² / 2`, and that less a term of the order `x⁴`. -/
def versineStart (num den : Nat) : Nat × Nat :=
  let t := halfSquare 314159265358979323846 num den
  (t - (t * t / versineScale + 1), halfSquare 314159265358979323847 num den + 1)

section
variable {p num den : Nat}

theorem halfSquare_eq (hd : 0 < den) : (versineScale : ℝ) * ((Real.pi * num / (den * 2 ^ 32)) ^ 2 / 2) =
    versineScale * (num * (Real.pi * 10 ^ 20)) ^ 2 / (2 * (den * 2 ^ 32 * 10 ^ 20) ^ 2) := by
  have hd' : (den : ℝ) ≠ 0 := by exact_mod_cast hd.ne'
  field_simp

theorem halfSquare_le (hd : 0 < den) (hp : (p : ℝ) ≤ Real.pi * 10 ^ 20) :
    (halfSquare p num den : ℝ) ≤ versineScale * ((Real.pi * num / (den * 2 ^ 32)) ^ 2 / 2) := by
  rw [halfSquare_eq hd]
  refine Nat.cast_div_le.trans ?_
  push_cast
  gcongr <;> norm_num

theorem le_halfSquare_add_one (hd : 0 < den) (hp : Real.pi * 10 ^ 20 ≤ p) :
    versineScale * ((Real.pi * num / (den * 2 ^ 32)) ^ 2 / 2) ≤ ((halfSquare p num den + 1 : Nat) : ℝ) := by
  rw [halfSquare_eq hd]
  refine le_trans ?_ (cast_div_lt _ _).le
  have hpi := Real.pi_pos
  push_cast
  gcongr <;> norm_num

/-- The fraction of a straight angle that is left at the start. -/
theorem startAngle_range (hd : 0 < den) (h : num ≤ den) :
    0 ≤ Real.pi * num / (den * 2 ^ 32) ∧ 2 ^ 32 * (Real.pi * num / (den * 2 ^ 32)) ≤ Real.pi := by
  have hpi := Real.pi_pos
  have hd' : (0 : ℝ) < den := by exact_mod_cast hd
  have hle : (num : ℝ) ≤ den := by exact_mod_cast h
  refine ⟨by positivity, ?_⟩
  have heq : 2 ^ 32 * (Real.pi * num / (den * 2 ^ 32)) = Real.pi * num / den := by field_simp
  rw [heq, div_le_iff₀ hd']
  exact mul_le_mul_of_nonneg_left hle hpi.le

/-- The lower bound: `1 - cos x` is at least `y - y²` with `y = x² / 2`, which grows with `y`. -/
theorem sub_le_versine {t : Nat} {x : ℝ} (ht : (t : ℝ) ≤ versineScale * (x ^ 2 / 2)) (hx0 : 0 ≤ x) (hx1 : x ≤ 1)
    (hcos : x ^ 2 / 2 - x ^ 4 * (5 / 96) ≤ 1 - Real.cos x) :
    ((t - (t * t / versineScale + 1) : Nat) : ℝ) ≤ versineScale * (1 - Real.cos x) := by
  have hS := versineScale_pos
  obtain hzero | hpos := le_or_gt t (t * t / versineScale + 1)
  · rw [Nat.sub_eq_zero_of_le hzero, Nat.cast_zero]
    exact mul_nonneg hS.le (by linarith [Real.cos_le_one x])
  · have hfloor := cast_div_lt (t * t) versineScale
    rw [div_lt_iff₀ hS] at hfloor
    rw [Nat.cast_sub hpos.le]
    have hsq : x ^ 2 ≤ 1 := pow_le_one₀ hx0 hx1
    generalize ((t * t / versineScale + 1 : Nat) : ℝ) = q at *
    push_cast at hfloor
    have hgrow : versineScale * t - t * t ≤
        versineScale * (versineScale * (x ^ 2 / 2)) - (versineScale * (x ^ 2 / 2)) ^ 2 * (5 / 24) := by
      have hy : versineScale * (x ^ 2 / 2) ≤ versineScale / 2 := by nlinarith
      generalize versineScale * (x ^ 2 / 2) = y at *
      nlinarith [mul_nonneg (sub_nonneg.2 ht) (show (0 : ℝ) ≤ versineScale - 5 / 24 * (y + t) by linarith)]
    have hscaled := mul_le_mul_of_nonneg_left hcos (mul_nonneg hS.le hS.le)
    refine le_of_mul_le_mul_left ?_ hS
    linarith

theorem encloses_versineStart (hd : 0 < den) (h : num ≤ den) :
    Encloses (versineStart num den) (Real.pi * num / (den * 2 ^ 32)) := by
  have hS := versineScale_pos
  have hpi_low := Real.pi_gt_d20
  have hpi_high := Real.pi_lt_d20
  have ht := halfSquare_le (num := num) (p := 314159265358979323846) hd (by norm_num; linarith)
  have hhigh := le_halfSquare_add_one (num := num) (p := 314159265358979323847) hd (by norm_num; linarith)
  obtain ⟨hx0, hx1⟩ := startAngle_range hd h
  unfold versineStart
  generalize halfSquare 314159265358979323846 num den = t at *
  generalize Real.pi * num / (den * 2 ^ 32) = x at *
  have hx : x ≤ 1 := by linarith [Real.pi_lt_four]
  constructor
  · have hcos := (abs_le.1 (Real.cos_bound (abs_le.2 ⟨by linarith, hx⟩))).2
    rw [abs_of_nonneg hx0] at hcos
    exact sub_le_versine (x := x) ht hx0 hx (by linarith)
  · exact (mul_le_mul_of_nonneg_left (by linarith [Real.one_sub_sq_div_two_le_cos (x := x)]) hS.le).trans hhigh

end

/-- The bounds for the angle `π num / den`. -/
def versineBounds (num den : Nat) : Nat × Nat := versineStep^[32] (versineStart num den)

theorem Encloses.iterate {b : Nat × Nat} {x : ℝ} (h : Encloses b x) (h0 : 0 ≤ x) {k : Nat} (hk : 2 ^ k * x ≤ Real.pi) :
    Encloses (versineStep^[k] b) (2 ^ k * x) := by
  induction k with
  | zero => simpa using h
  | succ k ih =>
    have hhalf : 2 ^ k * x ≤ Real.pi / 2 := by
      rw [pow_succ] at hk
      linarith
    rw [Function.iterate_succ_apply', pow_succ', mul_assoc]
    exact (ih (by linarith [Real.pi_pos])).double (by positivity) hhalf

theorem encloses_versineBounds {num den : Nat} (hd : 0 < den) (h : num ≤ den) :
    Encloses (versineBounds num den) (Real.pi * num / den) := by
  have hd' : (den : ℝ) ≠ 0 := by exact_mod_cast hd.ne'
  obtain ⟨hx0, hx1⟩ := startAngle_range hd h
  have hbounds := (encloses_versineStart hd h).iterate hx0 hx1
  rwa [show 2 ^ 32 * (Real.pi * num / (den * 2 ^ 32)) = Real.pi * num / den by field_simp] at hbounds

/-! ## The printed thresholds -/

/-- The bounds show that the two neighbours of a printed threshold, one unit of the last digit away, lie on either side of it. -/
def separated (p : Nat × Nat) : Bool :=
  decide (2 * versineScale * (versineBounds 1 30).2 ≤
    (2 * versineScale - (versineBounds (4 * (p.2 - 1)) 36000000000000).2) * (versineBounds 2 p.1).1) &&
  decide ((2 * versineScale - (versineBounds (4 * (p.2 + 1)) 36000000000000).1) * (versineBounds 2 p.1).2 <
    2 * versineScale * (versineBounds 1 30).1)

theorem separated_nlThresholds : nlThresholds.all separated = true := by decide +kernel

theorem cast_two_mul_sub_le {h : Nat} {v : ℝ} (hv : v ≤ h) (hv' : v ≤ 2 * versineScale) :
    ((2 * versineScale - h : Nat) : ℝ) ≤ 2 * versineScale - v := by
  obtain hle | hgt := le_or_gt h (2 * versineScale)
  · push_cast [Nat.cast_sub hle]
    linarith
  · rw [Nat.sub_eq_zero_of_le hgt.le, Nat.cast_zero]
    linarith

theorem le_cast_two_mul_sub {l : Nat} {v : ℝ} (hv : l ≤ v) (hv' : v ≤ 2 * versineScale) :
    2 * versineScale - v ≤ ((2 * versineScale - l : Nat) : ℝ) := by
  have hle : l ≤ 2 * versineScale := by
    have : (l : ℝ) ≤ 2 * versineScale := hv.trans hv'
    exact_mod_cast this
  push_cast [Nat.cast_sub hle]
  linarith

theorem versine_range (x : ℝ) : 0 ≤ versineScale * (1 - Real.cos x) ∧ versineScale * (1 - Real.cos x) ≤ 2 * versineScale := by
  have hS := versineScale_pos
  constructor <;> nlinarith [Real.cos_le_one x, Real.neg_one_le_cos x]

/-- `gap` with the bounds in place of the cosines: it lies between those of the greatest and the least products. -/
theorem gap_of_bounds {n num den : Nat} {a b c : Nat × Nat} (ha : Encloses a (Real.pi * num / den))
    (hb : Encloses b (2 * Real.pi / n)) (hc : Encloses c (Real.pi / 30)) :
    (2 * versineScale * c.2 ≤ (2 * versineScale - a.2) * b.1 → 0 ≤ gap n num den) ∧
      ((2 * versineScale - a.1) * b.2 < 2 * versineScale * c.1 → gap n num den < 0) := by
  have hS := versineScale_pos
  have hgap : versineScale * versineScale * gap n num den =
      (2 * versineScale - versineScale * (1 - Real.cos (Real.pi * num / den))) * (versineScale * (1 - Real.cos (2 * Real.pi / n))) -
        2 * versineScale * (versineScale * (1 - Real.cos (Real.pi / 30))) := by
    unfold gap
    ring
  obtain ⟨ha1, ha2⟩ := ha
  obtain ⟨hb1, hb2⟩ := hb
  obtain ⟨hc1, hc2⟩ := hc
  obtain ⟨-, harange⟩ := versine_range (Real.pi * num / den)
  obtain ⟨hbpos, -⟩ := versine_range (2 * Real.pi / n)
  have hlow := cast_two_mul_sub_le ha2 harange
  have hhigh := le_cast_two_mul_sub ha1 harange
  generalize (versineScale : ℝ) * (1 - Real.cos (Real.pi * num / den)) = u at *
  generalize (versineScale : ℝ) * (1 - Real.cos (2 * Real.pi / n)) = v at *
  generalize (versineScale : ℝ) * (1 - Real.cos (Real.pi / 30)) = w at *
  constructor
  · intro h
    have h' : 2 * (versineScale : ℝ) * c.2 ≤ ((2 * versineScale - a.2 : Nat) : ℝ) * b.1 := by exact_mod_cast h
    have hprod : ((2 * versineScale - a.2 : Nat) : ℝ) * b.1 ≤ (2 * versineScale - u) * v :=
      mul_le_mul hlow hb1 (Nat.cast_nonneg _) (by linarith)
    have hw : 2 * (versineScale : ℝ) * w ≤ 2 * versineScale * c.2 := by gcongr
    exact nonneg_of_mul_nonneg_right (by linarith : (0 : ℝ) ≤ versineScale * versineScale * gap n num den) (by positivity)
  · intro h
    have h' : ((2 * versineScale - a.1 : Nat) : ℝ) * b.2 < 2 * versineScale * c.1 := by exact_mod_cast h
    have hprod : (2 * versineScale - u) * v ≤ ((2 * versineScale - a.1 : Nat) : ℝ) * b.2 :=
      mul_le_mul hhigh hb2 hbpos (Nat.cast_nonneg _)
    have hw : 2 * (versineScale : ℝ) * c.1 ≤ 2 * versineScale * w := by gcongr
    by_contra hneg
    have := mul_nonneg (mul_nonneg hS.le hS.le) (not_lt.1 hneg)
    linarith

theorem nlThresholds_range : ∀ p ∈ nlThresholds, (3 ≤ p.1 ∧ p.1 ≤ 59) ∧ 1 ≤ p.2 ∧ p.2 + 1 ≤ 8700000000000 := by decide

/-- A printed threshold is right to one unit of its last digit (R239). -/
theorem gap_neighbours {p : Nat × Nat} (hp : p ∈ nlThresholds) :
    0 ≤ gap p.1 (4 * (p.2 - 1)) 36000000000000 ∧ gap p.1 (4 * (p.2 + 1)) 36000000000000 < 0 := by
  obtain ⟨⟨hn, -⟩, -, hprinted⟩ := nlThresholds_range p hp
  obtain ⟨hbelow, habove⟩ := Bool.and_eq_true_iff.1 (List.all_eq_true.1 separated_nlThresholds p hp)
  have hb : Encloses (versineBounds 2 p.1) (2 * Real.pi / p.1) := by
    have := encloses_versineBounds (num := 2) (den := p.1) (by omega) (by omega)
    rwa [Nat.cast_two, mul_comm] at this
  have hc : Encloses (versineBounds 1 30) (Real.pi / 30) := by
    have := encloses_versineBounds (num := 1) (den := 30) (by decide) (by decide)
    rwa [Nat.cast_one, mul_one, Nat.cast_ofNat] at this
  exact ⟨(gap_of_bounds (encloses_versineBounds (by decide) (by omega)) hb hc).1 (of_decide_eq_true hbelow),
    (gap_of_bounds (encloses_versineBounds (by decide) (by omega)) hb hc).2 (of_decide_eq_true habove)⟩

end Sys2Proof.Machine
end

section
/-! The zone count `CPR.NL` (49_cpr.md R238, R239): the first threshold at or above the latitude, by the integer table on the grids of the
solver. -/

namespace Sys2Proof.Machine

/-! ## The search of the table -/

theorem nlThresholds_falling : nlThresholds.Pairwise fun p q => q.1 < p.1 := by decide

theorem nlThresholds_rising : ∀ p ∈ nlThresholds, ∀ q ∈ nlThresholds, q.1 ≤ p.1 → p.2 ≤ q.2 := by decide +kernel

/-- Where the test of a row implies that of every row of a smaller count, the row found is the greatest that passes. -/
theorem find?_nlThresholds {test : Nat × Nat → Bool}
    (hmono : ∀ p ∈ nlThresholds, ∀ q ∈ nlThresholds, q.1 ≤ p.1 → test p = true → test q = true) {p : Nat × Nat}
    (hp : nlThresholds.find? test = some p) {q : Nat × Nat} (hq : q ∈ nlThresholds) : q.1 ≤ p.1 ↔ test q = true := by
  have hmem := List.mem_of_find?_eq_some hp
  obtain ⟨hpass, before, after, hsplit, hbefore⟩ := List.find?_eq_some_iff_append.1 hp
  constructor
  · exact fun hle => hmono p hmem q hq hle hpass
  · intro hqpass
    have hfalling := nlThresholds_falling
    rw [hsplit] at hfalling hq
    obtain ⟨-, hafter, -⟩ := List.pairwise_append.1 hfalling
    rcases List.mem_append.1 hq with hq | hq
    · exact absurd hqpass (by simpa using hbefore q hq)
    · rcases List.mem_cons.1 hq with rfl | hq
      · exact le_rfl
      · exact ((List.pairwise_cons.1 hafter).1 q hq).le

section
variable (params : Params) {phi : Turns}

/-- The count beyond the last threshold of the table: 2 up to 87 degrees, which is the tie point (b), and 1 from there on (R238). -/
def polarCount (phi : Turns) : Nat :=
  if phi.num.natAbs * 120 < 29 * phi.den then 2
  else if phi.num.natAbs * 120 = 29 * phi.den then (if params.nlAt87DegreesIs2 then 2 else 1)
  else 1

theorem zoneCount_equator (h : phi.num = 0) : zoneCount params phi = if params.nlAtEquatorIs59 then 59 else 60 := if_pos h

theorem zoneCount_cases (h : phi.num ≠ 0) :
    (∃ p ∈ nlThresholds, nlThresholds.find? (fun p => atOrBelow p.1 p.2 phi) = some p ∧ zoneCount params phi = p.1) ∨
      (nlThresholds.find? (fun p => atOrBelow p.1 p.2 phi) = none ∧ zoneCount params phi = polarCount params phi) := by
  rw [zoneCount, if_neg h]
  cases hfind : nlThresholds.find? fun p => atOrBelow p.1 p.2 phi with
  | some p => exact .inl ⟨p, List.mem_of_find?_eq_some hfind, rfl, rfl⟩
  | none => exact .inr ⟨rfl, rfl⟩

theorem polarCount_range : 1 ≤ polarCount params phi ∧ polarCount params phi ≤ 2 := by
  unfold polarCount
  split_ifs <;> decide

/-- Every threshold of the table lies below 87 degrees. -/
theorem lt_of_atOrBelow (hden : phi.den ≠ 0) {p : Nat × Nat} (hp : p ∈ nlThresholds) (h : atOrBelow p.1 p.2 phi = true) :
    phi.num.natAbs * 120 < 29 * phi.den := by
  obtain ⟨-, -, hprinted⟩ := nlThresholds_range p hp
  have hle : (p.2 + 1) * phi.den ≤ 8700000000000 * phi.den := Nat.mul_le_mul_right _ hprinted
  have hlow : (p.2 - 1) * phi.den ≤ p.2 * phi.den := Nat.mul_le_mul_right _ (by omega)
  have hpos := Nat.pos_of_ne_zero hden
  rw [add_mul] at hle
  unfold atOrBelow at h
  dsimp only at h
  split_ifs at h with h1 h2
  · omega
  · rw [add_mul] at h2
    omega

theorem zoneCount_range (phi : Turns) : 1 ≤ zoneCount params phi ∧ zoneCount params phi ≤ 60 := by
  by_cases hnum : phi.num = 0
  · rw [zoneCount_equator params hnum]
    split <;> decide
  · rcases zoneCount_cases params hnum with ⟨p, hp, -, h⟩ | ⟨-, h⟩ <;> rw [h]
    · have := (nlThresholds_range p hp).1
      omega
    · have := polarCount_range params (phi := phi)
      omega

theorem zoneCount_le_59 (hnum : phi.num ≠ 0) : zoneCount params phi ≤ 59 := by
  rcases zoneCount_cases params hnum with ⟨p, hp, -, h⟩ | ⟨-, h⟩ <;> rw [h]
  · exact (nlThresholds_range p hp).1.2
  · have := polarCount_range params (phi := phi)
    omega

/-- From 87 degrees on no threshold of the table is found. -/
theorem zoneCount_of_polar (hden : phi.den ≠ 0) (h : 29 * phi.den ≤ phi.num.natAbs * 120) :
    zoneCount params phi = polarCount params phi := by
  have hnum : phi.num ≠ 0 := by
    rintro h0
    rw [h0, Int.natAbs_zero] at h
    omega
  rcases zoneCount_cases params hnum with ⟨p, hp, hfind, -⟩ | ⟨-, hcount⟩
  · have := lt_of_atOrBelow hden hp (List.find?_some (p := fun p : Nat × Nat => atOrBelow p.1 p.2 phi) hfind)
    omega
  · exact hcount

theorem two_le_zoneCount_iff (hden : phi.den ≠ 0) (htie : phi.num.natAbs * 120 = 29 * phi.den → params.nlAt87DegreesIs2 = true) :
    2 ≤ zoneCount params phi ↔ phi.num.natAbs * 120 ≤ 29 * phi.den := by
  obtain hlt | hge := lt_or_ge (phi.num.natAbs * 120) (29 * phi.den)
  · refine iff_of_true ?_ hlt.le
    by_cases hnum : phi.num = 0
    · rw [zoneCount_equator params hnum]
      split <;> decide
    · rcases zoneCount_cases params hnum with ⟨p, hp, -, h⟩ | ⟨-, h⟩ <;> rw [h]
      · have := (nlThresholds_range p hp).1
        omega
      · rw [polarCount, if_pos hlt]
  · rw [zoneCount_of_polar params hden hge, polarCount, if_neg (by omega)]
    by_cases heq : phi.num.natAbs * 120 = 29 * phi.den
    · rw [if_pos heq, if_pos (htie heq)]
      exact iff_of_true le_rfl heq.le
    · rw [if_neg heq]
      exact iff_of_false (by decide) (by omega)

/-- The count is even in the latitude (R238). -/
theorem zoneCount_neg (num : Int) (den : Nat) : zoneCount params ⟨-num, den⟩ = zoneCount params ⟨num, den⟩ := by
  simp only [zoneCount, atOrBelow, Int.natAbs_neg, neg_eq_zero]

end

/-! ## The grids of the solver (R239) -/

/-- The greatest numerator of the grid of `1 / den` turns at or below a printed threshold. -/
def gridBound (den printed : Nat) : Nat := printed * den / 36000000000000

/-- No latitude of the grid of `1 / den` turns lies within one unit of the last digit of a printed threshold. -/
def clearGrid (den : Nat) : Bool := nlThresholds.all fun p =>
  decide (gridBound den p.2 * 36000000000000 ≤ (p.2 - 1) * den) &&
    decide ((p.2 + 1) * den ≤ (gridBound den p.2 + 1) * 36000000000000)

theorem clearGrid_even : clearGrid 7864320 = true := by decide

theorem clearGrid_odd : clearGrid 7733248 = true := by decide

theorem bounds_of_clearGrid {den : Nat} (h : clearGrid den = true) {p : Nat × Nat} (hp : p ∈ nlThresholds) :
    gridBound den p.2 * 36000000000000 ≤ (p.2 - 1) * den ∧ (p.2 + 1) * den ≤ (gridBound den p.2 + 1) * 36000000000000 := by
  obtain ⟨hlow, hhigh⟩ := Bool.and_eq_true_iff.1 (List.all_eq_true.1 h p hp)
  exact ⟨of_decide_eq_true hlow, of_decide_eq_true hhigh⟩

section
variable {den : Nat} (hden : 0 < den) (hclear : clearGrid den = true)
include hden hclear

/-- On such a grid the printed digits decide a threshold. -/
theorem atOrBelow_grid {p : Nat × Nat} (hp : p ∈ nlThresholds) (k : Int) :
    atOrBelow p.1 p.2 ⟨k, den⟩ = true ↔ k.natAbs ≤ gridBound den p.2 := by
  obtain ⟨hlow, hhigh⟩ := bounds_of_clearGrid hclear hp
  have hapart : (p.2 - 1) * den < (p.2 + 1) * den := Nat.mul_lt_mul_of_pos_right (by omega) hden
  unfold atOrBelow
  dsimp only
  obtain hle | hgt := le_or_gt k.natAbs (gridBound den p.2)
  · have hbelow : k.natAbs * 36000000000000 ≤ (p.2 - 1) * den := (Nat.mul_le_mul_right _ hle).trans hlow
    rw [if_pos hbelow]
    exact iff_of_true rfl hle
  · have habove : (p.2 + 1) * den ≤ k.natAbs * 36000000000000 := hhigh.trans (Nat.mul_le_mul_right _ hgt)
    rw [if_neg (hapart.trans_le habove).not_ge, if_pos habove]
    exact iff_of_false Bool.false_ne_true hgt.not_ge

theorem le_zoneCount_grid (params : Params) {p : Nat × Nat} (hp : p ∈ nlThresholds) (k : Int) :
    p.1 ≤ zoneCount params ⟨k, den⟩ ↔ k.natAbs ≤ gridBound den p.2 := by
  by_cases hk : k = 0
  · subst hk
    have hn := (nlThresholds_range p hp).1.2
    refine iff_of_true ?_ (Nat.zero_le _)
    rw [zoneCount_equator params rfl]
    split <;> omega
  · have hmono : ∀ p ∈ nlThresholds, ∀ q ∈ nlThresholds, q.1 ≤ p.1 → atOrBelow p.1 p.2 ⟨k, den⟩ = true →
        atOrBelow q.1 q.2 ⟨k, den⟩ = true := by
      intro p hp q hq hle h
      rw [atOrBelow_grid hden hclear hp] at h
      rw [atOrBelow_grid hden hclear hq]
      exact h.trans (Nat.div_le_div_right (Nat.mul_le_mul_right den (nlThresholds_rising p hp q hq hle)))
    rcases zoneCount_cases params (phi := ⟨k, den⟩) hk with ⟨q, -, hfind, hcount⟩ | ⟨hfind, hcount⟩ <;> rw [hcount]
    · rw [find?_nlThresholds hmono hfind hp, atOrBelow_grid hden hclear hp]
    · have hlow := (nlThresholds_range p hp).1.1
      have hhigh := (polarCount_range params (phi := ⟨k, den⟩)).2
      have hnone := List.find?_eq_none.1 hfind p hp
      rw [atOrBelow_grid hden hclear hp] at hnone
      exact iff_of_false (by omega) hnone

end

theorem zoneTable_even :
    zoneTable.map (fun row => (row.1, row.2.1)) = (2, 1900544) :: (nlThresholds.map fun p => (p.1, gridBound 7864320 p.2)).reverse := by
  decide

theorem zoneTable_odd :
    zoneTable.map (fun row => (row.1, row.2.2)) = (2, 1868868) :: (nlThresholds.map fun p => (p.1, gridBound 7733248 p.2)).reverse := by
  decide

/-- A column of the integer table answers the count, where its rows are the bounds of the printed thresholds and `last` is the one at
87 degrees. -/
theorem le_zoneCount_of_column {den last : Nat} (hden : 0 < den) (hclear : clearGrid den = true) (params : Params) {k : Int}
    (hlast : k.natAbs ≤ last ↔ k.natAbs * 120 ≤ 29 * den) (htie : k.natAbs * 120 = 29 * den → params.nlAt87DegreesIs2 = true)
    {row : Nat × Nat} (hrow : row ∈ (2, last) :: (nlThresholds.map fun p => (p.1, gridBound den p.2)).reverse) :
    row.1 ≤ zoneCount params ⟨k, den⟩ ↔ k.natAbs ≤ row.2 := by
  rcases List.mem_cons.1 hrow with rfl | hrow
  · exact (two_le_zoneCount_iff params (phi := ⟨k, den⟩) hden.ne' htie).trans hlast.symm
  · obtain ⟨p, hp, rfl⟩ := List.mem_map.1 (List.mem_reverse.1 hrow)
    exact le_zoneCount_grid hden hclear params hp k

/-- Settles O53: no latitude of a grid lies within a unit of the last digit of a printed threshold (`clearGrid_even`, `clearGrid_odd`), so
the integer columns are the printed ones in units of the grid. -/
theorem cprNlFollowsTable : Obligations.CprNlFollowsTable := by
  refine ⟨fun k s htie => ⟨_, rfl, (zoneCount_range s.params _).1, fun row hrow => ?_⟩,
    fun k s => ⟨_, rfl, (zoneCount_range s.params _).1, fun row hrow => ?_⟩, fun phi s hden => ⟨_, rfl, ?_⟩⟩
  · have hmem := List.mem_map_of_mem (f := fun row : Nat × Nat × Nat => (row.1, row.2.1)) hrow
    rw [zoneTable_even] at hmem
    exact le_zoneCount_of_column (by decide) clearGrid_even s.params (by omega) (fun h => htie (by omega)) hmem
  · have hmem := List.mem_map_of_mem (f := fun row : Nat × Nat × Nat => (row.1, row.2.2)) hrow
    rw [zoneTable_odd] at hmem
    exact le_zoneCount_of_column (by decide) clearGrid_odd s.params (by omega) (fun h => by omega) hmem
  · obtain ⟨hlow, hhigh⟩ := zoneCount_range s.params phi
    refine ⟨hlow, hhigh, zoneCount_equator s.params, zoneCount_le_59 s.params, fun h => ?_, fun h => ?_, ?_⟩
    · rw [zoneCount_of_polar s.params hden (by omega), polarCount, if_neg (by omega), if_neg (by omega)]
    · rw [zoneCount_of_polar s.params hden (by omega), polarCount, if_neg (by omega), if_pos h]
    · exact congrArg (fun n => Host.Outcome.next (s.respond (.nat n))) (zoneCount_neg s.params phi.num phi.den)

end Sys2Proof.Machine
end

section
/-! The formula of the zone count `CPR.NL` (R238) in exact arithmetic: a comparison of the count with `n` is one of cosines, which the
printed thresholds and the bisection between them decide (R239). -/

namespace Sys2Proof.Machine

/-! ## The comparison by the printed digits -/

section
variable {n num den num' den' : Nat}

/-- A fraction of a straight angle is an angle of at most `π`, and a greater fraction a greater angle. -/
theorem angle_le (hden : 0 < den) (hden' : 0 < den') (h : num * den' ≤ num' * den) :
    Real.pi * num / den ≤ Real.pi * num' / den' := by
  have hden : (0 : ℝ) < den := by exact_mod_cast hden
  have hden' : (0 : ℝ) < den' := by exact_mod_cast hden'
  have h : (num : ℝ) * den' ≤ num' * den := by exact_mod_cast h
  rw [div_le_div_iff₀ hden hden', mul_assoc, mul_assoc]
  exact mul_le_mul_of_nonneg_left h Real.pi_pos.le

theorem angle_le_pi (hden : 0 < den) (h : num ≤ den) : Real.pi * num / den ≤ Real.pi := by
  have hle := angle_le (num := num) (num' := 1) hden one_pos (by omega)
  rwa [Nat.cast_one, mul_one, div_one] at hle

/-- The comparison's difference falls as the latitude grows. -/
theorem gap_le_gap (hden : 0 < den) (hden' : 0 < den') (h : num * den' ≤ num' * den) (hpi : num' ≤ den') :
    gap n num' den' ≤ gap n num den := by
  have hcos := Real.cos_le_cos_of_nonneg_of_le_pi (by positivity) (angle_le_pi hden' hpi) (angle_le hden hden' h)
  have hversine : 0 ≤ 1 - Real.cos (2 * Real.pi / n) := by linarith [Real.cos_le_one (2 * Real.pi / n)]
  have hprod := mul_le_mul_of_nonneg_right (add_le_add_right hcos 1) hversine
  unfold gap
  linarith

end

/-! ## The formula -/

/-- The table has a row for every count from 3 to 59. -/
theorem exists_nlThreshold {n : Nat} (h3 : 3 ≤ n) (h60 : n < 60) : ∃ p ∈ nlThresholds, p.1 = n := by
  have hrows : List.range' 3 57 = (nlThresholds.map Prod.fst).reverse := by decide
  have hmem : n ∈ List.range' 3 57 := List.mem_range'_1.2 ⟨h3, h60⟩
  rw [hrows, List.mem_reverse, List.mem_map] at hmem
  exact hmem

/-- The cosine whose inverse the formula of R238 takes. -/
noncomputable def zoneCosine (phi : Turns) : ℝ :=
  1 - (1 - Real.cos (2 * Real.pi / 60)) / Real.cos (2 * Real.pi * ((phi.num : ℝ) / phi.den)) ^ 2

/-- The value of the formula of R238. -/
noncomputable def zoneFormula (phi : Turns) : Nat := ⌊2 * Real.pi / Real.arccos (zoneCosine phi)⌋₊

/-- The cosine of twice the latitude's angle. -/
noncomputable def doubledCosine (phi : Turns) : ℝ := Real.cos (Real.pi * (4 * phi.num.natAbs : Nat) / phi.den)

theorem gap_eq (phi : Turns) (n : Nat) : gap n (4 * phi.num.natAbs) phi.den =
    (1 + doubledCosine phi) * (1 - Real.cos (2 * Real.pi / n)) - 2 * (1 - Real.cos (Real.pi / 30)) := rfl

theorem cos_latitude_sq (phi : Turns) :
    Real.cos (2 * Real.pi * ((phi.num : ℝ) / phi.den)) ^ 2 = (1 + doubledCosine phi) / 2 := by
  have hangle : |2 * (2 * Real.pi * ((phi.num : ℝ) / phi.den))| = Real.pi * (4 * phi.num.natAbs : Nat) / phi.den := by
    rw [abs_mul, abs_mul, abs_div, abs_of_pos (show (0 : ℝ) < 2 by norm_num), abs_of_pos Real.two_pi_pos, Nat.abs_cast]
    push_cast [Nat.cast_natAbs]
    ring
  rw [Real.cos_sq, ← Real.cos_abs, hangle]
  unfold doubledCosine
  ring

theorem zoneCosine_eq (phi : Turns) :
    zoneCosine phi = 1 - 2 * (1 - Real.cos (Real.pi / 30)) / (1 + doubledCosine phi) := by
  unfold zoneCosine
  rw [cos_latitude_sq, div_div_eq_mul_div, mul_comm _ (2 : ℝ), show 2 * Real.pi / 60 = Real.pi / 30 by ring]

section
variable {phi : Turns} (hden : phi.den ≠ 0) (hpolar : phi.num.natAbs * 120 < 29 * phi.den)
include hden hpolar

/-- The printed digits and, between them, the bisection decide the comparison. -/
theorem atOrBelow_iff_gap {p : Nat × Nat} (hp : p ∈ nlThresholds) :
    atOrBelow p.1 p.2 phi = true ↔ 0 ≤ gap p.1 (4 * phi.num.natAbs) phi.den := by
  obtain ⟨⟨hn, -⟩, -, hprinted⟩ := nlThresholds_range p hp
  obtain ⟨hbelow, habove⟩ := gap_neighbours hp
  have hpos := Nat.pos_of_ne_zero hden
  unfold atOrBelow
  dsimp only
  split_ifs with hlow hhigh
  · exact iff_of_true rfl (hbelow.trans (gap_le_gap hpos (by decide) (by linarith) (by omega)))
  · exact iff_of_false not_false
      ((gap_le_gap (by decide) hpos (by linarith) (by omega)).trans_lt habove).not_ge
  · rw [cosAtLeast_iff p.1 (4 * phi.num.natAbs) phi.den (by omega) hpos (by omega)]
    exact sub_nonneg.symm

/-- Within 87 degrees, `29 / 30` of a straight angle when doubled. -/
theorem neg_cos_lt_doubledCosine : -Real.cos (Real.pi / 30) < doubledCosine phi := by
  have hpi := Real.pi_pos
  have hpos : (0 : ℝ) < phi.den := by exact_mod_cast Nat.pos_of_ne_zero hden
  have hlt : (phi.num.natAbs : ℝ) * 120 < 29 * phi.den := by exact_mod_cast hpolar
  rw [← Real.cos_pi_sub]
  refine Real.cos_lt_cos_of_nonneg_of_le_pi (by positivity) (by linarith) ?_
  rw [div_lt_iff₀ hpos]
  push_cast
  nlinarith

variable (hnum : phi.num ≠ 0)
include hnum

theorem doubledCosine_lt_one : doubledCosine phi < 1 := by
  have hpi := Real.pi_pos
  have hpos := Nat.pos_of_ne_zero hden
  have habs := Int.natAbs_pos.2 hnum
  rw [← Real.cos_zero]
  exact Real.cos_lt_cos_of_nonneg_of_le_pi le_rfl (angle_le_pi hpos (by omega)) (by positivity)

/-- The inverse cosine is defined, and its value is more than a sixtieth of a turn. -/
theorem zoneCosine_range : -1 < zoneCosine phi ∧ zoneCosine phi < Real.cos (Real.pi / 30) := by
  have hlow := neg_cos_lt_doubledCosine hden hpolar
  have hhigh := doubledCosine_lt_one hden hpolar hnum
  have hcos : Real.cos (Real.pi / 30) < 1 := by
    rw [← Real.cos_zero]
    exact Real.cos_lt_cos_of_nonneg_of_le_pi le_rfl (by linarith [Real.pi_pos]) (by linarith [Real.pi_pos])
  have hpos : 0 < 1 + doubledCosine phi := by linarith
  rw [zoneCosine_eq]
  constructor
  · have : 2 * (1 - Real.cos (Real.pi / 30)) / (1 + doubledCosine phi) < 2 := by
      rw [div_lt_iff₀ hpos]
      linarith
    linarith
  · have : 1 - Real.cos (Real.pi / 30) < 2 * (1 - Real.cos (Real.pi / 30)) / (1 + doubledCosine phi) := by
      rw [lt_div_iff₀ hpos]
      nlinarith
    linarith

theorem le_zoneFormula_iff_cos_le {n : Nat} (hn : 2 ≤ n) : n ≤ zoneFormula phi ↔ Real.cos (2 * Real.pi / n) ≤ zoneCosine phi := by
  obtain ⟨hlow, hhigh⟩ := zoneCosine_range hden hpolar hnum
  have hlt : zoneCosine phi < 1 := hhigh.trans_le (Real.cos_le_one _)
  have hpi := Real.pi_pos
  have hn' : (2 : ℝ) ≤ n := by exact_mod_cast hn
  have hangle : 2 * Real.pi / n ≤ Real.pi := by
    rw [div_le_iff₀ (by linarith)]
    nlinarith
  calc n ≤ zoneFormula phi
    _ ↔ n * Real.arccos (zoneCosine phi) ≤ 2 * Real.pi := by
      rw [zoneFormula, Nat.le_floor_iff' (by omega), le_div_iff₀ (Real.arccos_pos.2 hlt)]
    _ ↔ Real.arccos (zoneCosine phi) ≤ Real.arccos (Real.cos (2 * Real.pi / n)) := by
      rw [Real.arccos_cos (by positivity) hangle, le_div_iff₀ (by linarith), mul_comm]
    _ ↔ Real.cos (2 * Real.pi / n) ≤ zoneCosine phi :=
      Real.strictAntiOn_arccos.le_iff_ge ⟨hlow.le, hlt.le⟩ ⟨Real.neg_one_le_cos _, Real.cos_le_one _⟩

theorem le_zoneFormula_iff {n : Nat} (hn : 2 ≤ n) : n ≤ zoneFormula phi ↔ 0 ≤ gap n (4 * phi.num.natAbs) phi.den := by
  have hpos : 0 < 1 + doubledCosine phi := by
    linarith [neg_cos_lt_doubledCosine hden hpolar, Real.cos_le_one (Real.pi / 30)]
  rw [le_zoneFormula_iff_cos_le hden hpolar hnum hn, zoneCosine_eq, gap_eq, sub_nonneg, le_sub_comm, div_le_iff₀ hpos, mul_comm (1 + _)]

theorem zoneFormula_range : 2 ≤ zoneFormula phi ∧ zoneFormula phi < 60 := by
  constructor
  · rw [le_zoneFormula_iff_cos_le hden hpolar hnum le_rfl, Nat.cast_two, mul_div_cancel_left₀ _ two_ne_zero, Real.cos_pi]
    exact (zoneCosine_range hden hpolar hnum).1.le
  · rw [← not_le, le_zoneFormula_iff_cos_le hden hpolar hnum (by decide), Nat.cast_ofNat, show 2 * Real.pi / 60 = Real.pi / 30 by ring]
    exact (zoneCosine_range hden hpolar hnum).2.not_ge

/-- The rows of the table are those of all counts from 3 to 59. -/
theorem zoneCount_eq_zoneFormula (params : Params) : zoneCount params phi = zoneFormula phi := by
  obtain ⟨hlow, hhigh⟩ := zoneFormula_range hden hpolar hnum
  have hrow : ∀ p ∈ nlThresholds, atOrBelow p.1 p.2 phi = true ↔ p.1 ≤ zoneFormula phi := fun p hp => by
    have hn := (nlThresholds_range p hp).1.1
    rw [atOrBelow_iff_gap hden hpolar hp, le_zoneFormula_iff hden hpolar hnum (by omega)]
  obtain htwo | hthree := hlow.eq_or_lt
  · rcases zoneCount_cases params hnum with ⟨p, hp, hfind, -⟩ | ⟨-, hcount⟩
    · have hn := (nlThresholds_range p hp).1.1
      have hle := (hrow p hp).1 (List.find?_some (p := fun p : Nat × Nat => atOrBelow p.1 p.2 phi) hfind)
      omega
    · rw [hcount, polarCount, if_pos hpolar, htwo]
  · obtain ⟨q, hq, hqn⟩ := exists_nlThreshold hthree hhigh
    have hpass := (hrow q hq).2 hqn.le
    rcases zoneCount_cases params hnum with ⟨p, hp, hfind, hcount⟩ | ⟨hfind, -⟩
    · have hmono : ∀ p ∈ nlThresholds, ∀ q ∈ nlThresholds, q.1 ≤ p.1 → atOrBelow p.1 p.2 phi = true →
          atOrBelow q.1 q.2 phi = true := fun p hp q hq hle h => (hrow q hq).2 (hle.trans ((hrow p hp).1 h))
      have hle := (find?_nlThresholds hmono hfind hq).2 hpass
      have hge := (hrow p hp).1 (List.find?_some (p := fun p : Nat × Nat => atOrBelow p.1 p.2 phi) hfind)
      omega
    · exact absurd hpass (List.find?_eq_none.1 hfind q hq)

end

/-- Settles O54 (`zoneCount_eq_zoneFormula`). -/
theorem cprNlIsTheFormula : Obligations.CprNlIsTheFormula := by
  intro phi s hden hnum hpolar
  exact congrArg (fun n => Host.Outcome.next (s.respond (.nat n))) (zoneCount_eq_zoneFormula hden hpolar hnum s.params)

end Sys2Proof.Machine
end

section
/-! The CPR solver (49_cpr.md R230 to R236): its three outcomes, and its steps in the numbers of the pseudocode. -/

namespace Sys2Proof.Machine

/-! ## The outcomes -/

section
variable {params : Params} {x0 y0 x1 y1 : BitVec 17} {parity : BitVec 1}

theorem cprPosition_of_ne (h : zoneCount params (candidates params.roundTies 60 y0 y1).even ≠
    zoneCount params (candidates params.roundTies 60 y0 y1).odd) : cprPosition params x0 y0 x1 y1 parity = none := if_pos h

variable {phi lam : Turns}
  (hcounts : zoneCount params (candidates params.roundTies 60 y0 y1).even = zoneCount params (candidates params.roundTies 60 y0 y1).odd)
  (hphi : (candidates params.roundTies 60 y0 y1).select parity = phi)
  (hlam : (longitudes params.roundTies (zoneCount params (candidates params.roundTies 60 y0 y1).even) x0 x1).select parity = lam)
include hcounts hphi

theorem cprPosition_of_polar (hpolar : 2 ^ 30 ≤ toT32 params.roundTies phi ∨ toT32 params.roundTies phi ≤ -2 ^ 30) :
    cprPosition params x0 y0 x1 y1 parity = none := by
  subst hphi
  exact (if_neg (not_not.2 hcounts)).trans (if_pos hpolar)

include hlam

theorem cprPosition_of_lt (hlow : -2 ^ 30 < toT32 params.roundTies phi) (hhigh : toT32 params.roundTies phi < 2 ^ 30) :
    cprPosition params x0 y0 x1 y1 parity =
      some ⟨BitVec.ofInt 32 (toT32 params.roundTies lam), BitVec.ofInt 32 (toT32 params.roundTies phi)⟩ := by
  subst hphi hlam
  exact (if_neg (not_not.2 hcounts)).trans (if_neg (not_or.2 ⟨hhigh.not_ge, hlow.not_ge⟩))

end

/-! ## The steps of the pseudocode -/

section
variable (ties : RoundTies)

/-- The zone index of the latitudes, of 60 even and 59 odd zones (R231). -/
theorem zoneIndex_latitude (y0 y1 : BitVec 17) :
    zoneIndex ties 60 y0 y1 = roundQuotient ties (59 * (y0.toNat : Int) - 60 * y1.toNat) 131072 :=
  congrArg (roundQuotient ties · 131072) (by push_cast; ring)

theorem candidates_latitude (y0 y1 : BitVec 17) {zphi : Int}
    (hz : roundQuotient ties (59 * (y0.toNat : Int) - 60 * y1.toNat) 131072 = zphi) :
    candidates ties 60 y0 y1 = ⟨Turns.norm ((if zphi < 0 then zphi + 60 else zphi) * 131072 + y0.toNat) 7864320,
      Turns.norm ((if zphi < 0 then zphi + 59 else zphi) * 131072 + y1.toNat) 7733248⟩ := by
  subst hz
  rw [← zoneIndex_latitude]
  rfl

theorem longitudes_even (nl : Nat) (x0 x1 : BitVec 17) : (longitudes ties nl x0 x1).even =
    if nl = 1 then Turns.norm x0.toNat 131072
    else Turns.norm (zoneFrom (zoneIndex ties nl x0 x1) nl * 131072 + x0.toNat) (nl * 131072) := by
  unfold longitudes
  split <;> rfl

theorem longitudes_odd (nl : Nat) (x0 x1 : BitVec 17) : (longitudes ties nl x0 x1).odd =
    if nl = 1 then Turns.norm x1.toNat 131072
    else Turns.norm (zoneFrom (zoneIndex ties nl x0 x1) ((nl : Int) - 1) * 131072 + x1.toNat) ((nl - 1) * 131072) := by
  unfold longitudes
  split <;> rfl

/-- The selected longitude in T32 units (R236). -/
theorem toT32_longitudes {nl : Nat} (hnl : 1 ≤ nl ∧ nl ≤ 60) (x0 x1 : BitVec 17) (parity : BitVec 1) :
    -2 ^ 31 ≤ toT32 ties ((longitudes ties nl x0 x1).select parity) ∧
      toT32 ties ((longitudes ties nl x0 x1).select parity) ≤ 2 ^ 31 - 277 := by
  obtain ⟨heven, hodd⟩ := normalised_longitudes ties x0 x1 hnl.1
  unfold Candidates.select
  split
  · exact (heven.toT32_range hnl ties ties).2
  · by_cases hone : nl = 1
    · rw [if_pos hone] at hodd
      exact (Normalised.toT32_range (m := 1) hodd (by decide) ties ties).2
    · rw [if_neg hone] at hodd
      exact (hodd.toT32_range (by omega) ties ties).2

end

theorem toInt_ofInt_32 {v : Int} (hlow : -2 ^ 31 ≤ v) (hhigh : v < 2 ^ 31) : (BitVec.ofInt 32 v).toInt = v := by
  rw [BitVec.toInt_ofInt]
  exact Int.bmod_eq_of_le (by omega) (by omega)

/-- Settles O55: the pseudocode's latitudes and longitudes are the model's candidates (`candidates_latitude`, `longitudes_even`,
`longitudes_odd`), and the T32 values fit their words. -/
theorem cprDecodeResult : Obligations.CprDecodeResult := by
  intro x0 y0 x1 y1 parity s round zphi zphi0 zphi1 phi0 phi1 nl
  have hphi : candidates s.params.roundTies 60 y0 y1 = ⟨phi0, phi1⟩ := candidates_latitude _ y0 y1 rfl
  have hnl : zoneCount s.params (candidates s.params.roundTies 60 y0 y1).even = nl := by rw [hphi]
  have hnl' : zoneCount s.params (candidates s.params.roundTies 60 y0 y1).odd = zoneCount s.params phi1 := by rw [hphi]
  refine ⟨fun hne => ?_, fun hcounts => ?_⟩
  · exact answerOption_of_eq_none _ (cprPosition_of_ne (by rwa [hnl, hnl']))
  · intro zlam zlam0 zlam1 lam0 lam1 phi lam lat lon
    have hselect : (candidates s.params.roundTies 60 y0 y1).select parity = phi := by
      rw [hphi]
      rfl
    have hlam : (longitudes s.params.roundTies nl x0 x1).select parity = lam := by
      rw [Candidates.select, longitudes_even, longitudes_odd]
      rfl
    have hlon := toT32_longitudes s.params.roundTies (nl := nl) (zoneCount_range s.params phi0) x0 x1 parity
    rw [hlam] at hlon
    rw [← hnl] at hlam
    rw [← hnl, ← hnl'] at hcounts
    refine ⟨fun hpolar => ?_, fun hlow hhigh => ?_⟩
    · exact answerOption_of_eq_none _ (cprPosition_of_polar hcounts hselect hpolar)
    · have hlat : -2 ^ 31 ≤ lat ∧ lat < 2 ^ 31 := by omega
      exact ⟨_, answerOption_of_eq_some _ (cprPosition_of_lt hcounts hselect hlam hlow hhigh), toInt_ofInt_32 hlat.1 hlat.2,
        toInt_ofInt_32 hlon.1 (hlon.2.trans_lt (by decide)), hlon⟩

end Sys2Proof.Machine
end
